-- ==== Sys2Proof/Word.lean ====
section
/-! DEFINITION. The widths of the engine's values (00_scope.md R8: u8, u16, u32, u64, u128; all unsigned). -/

namespace Sys2Proof

/-- u8: a byte of a buffer. -/
abbrev Byte := BitVec 8
/-- u16: an offset, a port, a length field. -/
abbrev Half := BitVec 16
/-- u32: a command word, an operand word, `RES`, `ACC`. -/
abbrev Word := BitVec 32
/-- u64: a link-layer address, a context prefix, an interface identifier. -/
abbrev DWord := BitVec 64
/-- u128: an IPv6 address; address byte 0 is bits 127..120 (00_scope.md R9). -/
abbrev Addr := BitVec 128

end Sys2Proof
end

