-- ==== Sys2Proof/Syntax.lean ====
section
/-! DEFINITION. The instructions: one constructor per row of spec/opcode_table.json, that is the 39 commands of
30_encoding.md R104 and the 8 wire-dispatch rows. Register numbers, selectors and field ids are names here; their
numbers are in Decode.lean. -/

namespace Sys2Proof

/-- The buffer select `buf` (30_encoding.md R101): 0 FB, 1 PB. -/
inductive Buf where
  | fb | pb
  deriving DecidableEq, Repr

/-- The address select `sel` (43_ipv6.md R234): 0 source, 1 destination. -/
inductive AddrSel where
  | src | dst
  deriving DecidableEq, Repr

/-- The MAC registers, in the order of their ids 0 to 15 (10_state.md R24). -/
inductive MacReg where
  | ftype | sec | pend | ar | panc | dmode | fver | smode | seq | dpan | span
  | daddrHi | daddrLo | saddrHi | saddrLo | hlen
  deriving DecidableEq, Repr

/-- The IPv6 header registers and the cursor, ids 0 to 6 and 8 to 15 (10_state.md R25). -/
inductive IpReg where
  | ver | tc | fl | plen | nh | hlim | cur
  | src0 | src1 | src2 | src3 | dst0 | dst1 | dst2 | dst3
  deriving DecidableEq, Repr

/-- The kinds of a chain node, numbered 0 to 4 (10_state.md R28). -/
inductive Kind where
  | hbh | tcp | udp | icmp | raw
  deriving DecidableEq, Repr

/-- The fields of a chain node, in the order of their ids 0 to 20 (10_state.md R28, 44_chain.md R277). -/
inductive NodeField where
  | kind | nh | hlen | sport | dport | seq | ack | doff | flags | window | cksum
  | urg | mss | length | itype | code | ident | seqno | ckok | paylen | offset
  deriving DecidableEq, Repr

/-- The word select `w` of `HC.RDCTX` (46_hc06_decompress.md R321): 0 valid, 1 high word, 2 low word. -/
inductive CtxWord where
  | valid | high | low
  deriving DecidableEq, Repr

/-- The variants the next-header registry knows (30_encoding.md R120). -/
inductive Variant where
  | hbh | tcp | udp | icmp
  deriving DecidableEq, Repr

/-- The IEEE 802.15.4 frame-control field, most significant field first (30_encoding.md R111). -/
structure Fcf where
  smode : BitVec 2
  fver : BitVec 2
  dmode : BitVec 2
  rsv : BitVec 3
  panc : BitVec 1
  ar : BitVec 1
  pend : BitVec 1
  sec : BitVec 1
  ftype : BitVec 3
  deriving DecidableEq, Repr

/-- The LOWPAN_IPHC base bytes after their dispatch bits `011`, most significant field first (30_encoding.md R130). -/
structure Iphc where
  tf : BitVec 2
  nh : Bool
  hlim : BitVec 2
  cid : Bool
  sac : Bool
  sam : BitVec 2
  m : Bool
  dac : Bool
  dam : BitVec 2
  deriving DecidableEq, Repr

/-- The instructions. `off`, `n`, `idx` are the immediate; operand words and data come with the transaction
(10_state.md R50). -/
inductive Instr where
  | bfNew (buf : Buf)
  | bfSetbytes (buf : Buf) (n : Half)
  | bfLen (buf : Buf)
  | bfGetb (buf : Buf) (off : Half)
  | bfGeth (buf : Buf) (off : Half)
  | bfGetw (buf : Buf) (off : Half)
  | bfSetb (buf : Buf) (off : Half)
  | bfSeth (buf : Buf) (off : Half)
  | bfSetw (buf : Buf) (off : Half)
  | atSet (id : Fin 8)
  | atGet (id : Fin 8)
  | macParse
  | macRd (reg : MacReg)
  | macWr (reg : MacReg)
  | ckLoad
  | ckPseudo (nh : Byte)
  | ckRun (buf : Buf) (off : Half)
  | ckFinal
  | ipNew
  | ipParse
  | ipSerialize
  | ipRd (reg : IpReg)
  | ipWr (reg : IpReg)
  | ipIsll (sel : AddrSel)
  | ipIsmc (sel : AddrSel)
  | chParse
  | chClear
  | chPush (kind : Kind)
  | chRd (field : NodeField) (idx : Half)
  | chRdp (idx : Half)
  | chLen
  | ndWr (field : NodeField)
  | ndPayload (n : Half)
  | hcSetctx (v : Bool) (id : Byte)
  | hcRdctx (w : CtxWord) (id : Byte)
  | hcDecomp (off : Half)
  | hcComp (u : Bool)
  | sysReset
  | sysCfg
  | wireMacFcf (f : Fcf)
  | wireNhHbh
  | wireNhTcp
  | wireNhUdp
  | wireNhIcmpv6
  | wireIphc (h : Iphc)
  | wireNhcUdp (c : Bool) (p : BitVec 2)
  | wireTcpoptMss (mss : Half)
  deriving DecidableEq, Repr

end Sys2Proof
end

