-- ==== Sys2Proof/WellFormed.lean ====
section
/-! DEFINITION. What an instruction term must meet beyond its types, and what the interface asks of the data that
comes with it. -/

namespace Sys2Proof

/-- The node fields `ND.WR` can stage, ids 1 to 17 (44_chain.md R277): not `KIND`, `CKOK`, `PAYLEN`, `OFFSET`. -/
def NodeField.stageable : NodeField → Bool
  | .kind | .ckok | .paylen | .offset => false
  | .nh | .hlen | .sport | .dport | .seq | .ack | .doff | .flags | .window | .cksum
  | .urg | .mss | .length | .itype | .code | .ident | .seqno => true

/-- Well-formed: the selector is in the legal range of 30_encoding.md R105. The other ranges are in the types. -/
def Instr.wf : Instr → Bool
  | .ndWr field => field.stageable
  | .bfNew _ | .bfSetbytes _ _ | .bfLen _ | .bfGetb _ _ | .bfGeth _ _ | .bfGetw _ _
  | .bfSetb _ _ | .bfSeth _ _ | .bfSetw _ _ | .atSet _ | .atGet _
  | .macParse | .macRd _ | .macWr _ | .ckLoad | .ckPseudo _ | .ckRun _ _ | .ckFinal
  | .ipNew | .ipParse | .ipSerialize | .ipRd _ | .ipWr _ | .ipIsll _ | .ipIsmc _
  | .chParse | .chClear | .chPush _ | .chRd _ _ | .chRdp _ | .chLen | .ndPayload _
  | .hcSetctx _ _ | .hcRdctx _ _ | .hcDecomp _ | .hcComp _ | .sysReset | .sysCfg
  | .wireMacFcf _ | .wireNhHbh | .wireNhTcp | .wireNhUdp | .wireNhIcmpv6
  | .wireIphc _ | .wireNhcUdp _ _ | .wireTcpoptMss _ => true

/-- A command, as against a wire unit that only a parser meets (30_encoding.md Part A and Part B). -/
def Instr.isCommand : Instr → Bool
  | .wireMacFcf _ | .wireNhHbh | .wireNhTcp | .wireNhUdp | .wireNhIcmpv6
  | .wireIphc _ | .wireNhcUdp _ _ | .wireTcpoptMss _ => false
  | .bfNew _ | .bfSetbytes _ _ | .bfLen _ | .bfGetb _ _ | .bfGeth _ _ | .bfGetw _ _
  | .bfSetb _ _ | .bfSeth _ _ | .bfSetw _ _ | .atSet _ | .atGet _
  | .macParse | .macRd _ | .macWr _ | .ckLoad | .ckPseudo _ | .ckRun _ _ | .ckFinal
  | .ipNew | .ipParse | .ipSerialize | .ipRd _ | .ipWr _ | .ipIsll _ | .ipIsmc _
  | .chParse | .chClear | .chPush _ | .chRd _ _ | .chRdp _ | .chLen | .ndWr _ | .ndPayload _
  | .hcSetctx _ _ | .hcRdctx _ _ | .hcDecomp _ | .hcComp _ | .sysReset | .sysCfg => true

/-- How many data bytes a transaction of this command carries (10_state.md R50): `n` for `BF.SETBYTES` and
`ND.PAYLOAD`, none for every other command. -/
def Instr.dataLen : Instr → Nat
  | .bfSetbytes _ n => n.toNat
  | .ndPayload n => n.toNat
  | .bfNew _ | .bfLen _ | .bfGetb _ _ | .bfGeth _ _ | .bfGetw _ _
  | .bfSetb _ _ | .bfSeth _ _ | .bfSetw _ _ | .atSet _ | .atGet _
  | .macParse | .macRd _ | .macWr _ | .ckLoad | .ckPseudo _ | .ckRun _ _ | .ckFinal
  | .ipNew | .ipParse | .ipSerialize | .ipRd _ | .ipWr _ | .ipIsll _ | .ipIsmc _
  | .chParse | .chClear | .chPush _ | .chRd _ _ | .chRdp _ | .chLen | .ndWr _
  | .hcSetctx _ _ | .hcRdctx _ _ | .hcDecomp _ | .hcComp _ | .sysReset | .sysCfg
  | .wireMacFcf _ | .wireNhHbh | .wireNhTcp | .wireNhUdp | .wireNhIcmpv6
  | .wireIphc _ | .wireNhcUdp _ _ | .wireTcpoptMss _ => 0

end Sys2Proof
end

