-- ==== Sys2Proof/Decode.lean ====
section
/-! DEFINITION. Decoding and encoding: command words (30_encoding.md R100 to R105), the wire units
(R111, R120, R124, R130, R139), and the id tables of registers, kinds and fields. -/

namespace Sys2Proof

/-! ## Ids of selectors, registers, kinds and fields -/

/-- `buf` from the selector byte (30_encoding.md R101): only bit 0 is a field. -/
def Buf.ofId (a : Byte) : Option Buf := if a = 0 then some .fb else if a = 1 then some .pb else none
def Buf.id : Buf → Byte
  | .fb => 0
  | .pb => 1

/-- `sel` from the selector byte (43_ipv6.md R234). -/
def AddrSel.ofId (a : Byte) : Option AddrSel := if a = 0 then some .src else if a = 1 then some .dst else none
def AddrSel.id : AddrSel → Byte
  | .src => 0
  | .dst => 1

/-- A one-bit selector (`V`, `u`) from the selector byte. -/
def boolOfId (a : Byte) : Option Bool := if a = 0 then some false else if a = 1 then some true else none
def boolId (b : Bool) : Byte := if b then 1 else 0

/-- The MAC registers in id order (10_state.md R24). -/
def MacReg.all : List MacReg :=
  [.ftype, .sec, .pend, .ar, .panc, .dmode, .fver, .smode, .seq, .dpan, .span,
   .daddrHi, .daddrLo, .saddrHi, .saddrLo, .hlen]
def MacReg.ofId (a : Byte) : Option MacReg := MacReg.all[a.toNat]?
def MacReg.id : MacReg → Byte
  | .ftype => 0 | .sec => 1 | .pend => 2 | .ar => 3 | .panc => 4 | .dmode => 5 | .fver => 6 | .smode => 7
  | .seq => 8 | .dpan => 9 | .span => 10 | .daddrHi => 11 | .daddrLo => 12 | .saddrHi => 13 | .saddrLo => 14
  | .hlen => 15

/-- The header registers in id order; id 7 is reserved (10_state.md R25). -/
def IpReg.all : List (Option IpReg) :=
  [some .ver, some .tc, some .fl, some .plen, some .nh, some .hlim, some .cur, none,
   some .src0, some .src1, some .src2, some .src3, some .dst0, some .dst1, some .dst2, some .dst3]
def IpReg.ofId (a : Byte) : Option IpReg := (IpReg.all[a.toNat]?).join
def IpReg.id : IpReg → Byte
  | .ver => 0 | .tc => 1 | .fl => 2 | .plen => 3 | .nh => 4 | .hlim => 5 | .cur => 6
  | .src0 => 8 | .src1 => 9 | .src2 => 10 | .src3 => 11 | .dst0 => 12 | .dst1 => 13 | .dst2 => 14 | .dst3 => 15

/-- The kinds in number order (10_state.md R28). -/
def Kind.all : List Kind := [.hbh, .tcp, .udp, .icmp, .raw]
def Kind.ofId (a : Byte) : Option Kind := Kind.all[a.toNat]?
def Kind.id : Kind → Byte
  | .hbh => 0 | .tcp => 1 | .udp => 2 | .icmp => 3 | .raw => 4

/-- The node fields in id order (44_chain.md R277). -/
def NodeField.all : List NodeField :=
  [.kind, .nh, .hlen, .sport, .dport, .seq, .ack, .doff, .flags, .window, .cksum,
   .urg, .mss, .length, .itype, .code, .ident, .seqno, .ckok, .paylen, .offset]
def NodeField.ofId (a : Byte) : Option NodeField := NodeField.all[a.toNat]?
def NodeField.id : NodeField → Byte
  | .kind => 0 | .nh => 1 | .hlen => 2 | .sport => 3 | .dport => 4 | .seq => 5 | .ack => 6 | .doff => 7
  | .flags => 8 | .window => 9 | .cksum => 10 | .urg => 11 | .mss => 12 | .length => 13 | .itype => 14
  | .code => 15 | .ident => 16 | .seqno => 17 | .ckok => 18 | .paylen => 19 | .offset => 20

/-- The word selects of `HC.RDCTX` (46_hc06_decompress.md R321). -/
def CtxWord.ofId (a : Byte) : Option CtxWord :=
  if a = 0 then some .valid else if a = 1 then some .high else if a = 2 then some .low else none
def CtxWord.id : CtxWord → Byte
  | .valid => 0 | .high => 1 | .low => 2

/-! ## The command word (30_encoding.md R100) -/

/-- `op = cmd[31:24]`. -/
def cmdOp (w : Word) : Byte := w.extractLsb' 24 8
/-- `a = cmd[23:16]`. -/
def cmdA (w : Word) : Byte := w.extractLsb' 16 8
/-- `imm = cmd[15:0]`. -/
def cmdImm (w : Word) : Half := w.extractLsb' 0 16
/-- A word from its three fields. -/
def cmdWord (op : Nat) (a : Byte) (imm : Half) : Word := BitVec.ofNat 8 op ++ a ++ imm

/-- A command's reader: from `a` and `imm` to the instruction, `none` where an unused bit is not 0 or the selector
is out of range (30_encoding.md R101, R105). -/
abbrev Reader := Byte → Half → Option Instr

/-- Format Z: `a` and `imm` must be 0. -/
def fmtZ (i : Instr) : Reader := fun a imm => if a = 0 ∧ imm = 0 then some i else none
/-- Format B: `a[0] = buf`, the rest 0. -/
def fmtB (f : Buf → Instr) : Reader := fun a imm => if imm = 0 then (Buf.ofId a).map f else none
/-- Format BO: `a[0] = buf`, `imm` an offset or a count. -/
def fmtBO (f : Buf → Half → Instr) : Reader := fun a imm => (Buf.ofId a).map (fun b => f b imm)
/-- Format S over a selector type: `imm` must be 0. -/
def fmtS {α : Type} (sel : Byte → Option α) (f : α → Instr) : Reader :=
  fun a imm => if imm = 0 then (sel a).map f else none
/-- Format SI with a 16-bit index. -/
def fmtSI {α : Type} (sel : Byte → Option α) (f : α → Half → Instr) : Reader := fun a imm => (sel a).map (fun x => f x imm)
/-- Format SI with an 8-bit id: `imm[15:8]` must be 0. -/
def fmtSId {α : Type} (sel : Byte → Option α) (f : α → Byte → Instr) : Reader :=
  fun a imm => if imm.extractLsb' 8 8 = 0 then (sel a).map (fun x => f x (imm.extractLsb' 0 8)) else none
/-- Format I: `a` must be 0, `imm` a value. -/
def fmtI (f : Half → Instr) : Reader := fun a imm => if a = 0 then some (f imm) else none

/-- The attribute ids 0 to 7 (30_encoding.md R105). -/
def attrOfId (a : Byte) : Option (Fin 8) := if h : a.toNat < 8 then some ⟨a.toNat, h⟩ else none
/-- The field ids `ND.WR` takes, 1 to 17 (30_encoding.md R105). -/
def stageOfId (a : Byte) : Option NodeField := (NodeField.ofId a).filter NodeField.stageable
/-- `nh` of `CK.PSEUDO`: `imm[7:0]`, `imm[15:8] = 0`, `a = 0` (30_encoding.md R101). -/
def fmtNh (f : Byte → Instr) : Reader :=
  fun a imm => if a = 0 ∧ imm.extractLsb' 8 8 = 0 then some (f (imm.extractLsb' 0 8)) else none

/-- The opcode map (30_encoding.md R104). -/
def commandRows : List (Nat × Reader) :=
  [(0x01, fmtB .bfNew), (0x02, fmtBO .bfSetbytes), (0x03, fmtB .bfLen),
   (0x04, fmtBO .bfGetb), (0x05, fmtBO .bfGeth), (0x06, fmtBO .bfGetw),
   (0x07, fmtBO .bfSetb), (0x08, fmtBO .bfSeth), (0x09, fmtBO .bfSetw),
   (0x0A, fmtS attrOfId .atSet), (0x0B, fmtS attrOfId .atGet)]
  ++ [(0x10, fmtZ .macParse), (0x11, fmtS MacReg.ofId .macRd), (0x12, fmtS MacReg.ofId .macWr)]
  ++ [(0x20, fmtZ .ckLoad), (0x21, fmtNh .ckPseudo), (0x22, fmtBO .ckRun), (0x23, fmtZ .ckFinal)]
  ++ [(0x30, fmtZ .ipNew), (0x31, fmtZ .ipParse), (0x32, fmtZ .ipSerialize),
      (0x33, fmtS IpReg.ofId .ipRd), (0x34, fmtS IpReg.ofId .ipWr),
      (0x35, fmtS AddrSel.ofId .ipIsll), (0x36, fmtS AddrSel.ofId .ipIsmc)]
  ++ [(0x40, fmtZ .chParse), (0x41, fmtZ .chClear), (0x42, fmtS Kind.ofId .chPush),
      (0x43, fmtSI NodeField.ofId .chRd), (0x44, fmtI .chRdp), (0x45, fmtZ .chLen),
      (0x46, fmtS stageOfId .ndWr), (0x47, fmtI .ndPayload)]
  ++ [(0x50, fmtSId boolOfId .hcSetctx), (0x51, fmtSId CtxWord.ofId .hcRdctx),
      (0x52, fmtI .hcDecomp), (0x53, fmtS boolOfId .hcComp)]
  ++ [(0x70, fmtZ .sysReset), (0x71, fmtZ .sysCfg)]

/-- The command a word encodes; `none` is an illegal word, which raises `IllegalCommand` (30_encoding.md R105). -/
def decodeCommand (w : Word) : Option Instr :=
  (commandRows.lookup (cmdOp w).toNat).bind (fun f => f (cmdA w) (cmdImm w))

/-! ## The wire units -/

/-- The frame-control field as the number `FB[0] + 256*FB[1]` (30_encoding.md R111). -/
def decodeFcf (w : BitVec 16) : Fcf where
  smode := w.extractLsb' 14 2
  fver := w.extractLsb' 12 2
  dmode := w.extractLsb' 10 2
  rsv := w.extractLsb' 7 3
  panc := w.extractLsb' 6 1
  ar := w.extractLsb' 5 1
  pend := w.extractLsb' 4 1
  sec := w.extractLsb' 3 1
  ftype := w.extractLsb' 0 3

def encodeFcf (f : Fcf) : BitVec 16 :=
  f.smode ++ f.fver ++ f.dmode ++ f.rsv ++ f.panc ++ f.ar ++ f.pend ++ f.sec ++ f.ftype

/-- The IPHC base bytes as the number `b0 * 256 + b1`; `none` unless `b0[7:5] = 0b011` (30_encoding.md R130). -/
def decodeIphc (w : BitVec 16) : Option Iphc :=
  if w.extractLsb' 13 3 = 0b011#3 then
    some { tf := w.extractLsb' 11 2, nh := w.getLsbD 10, hlim := w.extractLsb' 8 2, cid := w.getLsbD 7,
           sac := w.getLsbD 6, sam := w.extractLsb' 4 2, m := w.getLsbD 3, dac := w.getLsbD 2,
           dam := w.extractLsb' 0 2 }
  else none

def encodeIphc (h : Iphc) : BitVec 16 :=
  0b011#3 ++ h.tf ++ BitVec.ofBool h.nh ++ h.hlim ++ BitVec.ofBool h.cid ++ BitVec.ofBool h.sac ++ h.sam
    ++ BitVec.ofBool h.m ++ BitVec.ofBool h.dac ++ h.dam

/-- The variant a next-header byte selects (30_encoding.md R120); every other value is unrecognized. -/
def variantOf (b : Byte) : Option Variant :=
  if b = 0 then some .hbh else if b = 6 then some .tcp else if b = 17 then some .udp
  else if b = 58 then some .icmp else none

/-- The next-header byte of a variant (30_encoding.md R120). -/
def Variant.disp : Variant → Byte
  | .hbh => 0 | .tcp => 6 | .udp => 17 | .icmp => 58

/-- The instruction a variant's row is. -/
def Variant.instr : Variant → Instr
  | .hbh => .wireNhHbh | .tcp => .wireNhTcp | .udp => .wireNhUdp | .icmp => .wireNhIcmpv6

/-- The UDP NHC byte `0b11110CPP`: its `C` and `P` (30_encoding.md R139). -/
def decodeNhcUdp (b : Byte) : Option (Bool × BitVec 2) :=
  if b.extractLsb' 3 5 = 0b11110#5 then some (b.getLsbD 2, b.extractLsb' 0 2) else none

def encodeNhcUdp (c : Bool) (p : BitVec 2) : Byte := 0b11110#5 ++ BitVec.ofBool c ++ p

/-- The MSS option `0x02, 0x04, MSS` as a 32-bit number, first byte most significant (30_encoding.md R124). -/
def decodeMss (w : BitVec 32) : Option Half :=
  if w.extractLsb' 16 16 = 0x0204#16 then some (w.extractLsb' 0 16) else none

def encodeMss (mss : Half) : BitVec 32 := 0x0204#16 ++ mss

/-! ## The encoder, and the two in the opcode table's numbering -/

/-- The number of an instruction in the numbering of opcode_table.json: a command word, or a wire unit. -/
def encode : Instr → Nat
  | .bfNew b => (cmdWord 0x01 b.id 0).toNat
  | .bfSetbytes b n => (cmdWord 0x02 b.id n).toNat
  | .bfLen b => (cmdWord 0x03 b.id 0).toNat
  | .bfGetb b off => (cmdWord 0x04 b.id off).toNat
  | .bfGeth b off => (cmdWord 0x05 b.id off).toNat
  | .bfGetw b off => (cmdWord 0x06 b.id off).toNat
  | .bfSetb b off => (cmdWord 0x07 b.id off).toNat
  | .bfSeth b off => (cmdWord 0x08 b.id off).toNat
  | .bfSetw b off => (cmdWord 0x09 b.id off).toNat
  | .atSet id => (cmdWord 0x0A (BitVec.ofNat 8 id.val) 0).toNat
  | .atGet id => (cmdWord 0x0B (BitVec.ofNat 8 id.val) 0).toNat
  | .macParse => (cmdWord 0x10 0 0).toNat
  | .macRd r => (cmdWord 0x11 r.id 0).toNat
  | .macWr r => (cmdWord 0x12 r.id 0).toNat
  | .ckLoad => (cmdWord 0x20 0 0).toNat
  | .ckPseudo nh => (cmdWord 0x21 0 (0#8 ++ nh)).toNat
  | .ckRun b off => (cmdWord 0x22 b.id off).toNat
  | .ckFinal => (cmdWord 0x23 0 0).toNat
  | .ipNew => (cmdWord 0x30 0 0).toNat
  | .ipParse => (cmdWord 0x31 0 0).toNat
  | .ipSerialize => (cmdWord 0x32 0 0).toNat
  | .ipRd r => (cmdWord 0x33 r.id 0).toNat
  | .ipWr r => (cmdWord 0x34 r.id 0).toNat
  | .ipIsll s => (cmdWord 0x35 s.id 0).toNat
  | .ipIsmc s => (cmdWord 0x36 s.id 0).toNat
  | .chParse => (cmdWord 0x40 0 0).toNat
  | .chClear => (cmdWord 0x41 0 0).toNat
  | .chPush k => (cmdWord 0x42 k.id 0).toNat
  | .chRd f idx => (cmdWord 0x43 f.id idx).toNat
  | .chRdp idx => (cmdWord 0x44 0 idx).toNat
  | .chLen => (cmdWord 0x45 0 0).toNat
  | .ndWr f => (cmdWord 0x46 f.id 0).toNat
  | .ndPayload n => (cmdWord 0x47 0 n).toNat
  | .hcSetctx v id => (cmdWord 0x50 (boolId v) (0#8 ++ id)).toNat
  | .hcRdctx w id => (cmdWord 0x51 w.id (0#8 ++ id)).toNat
  | .hcDecomp off => (cmdWord 0x52 0 off).toNat
  | .hcComp u => (cmdWord 0x53 (boolId u) 0).toNat
  | .sysReset => (cmdWord 0x70 0 0).toNat
  | .sysCfg => (cmdWord 0x71 0 0).toNat
  | .wireMacFcf f => (encodeFcf f).toNat
  | .wireNhHbh => Variant.hbh.disp.toNat
  | .wireNhTcp => Variant.tcp.disp.toNat
  | .wireNhUdp => Variant.udp.disp.toNat
  | .wireNhIcmpv6 => Variant.icmp.disp.toNat
  | .wireIphc h => (encodeIphc h).toNat
  | .wireNhcUdp c p => (encodeNhcUdp c p).toNat
  | .wireTcpoptMss mss => (encodeMss mss).toNat

/-- How many bits the table gives an instruction's row. -/
def width : Instr → Nat
  | .wireMacFcf _ | .wireIphc _ => 16
  | .wireNhHbh | .wireNhTcp | .wireNhUdp | .wireNhIcmpv6 | .wireNhcUdp _ _ => 8
  | .wireTcpoptMss _ => 32
  | .bfNew _ | .bfSetbytes _ _ | .bfLen _ | .bfGetb _ _ | .bfGeth _ _ | .bfGetw _ _
  | .bfSetb _ _ | .bfSeth _ _ | .bfSetw _ _ | .atSet _ | .atGet _
  | .macParse | .macRd _ | .macWr _ | .ckLoad | .ckPseudo _ | .ckRun _ _ | .ckFinal
  | .ipNew | .ipParse | .ipSerialize | .ipRd _ | .ipWr _ | .ipIsll _ | .ipIsmc _
  | .chParse | .chClear | .chPush _ | .chRd _ _ | .chRdp _ | .chLen | .ndWr _ | .ndPayload _
  | .hcSetctx _ _ | .hcRdctx _ _ | .hcDecomp _ | .hcComp _ | .sysReset | .sysCfg => 32

/-- A byte-wide wire unit: a next-header byte or the UDP NHC byte. -/
def decodeWireByte (b : Byte) : Option Instr :=
  match variantOf b with
  | some v => some v.instr
  | none => (decodeNhcUdp b).map (fun cp => .wireNhcUdp cp.1 cp.2)

/-- A 16-bit wire unit: IPHC base bytes where the dispatch bits say so, else a frame-control field. The overlap
(a frame-control field of the reserved source mode 1) is log 12. -/
def decodeWireHalf (w : BitVec 16) : Instr :=
  match decodeIphc w with
  | some h => .wireIphc h
  | none => .wireMacFcf (decodeFcf w)

/-- The instruction read from an opcode-table row's number `w` of `nbits` bits: a command word or an MSS option at
32 bits (no legal command word is one, 30_encoding.md R105), a wire unit at 16 and 8. -/
def decodeTableWord (nbits w : Nat) : Option Instr :=
  if nbits = 32 then
    match decodeCommand (BitVec.ofNat 32 w) with
    | some i => some i
    | none => (decodeMss (BitVec.ofNat 32 w)).map .wireTcpoptMss
  else if nbits = 16 then some (decodeWireHalf (BitVec.ofNat 16 w))
  else if nbits = 8 then decodeWireByte (BitVec.ofNat 8 w)
  else none

end Sys2Proof
end

