-- ==== Sys2Proof/Config.lean ====
section
/-! DEFINITION. What an implementation fixes (00_scope.md R7) and the one value the spec leaves free
(93_implementation_defined.md U1). -/

namespace Sys2Proof.Config

/-- `N_CTX`, fixed (00_scope.md R7). -/
abbrev nCtx : Nat := 16
/-- `IP_HDR`, the size of the IPv6 fixed header, fixed (00_scope.md R7). -/
abbrev ipHdr : Nat := 40

/-- The parameters of 00_scope.md R7 with their defaults. No command writes them. -/
structure Params where
  fbCap : Nat := 127
  pbCap : Nat := 1280
  chainMax : Nat := 8
  nAttr : Nat := 8
  strictReset : Bool := true
  deriving DecidableEq, Repr

/-- `NP_CAP`, the capacity of a node's payload: `PB_CAP - 40` (00_scope.md R7). -/
def Params.npCap (p : Params) : Nat := p.pbCap - ipHdr

/-- The constraints of 93_implementation_defined.md Part 3. -/
abbrev Params.wf (p : Params) : Prop :=
  40 ≤ p.pbCap ∧ p.pbCap ≤ 65535 ∧ p.fbCap ≤ 65535 ∧ 1 ≤ p.chainMax ∧ 3 ≤ p.nAttr

/-- The free values of `ACC` (DESIGN CHOICE, safe; log 1): the k-th draw is `freeAcc k`, of which nothing is known
(42_checksum.md R220: "leave `ACC <- any`"). -/
opaque freeAcc : Nat → Word

end Sys2Proof.Config
end

