-- ==== Sys2Proof/Machine/State.lean ====
section
/-! DEFINITION. The state of the engine (10_state.md R20), the transaction it executes, and the reset state
(70_reset_and_hazards.md R441). Plain data. -/

namespace Sys2Proof.Machine

/-- A Byte Frame's contents as (offset, byte) pairs. The canonical form, `Memory.wf`, lists the offsets
`0 .. len-1` in order; an unlisted offset has no byte (10_state.md R21; log 18). -/
abbrev Memory := List Host.Cell

/-- The canonical form: the listed offsets are exactly `0, 1, ..., len-1`, rising. -/
abbrev Memory.wf (m : Memory) : Prop := m.map Prod.fst = List.range m.length

/-- A slot of the attribute file (10_state.md R23). -/
structure Slot where
  valid : Bool := false
  value : Word := 0
  deriving DecidableEq, Repr

/-- The MAC header registers (10_state.md R24). -/
structure MacRegs where
  ftype : BitVec 3 := 0
  sec : BitVec 1 := 0
  pend : BitVec 1 := 0
  ar : BitVec 1 := 0
  panc : BitVec 1 := 0
  dmode : BitVec 2 := 0
  fver : BitVec 2 := 0
  smode : BitVec 2 := 0
  seq : Byte := 0
  dpan : Half := 0
  span : Half := 0
  daddr : DWord := 0
  saddr : DWord := 0
  hlen : Byte := 0
  deriving DecidableEq, Repr

/-- The IPv6 header registers but the cursor (10_state.md R25). -/
structure Hdr where
  ver : BitVec 4 := 0
  tc : Byte := 0
  fl : BitVec 20 := 0
  plen : Half := 0
  nh : Byte := 0
  hlim : Byte := 0
  src : Addr := 0
  dst : Addr := 0
  deriving DecidableEq, Repr

/-- The header fields of a node, ids 1 to 17 (10_state.md R28). -/
structure NodeFields where
  nh : Byte := 0
  hlen : Byte := 0
  sport : Half := 0
  dport : Half := 0
  seq : Word := 0
  ack : Word := 0
  doff : BitVec 4 := 0
  flags : BitVec 6 := 0
  window : Half := 0
  cksum : Half := 0
  urg : Half := 0
  mss : Half := 0
  length : Half := 0
  itype : Byte := 0
  code : Byte := 0
  ident : Half := 0
  seqno : Half := 0
  deriving DecidableEq, Repr

/-- A chain node: a tagged record (10_state.md R28). A field its kind does not have is 0. -/
structure Node where
  kind : Kind
  f : NodeFields := {}
  ckok : Bool := false
  payload : List Byte := []
  offset : Half := 0
  deriving DecidableEq, Repr

/-- The staging node `NODE` (10_state.md R29). -/
structure Staging where
  f : NodeFields := {}
  payload : List Byte := []
  deriving DecidableEq, Repr

/-- An entry of the context table (10_state.md R30). -/
structure CtxEntry where
  valid : Bool := false
  pfx : DWord := 0
  deriving DecidableEq, Repr

/-- A command transaction, the input of a step (10_state.md R50). -/
structure Transaction where
  cmd : Word := 0
  arg0 : Word := 0
  arg1 : Word := 0
  data : List Byte := []
  deriving DecidableEq, Repr

/-- The reasons a step could fault. NONE: "there is no stuck state, no hang and no refusal beyond `IllegalCommand`"
(00_scope.md R14); a fatal error is a next state with `STATUS` written (60_exceptions.md R404). -/
inductive Fault where
  deriving DecidableEq, Repr

/-- The reasons a step is refused. -/
inductive Refusal where
  /-- Raised by an arm of `exec` whose instruction has no meaning yet. Safe. -/
  | notModelled (mnemonic : String)
  /-- Raised by `BF.SETBYTES` and `ND.PAYLOAD` when the transaction's data is not exactly the `n` bytes its word
  names: the interface presents no such transaction (10_state.md R50, R54; 93_implementation_defined.md's
  treatment `refuse`; log 6). Safe: the model stops where the hardware has no move. -/
  | dataLength
  deriving DecidableEq, Repr

/-- The state. The first thirteen fields are the spec's (10_state.md R20), `attr` with `N_ATTR` slots (R23); `par` is the
configuration (00_scope.md R7, log 14); `tx` and `program` are the host's inputs (R50, log 3) and `draws` counts the
free values of `ACC` drawn (log 1), the model's own. -/
structure State where
  fb : Memory
  pb : Memory
  attr : List Slot
  mac : MacRegs
  hdr : Hdr
  cur : Half
  chain : List Node
  node : Staging
  ctx : Vector CtxEntry 16
  acc : Word
  config : Word
  status : Word
  res : Word
  par : Config.Params
  tx : Transaction
  program : List Transaction
  draws : Nat
  deriving DecidableEq, Repr

/-- What a step answers. -/
abbrev Out := Host.Outcome State Fault Refusal

/-- The reset state under given parameters (70_reset_and_hazards.md R441). -/
def State.resetWith (p : Config.Params) : State where
  fb := []
  pb := []
  attr := List.replicate p.nAttr {}
  mac := {}
  hdr := {}
  cur := 0
  chain := []
  node := {}
  ctx := Vector.replicate 16 {}
  acc := 0
  config := if p.strictReset then 1 else 0
  status := 0
  res := 0
  par := p
  tx := {}
  program := []
  draws := 0

/-- The machine right after power-on reset, with the default parameters (70_reset_and_hazards.md R440, R441). -/
def State.reset : State := State.resetWith {}

end Sys2Proof.Machine
end

