-- ==== Sys2Proof/Machine/Bytes.lean ====
section
/-! DEFINITION. Byte sequences and their numbers (00_scope.md R9), and the buffer memory (20_memory.md R72 to R75). -/

namespace Sys2Proof.Machine

/-- `be(bytes)`: the big-endian number of a byte sequence (00_scope.md R9). -/
def be (bs : List Byte) : Nat := bs.foldl (fun acc b => acc * 256 + b.toNat) 0

/-- `le(bytes)`: the little-endian number of a byte sequence (00_scope.md R9). -/
def le : List Byte → Nat
  | [] => 0
  | b :: bs => b.toNat + 256 * le bs

/-- `tobe_n(v)`: the `n`-byte big-endian sequence of `v` (00_scope.md R9). -/
def tobe : Nat → Nat → List Byte
  | 0, _ => []
  | n + 1, v => BitVec.ofNat 8 (v / 256 ^ n) :: tobe n v

/-- `B[i]`; every use stands behind a bounds check (20_memory.md R76). -/
def byteAt (bs : List Byte) (i : Nat) : Byte := bs.getD i 0

/-- `B[i..i+n)` (00_scope.md R9). -/
def slice (bs : List Byte) (i n : Nat) : List Byte := (bs.drop i).take n

/-- `B[off..off+len(new)) <- new`, inside `B`. -/
def splice (bs : List Byte) (off : Nat) (new : List Byte) : List Byte :=
  bs.take off ++ new ++ bs.drop (off + new.length)

/-! ## Memory -/

/-- The memory that holds a byte sequence, in canonical form. -/
def Memory.ofBytes (bs : List Byte) : Memory := bs.zipIdx.map (fun c => (c.2, c.1))

/-- The bytes a buffer holds, offset 0 first. -/
def Memory.bytes (m : Memory) : List Byte := m.map Prod.snd

/-- `buf.len`. -/
def Memory.len (m : Memory) : Nat := m.length

/-- What an unlisted offset reads as: no byte (10_state.md R21; log 18). An access to one is `OutOfRange`. -/
def Memory.unlisted : Option Byte := none

/-- One byte of a buffer. -/
def Memory.read (m : Memory) (off : Nat) : Option Byte :=
  match m.lookup off with
  | some b => some b
  | none => Memory.unlisted

/-- `MemRead(buf, off, n)` (00_scope.md R10): the big-endian number of `n` bytes, `none` where the bounds check of
20_memory.md R75 fails. -/
def Memory.readBE (m : Memory) (off n : Nat) : Option Nat :=
  if off + n ≤ m.len then some (be (slice m.bytes off n)) else none

/-- `MemWrite(buf, off, n, v)` (00_scope.md R10): stores `tobe_n(v)`, `none` where the bounds check fails. It never
extends the buffer (20_memory.md R75). -/
def Memory.writeBE (m : Memory) (off n v : Nat) : Option Memory :=
  if off + n ≤ m.len then some (Memory.ofBytes (splice m.bytes off (tobe n v))) else none

end Sys2Proof.Machine
end

