-- ==== Sys2Proof/Machine/Flags.lean ====
section
/-! DEFINITION. The flag-like state: the `STATUS` word with its error codes and report flags (10_state.md R33,
60_exceptions.md R400, R403, R408). -/

namespace Sys2Proof.Machine

/-- The error kinds (60_exceptions.md R400). -/
inductive ErrKind where
  | outOfRange | malformedFrame | badVersion | unknownDispatch | checksumMismatch
  | contextIndexOutOfRange | unknownContext | attributeNotFound | illegalCommand
  deriving DecidableEq, Repr

/-- The code of a kind in `STATUS.ERR` (60_exceptions.md R400). -/
def ErrKind.code : ErrKind → Nat
  | .outOfRange => 1
  | .malformedFrame => 2
  | .badVersion => 3
  | .unknownDispatch => 4
  | .checksumMismatch => 5
  | .contextIndexOutOfRange => 6
  | .unknownContext => 7
  | .attributeNotFound => 8
  | .illegalCommand => 9

/-- A fatal error: its kind and its byte offset (60_exceptions.md R403). -/
structure Err where
  kind : ErrKind
  off : Nat
  deriving DecidableEq, Repr

/-- `STATUS <- o * 2^16 + code(K)`, `OFF = o[15:0]` (60_exceptions.md R403). -/
def Err.status (e : Err) : Word := BitVec.ofNat 32 (e.off * 65536 + e.kind.code)

/-- The three non-fatal reports (60_exceptions.md R408). -/
inductive Warn where
  | badVersion | unknownDispatch | checksumMismatch
  deriving DecidableEq, Repr

/-- The report's flag in `STATUS` (10_state.md R33): bits 4, 5, 6. -/
def Warn.flag : Warn → Nat
  | .badVersion => 0x10
  | .unknownDispatch => 0x20
  | .checksumMismatch => 0x40

/-- A report: its flag and its byte offset. -/
structure Report where
  warn : Warn
  off : Nat
  deriving DecidableEq, Repr

/-- `STATUS` on success, with at most one report (60_exceptions.md R403, R408). -/
def reportStatus : Option Report → Word
  | none => 0
  | some r => BitVec.ofNat 32 (r.off * 65536 + r.warn.flag)

end Sys2Proof.Machine
end

