-- ==== Sys2Proof/Machine/Ops.lean ====
section
/-! DEFINITION. The named operations the meanings share: ending a command (60_exceptions.md R403, R404), the free
value of `ACC` (42_checksum.md R220), choosing a buffer, and presenting a transaction (10_state.md R50, R51). -/

namespace Sys2Proof.Machine

/-! ## Ending a command -/

/-- Taking a fatal error, the engine's one exception entry (60_exceptions.md R404): only `STATUS` changes. There is
no handler and so no return from it (R414): the next command executes normally. -/
def raise (e : Err) (s : State) : Out := .next { s with status := e.status }

/-- Plain success, no value returned (60_exceptions.md R403). -/
def done (s : State) : Out := .next { s with status := 0 }

/-- Success returning a value in `RES` (10_state.md R34). -/
def ret (v : Word) (s : State) : Out := .next { s with res := v, status := 0 }

/-- Success with at most one non-fatal report (60_exceptions.md R408). -/
def report (w : Option Report) (s : State) : Out := .next { s with status := reportStatus w }

/-- `ACC <- any` (42_checksum.md R220, log 1): the next free value. -/
def State.drawAcc (s : State) : State := { s with acc := Config.freeAcc s.draws, draws := s.draws + 1 }

/-- A fatal error of a command that uses the checksum unit: `STATUS`, and `ACC <- any` (60_exceptions.md R406). -/
def raiseAny (e : Err) (s : State) : Out := raise e s.drawAcc

/-! ## Buffers -/

/-- The buffer `buf` selects (40_byteframe.md). -/
def State.buf (s : State) : Buf → Memory
  | .fb => s.fb
  | .pb => s.pb

def State.withBuf (s : State) (b : Buf) (m : Memory) : State :=
  match b with
  | .fb => { s with fb := m }
  | .pb => { s with pb := m }

/-- `cap(buf)` (40_byteframe.md): `FB_CAP` or `PB_CAP`. -/
def State.cap (s : State) : Buf → Nat
  | .fb => s.par.fbCap
  | .pb => s.par.pbCap

/-- `ATTR[i] <- (1, v)`; slots 0 to 2, which the parsers write, always exist (93_implementation_defined.md Part 3:
`N_ATTR >= 3`). -/
def State.setAttr (s : State) (i : Nat) (v : Word) : State :=
  { s with attr := s.attr.set i { valid := true, value := v } }

/-! ## Presenting a transaction -/

/-- The transaction `t` is the one being executed, `rest` is still to come (10_state.md R50, R51). -/
def State.present (s : State) (t : Transaction) (rest : List Transaction) : State :=
  { s with tx := t, program := rest }

/-- The data of the transaction, if it is exactly the `n` bytes the command names (10_state.md R50; log 6). -/
def State.dataOf (s : State) (n : Half) : Option (List Byte) :=
  if s.tx.data.length = n.toNat then some s.tx.data else none

/-- The reset state of the same engine: its parameters stay, and so do the model's own fields (48_system.md R380;
log 2). -/
def State.resetEngine (s : State) : State :=
  { State.resetWith s.par with tx := s.tx, program := s.program, draws := s.draws }

end Sys2Proof.Machine
end

