-- ==== Sys2Proof/Machine/Operands.lean ====
section
/-! DEFINITION. Operand forms: reading and writing registers by id with the width of each (10_state.md R24, R25, R28),
and the 32-bit words of an address or a prefix (30_encoding.md R102). -/

namespace Sys2Proof.Machine

/-- `zext_32` of a narrower value. -/
abbrev zext {w : Nat} (v : BitVec w) : Word := v.setWidth 32

/-- The 32-bit word of a flag. -/
def boolWord (b : Bool) : Word := if b then 1 else 0

/-! ## Addresses as words -/

/-- Word `k` of an address: `A[127-32k : 96-32k]` (10_state.md R25). -/
def addrWord (a : Addr) (k : Nat) : Word := a.extractLsb' (96 - 32 * k) 32

/-- The address of four words, word 0 most significant. -/
def addrOf (w0 w1 w2 w3 : Word) : Addr := w0 ++ w1 ++ w2 ++ w3

/-- An address with word `k` replaced. -/
def setAddrWord (a : Addr) (k : Nat) (v : Word) : Addr :=
  addrOf (if k = 0 then v else addrWord a 0) (if k = 1 then v else addrWord a 1)
    (if k = 2 then v else addrWord a 2) (if k = 3 then v else addrWord a 3)

/-- The high and low words of a 64-bit value (10_state.md R24). -/
def highWord (d : DWord) : Word := d.extractLsb' 32 32
def lowWord (d : DWord) : Word := d.extractLsb' 0 32

/-! ## The MAC registers (41_mac.md R192, R193) -/

def MacRegs.get (m : MacRegs) : MacReg → Word
  | .ftype => zext m.ftype
  | .sec => zext m.sec
  | .pend => zext m.pend
  | .ar => zext m.ar
  | .panc => zext m.panc
  | .dmode => zext m.dmode
  | .fver => zext m.fver
  | .smode => zext m.smode
  | .seq => zext m.seq
  | .dpan => zext m.dpan
  | .span => zext m.span
  | .daddrHi => highWord m.daddr
  | .daddrLo => lowWord m.daddr
  | .saddrHi => highWord m.saddr
  | .saddrLo => lowWord m.saddr
  | .hlen => zext m.hlen

/-- `MAC.<reg> <- v[w-1:0]`: upper bits dropped (41_mac.md R193). -/
def MacRegs.put (m : MacRegs) (r : MacReg) (v : Word) : MacRegs :=
  match r with
  | .ftype => { m with ftype := v.setWidth 3 }
  | .sec => { m with sec := v.setWidth 1 }
  | .pend => { m with pend := v.setWidth 1 }
  | .ar => { m with ar := v.setWidth 1 }
  | .panc => { m with panc := v.setWidth 1 }
  | .dmode => { m with dmode := v.setWidth 2 }
  | .fver => { m with fver := v.setWidth 2 }
  | .smode => { m with smode := v.setWidth 2 }
  | .seq => { m with seq := v.setWidth 8 }
  | .dpan => { m with dpan := v.setWidth 16 }
  | .span => { m with span := v.setWidth 16 }
  | .daddrHi => { m with daddr := v ++ lowWord m.daddr }
  | .daddrLo => { m with daddr := highWord m.daddr ++ v }
  | .saddrHi => { m with saddr := v ++ lowWord m.saddr }
  | .saddrLo => { m with saddr := highWord m.saddr ++ v }
  | .hlen => { m with hlen := v.setWidth 8 }

/-! ## The header registers and the cursor (43_ipv6.md R232, R233) -/

def State.ipGet (s : State) : IpReg → Word
  | .ver => zext s.hdr.ver
  | .tc => zext s.hdr.tc
  | .fl => zext s.hdr.fl
  | .plen => zext s.hdr.plen
  | .nh => zext s.hdr.nh
  | .hlim => zext s.hdr.hlim
  | .cur => zext s.cur
  | .src0 => addrWord s.hdr.src 0
  | .src1 => addrWord s.hdr.src 1
  | .src2 => addrWord s.hdr.src 2
  | .src3 => addrWord s.hdr.src 3
  | .dst0 => addrWord s.hdr.dst 0
  | .dst1 => addrWord s.hdr.dst 1
  | .dst2 => addrWord s.hdr.dst 2
  | .dst3 => addrWord s.hdr.dst 3

/-- A header register's new value; the cursor is not one of `Hdr`'s. -/
def Hdr.put (h : Hdr) (r : IpReg) (v : Word) : Hdr :=
  match r with
  | .ver => { h with ver := v.setWidth 4 }
  | .tc => { h with tc := v.setWidth 8 }
  | .fl => { h with fl := v.setWidth 20 }
  | .plen => { h with plen := v.setWidth 16 }
  | .nh => { h with nh := v.setWidth 8 }
  | .hlim => { h with hlim := v.setWidth 8 }
  | .cur => h
  | .src0 => { h with src := setAddrWord h.src 0 v }
  | .src1 => { h with src := setAddrWord h.src 1 v }
  | .src2 => { h with src := setAddrWord h.src 2 v }
  | .src3 => { h with src := setAddrWord h.src 3 v }
  | .dst0 => { h with dst := setAddrWord h.dst 0 v }
  | .dst1 => { h with dst := setAddrWord h.dst 1 v }
  | .dst2 => { h with dst := setAddrWord h.dst 2 v }
  | .dst3 => { h with dst := setAddrWord h.dst 3 v }

/-- The cursor's new value: any 16-bit value (43_ipv6.md R233; log 16). -/
def curPut (cur : Half) (r : IpReg) (v : Word) : Half :=
  match r with
  | .cur => v.setWidth 16
  | .ver | .tc | .fl | .plen | .nh | .hlim
  | .src0 | .src1 | .src2 | .src3 | .dst0 | .dst1 | .dst2 | .dst3 => cur

/-- `<reg> <- v[w-1:0]` (43_ipv6.md R233). -/
def State.ipPut (s : State) (r : IpReg) (v : Word) : State :=
  { s with hdr := s.hdr.put r v, cur := curPut s.cur r v }

/-- The address `sel` names (43_ipv6.md R234). -/
def Hdr.addr (h : Hdr) : AddrSel → Addr
  | .src => h.src
  | .dst => h.dst

/-- Link-local: the first ten bits are `0b1111111010` (30_encoding.md R119). -/
def isLinkLocal (a : Addr) : Bool := a.extractLsb' 118 10 == 0b1111111010#10

/-- Multicast: the first byte is `0xFF` (30_encoding.md R119). -/
def isMulticast (a : Addr) : Bool := a.extractLsb' 120 8 == 0xFF#8

/-! ## Node fields (10_state.md R28) -/

/-- Which kind has which field: the table of 10_state.md R28. -/
def hasField : Kind → NodeField → Bool
  | _, .kind | _, .paylen | _, .offset => true
  | .hbh, .nh | .hbh, .hlen => true
  | .tcp, .sport | .tcp, .dport | .tcp, .seq | .tcp, .ack | .tcp, .doff | .tcp, .flags | .tcp, .window
  | .tcp, .cksum | .tcp, .urg | .tcp, .mss | .tcp, .ckok => true
  | .udp, .sport | .udp, .dport | .udp, .cksum | .udp, .length | .udp, .ckok => true
  | .icmp, .cksum | .icmp, .itype | .icmp, .code | .icmp, .ident | .icmp, .seqno | .icmp, .ckok => true
  | _, _ => false

/-- A field of a node, whatever its kind, zero-extended. -/
def Node.raw (n : Node) : NodeField → Word
  | .kind => zext n.kind.id
  | .nh => zext n.f.nh
  | .hlen => zext n.f.hlen
  | .sport => zext n.f.sport
  | .dport => zext n.f.dport
  | .seq => n.f.seq
  | .ack => n.f.ack
  | .doff => zext n.f.doff
  | .flags => zext n.f.flags
  | .window => zext n.f.window
  | .cksum => zext n.f.cksum
  | .urg => zext n.f.urg
  | .mss => zext n.f.mss
  | .length => zext n.f.length
  | .itype => zext n.f.itype
  | .code => zext n.f.code
  | .ident => zext n.f.ident
  | .seqno => zext n.f.seqno
  | .ckok => boolWord n.ckok
  | .paylen => zext (BitVec.ofNat 16 n.payload.length)
  | .offset => zext n.offset

/-- What `CH.RD` reads: the field, or 0 where the node's kind does not have it (44_chain.md R272). -/
def Node.get (n : Node) (fld : NodeField) : Word := if hasField n.kind fld then n.raw fld else 0

/-- `NODE.<field> <- v[w-1:0]` (44_chain.md R275); a read-only id writes nothing. -/
def NodeFields.put (f : NodeFields) (fld : NodeField) (v : Word) : NodeFields :=
  match fld with
  | .nh => { f with nh := v.setWidth 8 }
  | .hlen => { f with hlen := v.setWidth 8 }
  | .sport => { f with sport := v.setWidth 16 }
  | .dport => { f with dport := v.setWidth 16 }
  | .seq => { f with seq := v }
  | .ack => { f with ack := v }
  | .doff => { f with doff := v.setWidth 4 }
  | .flags => { f with flags := v.setWidth 6 }
  | .window => { f with window := v.setWidth 16 }
  | .cksum => { f with cksum := v.setWidth 16 }
  | .urg => { f with urg := v.setWidth 16 }
  | .mss => { f with mss := v.setWidth 16 }
  | .length => { f with length := v.setWidth 16 }
  | .itype => { f with itype := v.setWidth 8 }
  | .code => { f with code := v.setWidth 8 }
  | .ident => { f with ident := v.setWidth 16 }
  | .seqno => { f with seqno := v.setWidth 16 }
  | .kind | .ckok | .paylen | .offset => f

/-- The fields a kind has, every other field 0 (44_chain.md R271). -/
def NodeFields.only (k : Kind) (f : NodeFields) : NodeFields :=
  match k with
  | .hbh => { nh := f.nh, hlen := f.hlen }
  | .tcp => { sport := f.sport, dport := f.dport, seq := f.seq, ack := f.ack, doff := f.doff, flags := f.flags,
              window := f.window, cksum := f.cksum, urg := f.urg, mss := f.mss }
  | .udp => { sport := f.sport, dport := f.dport, cksum := f.cksum, length := f.length }
  | .icmp => { cksum := f.cksum, itype := f.itype, code := f.code, ident := f.ident, seqno := f.seqno }
  | .raw => {}

end Sys2Proof.Machine
end

