-- ==== Sys2Proof/Machine/ByteFrame.lean ====
section
/-! DEFINITION. The Byte Frame commands (40_byteframe.md R160 to R171). -/

namespace Sys2Proof.Machine

/-- An accessor's read: the value zero-extended to `RES`, or `OutOfRange(off)` (20_memory.md R75). -/
def loadBE (b : Buf) (off : Half) (n : Nat) (s : State) : Out :=
  match (s.buf b).readBE off.toNat n with
  | some v => ret (BitVec.ofNat 32 v) s
  | none => raise ⟨.outOfRange, off.toNat⟩ s

/-- An accessor's write of `v`, or `OutOfRange(off)` and nothing written (20_memory.md R75). -/
def storeBE (b : Buf) (off : Half) (n v : Nat) (s : State) : Out :=
  match (s.buf b).writeBE off.toNat n v with
  | some m => done (s.withBuf b m)
  | none => raise ⟨.outOfRange, off.toNat⟩ s

/-- `BF.NEW` (40_byteframe.md R161). -/
def execBfNew (buf : Buf) (s : State) : Out :=
  match buf with
  | .fb => done { s with fb := [], attr := s.attr.map (fun a => { a with valid := false }), mac := {} }
  | .pb => done { s with pb := [] }

/-- `BF.SETBYTES` (40_byteframe.md R162). -/
def execBfSetbytes (buf : Buf) (n : Half) (s : State) : Out :=
  match s.dataOf n with
  | none => .refused .dataLength
  | some data =>
    if n.toNat > s.cap buf then raise ⟨.outOfRange, s.cap buf⟩ s
    else done (s.withBuf buf (Memory.ofBytes data))

/-- `BF.LEN` (40_byteframe.md R163). -/
def execBfLen (buf : Buf) (s : State) : Out := ret (BitVec.ofNat 32 (s.buf buf).len) s

/-- `BF.GETB` (40_byteframe.md R164). -/
def execBfGetb (buf : Buf) (off : Half) (s : State) : Out := loadBE buf off 1 s

/-- `BF.GETH` (40_byteframe.md R165). -/
def execBfGeth (buf : Buf) (off : Half) (s : State) : Out := loadBE buf off 2 s

/-- `BF.GETW` (40_byteframe.md R166). -/
def execBfGetw (buf : Buf) (off : Half) (s : State) : Out := loadBE buf off 4 s

/-- `BF.SETB` (40_byteframe.md R167): the value is `arg0[7:0]`. -/
def execBfSetb (buf : Buf) (off : Half) (s : State) : Out := storeBE buf off 1 (s.tx.arg0.extractLsb' 0 8).toNat s

/-- `BF.SETH` (40_byteframe.md R168): the value is `arg0[15:0]`. -/
def execBfSeth (buf : Buf) (off : Half) (s : State) : Out := storeBE buf off 2 (s.tx.arg0.extractLsb' 0 16).toNat s

/-- `BF.SETW` (40_byteframe.md R169). -/
def execBfSetw (buf : Buf) (off : Half) (s : State) : Out := storeBE buf off 4 s.tx.arg0.toNat s

/-- `AT.SET` (40_byteframe.md R170). A slot id that an attribute file of fewer than 8 slots does not have is
`IllegalCommand(0)`, as ids above 7 are (30_encoding.md R105; DEDUCED, log 23). -/
def execAtSet (id : Fin 8) (s : State) : Out :=
  match s.attr[id.val]? with
  | none => raise ⟨.illegalCommand, 0⟩ s
  | some _ => done (s.setAttr id s.tx.arg0)

/-- `AT.GET` (40_byteframe.md R171): an absent key is `AttributeNotFound(0)`; a slot id the attribute file does not have,
`IllegalCommand(0)` (DEDUCED, log 23). -/
def execAtGet (id : Fin 8) (s : State) : Out :=
  match s.attr[id.val]? with
  | none => raise ⟨.illegalCommand, 0⟩ s
  | some slot => if slot.valid then ret slot.value s else raise ⟨.attributeNotFound, 0⟩ s

end Sys2Proof.Machine
end

