-- ==== Sys2Proof/Machine/Checksum.lean ====
section
/-! DEFINITION. The checksum functions (42_checksum.md R210 to R214). -/

namespace Sys2Proof.Machine

/-- `running_sum(acc, bytes)` (42_checksum.md R210): big-endian words added modulo 2^32, a final odd byte the high
byte of a word. -/
def runningSum (acc : Word) : List Byte → Word
  | [] => acc
  | [b] => acc + BitVec.ofNat 32 (b.toNat * 256)
  | b0 :: b1 :: bs => runningSum (acc + BitVec.ofNat 32 (b0.toNat * 256 + b1.toNat)) bs

/-- One end-around carry, where there is one to fold (42_checksum.md R211). -/
def foldCarry (acc : Word) : Word :=
  if acc.extractLsb' 16 16 = 0 then acc
  else BitVec.ofNat 32 ((acc.extractLsb' 0 16).toNat + (acc.extractLsb' 16 16).toNat)

/-- `finalize(acc)` (42_checksum.md R211): fold, "at most two iterations for any u32", then complement. -/
def finalize (acc : Word) : Half := ~~~((foldCarry (foldCarry acc)).extractLsb' 0 16)

/-- `pseudo(src, dst, nh, ulen)` (42_checksum.md R212). -/
def pseudo (src dst : Addr) (nh : Byte) (ulen : Nat) : Word :=
  let a0 := runningSum 0 (tobe 16 src.toNat)
  let a1 := runningSum a0 (tobe 16 dst.toNat)
  let a2 := runningSum a1 (tobe 4 ulen)
  runningSum a2 [0, 0, 0, nh]

/-- `transport_ck(src, dst, nh, seg, k)` (42_checksum.md R213): the checksum field at `k` taken as zero. -/
def transportCk (src dst : Addr) (nh : Byte) (seg : List Byte) (k : Nat) : Half :=
  finalize (runningSum (pseudo src dst nh seg.length) (splice seg k [0, 0]))

/-- A segment's checksum verifies: recomputation gives the field (42_checksum.md R214). -/
def verifies (src dst : Addr) (nh : Byte) (seg : List Byte) (k : Nat) : Bool :=
  (transportCk src dst nh seg k).toNat == be (slice seg k 2)

/-- A segment with its checksum field written: `seg[k..k+2) <- tobe_2(ck)`. -/
def withCk (seg : List Byte) (k : Nat) (ck : Half) : List Byte := splice seg k (tobe 2 ck.toNat)

end Sys2Proof.Machine
end

