-- ==== Sys2Proof/Machine/Ip.lean ====
section
/-! DEFINITION. The IPv6 header parser and its register commands (43_ipv6.md R230 to R236). -/

namespace Sys2Proof.Machine

/-- The header registers of the 40 header bytes (30_encoding.md R117). -/
def hdrOf (pb : List Byte) : Hdr where
  ver := (byteAt pb 0).extractLsb' 4 4
  tc := (byteAt pb 0).extractLsb' 0 4 ++ (byteAt pb 1).extractLsb' 4 4
  fl := (byteAt pb 1).extractLsb' 0 4 ++ byteAt pb 2 ++ byteAt pb 3
  plen := BitVec.ofNat 16 (be (slice pb 4 2))
  nh := byteAt pb 6
  hlim := byteAt pb 7
  src := BitVec.ofNat 128 (be (slice pb 8 16))
  dst := BitVec.ofNat 128 (be (slice pb 24 16))

/-- The header bytes of the registers (45_serialize.md R303). -/
def headerBytes (h : Hdr) : List Byte :=
  tobe 4 (h.ver ++ h.tc ++ h.fl).toNat ++ tobe 2 h.plen.toNat ++ [h.nh, h.hlim]
    ++ tobe 16 h.src.toNat ++ tobe 16 h.dst.toNat

/-- `CONFIG.STRICT` (10_state.md R32). -/
def State.strict (s : State) : Bool := s.config.getLsbD 0

/-- `END = 40 + PLEN` (43_ipv6.md R236). -/
def State.payEnd (s : State) : Nat := Config.ipHdr + s.hdr.plen.toNat

/-- `IP.NEW` (43_ipv6.md R230). -/
def execIpNew (s : State) : Out :=
  done { s with
    hdr := { ver := 6, tc := 0, fl := 0, plen := 0, nh := 59, hlim := 64, src := 0, dst := 0 }
    cur := 0, chain := [], node := {}, pb := [] }

/-- `IP.PARSE` (43_ipv6.md R231). -/
def execIpParse (s : State) : Out :=
  if s.pb.len < Config.ipHdr then raise ⟨.malformedFrame, s.pb.len⟩ s
  else
    let h := hdrOf s.pb.bytes
    if h.ver ≠ 6 ∧ s.strict then raise ⟨.badVersion, 0⟩ s
    else
      report (if h.ver ≠ 6 then some ⟨.badVersion, 0⟩ else none)
        { s with hdr := h, cur := 40, chain := [] }

/-- `IP.RD` (43_ipv6.md R232). -/
def execIpRd (reg : IpReg) (s : State) : Out := ret (s.ipGet reg) s

/-- `IP.WR` (43_ipv6.md R233). -/
def execIpWr (reg : IpReg) (s : State) : Out := done (s.ipPut reg s.tx.arg0)

/-- `IP.ISLL` (43_ipv6.md R234). -/
def execIpIsll (sel : AddrSel) (s : State) : Out := ret (boolWord (isLinkLocal (s.hdr.addr sel))) s

/-- `IP.ISMC` (43_ipv6.md R235). -/
def execIpIsmc (sel : AddrSel) (s : State) : Out := ret (boolWord (isMulticast (s.hdr.addr sel))) s

end Sys2Proof.Machine
end

