-- ==== Sys2Proof/Machine/ChainParse.lean ====
section
/-! DEFINITION. The payload chain dispatch and its four variant parsers (44_chain.md R260 to R268; wire layouts
30_encoding.md R120 to R127). -/

namespace Sys2Proof.Machine

/-- What the parsers read: the bytes of PB, and the addresses for the pseudo-header. -/
structure ParseCtx where
  pb : List Byte
  src : Addr
  dst : Addr

/-- A big-endian 16-bit field of a segment. -/
def half (seg : List Byte) (i : Nat) : Half := BitVec.ofNat 16 (be (slice seg i 2))
/-- A big-endian 32-bit field of a segment. -/
def word (seg : List Byte) (i : Nat) : Word := BitVec.ofNat 32 (be (slice seg i 4))

/-- The framing walk over an options area (44_chain.md R263): Pad1 is one byte, every other option is skipped by its
length; false where an option runs past the end. The fuel is the area's length. -/
def walkOptions : Nat → List Byte → Bool
  | _, [] => true
  | 0, _ :: _ => false
  | fuel + 1, t :: rest =>
    if t = 0 then walkOptions fuel rest
    else match rest with
      | [] => false
      | l :: data => if l.toNat > data.length then false else walkOptions fuel (data.drop l.toNat)

/-- The report of a mismatched checksum at `off` (44_chain.md R264 to R266). -/
def ckReport (ok : Bool) (off : Nat) : Option Report := if ok then none else some ⟨.checksumMismatch, off⟩

/-- `parse_hbh(c, END)` (44_chain.md R263): the node, the next cursor, the next dispatch byte. -/
def parseHbh (x : ParseCtx) (c fin : Nat) : Except Err (Node × Nat × Byte) :=
  if c + 2 > fin then .error ⟨.malformedFrame, fin⟩
  else
    let hlen := byteAt x.pb (c + 1)
    let tot := 8 * (hlen.toNat + 1)
    let opts := slice x.pb (c + 2) (tot - 2)
    if c + tot > fin then .error ⟨.malformedFrame, fin⟩
    else if walkOptions opts.length opts then
      .ok ({ kind := .hbh, f := { nh := byteAt x.pb c, hlen := hlen }, payload := opts,
             offset := BitVec.ofNat 16 c }, c + tot, byteAt x.pb c)
    else .error ⟨.malformedFrame, c + tot⟩

/-- The MSS option standing first among a segment's options (30_encoding.md R124), if its 4 bytes are one. -/
def firstMss (seg : List Byte) : Option Half := decodeMss (word seg 20)

/-- `parse_tcp(c, END)` (44_chain.md R264), the segment's first option being read by `opt`. -/
def parseTcp (x : ParseCtx) (opt : List Byte → Option Half) (c fin : Nat) :
    Except Err (Node × Nat × Option Report) :=
  let seg := slice x.pb c (fin - c)
  let n := fin - c
  let doff : BitVec 4 := (byteAt seg 12).extractLsb' 4 4
  if n < 20 then .error ⟨.malformedFrame, fin⟩
  else if doff.toNat < 5 then .error ⟨.malformedFrame, c + 12⟩
  else if 4 * doff.toNat > n then .error ⟨.malformedFrame, fin⟩
  else
    let ok := verifies x.src x.dst 6 seg 16
    .ok ({ kind := .tcp
           f := { sport := half seg 0, dport := half seg 2, seq := word seg 4, ack := word seg 8
                  doff := doff, flags := (byteAt seg 13).extractLsb' 0 6, window := half seg 14
                  cksum := half seg 16, urg := half seg 18
                  mss := if 4 * doff.toNat ≥ 24 then (opt seg).getD 0 else 0 }
           ckok := ok, payload := slice seg (4 * doff.toNat) (n - 4 * doff.toNat)
           offset := BitVec.ofNat 16 c }, fin, ckReport ok (c + 16))

/-- `parse_udp(c, END)` (44_chain.md R265). -/
def parseUdp (x : ParseCtx) (c fin : Nat) : Except Err (Node × Nat × Option Report) :=
  if c + 8 > fin then .error ⟨.malformedFrame, fin⟩
  else
    let len := be (slice x.pb (c + 4) 2)
    if len < 8 then .error ⟨.malformedFrame, c + 4⟩
    else if c + len > fin then .error ⟨.malformedFrame, fin⟩
    else
      let seg := slice x.pb c len
      let ok := verifies x.src x.dst 17 seg 6
      .ok ({ kind := .udp
             f := { sport := half seg 0, dport := half seg 2, length := BitVec.ofNat 16 len, cksum := half seg 6 }
             ckok := ok, payload := slice seg 8 (len - 8), offset := BitVec.ofNat 16 c },
           c + len, ckReport ok (c + 6))

/-- An ICMPv6 type whose body is an echo: 128 or 129 (30_encoding.md R127). -/
def isEcho (t : Byte) : Bool := t == 128 || t == 129

/-- `parse_icmp(c, END)` (44_chain.md R266). -/
def parseIcmp (x : ParseCtx) (c fin : Nat) : Except Err (Node × Nat × Option Report) :=
  let seg := slice x.pb c (fin - c)
  let n := fin - c
  let t := byteAt seg 0
  if n < 4 then .error ⟨.malformedFrame, fin⟩
  else if isEcho t ∧ n < 8 then .error ⟨.malformedFrame, fin⟩
  else
    let ok := verifies x.src x.dst 58 seg 2
    .ok ({ kind := .icmp
           f := { itype := t, code := byteAt seg 1, cksum := half seg 2
                  ident := if isEcho t then half seg 4 else 0
                  seqno := if isEcho t then half seg 6 else 0 }
           ckok := ok, payload := if isEcho t then slice seg 8 (n - 8) else slice seg 4 (n - 4)
           offset := BitVec.ofNat 16 c }, fin, ckReport ok (c + 2))

/-- An unrecognized dispatch byte (44_chain.md R267): a RAW node, the cursor stays, the report. -/
def rawRest (x : ParseCtx) (c fin : Nat) : List Node × Nat × Option Report :=
  ([{ kind := .raw, payload := slice x.pb c (fin - c), offset := BitVec.ofNat 16 c }], c,
   some ⟨.unknownDispatch, c⟩)

/-- One terminal node ends the loop. -/
def terminal (r : Except Err (Node × Nat × Option Report)) : Except Err (List Node × Nat × Option Report) :=
  match r with
  | .ok (n, c, w) => .ok ([n], c, w)
  | .error e => .error e

/-- The dispatch loop (44_chain.md R260): `room` is `CHAIN_MAX - len(L)`, so that no room is the raise at the head of
the loop (R262). It answers the nodes from here on, the cursor, and the report. -/
def chainLoop (x : ParseCtx) (opt : List Byte → Option Half) (fin : Nat) :
    Nat → Nat → Byte → Except Err (List Node × Nat × Option Report)
  | 0, c, _ => .error ⟨.malformedFrame, c⟩
  | room + 1, c, nh =>
    match variantOf nh with
    | some .hbh =>
      match parseHbh x c fin with
      | .error e => .error e
      | .ok (node, c', nh') =>
        match chainLoop x opt fin room c' nh' with
        | .error e => .error e
        | .ok (rest, c'', w) => .ok (node :: rest, c'', w)
    | some .tcp => terminal (parseTcp x opt c fin)
    | some .udp => terminal (parseUdp x c fin)
    | some .icmp => terminal (parseIcmp x c fin)
    | none => .ok (rawRest x c fin)

/-- The whole of 44_chain.md R260 with the first dispatch byte `nh`: the extent and cursor checks, then the loop. -/
def parseChain (opt : List Byte → Option Half) (nh : Byte) (s : State) :
    Except Err (List Node × Nat × Option Report) :=
  if s.payEnd > s.pb.len then .error ⟨.malformedFrame, 4⟩
  else if s.cur.toNat < Config.ipHdr ∨ s.cur.toNat > s.payEnd then .error ⟨.malformedFrame, s.cur.toNat⟩
  else chainLoop ⟨s.pb.bytes, s.hdr.src, s.hdr.dst⟩ opt s.payEnd s.par.chainMax s.cur.toNat nh

/-- Dispatching the payload on `nh` and committing the chain, the cursor and the report (44_chain.md R260). -/
def dispatch (opt : List Byte → Option Half) (nh : Byte) (s : State) : Out :=
  match parseChain opt nh s with
  | .error e => raiseAny e s
  | .ok (l, c, w) => report w { s with chain := l, cur := BitVec.ofNat 16 c }.drawAcc

end Sys2Proof.Machine
end

