-- ==== Sys2Proof/Machine/Chain.lean ====
section
/-! DEFINITION. The chain and node commands (44_chain.md R260, R270 to R276). -/

namespace Sys2Proof.Machine

/-- `CH.PARSE` (44_chain.md R260, R261): the first dispatch byte is the `NH` register. -/
def execChParse (s : State) : Out := dispatch firstMss s.hdr.nh s

/-- `CH.CLEAR` (44_chain.md R270). -/
def execChClear (s : State) : Out := done { s with chain := [] }

/-- A chain already ends in a terminal node: its last node is not HBH (44_chain.md R271). -/
def terminated (chain : List Node) : Bool :=
  match chain.getLast? with
  | none => false
  | some n => n.kind != .hbh

/-- The checks of `CH.PUSH` in their order (44_chain.md R271). -/
def pushError (kind : Kind) (s : State) : Option Err :=
  if s.chain.length = s.par.chainMax then some ⟨.outOfRange, s.par.chainMax⟩
  else if terminated s.chain then some ⟨.outOfRange, s.chain.length⟩
  else if kind = .hbh ∧ ((s.node.payload.length + 2) % 8 ≠ 0 ∨ s.node.payload.length > 2046) then
    some ⟨.malformedFrame, s.node.payload.length⟩
  else none

/-- The node `CH.PUSH` builds from `NODE` (44_chain.md R271). -/
def Staging.build (n : Staging) (kind : Kind) : Node :=
  { kind := kind, f := n.f.only kind, ckok := false, payload := n.payload, offset := 0 }

/-- `CH.PUSH` (44_chain.md R271). -/
def execChPush (kind : Kind) (s : State) : Out :=
  match pushError kind s with
  | some e => raise e s
  | none => done { s with chain := s.chain ++ [s.node.build kind] }

/-- `CH.RD` (44_chain.md R272). -/
def execChRd (field : NodeField) (idx : Half) (s : State) : Out :=
  match s.chain[idx.toNat]? with
  | none => raise ⟨.outOfRange, idx.toNat⟩ s
  | some n => ret (n.get field) s

/-- `CH.RDP` (44_chain.md R273): the payload offset is `arg0`. -/
def execChRdp (idx : Half) (s : State) : Out :=
  match s.chain[idx.toNat]? with
  | none => raise ⟨.outOfRange, idx.toNat⟩ s
  | some n =>
    match n.payload[s.tx.arg0.toNat]? with
    | none => raise ⟨.outOfRange, (s.tx.arg0.extractLsb' 0 16).toNat⟩ s
    | some b => ret (zext b) s

/-- `CH.LEN` (44_chain.md R274). -/
def execChLen (s : State) : Out := ret (BitVec.ofNat 32 s.chain.length) s

/-- `ND.WR` (44_chain.md R275): `IllegalCommand` for a field that cannot be staged. -/
def execNdWr (field : NodeField) (s : State) : Out :=
  if field.stageable then done { s with node := { s.node with f := s.node.f.put field s.tx.arg0 } }
  else raise ⟨.illegalCommand, 0⟩ s

/-- `ND.PAYLOAD` (44_chain.md R276). -/
def execNdPayload (n : Half) (s : State) : Out :=
  match s.dataOf n with
  | none => .refused .dataLength
  | some data =>
    if n.toNat > s.par.npCap then raise ⟨.outOfRange, s.par.npCap⟩ s
    else done { s with node := { s.node with payload := data } }

end Sys2Proof.Machine
end

