-- ==== Sys2Proof/Machine/Ck.lean ====
section
/-! DEFINITION. The checksum commands (42_checksum.md R215 to R218). -/

namespace Sys2Proof.Machine

/-- `EXT`: the bytes of the extension headers of a chain (42_checksum.md R216). -/
def extBytes : List Node → Nat
  | [] => 0
  | n :: ns => (if n.kind = .hbh then 2 + n.payload.length else 0) + extBytes ns

/-- `CK.LOAD` (42_checksum.md R215). -/
def execCkLoad (s : State) : Out := done { s with acc := s.tx.arg0 }

/-- `CK.PSEUDO` (42_checksum.md R216): `ulen = (PLEN - EXT) mod 2^32`. -/
def execCkPseudo (nh : Byte) (s : State) : Out :=
  let ulen := (zext s.hdr.plen - BitVec.ofNat 32 (extBytes s.chain)).toNat
  let sum := pseudo s.hdr.src s.hdr.dst nh ulen
  ret sum { s with acc := sum }

/-- `CK.RUN` (42_checksum.md R217): `n = arg0`, in unbounded arithmetic. -/
def execCkRun (buf : Buf) (off : Half) (s : State) : Out :=
  if off.toNat + s.tx.arg0.toNat > (s.buf buf).len then raise ⟨.outOfRange, off.toNat⟩ s
  else
    let sum := runningSum s.acc (slice (s.buf buf).bytes off.toNat s.tx.arg0.toNat)
    ret sum { s with acc := sum }

/-- `CK.FINAL` (42_checksum.md R218): `ACC` is not changed. -/
def execCkFinal (s : State) : Out := ret (zext (finalize s.acc)) s

end Sys2Proof.Machine
end

