-- ==== Sys2Proof/Machine/Hc.lean ====
section
/-! DEFINITION. HC06: the context table and the decompressor (46_hc06_decompress.md R320 to R333; encodings
30_encoding.md R130 to R141). -/

namespace Sys2Proof.Machine

/-! ## The context table -/

/-- The entry of a legal index, `none` for `id >= N_CTX` (46_hc06_decompress.md R320). -/
def ctxIndex (id : Byte) : Option (Fin 16) := if h : id.toNat < 16 then some ⟨id.toNat, h⟩ else none

/-- `HC.SETCTX` (46_hc06_decompress.md R320): `prefix = arg0 ‖ arg1`. -/
def execHcSetctx (v : Bool) (id : Byte) (s : State) : Out :=
  match ctxIndex id with
  | none => raise ⟨.contextIndexOutOfRange, 0⟩ s
  | some i => done { s with ctx := s.ctx.set i { valid := v, pfx := s.tx.arg0 ++ s.tx.arg1 } }

/-- One word of a context entry (46_hc06_decompress.md R321). -/
def CtxEntry.word (e : CtxEntry) : CtxWord → Word
  | .valid => boolWord e.valid
  | .high => highWord e.pfx
  | .low => lowWord e.pfx

/-- `HC.RDCTX` (46_hc06_decompress.md R321). -/
def execHcRdctx (w : CtxWord) (id : Byte) (s : State) : Out :=
  match ctxIndex id with
  | none => raise ⟨.contextIndexOutOfRange, 0⟩ s
  | some i => ret ((s.ctx.get i).word w) s

/-! ## Interface identifiers -/

/-- `LL`, the link-local prefix (30_encoding.md R135). -/
def llPrefix : DWord := 0xFE80000000000000#64

/-- `IID16(x)` (30_encoding.md R135). -/
def iid16 (x : Half) : DWord := 0x000000FFFE000000#64 + x.setWidth 64

/-- `IIDL2(mode, addr)` (30_encoding.md R138); `none` where it is undefined. -/
def iidL2 (mode : BitVec 2) (addr : DWord) : Option DWord :=
  if mode = 2 then some (iid16 (addr.extractLsb' 0 16))
  else if mode = 3 then some (addr ^^^ 0x0200000000000000#64)
  else none

/-! ## The decompressor -/

/-- `take(n)` (46_hc06_decompress.md R322, R325): `n` bytes at `p` and the next position. -/
def take (fb : List Byte) (p n : Nat) : Except Err (List Byte × Nat) :=
  if p + n > fb.length then .error ⟨.malformedFrame, fb.length⟩ else .ok (slice fb p n, p + n)

/-- The context-identifier byte (46_hc06_decompress.md R323): `SCI`, `DCI`. -/
def takeCid (fb : List Byte) (cid : Bool) (p : Nat) : Except Err ((BitVec 4 × BitVec 4) × Nat) :=
  if cid then
    match take fb p 1 with
    | .error e => .error e
    | .ok (t, p) => .ok (((byteAt t 0).extractLsb' 4 4, (byteAt t 0).extractLsb' 0 4), p)
  else .ok ((0, 0), p)

/-- The traffic class of an inline byte `ECN ‖ DSCP` (30_encoding.md R131). -/
def unrotate (t : Byte) : Byte := t.extractLsb' 0 6 ++ t.extractLsb' 6 2

/-- Traffic class and flow label (46_hc06_decompress.md R324). -/
def takeTf (fb : List Byte) (tf : BitVec 2) (p : Nat) : Except Err ((Byte × BitVec 20) × Nat) :=
  if tf = 0 then
    match take fb p 4 with
    | .error e => .error e
    | .ok (t, p) => .ok ((unrotate (byteAt t 0), (byteAt t 1).extractLsb' 0 4 ++ byteAt t 2 ++ byteAt t 3), p)
  else if tf = 1 then
    match take fb p 3 with
    | .error e => .error e
    | .ok (t, p) =>
      .ok ((0#6 ++ (byteAt t 0).extractLsb' 6 2, (byteAt t 0).extractLsb' 0 4 ++ byteAt t 1 ++ byteAt t 2), p)
  else if tf = 2 then
    match take fb p 1 with
    | .error e => .error e
    | .ok (t, p) => .ok ((unrotate (byteAt t 0), 0), p)
  else .ok ((0, 0), p)

/-- The inline next header (46_hc06_decompress.md R326); compressed, it is set in step 6 to 17. -/
def takeNh (fb : List Byte) (nhc : Bool) (p : Nat) : Except Err (Byte × Nat) :=
  if nhc then .ok (17, p)
  else
    match take fb p 1 with
    | .error e => .error e
    | .ok (t, p) => .ok (byteAt t 0, p)

/-- The hop limit (46_hc06_decompress.md R326). -/
def takeHlim (fb : List Byte) (hl : BitVec 2) (p : Nat) : Except Err (Byte × Nat) :=
  if hl = 0 then
    match take fb p 1 with
    | .error e => .error e
    | .ok (t, p) => .ok (byteAt t 0, p)
  else if hl = 1 then .ok (1, p)
  else if hl = 2 then .ok (64, p)
  else .ok (255, p)

/-- The low 64 bits of an address in the modes that share a 64-bit prefix `pre` (46_hc06_decompress.md R327): 1 inline
64 bits, 2 inline 16 bits, 3 derived from the link-layer address. -/
def withPrefix (fb : List Byte) (off : Nat) (pre : DWord) (am : BitVec 2) (mode : BitVec 2) (l2 : DWord) (p : Nat) :
    Except Err (Addr × Nat) :=
  if am = 1 then
    match take fb p 8 with
    | .error e => .error e
    | .ok (t, p) => .ok (pre ++ (BitVec.ofNat 64 (be t) : DWord), p)
  else if am = 2 then
    match take fb p 2 with
    | .error e => .error e
    | .ok (t, p) => .ok (pre ++ iid16 (BitVec.ofNat 16 (be t)), p)
  else
    match iidL2 mode l2 with
    | none => .error ⟨.malformedFrame, off + 1⟩
    | some iid => .ok (pre ++ iid, p)

/-- `unicast(AC, AM, CI, mode, l2)` (46_hc06_decompress.md R327). -/
def unicast (s : State) (off : Nat) (isSrc ac : Bool) (am : BitVec 2) (ci : BitVec 4) (mode : BitVec 2) (l2 : DWord)
    (p : Nat) : Except Err (Addr × Nat) :=
  if ac = false then
    if am = 0 then
      match take s.fb.bytes p 16 with
      | .error e => .error e
      | .ok (t, p) => .ok (BitVec.ofNat 128 (be t), p)
    else withPrefix s.fb.bytes off llPrefix am mode l2 p
  else if am = 0 then
    if isSrc then .ok (0, p) else .error ⟨.malformedFrame, off + 1⟩
  else
    let e := s.ctx.get ci.toFin
    if e.valid = false then .error ⟨.unknownContext, off + 1⟩
    else withPrefix s.fb.bytes off e.pfx am mode l2 p

/-- A multicast destination (46_hc06_decompress.md R329, 30_encoding.md R136). -/
def multicast (fb : List Byte) (off : Nat) (dac : Bool) (dam : BitVec 2) (p : Nat) : Except Err (Addr × Nat) :=
  let addr (t : List Byte) : Addr := BitVec.ofNat 128 (be t)
  if dac then .error ⟨.malformedFrame, off + 1⟩
  else if dam = 0 then
    match take fb p 16 with
    | .error e => .error e
    | .ok (t, p) => .ok (addr t, p)
  else if dam = 1 then
    match take fb p 6 with
    | .error e => .error e
    | .ok (t, p) => .ok (addr ([0xFF, byteAt t 0] ++ List.replicate 9 0 ++ slice t 1 5), p)
  else if dam = 2 then
    match take fb p 4 with
    | .error e => .error e
    | .ok (t, p) => .ok (addr ([0xFF, byteAt t 0] ++ List.replicate 11 0 ++ slice t 1 3), p)
  else
    match take fb p 1 with
    | .error e => .error e
    | .ok (t, p) => .ok (addr ([0xFF, 0x02] ++ List.replicate 13 0 ++ [byteAt t 0]), p)

/-- The destination address (46_hc06_decompress.md R328, R329). -/
def takeDst (s : State) (off : Nat) (h : Iphc) (dci : BitVec 4) (p : Nat) : Except Err (Addr × Nat) :=
  if h.m then multicast s.fb.bytes off h.dac h.dam p
  else unicast s off false h.dac h.dam dci s.mac.dmode s.mac.daddr p

/-- The IPv6 header an IPHC header stands for (46_hc06_decompress.md R322, steps 1 to 5), `PLEN` still 0, and the
position after its inline fields. -/
def takeHeader (s : State) (off : Nat) (h : Iphc) : Except Err (Hdr × Nat) :=
  match takeCid s.fb.bytes h.cid (off + 2) with
  | .error e => .error e
  | .ok ((sci, dci), p) =>
  match takeTf s.fb.bytes h.tf p with
  | .error e => .error e
  | .ok ((tc, fl), p) =>
  match takeNh s.fb.bytes h.nh p with
  | .error e => .error e
  | .ok (nh, p) =>
  match takeHlim s.fb.bytes h.hlim p with
  | .error e => .error e
  | .ok (hlim, p) =>
  match unicast s off true h.sac h.sam sci s.mac.smode s.mac.saddr p with
  | .error e => .error e
  | .ok (src, p) =>
  match takeDst s off h dci p with
  | .error e => .error e
  | .ok (dst, p) => .ok ({ ver := 6, tc := tc, fl := fl, plen := 0, nh := nh, hlim := hlim, src := src, dst := dst }, p)

/-- The ports of a UDP NHC header (46_hc06_decompress.md R330, 30_encoding.md R140). -/
def takePorts (fb : List Byte) (pp : BitVec 2) (p : Nat) : Except Err ((Half × Half) × Nat) :=
  if pp = 0 then
    match take fb p 4 with
    | .error e => .error e
    | .ok (t, p) => .ok ((byteAt t 0 ++ byteAt t 1, byteAt t 2 ++ byteAt t 3), p)
  else if pp = 1 then
    match take fb p 3 with
    | .error e => .error e
    | .ok (t, p) => .ok ((byteAt t 0 ++ byteAt t 1, 0xF0#8 ++ byteAt t 2), p)
  else if pp = 2 then
    match take fb p 3 with
    | .error e => .error e
    | .ok (t, p) => .ok ((0xF0#8 ++ byteAt t 0, byteAt t 1 ++ byteAt t 2), p)
  else
    match take fb p 1 with
    | .error e => .error e
    | .ok (t, p) => .ok ((0xF0B#12 ++ (byteAt t 0).extractLsb' 4 4, 0xF0B#12 ++ (byteAt t 0).extractLsb' 0 4), p)

/-- The carried UDP checksum, if it is carried (46_hc06_decompress.md R330). -/
def takeCk (fb : List Byte) (c : Bool) (p : Nat) : Except Err (Option Half × Nat) :=
  if c then .ok (none, p)
  else
    match take fb p 2 with
    | .error e => .error e
    | .ok (t, p) => .ok (some (BitVec.ofNat 16 (be t)), p)

/-- The rebuilt UDP segment (46_hc06_decompress.md R330, R331) for an NHC byte `C`, `P` whose inline fields start
at `p`: an elided checksum is recomputed, a carried one copied. -/
def udpBody (fb : List Byte) (src dst : Addr) (c : Bool) (pp : BitVec 2) (p : Nat) : Except Err (List Byte) :=
  match takePorts fb pp p with
  | .error e => .error e
  | .ok ((sp, dp), p) =>
  match takeCk fb c p with
  | .error e => .error e
  | .ok (ck, p) =>
    let rest := fb.drop p
    let seg := tobe 2 sp.toNat ++ tobe 2 dp.toNat ++ tobe 2 (8 + rest.length) ++ [0, 0] ++ rest
    .ok (withCk seg 6 (ck.getD (transportCk src dst 17 seg 6)))

/-- The payload after the compressed header at `p` (46_hc06_decompress.md R330, R331): with `NH = 1` an NHC byte and a
UDP segment, else the bytes as they stand. -/
def takeBody (fb : List Byte) (nhc : Bool) (hd : Hdr) (p : Nat) : Except Err (List Byte) :=
  if nhc then
    match take fb p 1 with
    | .error e => .error e
    | .ok (t, q) =>
      match decodeNhcUdp (byteAt t 0) with
      | none => .error ⟨.malformedFrame, p⟩
      | some (c, pp) => udpBody fb hd.src hd.dst c pp q
  else .ok (fb.drop p)

/-- The capacity check and the commit (46_hc06_decompress.md R331, R332). `b0` is the dispatch attribute. -/
def hcCommit (hd : Hdr) (body : List Byte) (b0 : Option Byte) (s : State) : Out :=
  if Config.ipHdr + body.length > s.par.pbCap then raiseAny ⟨.outOfRange, s.par.pbCap⟩ s
  else
    let h := { hd with plen := BitVec.ofNat 16 body.length }
    let t := { s with hdr := h, pb := Memory.ofBytes (headerBytes h ++ body), cur := 40, chain := [] }.drawAcc
    done (match b0 with
      | some b => t.setAttr 2 (zext b)
      | none => t)

/-- Decompressing the datagram at `off` whose base bytes are `h` (46_hc06_decompress.md R322, from the CID byte on). -/
def decompress (h : Iphc) (off : Nat) (s : State) : Out :=
  match takeHeader s off h with
  | .error e => raiseAny e s
  | .ok (hd, p) =>
    match takeBody s.fb.bytes h.nh hd p with
    | .error e => raiseAny e s
    | .ok body => hcCommit hd body (some ((encodeIphc h).extractLsb' 8 8)) s

/-- `HC.DECOMP` (46_hc06_decompress.md R322, R323): the base bytes are taken before the dispatch bits are tested. -/
def execHcDecomp (off : Half) (s : State) : Out :=
  match take s.fb.bytes off.toNat 2 with
  | .error e => raiseAny e s
  | .ok (t, _) =>
    match decodeIphc (byteAt t 0 ++ byteAt t 1) with
    | none => raiseAny ⟨.malformedFrame, off.toNat⟩ s
    | some h => decompress h off.toNat s

end Sys2Proof.Machine
end

