-- ==== Sys2Proof/Machine/HcComp.lean ====
section
/-! DEFINITION. HC06: the compressor (47_hc06_compress.md R360 to R369). -/

namespace Sys2Proof.Machine

/-- The inline byte `ECN ‖ DSCP` of a traffic class (30_encoding.md R131). -/
def rotate (tc : Byte) : Byte := tc.extractLsb' 0 2 ++ tc.extractLsb' 2 6

/-- `choose_tf(TC, FL)` (47_hc06_compress.md R362). -/
def chooseTf (tc : Byte) (fl : BitVec 20) : BitVec 2 × List Byte :=
  if fl = 0 ∧ tc = 0 then (3, [])
  else if fl = 0 then (2, [rotate tc])
  else if tc.extractLsb' 2 6 = 0 then
    (1, [tc.extractLsb' 0 2 ++ 0#2 ++ fl.extractLsb' 16 4, fl.extractLsb' 8 8, fl.extractLsb' 0 8])
  else (0, [rotate tc, 0#4 ++ fl.extractLsb' 16 4, fl.extractLsb' 8 8, fl.extractLsb' 0 8])

/-- `choose_hlim(HLIM)` (47_hc06_compress.md R363). -/
def chooseHlim (hlim : Byte) : BitVec 2 × List Byte :=
  if hlim = 1 then (1, []) else if hlim = 64 then (2, []) else if hlim = 255 then (3, []) else (0, [hlim])

/-- An address encoding: `AC`, `AM`, the context index, the inline bytes (47_hc06_compress.md R365). -/
structure AddrEnc where
  ac : Bool
  am : BitVec 2
  ci : BitVec 4
  bytes : List Byte
  deriving DecidableEq, Repr

/-- The lowest-indexed valid context whose prefix is the high half of an address (47_hc06_compress.md R365). -/
def findCtx (s : State) (a : Addr) : Option Nat :=
  s.ctx.toList.findIdx? (fun e => e.valid && e.pfx == a.extractLsb' 64 64)

/-- `enc(A, mode, l2)` (47_hc06_compress.md R365); the source `::` does not come here, see `encSrc`. -/
def encAddr (s : State) (a : Addr) (mode : BitVec 2) (l2 : DWord) : AddrEnc :=
  let iid := iidL2 mode l2
  let low := a.extractLsb' 0 64
  if a.extractLsb' 64 64 = llPrefix ∧ iid = some low then ⟨false, 3, 0, []⟩
  else match findCtx s a with
    | some i =>
      if iid = some low then ⟨true, 3, BitVec.ofNat 4 i, []⟩
      else ⟨true, 1, BitVec.ofNat 4 i, tobe 8 low.toNat⟩
    | none => ⟨false, 0, 0, tobe 16 a.toNat⟩

/-- The source (47_hc06_compress.md R360, R365): the unspecified address `::` in full, whatever a context holds (R365's
last paragraph and 92_eei_decisions.md D29; its pseudocode has no such case: DEDUCED, log 22), else the address policy. -/
def encSrc (s : State) : AddrEnc :=
  if s.hdr.src = 0 then ⟨false, 0, 0, tobe 16 s.hdr.src.toNat⟩
  else encAddr s s.hdr.src s.mac.smode s.mac.saddr

/-- The destination (47_hc06_compress.md R360, R366): a multicast one in full, else the address policy. -/
def encDst (s : State) : AddrEnc :=
  if isMulticast s.hdr.dst then ⟨false, 0, 0, tobe 16 s.hdr.dst.toNat⟩
  else encAddr s s.hdr.dst s.mac.dmode s.mac.daddr

/-- The NHC byte's `P` and the port bytes (47_hc06_compress.md R369). -/
def encPorts (sp dp : Half) : BitVec 2 × List Byte :=
  if sp.extractLsb' 4 12 = 0xF0B#12 ∧ dp.extractLsb' 4 12 = 0xF0B#12 then
    (3, [sp.extractLsb' 0 4 ++ dp.extractLsb' 0 4])
  else if dp.extractLsb' 8 8 = 0xF0#8 then (1, [sp.extractLsb' 8 8, sp.extractLsb' 0 8, dp.extractLsb' 0 8])
  else if sp.extractLsb' 8 8 = 0xF0#8 then (2, [sp.extractLsb' 0 8, dp.extractLsb' 8 8, dp.extractLsb' 0 8])
  else (0, [sp.extractLsb' 8 8, sp.extractLsb' 0 8, dp.extractLsb' 8 8, dp.extractLsb' 0 8])

/-- `nhc_udp(pay)` (47_hc06_compress.md R369): the checksum is always carried, as found. -/
def nhcUdp (pay : List Byte) : List Byte :=
  let e := encPorts (BitVec.ofNat 16 (be (slice pay 0 2))) (BitVec.ofNat 16 (be (slice pay 2 2)))
  [encodeNhcUdp false e.1] ++ e.2 ++ slice pay 6 2 ++ pay.drop 8

/-- Whether the UDP header is compressed too (47_hc06_compress.md R364). -/
def useUdp (u : Bool) (h : Hdr) (pay : List Byte) : Bool :=
  u && h.nh == 17 && decide (8 ≤ h.plen.toNat) && be (slice pay 4 2) == h.plen.toNat

/-- The compressed datagram of the header registers and the payload (47_hc06_compress.md R360). -/
def compressed (u : Bool) (s : State) : List Byte :=
  let pay := slice s.pb.bytes Config.ipHdr s.hdr.plen.toNat
  let tf := chooseTf s.hdr.tc s.hdr.fl
  let hl := chooseHlim s.hdr.hlim
  let udp := useUdp u s.hdr pay
  let se := encSrc s
  let de := encDst s
  let cid := se.ci ≠ 0 ∨ de.ci ≠ 0
  let base := encodeIphc { tf := tf.1, nh := udp, hlim := hl.1, cid := cid, sac := se.ac, sam := se.am
                           m := isMulticast s.hdr.dst, dac := de.ac, dam := de.am }
  [base.extractLsb' 8 8, base.extractLsb' 0 8] ++ (if cid then [se.ci ++ de.ci] else []) ++ tf.2
    ++ (if udp then [] else [s.hdr.nh]) ++ hl.2 ++ se.bytes ++ de.bytes
    ++ (if udp then nhcUdp pay else pay)

/-- `HC.COMP` (47_hc06_compress.md R360, R361). -/
def execHcComp (u : Bool) (s : State) : Out :=
  if s.hdr.ver ≠ 6 then raise ⟨.badVersion, 0⟩ s
  else if s.payEnd > s.pb.len then raise ⟨.malformedFrame, 4⟩ s
  else if (compressed u s).length > s.par.fbCap then raise ⟨.outOfRange, s.par.fbCap⟩ s
  else done { s with fb := Memory.ofBytes (compressed u s) }

end Sys2Proof.Machine
end

