-- ==== Sys2Proof/Machine/Mac.lean ====
section
/-! DEFINITION. The 802.15.4 frame classifier (41_mac.md R190 to R196; wire layout 30_encoding.md R110 to R116). -/

namespace Sys2Proof.Machine

/-- `alen` of an addressing mode (30_encoding.md R112): none 0, short 2, extended 8 bytes. -/
def alen (mode : BitVec 2) : Nat := if mode = 2 then 2 else if mode = 3 then 8 else 0

/-- The MAC header length a frame control declares (30_encoding.md R112). -/
def macHlen (f : Fcf) : Nat :=
  3 + (if f.dmode ≠ 0 then 2 + alen f.dmode else 0)
    + (if f.smode ≠ 0 then (if f.panc = 1 then 0 else 2) + alen f.smode else 0)

/-- The parsed header of the frame bytes `fb` under frame control `f` (41_mac.md R190, the reads). -/
def macFields (f : Fcf) (fb : List Byte) : MacRegs :=
  let p0 := 3
  let p1 := if f.dmode ≠ 0 then p0 + 2 + alen f.dmode else p0
  let p2 := if f.smode ≠ 0 ∧ f.panc ≠ 1 then p1 + 2 else p1
  let dpan : Half := if f.dmode ≠ 0 then BitVec.ofNat 16 (le (slice fb p0 2)) else 0
  { ftype := f.ftype, sec := f.sec, pend := f.pend, ar := f.ar, panc := f.panc
    dmode := f.dmode, fver := f.fver, smode := f.smode
    seq := byteAt fb 2
    dpan := dpan
    span := if f.smode ≠ 0 then (if f.panc = 1 then dpan else BitVec.ofNat 16 (le (slice fb p1 2))) else 0
    daddr := if f.dmode ≠ 0 then BitVec.ofNat 64 (le (slice fb (p0 + 2) (alen f.dmode))) else 0
    saddr := if f.smode ≠ 0 then BitVec.ofNat 64 (le (slice fb p2 (alen f.smode))) else 0
    hlen := BitVec.ofNat 8 (macHlen f) }

/-- The first check of 41_mac.md R195 that fails, if one does. -/
def macError (f : Fcf) (len : Nat) : Option Err :=
  if len < 3 then some ⟨.malformedFrame, len⟩
  else if f.dmode = 1 ∨ f.smode = 1 then some ⟨.malformedFrame, 1⟩
  else if f.panc = 1 ∧ (f.dmode = 0 ∨ f.smode = 0) then some ⟨.malformedFrame, 0⟩
  else if macHlen f > len then some ⟨.malformedFrame, len⟩
  else none

/-- Classifying the frame in FB under frame control `f` (41_mac.md R190): `MAC`, `ATTR[0]` and `ATTR[1]` are
written, or nothing but `STATUS`. -/
def macClassify (f : Fcf) (s : State) : Out :=
  match macError f s.fb.len with
  | some e => raise e s
  | none =>
    done (({ s with mac := macFields f s.fb.bytes }.setAttr 0 (zext f.ftype)).setAttr 1 (BitVec.ofNat 32 (macHlen f)))

/-- The frame-control field at the start of FB, little-endian (30_encoding.md R111). -/
def fcfOf (fb : List Byte) : Fcf := decodeFcf (BitVec.ofNat 16 (le (slice fb 0 2)))

/-- `MAC.PARSE` (41_mac.md R190). -/
def execMacParse (s : State) : Out := macClassify (fcfOf s.fb.bytes) s

/-- `MAC.RD` (41_mac.md R192). -/
def execMacRd (reg : MacReg) (s : State) : Out := ret (s.mac.get reg) s

/-- `MAC.WR` (41_mac.md R193). -/
def execMacWr (reg : MacReg) (s : State) : Out := done { s with mac := s.mac.put reg s.tx.arg0 }

end Sys2Proof.Machine
end

