-- ==== Sys2Proof/Machine/Serialize.lean ====
section
/-! DEFINITION. Packet serialization (45_serialize.md R300 to R308). -/

namespace Sys2Proof.Machine

/-- SYN is bit 1 of `FLAGS` (45_serialize.md R301). -/
def isSyn (f : NodeFields) : Bool := f.flags.getLsbD 1

/-- `size(n)` (45_serialize.md R301). -/
def Node.size (n : Node) : Nat :=
  match n.kind with
  | .hbh => 2 + n.payload.length
  | .tcp => (if isSyn n.f then 24 else 20) + n.payload.length
  | .udp => 8 + n.payload.length
  | .icmp => (if isEcho n.f.itype then 8 else 4) + n.payload.length
  | .raw => n.payload.length

/-- The serialized size of a chain. -/
def chainSize : List Node → Nat
  | [] => 0
  | n :: ns => n.size + chainSize ns

/-- `disp` of a kind (45_serialize.md R302); RAW has none. -/
def kindDisp : Kind → Option Byte
  | .hbh => some Variant.hbh.disp
  | .tcp => some Variant.tcp.disp
  | .udp => some Variant.udp.disp
  | .icmp => some Variant.icmp.disp
  | .raw => none

/-- The next-header byte that leads to a chain: the head's dispatch byte, or what stood there (45_serialize.md R302). -/
def leadNh (chain : List Node) (nh : Byte) : Byte :=
  match chain with
  | [] => nh
  | n :: _ => (kindDisp n.kind).getD nh

/-- Linking the next-header bytes along a chain (45_serialize.md R302). -/
def linkNh : List Node → List Node
  | [] => []
  | [n] => [n]
  | n :: m :: ns => { n with f := { n.f with nh := leadNh (m :: ns) n.f.nh } } :: linkNh (m :: ns)

/-- The bytes of an HBH node and its recomputed `HLEN` (45_serialize.md R304). -/
def emitHbh (n : Node) : Node × List Byte :=
  let hlen : Byte := BitVec.ofNat 8 ((n.payload.length + 2) / 8 - 1)
  ({ n with f := { n.f with hlen := hlen } }, [n.f.nh, hlen] ++ n.payload)

/-- The segment of a TCP node with its checksum field zero (45_serialize.md R305). -/
def tcpSegment (n : Node) (doff : BitVec 4) : List Byte :=
  tobe 2 n.f.sport.toNat ++ tobe 2 n.f.dport.toNat ++ tobe 4 n.f.seq.toNat ++ tobe 4 n.f.ack.toNat
    ++ [doff ++ 0#4, 0#2 ++ n.f.flags] ++ tobe 2 n.f.window.toNat ++ [0, 0] ++ tobe 2 n.f.urg.toNat
    ++ (if isSyn n.f then tobe 4 (encodeMss n.f.mss).toNat else []) ++ n.payload

/-- The bytes of a TCP node and its recomputed fields (45_serialize.md R305). -/
def emitTcp (src dst : Addr) (n : Node) : Node × List Byte :=
  let doff : BitVec 4 := if isSyn n.f then 6 else 5
  let seg := tcpSegment n doff
  let ck := transportCk src dst 6 seg 16
  ({ n with f := { n.f with doff := doff, cksum := ck }, ckok := true }, withCk seg 16 ck)

/-- The bytes of a UDP node and its recomputed fields (45_serialize.md R306). -/
def emitUdp (src dst : Addr) (n : Node) : Node × List Byte :=
  let len : Half := BitVec.ofNat 16 (8 + n.payload.length)
  let seg := tobe 2 n.f.sport.toNat ++ tobe 2 n.f.dport.toNat ++ tobe 2 len.toNat ++ [0, 0] ++ n.payload
  let ck := transportCk src dst 17 seg 6
  ({ n with f := { n.f with length := len, cksum := ck }, ckok := true }, withCk seg 6 ck)

/-- The bytes of an ICMP node and its recomputed fields (45_serialize.md R307). -/
def emitIcmp (src dst : Addr) (n : Node) : Node × List Byte :=
  let seg := [n.f.itype, n.f.code, 0, 0]
    ++ (if isEcho n.f.itype then tobe 2 n.f.ident.toNat ++ tobe 2 n.f.seqno.toNat else []) ++ n.payload
  let ck := transportCk src dst 58 seg 2
  ({ n with f := { n.f with cksum := ck }, ckok := true }, withCk seg 2 ck)

/-- `bytes(n)` and the updated node (45_serialize.md R304 to R308). -/
def emitNode (src dst : Addr) (n : Node) : Node × List Byte :=
  match n.kind with
  | .hbh => emitHbh n
  | .tcp => emitTcp src dst n
  | .udp => emitUdp src dst n
  | .icmp => emitIcmp src dst n
  | .raw => (n, n.payload)

/-- The nodes of a chain in order from buffer offset `off`, each with its `OFFSET` (45_serialize.md R300). -/
def emitChain (src dst : Addr) : Nat → List Node → List Node × List Byte
  | _, [] => ([], [])
  | off, n :: ns =>
    let r := emitNode src dst { n with offset := BitVec.ofNat 16 off }
    let rs := emitChain src dst (off + r.2.length) ns
    (r.1 :: rs.1, r.2 ++ rs.2)

/-- `IP.SERIALIZE` (45_serialize.md R300); on failure too `ACC <- any` (42_checksum.md R220; log 17). -/
def execIpSerialize (s : State) : Out :=
  let total := chainSize s.chain
  if Config.ipHdr + total > s.par.pbCap then raiseAny ⟨.outOfRange, s.par.pbCap⟩ s
  else
    let h := { s.hdr with nh := leadNh s.chain s.hdr.nh, plen := BitVec.ofNat 16 total }
    let r := emitChain h.src h.dst Config.ipHdr (linkNh s.chain)
    done { s with
      hdr := h, chain := r.1, pb := Memory.ofBytes (headerBytes h ++ r.2)
      cur := BitVec.ofNat 16 (Config.ipHdr + total) }.drawAcc

end Sys2Proof.Machine
end

