-- ==== Sys2Proof/Machine/Sys.lean ====
section
/-! DEFINITION. The system commands (48_system.md R380, R381). -/

namespace Sys2Proof.Machine

/-- `SYS.RESET` (48_system.md R380). -/
def execSysReset (s : State) : Out := done s.resetEngine

/-- `SYS.CFG` (48_system.md R381): only bit 0 is kept. -/
def execSysCfg (s : State) : Out := done { s with config := (s.tx.arg0.extractLsb' 0 1).setWidth 32 }

end Sys2Proof.Machine
end

