-- ==== Sys2Proof/Machine/Wire.lean ====
section
/-! DEFINITION. The wire-dispatch rows of the opcode table. No host presents one as a command; a parser meets it in a
buffer. The meaning of each is what the engine does from the moment its parser has met that unit, over the same
operations the parse commands run on (DESIGN CHOICE; log 8 to 11). -/

namespace Sys2Proof.Machine

/-- A frame-control field met at the start of FB (41_mac.md R190, 30_encoding.md R111). -/
def execWireMacFcf (f : Fcf) (s : State) : Out := macClassify f s

/-- Next-header byte 0 met at the cursor: Hop-by-Hop, the loop goes on (44_chain.md R260, R263). -/
def execWireNhHbh (s : State) : Out := dispatch firstMss Variant.hbh.disp s

/-- Next-header byte 6 met at the cursor: TCP (44_chain.md R260, R264). -/
def execWireNhTcp (s : State) : Out := dispatch firstMss Variant.tcp.disp s

/-- Next-header byte 17 met at the cursor: UDP (44_chain.md R260, R265). -/
def execWireNhUdp (s : State) : Out := dispatch firstMss Variant.udp.disp s

/-- Next-header byte 58 met at the cursor: ICMPv6 (44_chain.md R260, R266). -/
def execWireNhIcmpv6 (s : State) : Out := dispatch firstMss Variant.icmp.disp s

/-- The position in FB at which a compressed unit stands: `arg0[15:0]` (DESIGN CHOICE, log 9). -/
def unitOffset (s : State) : Nat := (s.tx.arg0.extractLsb' 0 16).toNat

/-- The IPHC base bytes met in FB (46_hc06_decompress.md R322, R323). -/
def execWireIphc (h : Iphc) (s : State) : Out :=
  match take s.fb.bytes (unitOffset s) 2 with
  | .error e => raiseAny e s
  | .ok _ => decompress h (unitOffset s) s

/-- The UDP NHC byte met in FB after an IPHC header whose fields the header registers hold (46_hc06_decompress.md
R330 to R332): steps 6 to 8; the dispatch attribute, which the IPHC bytes set, is left (DESIGN CHOICE, log 10). -/
def execWireNhcUdp (c : Bool) (p : BitVec 2) (s : State) : Out :=
  match take s.fb.bytes (unitOffset s) 1 with
  | .error e => raiseAny e s
  | .ok (_, q) =>
    match udpBody s.fb.bytes s.hdr.src s.hdr.dst c p q with
    | .error e => raiseAny e s
    | .ok body => hcCommit { s.hdr with ver := 6, nh := 17 } body none s

/-- The MSS option met first among the options of the TCP segment at the cursor (44_chain.md R264, 30_encoding.md
R124; log 11). -/
def execWireTcpoptMss (mss : Half) (s : State) : Out := dispatch (fun _ => some mss) Variant.tcp.disp s

end Sys2Proof.Machine
end

