-- ==== Sys2Proof/Machine/Dispatch.lean ====
section
/-! DEFINITION. One arm per constructor of Instr. -/

namespace Sys2Proof.Machine

def exec (i : Instr) (s : State) : Host.Outcome State Fault Refusal :=
  match i with
  | .bfNew buf => Sys2Proof.Machine.execBfNew buf s
  | .bfSetbytes buf n => Sys2Proof.Machine.execBfSetbytes buf n s
  | .bfLen buf => Sys2Proof.Machine.execBfLen buf s
  | .bfGetb buf off => Sys2Proof.Machine.execBfGetb buf off s
  | .bfGeth buf off => Sys2Proof.Machine.execBfGeth buf off s
  | .bfGetw buf off => Sys2Proof.Machine.execBfGetw buf off s
  | .bfSetb buf off => Sys2Proof.Machine.execBfSetb buf off s
  | .bfSeth buf off => Sys2Proof.Machine.execBfSeth buf off s
  | .bfSetw buf off => Sys2Proof.Machine.execBfSetw buf off s
  | .atSet id => Sys2Proof.Machine.execAtSet id s
  | .atGet id => Sys2Proof.Machine.execAtGet id s
  | .macParse => Sys2Proof.Machine.execMacParse s
  | .macRd reg => Sys2Proof.Machine.execMacRd reg s
  | .macWr reg => Sys2Proof.Machine.execMacWr reg s
  | .ckLoad => Sys2Proof.Machine.execCkLoad s
  | .ckPseudo nh => Sys2Proof.Machine.execCkPseudo nh s
  | .ckRun buf off => Sys2Proof.Machine.execCkRun buf off s
  | .ckFinal => Sys2Proof.Machine.execCkFinal s
  | .ipNew => Sys2Proof.Machine.execIpNew s
  | .ipParse => Sys2Proof.Machine.execIpParse s
  | .ipSerialize => Sys2Proof.Machine.execIpSerialize s
  | .ipRd reg => Sys2Proof.Machine.execIpRd reg s
  | .ipWr reg => Sys2Proof.Machine.execIpWr reg s
  | .ipIsll sel => Sys2Proof.Machine.execIpIsll sel s
  | .ipIsmc sel => Sys2Proof.Machine.execIpIsmc sel s
  | .chParse => Sys2Proof.Machine.execChParse s
  | .chClear => Sys2Proof.Machine.execChClear s
  | .chPush kind => Sys2Proof.Machine.execChPush kind s
  | .chRd field idx => Sys2Proof.Machine.execChRd field idx s
  | .chRdp idx => Sys2Proof.Machine.execChRdp idx s
  | .chLen => Sys2Proof.Machine.execChLen s
  | .ndWr field => Sys2Proof.Machine.execNdWr field s
  | .ndPayload n => Sys2Proof.Machine.execNdPayload n s
  | .hcSetctx v id => Sys2Proof.Machine.execHcSetctx v id s
  | .hcRdctx w id => Sys2Proof.Machine.execHcRdctx w id s
  | .hcDecomp off => Sys2Proof.Machine.execHcDecomp off s
  | .hcComp u => Sys2Proof.Machine.execHcComp u s
  | .sysReset => Sys2Proof.Machine.execSysReset s
  | .sysCfg => Sys2Proof.Machine.execSysCfg s
  | .wireMacFcf f => Sys2Proof.Machine.execWireMacFcf f s
  | .wireNhHbh => Sys2Proof.Machine.execWireNhHbh s
  | .wireNhTcp => Sys2Proof.Machine.execWireNhTcp s
  | .wireNhUdp => Sys2Proof.Machine.execWireNhUdp s
  | .wireNhIcmpv6 => Sys2Proof.Machine.execWireNhIcmpv6 s
  | .wireIphc h => Sys2Proof.Machine.execWireIphc h s
  | .wireNhcUdp c p => Sys2Proof.Machine.execWireNhcUdp c p s
  | .wireTcpoptMss mss => Sys2Proof.Machine.execWireTcpoptMss mss s

end Sys2Proof.Machine
end

