-- ==== Sys2Proof/Machine/Fetch.lean ====
section
/-! DEFINITION. How the next instruction reaches the engine: the host's transaction (10_state.md R50, R51), and where a
wire unit stands so that the next command meets it (log 3, log 13). -/

namespace Sys2Proof.Machine

/-- A word that is no legal command (30_encoding.md R105). -/
def illegal (s : State) : Out := raise ⟨.illegalCommand, 0⟩ s

/-- The transaction of a command word with operand words 0, and as many zero data bytes as the command names. -/
def zeroTransaction (w : Word) : Transaction where
  cmd := w
  arg0 := 0
  arg1 := 0
  data := match decodeCommand w with
    | some i => List.replicate i.dataLen 0
    | none => []

/-- The host presents a transaction next. -/
def State.pushTransaction (s : State) (t : Transaction) : State := { s with program := t :: s.program }

/-- FB holds a frame. -/
def State.placeFrame (s : State) (bs : List Byte) : State := { s with fb := Memory.ofBytes bs }

/-- PB holds a packet whose payload is `pay` and whose first dispatch byte, `nh`, is the next thing `CH.PARSE`
meets. -/
def State.placePayload (s : State) (nh : Byte) (pay : List Byte) : State :=
  { s with
    hdr := { s.hdr with plen := BitVec.ofNat 16 pay.length, nh := nh }
    cur := 40
    pb := Memory.ofBytes (List.replicate Config.ipHdr 0 ++ pay) }

/-- The word of `MAC.PARSE`, `CH.PARSE`, and `HC.DECOMP header_offset=0`. -/
def macParseWord : Word := cmdWord 0x10 0 0
def chParseWord : Word := cmdWord 0x40 0 0
def hcDecompWord : Word := cmdWord 0x52 0 0

/-- An instruction placed where the next step fetches it: a command as the next transaction; a wire unit in the buffer
where the parse command that is the next transaction meets it, zeros around it. -/
def State.place (s : State) (i : Instr) (w : Nat) : State :=
  match i with
  | .wireMacFcf f =>
    (s.placeFrame ([(encodeFcf f).extractLsb' 0 8, (encodeFcf f).extractLsb' 8 8] ++ List.replicate 21 0)).pushTransaction
      (zeroTransaction macParseWord)
  | .wireNhHbh | .wireNhTcp | .wireNhUdp | .wireNhIcmpv6 =>
    (s.placePayload (BitVec.ofNat 8 w) (List.replicate 40 0)).pushTransaction (zeroTransaction chParseWord)
  | .wireIphc h =>
    (s.placeFrame ([(encodeIphc h).extractLsb' 8 8, (encodeIphc h).extractLsb' 0 8] ++ List.replicate 39 0)).pushTransaction
      (zeroTransaction hcDecompWord)
  | .wireNhcUdp c p =>
    -- behind the IPHC header 7E 4B 00: UDP next header compressed, source `::`, destination ff02::0
    (s.placeFrame ([0x7E, 0x4B, 0x00, encodeNhcUdp c p] ++ List.replicate 8 0)).pushTransaction
      (zeroTransaction hcDecompWord)
  | .wireTcpoptMss mss =>
    -- behind a 20-byte TCP header of zeros with data offset 6
    (s.placePayload 6 (List.replicate 12 0 ++ [0x60] ++ List.replicate 7 0 ++ tobe 4 (encodeMss mss).toNat)).pushTransaction
      (zeroTransaction chParseWord)
  | .bfNew _ | .bfSetbytes _ _ | .bfLen _ | .bfGetb _ _ | .bfGeth _ _ | .bfGetw _ _
  | .bfSetb _ _ | .bfSeth _ _ | .bfSetw _ _ | .atSet _ | .atGet _
  | .macParse | .macRd _ | .macWr _ | .ckLoad | .ckPseudo _ | .ckRun _ _ | .ckFinal
  | .ipNew | .ipParse | .ipSerialize | .ipRd _ | .ipWr _ | .ipIsll _ | .ipIsmc _
  | .chParse | .chClear | .chPush _ | .chRd _ _ | .chRdp _ | .chLen | .ndWr _ | .ndPayload _
  | .hcSetctx _ _ | .hcRdctx _ _ | .hcDecomp _ | .hcComp _ | .sysReset | .sysCfg =>
    s.pushTransaction (zeroTransaction (BitVec.ofNat 32 w))

/-- The instruction of an opcode-table word placed where the next step fetches it; a word that decodes to none is
presented as a command all the same. -/
def State.placeWord (s : State) (nbits w : Nat) : State :=
  match decodeTableWord nbits w with
  | some i => s.place i w
  | none => s.pushTransaction (zeroTransaction (BitVec.ofNat 32 w))

end Sys2Proof.Machine
end

