-- ==== Sys2Proof/Machine/Step.lean ====
section
/-! DEFINITION. One step: one command transaction to completion (10_state.md R51). -/

namespace Sys2Proof.Machine

/-- One step. With no transaction presented the engine holds its state (60_exceptions.md R422; log 5). -/
def step (s : State) : Host.Outcome State Fault Refusal :=
  match s.program with
  | [] => .next s
  | t :: rest =>
    match decodeCommand t.cmd with
    | some i => exec i (s.present t rest)
    | none => illegal (s.present t rest)

/-- `s` with an opcode-table row's word placed so that the very next step runs it (log 3, log 13). -/
def State.withFetchWord (s : State) (nbits w : Nat) : State := s.placeWord nbits w

end Sys2Proof.Machine
end

