-- ==== Sys2Proof/Safety.lean ====
section
/-! DEFINITION. The terms the statements use: the fields of `STATUS`, the invariant of the engine's state, the legal
command words, which command writes what, and the spec's arithmetic said a second time, by number. -/

namespace Sys2Proof.Machine

/-! ## STATUS (10_state.md R33) -/

/-- `STATUS.ERR`, bits 3:0. -/
def errField (w : Word) : Nat := w.toNat % 16
/-- The three `W_` bits, bits 6:4: 1 `W_BADVER`, 2 `W_UNKDISP`, 4 `W_CKSUM`. -/
def warnField (w : Word) : Nat := w.toNat / 16 % 8
/-- The reserved bits 15:7. -/
def reservedField (w : Word) : Nat := w.toNat / 128 % 512
/-- `STATUS.OFF`, bits 31:16. -/
def offField (w : Word) : Nat := w.toNat / 65536

/-- What `STATUS` can hold (10_state.md R33, 60_exceptions.md R400, R408): a code of a fatal kind or 0, at most one
report flag, none beside a fatal error, the reserved bits 0, and an offset only beside an error or a report. -/
abbrev statusOk (w : Word) : Prop :=
  errField w ∈ [0, 1, 2, 3, 6, 7, 8, 9] ∧ warnField w ∈ [0, 1, 2, 4] ∧ reservedField w = 0
    ∧ (errField w ≠ 0 → warnField w = 0) ∧ (errField w = 0 → warnField w = 0 → offField w = 0)

/-- `STATUS = OFF ‖ flags and code` (60_exceptions.md R403). -/
def statusWord (code off : Nat) : Word := BitVec.ofNat 32 (off % 65536 * 65536 + code)

/-- The command ended with `code` at `off` and changed nothing but `STATUS` (60_exceptions.md R403, R404). -/
def failed (code off : Nat) (s : State) : Out := .next { s with status := statusWord code off }

/-- The same for a command that uses the checksum unit: `ACC` takes some value `v` (60_exceptions.md R406), and the
model's count of free values some value `d`. -/
def failedAny (code off : Nat) (v : Word) (d : Nat) (s : State) : Out :=
  .next { s with status := statusWord code off, acc := v, draws := d }

/-! ## The invariant -/

/-- Every node but the last is HBH (10_state.md R27). -/
def chainShape : List Node → Bool
  | [] => true
  | [_] => true
  | n :: m :: ns => (n.kind == .hbh) && chainShape (m :: ns)

/-- A node holds 0 in every field its kind does not have, a payload within capacity, and as HBH a whole number of
8-byte units (10_state.md R28, 44_chain.md R263, R271). -/
abbrev nodeOk (p : Config.Params) (n : Node) : Prop :=
  n.payload.length ≤ p.npCap ∧ n.f = n.f.only n.kind ∧ (hasField n.kind .ckok = false → n.ckok = false)
    ∧ (n.kind = .hbh → (n.payload.length + 2) % 8 = 0 ∧ n.payload.length ≤ 2046)

/-- The invariant of the engine's state: parameters within their constraints (93_implementation_defined.md Part 3),
both buffers in canonical form and within capacity (10_state.md R21, R22), `N_ATTR` attribute slots (R23), the chain within `CHAIN_MAX` and of the
shape of R27, its nodes and the staging payload within capacity (R28, R29), the reserved bits of `CONFIG` and
`STATUS` 0 (R32, R33). -/
abbrev State.inv (s : State) : Prop :=
  s.par.wf ∧ s.fb.wf ∧ s.pb.wf ∧ s.fb.len ≤ s.par.fbCap ∧ s.pb.len ≤ s.par.pbCap
    ∧ s.attr.length = s.par.nAttr ∧ s.chain.length ≤ s.par.chainMax ∧ chainShape s.chain = true ∧ (∀ n ∈ s.chain, nodeOk s.par n)
    ∧ s.node.payload.length ≤ s.par.npCap ∧ s.config.toNat < 2 ∧ statusOk s.status

/-! ## The legal command words (30_encoding.md R105; opcode_table.json's match and mask) -/

/-- Rows of `match`, `mask`, and the selectors the row's note takes out. -/
def legalRows : List (Word × Word × (Nat → Bool)) :=
  [(0x01000000, 0xFFFEFFFF, fun _ => true), (0x02000000, 0xFFFE0000, fun _ => true),
   (0x03000000, 0xFFFEFFFF, fun _ => true), (0x04000000, 0xFFFE0000, fun _ => true),
   (0x05000000, 0xFFFE0000, fun _ => true), (0x06000000, 0xFFFE0000, fun _ => true),
   (0x07000000, 0xFFFE0000, fun _ => true), (0x08000000, 0xFFFE0000, fun _ => true),
   (0x09000000, 0xFFFE0000, fun _ => true), (0x0A000000, 0xFFF8FFFF, fun _ => true),
   (0x0B000000, 0xFFF8FFFF, fun _ => true)]
  ++ [(0x10000000, 0xFFFFFFFF, fun _ => true), (0x11000000, 0xFFF0FFFF, fun _ => true),
      (0x12000000, 0xFFF0FFFF, fun _ => true), (0x20000000, 0xFFFFFFFF, fun _ => true),
      (0x21000000, 0xFFFFFF00, fun _ => true), (0x22000000, 0xFFFE0000, fun _ => true),
      (0x23000000, 0xFFFFFFFF, fun _ => true)]
  ++ [(0x30000000, 0xFFFFFFFF, fun _ => true), (0x31000000, 0xFFFFFFFF, fun _ => true),
      (0x32000000, 0xFFFFFFFF, fun _ => true), (0x33000000, 0xFFF0FFFF, fun a => a != 7),
      (0x34000000, 0xFFF0FFFF, fun a => a != 7), (0x35000000, 0xFFFEFFFF, fun _ => true),
      (0x36000000, 0xFFFEFFFF, fun _ => true)]
  ++ [(0x40000000, 0xFFFFFFFF, fun _ => true), (0x41000000, 0xFFFFFFFF, fun _ => true),
      (0x42000000, 0xFFF8FFFF, fun a => decide (a ≤ 4)), (0x43000000, 0xFFE00000, fun a => decide (a ≤ 20)),
      (0x44000000, 0xFFFF0000, fun _ => true), (0x45000000, 0xFFFFFFFF, fun _ => true),
      (0x46000000, 0xFFE0FFFF, fun a => decide (1 ≤ a ∧ a ≤ 17)), (0x47000000, 0xFFFF0000, fun _ => true)]
  ++ [(0x50000000, 0xFFFEFF00, fun _ => true), (0x51000000, 0xFFFCFF00, fun a => decide (a ≤ 2)),
      (0x52000000, 0xFFFF0000, fun _ => true), (0x53000000, 0xFFFEFFFF, fun _ => true),
      (0x70000000, 0xFFFFFFFF, fun _ => true), (0x71000000, 0xFFFFFFFF, fun _ => true)]

/-- A word some row of the table matches, with a selector in the legal range (`a = cmd[23:16]`). -/
abbrev LegalWord (w : Word) : Prop :=
  ∃ r ∈ legalRows, w &&& r.2.1 = r.1 ∧ r.2.2 (w.toNat / 65536 % 256) = true

/-! ## Which instruction writes, raises and reports what -/

/-- The components of the engine's state (10_state.md R20). -/
inductive Component where
  | fb | pb | attr | mac | hdr | cur | chain | node | ctx | acc | config | res
  deriving DecidableEq, Repr

/-- The instructions that use the checksum unit internally and leave `ACC <- any` (42_checksum.md R220), the wire
units their parsers run on among them. -/
def clobbersAcc : Instr → Bool
  | .chParse | .ipSerialize | .hcDecomp _ => true
  | .wireNhHbh | .wireNhTcp | .wireNhUdp | .wireNhIcmpv6 | .wireIphc _ | .wireNhcUdp _ _ | .wireTcpoptMss _ => true
  | _ => false

/-- The components an instruction may write beside `STATUS`: the writers 10_state.md R21 to R34 list for each. -/
def written : Instr → List Component
  | .bfNew .fb => [.fb, .attr, .mac]
  | .bfNew .pb => [.pb]
  | .bfSetbytes .fb _ | .bfSetb .fb _ | .bfSeth .fb _ | .bfSetw .fb _ => [.fb]
  | .bfSetbytes .pb _ | .bfSetb .pb _ | .bfSeth .pb _ | .bfSetw .pb _ => [.pb]
  | .bfLen _ | .bfGetb _ _ | .bfGeth _ _ | .bfGetw _ _ | .atGet _ | .macRd _ => [.res]
  | .atSet _ => [.attr]
  | .macParse | .wireMacFcf _ => [.mac, .attr]
  | .macWr _ => [.mac]
  | .ckLoad => [.acc]
  | .ckPseudo _ | .ckRun _ _ => [.acc, .res]
  | .ckFinal | .ipRd _ | .ipIsll _ | .ipIsmc _ | .chRd _ _ | .chRdp _ | .chLen | .hcRdctx _ _ => [.res]
  | .ipNew => [.hdr, .cur, .chain, .node, .pb]
  | .ipParse => [.hdr, .cur, .chain]
  | .ipSerialize => [.hdr, .cur, .chain, .pb, .acc]
  | .ipWr .cur => [.cur]
  | .ipWr _ => [.hdr]
  | .chParse | .wireNhHbh | .wireNhTcp | .wireNhUdp | .wireNhIcmpv6 | .wireTcpoptMss _ => [.chain, .cur, .acc]
  | .chClear | .chPush _ => [.chain]
  | .ndWr _ | .ndPayload _ => [.node]
  | .hcSetctx _ _ => [.ctx]
  | .hcDecomp _ | .wireIphc _ => [.hdr, .cur, .chain, .pb, .attr, .acc]
  | .wireNhcUdp _ _ => [.hdr, .cur, .chain, .pb, .acc]
  | .hcComp _ => [.fb]
  | .sysReset => [.fb, .pb, .attr, .mac, .hdr, .cur, .chain, .node, .ctx, .acc, .config, .res]
  | .sysCfg => [.config]

/-- Two states agree in a component. -/
def agree (s t : State) : Component → Prop
  | .fb => t.fb = s.fb
  | .pb => t.pb = s.pb
  | .attr => t.attr = s.attr
  | .mac => t.mac = s.mac
  | .hdr => t.hdr = s.hdr
  | .cur => t.cur = s.cur
  | .chain => t.chain = s.chain
  | .node => t.node = s.node
  | .ctx => t.ctx = s.ctx
  | .acc => t.acc = s.acc ∧ t.draws = s.draws
  | .config => t.config = s.config
  | .res => t.res = s.res

/-- The fatal codes an instruction can end with (60_exceptions.md R401), `IllegalCommand` aside, which is the decoder's,
but for a slot id that an attribute file of fewer than 8 slots does not have (log 23). -/
def raises : Instr → List Nat
  | .bfSetbytes _ _ | .bfGetb _ _ | .bfGeth _ _ | .bfGetw _ _ | .bfSetb _ _ | .bfSeth _ _ | .bfSetw _ _ => [1]
  | .ckRun _ _ | .chRd _ _ | .chRdp _ | .ndPayload _ | .ipSerialize => [1]
  | .atSet _ => [9]
  | .atGet _ => [8, 9]
  | .macParse | .wireMacFcf _ => [2]
  | .chParse | .wireNhHbh | .wireNhTcp | .wireNhUdp | .wireNhIcmpv6 | .wireTcpoptMss _ => [2]
  | .ipParse => [2, 3]
  | .chPush _ => [1, 2]
  | .hcSetctx _ _ | .hcRdctx _ _ => [6]
  | .hcDecomp _ | .wireIphc _ => [1, 2, 7]
  | .wireNhcUdp _ _ => [1, 2]
  | .hcComp _ => [1, 2, 3]
  | _ => []

/-- The reports an instruction can make (60_exceptions.md R401, R408), as the value of the `W_` bits. -/
def reports : Instr → List Nat
  | .ipParse => [1]
  | .chParse | .wireNhHbh => [2, 4]
  | .wireNhTcp | .wireNhUdp | .wireNhIcmpv6 | .wireTcpoptMss _ => [4]
  | _ => []

/-- The commands that take data bytes (10_state.md R50). -/
def takesData : Instr → Bool
  | .bfSetbytes _ _ | .ndPayload _ => true
  | _ => false

/-! ## Widths (10_state.md R24, R25, R28) -/

def macWidth : MacReg → Nat
  | .ftype => 3 | .sec => 1 | .pend => 1 | .ar => 1 | .panc => 1 | .dmode => 2 | .fver => 2 | .smode => 2
  | .seq => 8 | .dpan => 16 | .span => 16 | .daddrHi => 32 | .daddrLo => 32 | .saddrHi => 32 | .saddrLo => 32
  | .hlen => 8

def ipWidth : IpReg → Nat
  | .ver => 4 | .tc => 8 | .fl => 20 | .plen => 16 | .nh => 8 | .hlim => 8 | .cur => 16
  | .src0 | .src1 | .src2 | .src3 | .dst0 | .dst1 | .dst2 | .dst3 => 32

/-- The width of a stageable node field; the read-only ids take no write. -/
def fieldWidth : NodeField → Nat
  | .nh | .hlen | .itype | .code => 8
  | .sport | .dport | .window | .cksum | .urg | .mss | .length | .ident | .seqno => 16
  | .seq | .ack => 32
  | .doff => 4
  | .flags => 6
  | .kind | .ckok | .paylen | .offset => 0

/-! ## Arithmetic by number -/

/-- The sum of the 16-bit big-endian words of a byte sequence, a last odd byte the high byte of a word: the byte at
an even place counts 256-fold (42_checksum.md R210). -/
def wordSum (bs : List Byte) : Nat :=
  ∑ i ∈ Finset.range bs.length, (byteAt bs i).toNat * (if i % 2 = 0 then 256 else 1)

/-- The sum of the eight 16-bit words of an address (42_checksum.md R212). -/
def addrSum (a : Addr) : Nat := ∑ k ∈ Finset.range 8, a.toNat / 65536 ^ k % 65536

/-- The end-around-carry sum of a number in 16 bits: 0 only for 0 (42_checksum.md R219 (c)). -/
def fold16 (n : Nat) : Nat := if n = 0 then 0 else (n - 1) % 65535 + 1

/-! ## Wire forms, byte by byte -/

/-- The two bytes of a 16-bit field and the four of a 32-bit one, big-endian (20_memory.md R73). -/
def b2 (h : Half) : List Byte := [h.extractLsb' 8 8, h.extractLsb' 0 8]
def b4 (w : Word) : List Byte := [w.extractLsb' 24 8, w.extractLsb' 16 8, w.extractLsb' 8 8, w.extractLsb' 0 8]

/-- The eight bytes of a 64-bit half of an address and the sixteen of an address, first on the wire first (00_scope.md
R9). -/
def b8 (d : DWord) : List Byte := b4 (d.extractLsb' 32 32) ++ b4 (d.extractLsb' 0 32)
def b16 (a : Addr) : List Byte := b8 (a.extractLsb' 64 64) ++ b8 (a.extractLsb' 0 64)

/-- The 16-bit and 32-bit fields at a place of a segment. -/
def h16 (seg : List Byte) (i : Nat) : Half := byteAt seg i ++ byteAt seg (i + 1)
def h32 (seg : List Byte) (i : Nat) : Word := byteAt seg i ++ byteAt seg (i + 1) ++ byteAt seg (i + 2) ++ byteAt seg (i + 3)

/-- A number in `n` bytes, least significant first (30_encoding.md R113). -/
def leBytes : Nat → Nat → List Byte
  | 0, _ => []
  | n + 1, v => BitVec.ofNat 8 v :: leBytes n (v / 256)

/-- The frame control of MAC registers, with reserved bits `rsv` (30_encoding.md R111). -/
def fcfWith (m : MacRegs) (rsv : BitVec 3) : Fcf :=
  { smode := m.smode, fver := m.fver, dmode := m.dmode, rsv := rsv, panc := m.panc, ar := m.ar, pend := m.pend
    sec := m.sec, ftype := m.ftype }

/-- The MAC header bytes of MAC registers (30_encoding.md R110 to R113). -/
def macHeader (m : MacRegs) (rsv : BitVec 3) : List Byte :=
  let f := encodeFcf (fcfWith m rsv)
  [f.extractLsb' 0 8, f.extractLsb' 8 8, m.seq]
    ++ (if m.dmode = 0 then [] else leBytes 2 m.dpan.toNat ++ leBytes (alen m.dmode) m.daddr.toNat)
    ++ (if m.smode = 0 then []
        else (if m.panc = 1 then [] else leBytes 2 m.span.toNat) ++ leBytes (alen m.smode) m.saddr.toNat)

/-- MAC registers that stand for a frame's header (30_encoding.md R112, 41_mac.md R190, R191). -/
abbrev macConsistent (m : MacRegs) : Prop :=
  m.dmode ≠ 1 ∧ m.smode ≠ 1 ∧ (m.panc = 1 → m.dmode ≠ 0 ∧ m.smode ≠ 0)
    ∧ (m.dmode = 0 → m.dpan = 0 ∧ m.daddr = 0) ∧ (m.dmode = 2 → m.daddr.toNat < 65536)
    ∧ (m.smode = 0 → m.span = 0 ∧ m.saddr = 0) ∧ (m.smode = 2 → m.saddr.toNat < 65536)
    ∧ (m.panc = 1 → m.span = m.dpan) ∧ m.hlen.toNat = (macHeader m 0).length

/-! ## The payload parsers' terms (44_chain.md) -/

/-- What the parsers ask before the first node (44_chain.md R260): the payload lies in PB and the cursor in it. -/
abbrev State.atPayload (s : State) : Prop :=
  40 + s.hdr.plen.toNat ≤ s.pb.len ∧ 40 ≤ s.cur.toNat ∧ s.cur.toNat ≤ 40 + s.hdr.plen.toNat

/-- The bytes from the cursor to the payload's end. -/
def State.rest (s : State) : List Byte := slice s.pb.bytes s.cur.toNat (s.payEnd - s.cur.toNat)

/-- The parse ended with chain `l`, the cursor at `c`, `STATUS = st`, `ACC` any `v` (44_chain.md R260). -/
def parsed (l : List Node) (c : Nat) (st : Word) (v : Word) (d : Nat) (s : State) : Out :=
  .next { s with chain := l, cur := BitVec.ofNat 16 c, acc := v, draws := d, status := st }

/-- A segment's checksum field, at `k`, is the one recomputed (42_checksum.md R214). -/
def State.ckGood (s : State) (nh : Byte) (seg : List Byte) (k : Nat) : Bool :=
  transportCk s.hdr.src s.hdr.dst nh seg k == h16 seg k

/-- `STATUS` after a transport node: plain, or the mismatch reported at `off` (60_exceptions.md R408). -/
def ckStatus (ok : Bool) (off : Nat) : Word := if ok then 0 else statusWord 0x40 off

/-- The data offset of a TCP segment. -/
def tcpDoff (seg : List Byte) : BitVec 4 := (byteAt seg 12).extractLsb' 4 4

/-- The value of an MSS option standing first among the options (44_chain.md R264). -/
def tcpMss (seg : List Byte) : Half :=
  if 6 ≤ (tcpDoff seg).toNat ∧ byteAt seg 20 = 2 ∧ byteAt seg 21 = 4 then h16 seg 22 else 0

/-- The TCP node of a segment (44_chain.md R264). -/
def tcpNode (seg : List Byte) (off mss : Half) (ok : Bool) : Node :=
  { kind := .tcp
    f := { sport := h16 seg 0, dport := h16 seg 2, seq := h32 seg 4, ack := h32 seg 8, doff := tcpDoff seg
           flags := (byteAt seg 13).extractLsb' 0 6, window := h16 seg 14, cksum := h16 seg 16, urg := h16 seg 18
           mss := mss }
    ckok := ok, payload := seg.drop (4 * (tcpDoff seg).toNat), offset := off }

/-- The UDP node of a segment (44_chain.md R265). -/
def udpNode (seg : List Byte) (off : Half) (ok : Bool) : Node :=
  { kind := .udp, f := { sport := h16 seg 0, dport := h16 seg 2, length := h16 seg 4, cksum := h16 seg 6 }
    ckok := ok, payload := seg.drop 8, offset := off }

/-- The ICMPv6 node of a segment (44_chain.md R266): types 128 and 129 are echoes. -/
def icmpNode (seg : List Byte) (off : Half) (ok : Bool) : Node :=
  if byteAt seg 0 = 128 ∨ byteAt seg 0 = 129 then
    { kind := .icmp, f := { itype := byteAt seg 0, code := byteAt seg 1, cksum := h16 seg 2, ident := h16 seg 4
                            seqno := h16 seg 6 }
      ckok := ok, payload := seg.drop 8, offset := off }
  else
    { kind := .icmp, f := { itype := byteAt seg 0, code := byteAt seg 1, cksum := h16 seg 2 }
      ckok := ok, payload := seg.drop 4, offset := off }

/-- The RAW node of unparsed bytes (44_chain.md R267). -/
def rawNode (bytes : List Byte) (off : Half) : Node := { kind := .raw, payload := bytes, offset := off }

/-- The size a Hop-by-Hop header declares, its options, and its node (44_chain.md R263). -/
def hbhSize (seg : List Byte) : Nat := 8 * ((byteAt seg 1).toNat + 1)
def hbhOptions (seg : List Byte) : List Byte := (seg.take (hbhSize seg)).drop 2
def hbhNode (seg : List Byte) (off : Half) : Node :=
  { kind := .hbh, f := { nh := byteAt seg 0, hlen := byteAt seg 1 }, payload := hbhOptions seg, offset := off }

/-- An options area whose options end exactly at its end (44_chain.md R263). -/
inductive Framed : List Byte → Prop where
  | empty : Framed []
  | pad1 {rest : List Byte} : Framed rest → Framed (0 :: rest)
  | option {t l : Byte} {data rest : List Byte} :
      t ≠ 0 → data.length = l.toNat → Framed rest → Framed (t :: l :: (data ++ rest))

/-- A dispatch byte the registry does not know (30_encoding.md R120, 44_chain.md R267). -/
abbrev unknownNh (b : Byte) : Prop := b ≠ 0 ∧ b ≠ 6 ∧ b ≠ 17 ∧ b ≠ 58

/-! ## Serialization's terms (45_serialize.md) -/

/-- The byte count of a chain (45_serialize.md R301). -/
def totalSize (l : List Node) : Nat := (l.map Node.size).sum

/-- The dispatch byte of a kind, or `nh` where it has none (45_serialize.md R302). -/
def dispOr (k : Kind) (nh : Byte) : Byte :=
  match k with
  | .hbh => 0 | .tcp => 6 | .udp => 17 | .icmp => 58 | .raw => nh

/-- The bytes a node's fields stand for (45_serialize.md R304 to R308). -/
def nodeBytes (n : Node) : List Byte :=
  let f := n.f
  match n.kind with
  | .hbh => [f.nh, f.hlen] ++ n.payload
  | .tcp =>
    b2 f.sport ++ b2 f.dport ++ b4 f.seq ++ b4 f.ack ++ [f.doff ++ 0#4, 0#2 ++ f.flags] ++ b2 f.window ++ b2 f.cksum
      ++ b2 f.urg ++ (if f.flags.getLsbD 1 then [2, 4] ++ b2 f.mss else []) ++ n.payload
  | .udp => b2 f.sport ++ b2 f.dport ++ b2 f.length ++ b2 f.cksum ++ n.payload
  | .icmp =>
    [f.itype, f.code] ++ b2 f.cksum ++ (if f.itype = 128 ∨ f.itype = 129 then b2 f.ident ++ b2 f.seqno else [])
      ++ n.payload
  | .raw => n.payload

/-- A node with the fields `g` and its checksum, which stands at `k` of its bytes, computed (42_checksum.md R213). -/
def Node.summed (src dst : Addr) (nh : Byte) (k : Nat) (n : Node) (g : NodeFields) : Node :=
  let zero := { n with f := { g with cksum := 0 } }
  { n with f := { g with cksum := transportCk src dst nh (nodeBytes zero) k }, ckok := true }

/-- A node with the fields serialize recomputes, every other field as it was (45_serialize.md R303 to R308). -/
def Node.recomputed (src dst : Addr) (n : Node) : Node :=
  match n.kind with
  | .hbh => { n with f := { n.f with hlen := BitVec.ofNat 8 ((n.payload.length + 2) / 8 - 1) } }
  | .tcp => n.summed src dst 6 16 { n.f with doff := if n.f.flags.getLsbD 1 then 6 else 5 }
  | .udp => n.summed src dst 17 6 { n.f with length := BitVec.ofNat 16 (8 + n.payload.length) }
  | .icmp => n.summed src dst 58 2 n.f
  | .raw => n

/-- A node whose fields come back when its bytes are parsed (45_serialize.md R309 (a)): an `MSS` beside SYN only, an
identifier and a sequence number in an echo only, options that end where the area ends. -/
def reparses (n : Node) : Prop :=
  match n.kind with
  | .hbh => Framed n.payload
  | .tcp => n.f.flags.getLsbD 1 = false → n.f.mss = 0
  | .udp => True
  | .icmp => n.f.itype ≠ 128 → n.f.itype ≠ 129 → n.f.ident = 0 ∧ n.f.seqno = 0
  | .raw => False

/-- A node whose bytes in PB serialization would write again (45_serialize.md R309 (b)). -/
def reserializes (pb : List Byte) (payEnd : Nat) (n : Node) : Prop :=
  match n.kind with
  | .tcp =>
    n.f.doff = (if n.f.flags.getLsbD 1 then 6 else 5)
      ∧ (n.f.flags.getLsbD 1 = true → byteAt pb (n.offset.toNat + 20) = 2 ∧ byteAt pb (n.offset.toNat + 21) = 4)
      ∧ (byteAt pb (n.offset.toNat + 12)).extractLsb' 0 4 = 0 ∧ (byteAt pb (n.offset.toNat + 13)).extractLsb' 6 2 = 0
  | .udp => n.offset.toNat + n.f.length.toNat = payEnd
  | .hbh | .icmp | .raw => True

/-! ## The compressed header (30_encoding.md R130 to R140) -/

/-- The two base bytes of an IPHC header (30_encoding.md R130). -/
def iphcBytes (h : Iphc) : List Byte :=
  [0b011#3 ++ h.tf ++ BitVec.ofBool h.nh ++ h.hlim,
   BitVec.ofBool h.cid ++ BitVec.ofBool h.sac ++ h.sam ++ BitVec.ofBool h.m ++ BitVec.ofBool h.dac ++ h.dam]

/-- The inline bytes of traffic class and flow label in form `tf`, with pad bits (30_encoding.md R131). -/
def tfBytes (tf : BitVec 2) (pad : BitVec 4) (tc : Byte) (fl : BitVec 20) : List Byte :=
  let ecn : BitVec 2 := tc.extractLsb' 0 2
  let dscp : BitVec 6 := tc.extractLsb' 2 6
  let high : BitVec 4 := fl.extractLsb' 16 4
  let low : List Byte := [fl.extractLsb' 8 8, fl.extractLsb' 0 8]
  if tf = 0 then [ecn ++ dscp, pad ++ high] ++ low
  else if tf = 1 then [ecn ++ pad.extractLsb' 0 2 ++ high] ++ low
  else if tf = 2 then [ecn ++ dscp]
  else []

/-- A traffic class and a flow label form `tf` can carry (30_encoding.md R131). -/
abbrev tfFits (tf : BitVec 2) (tc : Byte) (fl : BitVec 20) : Prop :=
  (tf = 1 → tc.toNat < 4) ∧ (tf = 2 → fl = 0) ∧ (tf = 3 → tc = 0 ∧ fl = 0)

/-- The hop limit of an eliding form (30_encoding.md R133). -/
abbrev hlimFits (hl : BitVec 2) (hlim : Byte) : Prop :=
  (hl = 1 → hlim = 1) ∧ (hl = 2 → hlim = 64) ∧ (hl = 3 → hlim = 255)

/-- The interface identifier of a link-layer address: `0000:00ff:fe00:xxxx` of a short one, of an extended one the
address with the universal/local bit inverted, none without one (30_encoding.md R138). -/
def linkIid (mode : BitVec 2) (l2 : DWord) : Option DWord :=
  if mode = 2 then some (0x000000FFFE00#48 ++ (l2.extractLsb' 0 16 : Half))
  else if mode = 3 then some (l2 ^^^ 0x0200000000000000#64)
  else none

/-- The inline bytes `inl` stand for address `a` in form `ac`, `am`, context `ci`: the tables of 30_encoding.md R135 and,
for a destination (`isSrc` false), R136 with `M = 0`. -/
abbrev State.unicastForm (s : State) (isSrc ac : Bool) (am : BitVec 2) (ci : BitVec 4) (mode : BitVec 2) (l2 : DWord)
    (inl : List Byte) (a : Addr) : Prop :=
  let high : DWord := a.extractLsb' 64 64
  let low : DWord := a.extractLsb' 0 64
  let e := s.ctx.get ci.toFin
  if am = 0 then (if ac then isSrc = true ∧ inl = [] ∧ a = 0 else inl = b16 a)
  else
    (if ac then e.valid = true ∧ high = e.pfx else high = 0xFE80000000000000#64)
    ∧ (am = 1 → inl = b8 low)
    ∧ (am = 2 → low = 0x000000FFFE00#48 ++ (low.extractLsb' 0 16 : Half) ∧ inl = b2 (low.extractLsb' 0 16))
    ∧ (am = 3 → inl = [] ∧ linkIid mode l2 = some low)

/-- The inline bytes `inl` stand for the multicast destination `a`: the table of 30_encoding.md R136 with `M = 1`. -/
abbrev multicastForm (dam : BitVec 2) (inl : List Byte) (a : Addr) : Prop :=
  (dam = 0 → inl = b16 a)
  ∧ (dam = 1 → inl.length = 6 ∧ b16 a = [0xFF] ++ inl.take 1 ++ List.replicate 9 0 ++ inl.drop 1)
  ∧ (dam = 2 → inl.length = 4 ∧ b16 a = [0xFF] ++ inl.take 1 ++ List.replicate 11 0 ++ inl.drop 1)
  ∧ (dam = 3 → inl.length = 1 ∧ b16 a = [0xFF, 0x02] ++ List.replicate 13 0 ++ inl)

/-- The inline fields of an IPHC header. -/
structure Inline where
  sci : BitVec 4 := 0
  dci : BitVec 4 := 0
  pad : BitVec 4 := 0
  src : List Byte := []
  dst : List Byte := []
  deriving DecidableEq, Repr

/-- FB holds at `off` the IPHC header `h` with inline fields `x`, which stands for the header `hd` (but for `PLEN`), and
`body` after it (30_encoding.md R130 to R137). -/
abbrev State.iphcHeader (s : State) (off : Nat) (h : Iphc) (x : Inline) (hd : Hdr) (body : List Byte) : Prop :=
  s.fb.bytes.drop off
    = iphcBytes h ++ (if h.cid then [x.sci ++ x.dci] else []) ++ tfBytes h.tf x.pad hd.tc hd.fl
      ++ (if h.nh then [] else [hd.nh]) ++ (if h.hlim = 0 then [hd.hlim] else []) ++ x.src ++ x.dst ++ body
  ∧ (h.cid = false → x.sci = 0 ∧ x.dci = 0) ∧ tfFits h.tf hd.tc hd.fl ∧ hlimFits h.hlim hd.hlim
  ∧ hd.ver = 6 ∧ (h.nh = true → hd.nh = 17)
  ∧ s.unicastForm true h.sac h.sam x.sci s.mac.smode s.mac.saddr x.src hd.src
  ∧ (if h.m then h.dac = false ∧ multicastForm h.dam x.dst hd.dst
     else s.unicastForm false h.dac h.dam x.dci s.mac.dmode s.mac.daddr x.dst hd.dst)

/-- The inline port bytes of a port form. -/
def portBytes (p : BitVec 2) (sp dp : Half) : List Byte :=
  if p = 0 then b2 sp ++ b2 dp
  else if p = 1 then b2 sp ++ [dp.extractLsb' 0 8]
  else if p = 2 then [sp.extractLsb' 0 8] ++ b2 dp
  else [sp.extractLsb' 0 4 ++ dp.extractLsb' 0 4]

/-- Ports a form can carry. -/
abbrev portsFit (p : BitVec 2) (sp dp : Half) : Prop :=
  (p = 1 → dp.extractLsb' 8 8 = 0xF0#8) ∧ (p = 2 → sp.extractLsb' 8 8 = 0xF0#8)
    ∧ (p = 3 → sp.extractLsb' 4 12 = 0xF0B#12 ∧ dp.extractLsb' 4 12 = 0xF0B#12)

/-- A compressed UDP header, its checksum carried or elided (30_encoding.md R139). -/
structure UdpHeader where
  elided : Bool := false
  form : BitVec 2 := 0
  sport : Half := 0
  dport : Half := 0
  cksum : Half := 0
  deriving DecidableEq, Repr

/-- Its bytes (30_encoding.md R139, R140). -/
def UdpHeader.bytes (q : UdpHeader) : List Byte :=
  [0b11110#5 ++ BitVec.ofBool q.elided ++ q.form] ++ portBytes q.form q.sport q.dport
    ++ (if q.elided then [] else b2 q.cksum)

/-- The UDP segment rebuilt in front of `pay`: its length from the bytes that remain, an elided checksum computed
(46_hc06_decompress.md R331). -/
def UdpHeader.segment (q : UdpHeader) (src dst : Addr) (pay : List Byte) : List Byte :=
  let front := b2 q.sport ++ b2 q.dport ++ b2 (BitVec.ofNat 16 (8 + pay.length))
  front ++ b2 (if q.elided then transportCk src dst 17 (front ++ [0, 0] ++ pay) 6 else q.cksum) ++ pay

/-- What follows an IPHC header: the payload as it stands or, with `NH = 1`, a UDP header in front of it
(46_hc06_decompress.md R330, R331). -/
def hcBody (nh : Bool) (q : UdpHeader) (pay : List Byte) : List Byte := if nh then q.bytes ++ pay else pay
/-- The IPv6 payload it stands for (46_hc06_decompress.md R331). -/
def hcPayload (nh : Bool) (q : UdpHeader) (src dst : Addr) (pay : List Byte) : List Byte :=
  if nh then q.segment src dst pay else pay

/-- The bytes `HC.COMP` writes, in the order of 47_hc06_compress.md R360: the base bytes, the context byte if a context
other than 0 is used (R367), traffic class and flow label, the next header unless the UDP header is compressed (R364),
the hop limit, the source, `::` in full (R365; log 22), the destination, a multicast one in full (R366), the UDP header (R369), the payload. -/
def iphcDatagram (u : Bool) (s : State) : List Byte :=
  let n := s.hdr.plen.toNat
  let pay := (s.pb.bytes.drop 40).take n
  let tf := chooseTf s.hdr.tc s.hdr.fl
  let hl := chooseHlim s.hdr.hlim
  let m := decide (s.hdr.dst.toNat / 2 ^ 120 = 0xFF)
  let se := if s.hdr.src = 0 then ⟨false, 0, 0, List.replicate 16 0⟩ else encAddr s s.hdr.src s.mac.smode s.mac.saddr
  let de := if m then ⟨false, 0, 0, b16 s.hdr.dst⟩ else encAddr s s.hdr.dst s.mac.dmode s.mac.daddr
  let cid := decide (se.ci ≠ 0 ∨ de.ci ≠ 0)
  let udp := u && decide (s.hdr.nh = 17 ∧ 8 ≤ n ∧ (h16 pay 4).toNat = n)
  let ports := encPorts (h16 pay 0) (h16 pay 2)
  iphcBytes { tf := tf.1, nh := udp, hlim := hl.1, cid := cid, sac := se.ac, sam := se.am, m := m, dac := de.ac
              dam := de.am }
    ++ (if cid then [se.ci ++ de.ci] else []) ++ tf.2 ++ (if udp then [] else [s.hdr.nh]) ++ hl.2 ++ se.bytes ++ de.bytes
    ++ (if udp then [0b111100#6 ++ ports.1] ++ ports.2 ++ b2 (h16 pay 6) ++ pay.drop 8 else pay)

/-- IPHC base bytes with nothing inline before the addresses, and the UDP header compressed. -/
def bareIphc (sac : Bool) (sam : BitVec 2) (m dac : Bool) (dam : BitVec 2) : Iphc :=
  { tf := 3, nh := true, hlim := 2, cid := false, sac := sac, sam := sam, m := m, dac := dac, dam := dam }

/-- The IPHC base bytes `h` stand at `off` in FB (30_encoding.md R130). -/
abbrev State.iphcAt (s : State) (off : Nat) (h : Iphc) : Prop :=
  off + 2 ≤ s.fb.len ∧ byteAt s.fb.bytes off ++ byteAt s.fb.bytes (off + 1) = encodeIphc h

end Sys2Proof.Machine
end

