-- ==== Sys2Proof/Certificates/Slice0/Obligations.lean ====
section
/-! DEFINITION. The statements for the provers. Where one says `∃ v d`, the value of `ACC` is any (42_checksum.md R220)
and the model's count of free values is not claimed (log 1). -/

open Sys2Proof Sys2Proof.Machine

/-! ## Encoding -/

/-- Every well-formed command decodes from its own word, with every operand at every value (30_encoding.md R100 to
R105). -/
def Obligations.EncodedCommandsDecodeBack : Prop :=
  ∀ i : Instr, i.isCommand = true → i.wf = true →
    decodeCommand (BitVec.ofNat 32 (encode i)) = some i ∧ decodeTableWord 32 (encode i) = some i

/-- Every word the decoder accepts is the word of the well-formed command it answers: no bit is dropped
(30_encoding.md R100 to R105). -/
def Obligations.DecodedCommandsEncodeBack : Prop :=
  ∀ (w : Word) (i : Instr), decodeCommand w = some i → encode i = w.toNat ∧ i.isCommand = true ∧ i.wf = true

/-- The decoder accepts a word if and only if a row of the opcode table matches it with a selector in the legal range
(30_encoding.md R104, R105). -/
def Obligations.DecoderAcceptsExactlyLegalWords : Prop :=
  ∀ w : Word, (decodeCommand w).isSome = true ↔ LegalWord w

/-- The wire units decode from their bytes and encode back: frame control (30_encoding.md R111), IPHC base bytes (R130),
next-header bytes (R120), UDP NHC byte (R139), MSS option (R124). A frame-control field of the reserved source mode 1
is the one form a 16-bit number alone does not tell from IPHC bytes (log 12, the model's choice). -/
def Obligations.WireUnitsDecodeBack : Prop :=
  (∀ f, decodeFcf (encodeFcf f) = f) ∧ (∀ w, encodeFcf (decodeFcf w) = w)
    ∧ (∀ h, decodeIphc (encodeIphc h) = some h) ∧ (∀ w h, decodeIphc w = some h → encodeIphc h = w)
    ∧ (∀ b v, variantOf b = some v ↔ b = v.disp)
    ∧ (∀ c p, decodeNhcUdp (encodeNhcUdp c p) = some (c, p))
    ∧ (∀ b c p, decodeNhcUdp b = some (c, p) → encodeNhcUdp c p = b)
    ∧ (∀ m, decodeMss (encodeMss m) = some m) ∧ (∀ w m, decodeMss w = some m → encodeMss m = w)
    ∧ (∀ i : Instr, i.isCommand = false → (∀ f, i = .wireMacFcf f → f.smode ≠ 1) →
        decodeTableWord (width i) (encode i) = some i)

/-- Words of the spec's own examples decode to the commands they stand for (40_byteframe.md R164, 41_mac.md R192,
42_checksum.md R216, R217, 43_ipv6.md R232, 44_chain.md R271, R272, R275, 46_hc06_decompress.md R320, R322,
47_hc06_compress.md R371). -/
def Obligations.SpecWordsDecode : Prop :=
  decodeTableWord 32 0x04000002 = some (.bfGetb .fb 2) ∧ decodeTableWord 32 0x110F0000 = some (.macRd .hlen)
    ∧ decodeTableWord 32 0x21000011 = some (.ckPseudo 17) ∧ decodeTableWord 32 0x22010030 = some (.ckRun .pb 48)
    ∧ decodeTableWord 32 0x330F0000 = some (.ipRd .dst3) ∧ decodeTableWord 32 0x42030000 = some (.chPush .icmp)
    ∧ decodeTableWord 32 0x43030001 = some (.chRd .sport 1) ∧ decodeTableWord 32 0x46030000 = some (.ndWr .sport)
    ∧ decodeTableWord 32 0x50010003 = some (.hcSetctx true 3) ∧ decodeTableWord 32 0x52000015 = some (.hcDecomp 21)
    ∧ decodeTableWord 32 0x53010000 = some (.hcComp true) ∧ decodeTableWord 32 0 = none

/-! ## The step -/

/-- A step runs the instruction its transaction's word decodes to, on the state that holds this transaction and the
ones still to come; with no transaction the engine holds its state (10_state.md R51, 60_exceptions.md R422). The list
of transactions is the model's own (log 3, log 4, log 5). -/
def Obligations.StepRunsTheDecodedCommand : Prop :=
  (∀ (s : State) (t : Transaction) (ts : List Transaction) (i : Instr),
      s.program = t :: ts → decodeCommand t.cmd = some i → step s = exec i { s with tx := t, program := ts })
    ∧ ∀ s : State, s.program = [] → step s = .next s

/-- A word that is not legal raises `IllegalCommand(0)` and changes nothing but `STATUS` (30_encoding.md R105). -/
def Obligations.IllegalWordsChangeOnlyStatus : Prop :=
  ∀ (s : State) (t : Transaction) (ts : List Transaction), s.program = t :: ts →
    (¬ LegalWord t.cmd → step s = failed 9 0 { s with tx := t, program := ts })
    ∧ (LegalWord t.cmd → ∃ i, decodeCommand t.cmd = some i ∧ step s = exec i { s with tx := t, program := ts })

/-! ## Invariants and reset -/

/-- Every step keeps the invariant of the engine's state (10_state.md R21, R22, R27 to R29, R32, R33). -/
def Obligations.StepKeepsTheInvariant : Prop := ∀ s s' : State, s.inv → step s = .next s' → s'.inv

/-- The reset state meets the invariant, under every legal choice of the parameters (70_reset_and_hazards.md R441,
93_implementation_defined.md Part 3). -/
def Obligations.ResetMeetsTheInvariant : Prop :=
  State.reset.inv ∧ ∀ p : Config.Params, p.wf → (State.resetWith p).inv

/-- The reset value of every piece of the spec's state (70_reset_and_hazards.md R441). -/
def Obligations.ResetValues : Prop :=
  State.reset.fb.len = 0 ∧ State.reset.pb.len = 0
    ∧ State.reset.attr = List.replicate 8 { valid := false, value := 0 }
    ∧ (∀ r : MacReg, State.reset.mac.get r = 0) ∧ (∀ r : IpReg, State.reset.ipGet r = 0)
    ∧ State.reset.chain = [] ∧ State.reset.node.payload = []
    ∧ (∀ (k : Kind) (f : NodeField), f.stageable = true → ({ kind := k, f := State.reset.node.f } : Node).raw f = 0)
    ∧ (∀ i : Fin 16, State.reset.ctx.get i = { valid := false, pfx := 0 })
    ∧ State.reset.acc = 0 ∧ State.reset.config = 1 ∧ State.reset.status = 0 ∧ State.reset.res = 0

/-! ## Errors, reports, and what changes at all -/

/-- A fatal error is precise and total: only `STATUS`, and `ACC` of `CH.PARSE`, `IP.SERIALIZE` and `HC.DECOMP`, differ
(60_exceptions.md R404). -/
def Obligations.FatalErrorLeavesAllButStatus : Prop :=
  ∀ (s s' : State) (t : Transaction) (ts : List Transaction), s.program = t :: ts → step s = .next s' →
    errField s'.status ≠ 0 →
      s' = { s with tx := t, program := ts, status := s'.status, acc := s'.acc, draws := s'.draws }
      ∧ ((∀ i, decodeCommand t.cmd = some i → clobbersAcc i = false) → s'.acc = s.acc ∧ s'.draws = s.draws)

/-- After every instruction `STATUS` describes one outcome: a fatal code or none, at most one report and none beside an
error, reserved bits 0, an offset only beside an error or a report (10_state.md R33, 60_exceptions.md R400, R403,
R408). -/
def Obligations.StatusDescribesOneOutcome : Prop :=
  ∀ (i : Instr) (s s' : State), exec i s = .next s' → statusOk s'.status

/-- Each command ends only with the errors and the reports the spec lists for it (60_exceptions.md R401, R408); for the
wire units it is the model's choice (log 8), and so is `IllegalCommand` on an absent slot id (log 23). -/
def Obligations.CommandsRaiseOnlyTheirErrors : Prop :=
  ∀ (i : Instr) (s s' : State), i.wf = true → exec i s = .next s' →
    (errField s'.status = 0 ∨ errField s'.status ∈ raises i)
    ∧ (warnField s'.status = 0 ∨ warnField s'.status ∈ reports i)

/-- The context table changes only by a successful `HC.SETCTX` or `SYS.RESET` (60_exceptions.md R407). -/
def Obligations.ContextTableChangesOnlyBySetctxAndReset : Prop :=
  ∀ s s' : State, step s = .next s' → s'.ctx ≠ s.ctx →
    errField s'.status = 0 ∧ ∃ (t : Transaction) (ts : List Transaction), s.program = t :: ts
      ∧ (decodeCommand t.cmd = some .sysReset ∨ ∃ v id, decodeCommand t.cmd = some (.hcSetctx v id))

/-- The frame of every instruction: a component it does not write is as before, every byte of a buffer included; the
parameters, the transaction and the host's list are never changed (10_state.md R21 to R34; log 2, log 14). Those rules
list commands: what the eight wire units write is the model's choice (log 8; that `wire.NHC.UDP` leaves `ATTR`, log 10). -/
def Obligations.ComponentsChangeOnlyByTheirWriters : Prop :=
  ∀ (i : Instr) (s s' : State), exec i s = .next s' →
    (∀ c : Component, c ∉ written i → agree s s' c)
    ∧ (Component.fb ∉ written i → ∀ a, s'.fb.read a = s.fb.read a)
    ∧ (Component.pb ∉ written i → ∀ a, s'.pb.read a = s.pb.read a)
    ∧ (errField s'.status ≠ 0 → s'.res = s.res)
    ∧ s'.par = s.par ∧ s'.tx = s.tx ∧ s'.program = s.program

/-- `CH.PARSE`, `IP.SERIALIZE` and `HC.DECOMP` (and the wire units) leave in `ACC` the next free value, on success and on
failure alike (42_checksum.md R220; the form of the free value is the model's, log 1). -/
def Obligations.ParsersLeaveAccFree : Prop :=
  ∀ (i : Instr) (s s' : State), clobbersAcc i = true → exec i s = .next s' →
    s'.acc = Config.freeAcc s.draws ∧ s'.draws = s.draws + 1

/-- Every command terminates in a next state: success or a fatal error (00_scope.md R14). A transaction whose data is
not the `n` bytes its word names, which the interface cannot present, is refused (log 6, the model's choice); a slot id
that an attribute file of fewer than 8 slots does not have is `IllegalCommand(0)` (log 23, the model's choice). -/
def Obligations.EveryTransactionCompletes : Prop :=
  ∀ (i : Instr) (s : State),
    (takesData i = false ∨ s.tx.data.length = i.dataLen → ∃ s', exec i s = .next s')
    ∧ (takesData i = true → s.tx.data.length ≠ i.dataLen → exec i s = .refused .dataLength)
    ∧ ∀ id : Fin 8, s.attr.length ≤ id.val → exec (.atSet id) s = failed 9 0 s ∧ exec (.atGet id) s = failed 9 0 s

/-! ## Byte Frames and attributes -/

/-- `BF.NEW` empties a buffer; of FB it also clears the attributes and the MAC registers (40_byteframe.md R161). -/
def Obligations.BfNewEmptiesABuffer : Prop :=
  ∀ s : State,
    exec (.bfNew .pb) s = .next { s with pb := [], status := 0 }
    ∧ exec (.bfNew .fb) s = .next { s with
        fb := [], attr := s.attr.map (fun a => { a with valid := false }), mac := {}, status := 0 }
    ∧ ∀ r : MacReg, ({} : MacRegs).get r = 0

/-- `BF.SETBYTES` replaces a buffer's contents, or raises `OutOfRange(cap)` (40_byteframe.md R162). -/
def Obligations.BfSetbytesReplacesTheContents : Prop :=
  ∀ (s : State) (b : Buf) (n : Half), s.tx.data.length = n.toNat →
    (n.toNat ≤ s.cap b → ∃ m : Memory, exec (.bfSetbytes b n) s = .next ({ s with status := 0 }.withBuf b m)
        ∧ m.wf ∧ m.len = n.toNat ∧ ∀ a, m.read a = s.tx.data[a]?)
    ∧ (s.cap b < n.toNat → exec (.bfSetbytes b n) s = failed 1 (s.cap b) s)

/-- `BF.LEN`, `BF.GETB`, `BF.GETH`, `BF.GETW`: the length; the big-endian value of 1, 2, 4 bytes; `OutOfRange(off)` where
one of them lies outside (40_byteframe.md R163 to R166). -/
def Obligations.BfReadsReturnTheBytes : Prop :=
  ∀ (s : State) (b : Buf) (off : Half), (s.buf b).wf →
    exec (.bfLen b) s = .next { s with res := BitVec.ofNat 32 (s.buf b).len, status := 0 }
    ∧ (∀ x0, (s.buf b).read off.toNat = some x0 →
        exec (.bfGetb b off) s = .next { s with res := x0.setWidth 32, status := 0 })
    ∧ (∀ x0 x1, (s.buf b).read off.toNat = some x0 → (s.buf b).read (off.toNat + 1) = some x1 →
        exec (.bfGeth b off) s = .next { s with res := (x0 ++ x1).setWidth 32, status := 0 })
    ∧ (∀ x0 x1 x2 x3, (s.buf b).read off.toNat = some x0 → (s.buf b).read (off.toNat + 1) = some x1 →
        (s.buf b).read (off.toNat + 2) = some x2 → (s.buf b).read (off.toNat + 3) = some x3 →
        exec (.bfGetw b off) s = .next { s with res := x0 ++ x1 ++ x2 ++ x3, status := 0 })
    ∧ ((s.buf b).len < off.toNat + 1 → exec (.bfGetb b off) s = failed 1 off.toNat s)
    ∧ ((s.buf b).len < off.toNat + 2 → exec (.bfGeth b off) s = failed 1 off.toNat s)
    ∧ ((s.buf b).len < off.toNat + 4 → exec (.bfGetw b off) s = failed 1 off.toNat s)

/-- `BF.SETB`, `BF.SETH`, `BF.SETW` store the low 1, 2, 4 bytes of `arg0`, most significant first, at `off`; every other
byte and the length stay; outside the buffer `OutOfRange(off)` and nothing written (40_byteframe.md R167 to R169). -/
def Obligations.BfWritesStoreTheBytes : Prop :=
  ∀ (s : State) (b : Buf) (off : Half), (s.buf b).wf →
    (off.toNat + 1 ≤ (s.buf b).len → ∃ m : Memory,
        exec (.bfSetb b off) s = .next ({ s with status := 0 }.withBuf b m) ∧ m.wf ∧ m.len = (s.buf b).len
        ∧ m.read off.toNat = some (s.tx.arg0.extractLsb' 0 8)
        ∧ ∀ a, a ≠ off.toNat → m.read a = (s.buf b).read a)
    ∧ (off.toNat + 2 ≤ (s.buf b).len → ∃ m : Memory,
        exec (.bfSeth b off) s = .next ({ s with status := 0 }.withBuf b m) ∧ m.wf ∧ m.len = (s.buf b).len
        ∧ m.read off.toNat = some (s.tx.arg0.extractLsb' 8 8) ∧ m.read (off.toNat + 1) = some (s.tx.arg0.extractLsb' 0 8)
        ∧ ∀ a, (a < off.toNat ∨ off.toNat + 2 ≤ a) → m.read a = (s.buf b).read a)
    ∧ (off.toNat + 4 ≤ (s.buf b).len → ∃ m : Memory,
        exec (.bfSetw b off) s = .next ({ s with status := 0 }.withBuf b m) ∧ m.wf ∧ m.len = (s.buf b).len
        ∧ (∀ k, k < 4 → m.read (off.toNat + k) = some (s.tx.arg0.extractLsb' (24 - 8 * k) 8))
        ∧ ∀ a, (a < off.toNat ∨ off.toNat + 4 ≤ a) → m.read a = (s.buf b).read a)
    ∧ ((s.buf b).len < off.toNat + 1 → exec (.bfSetb b off) s = failed 1 off.toNat s)
    ∧ ((s.buf b).len < off.toNat + 2 → exec (.bfSeth b off) s = failed 1 off.toNat s)
    ∧ ((s.buf b).len < off.toNat + 4 → exec (.bfSetw b off) s = failed 1 off.toNat s)

/-- `AT.SET` and `AT.GET` are a mapping on the slots of the attribute file; an absent key raises `AttributeNotFound(0)`
(40_byteframe.md R170, R171). -/
def Obligations.AttributesAreAMapping : Prop :=
  ∀ (s : State) (id : Fin 8) (a : Slot), s.attr[id.val]? = some a →
    (∃ l : List Slot, exec (.atSet id) s = .next { s with attr := l, status := 0 }
        ∧ l.length = s.attr.length ∧ l[id.val]? = some { valid := true, value := s.tx.arg0 }
        ∧ ∀ j, j ≠ id.val → l[j]? = s.attr[j]?)
    ∧ (a.valid = true → exec (.atGet id) s = .next { s with res := a.value, status := 0 })
    ∧ (a.valid = false → exec (.atGet id) s = failed 8 0 s)

/-! ## The frame classifier -/

/-- A frame that is the header of some MAC registers followed by anything parses to those registers, the frame type and
the header length going to attributes 0 and 1; and every frame that parses is of that form (30_encoding.md R110 to
R113, 41_mac.md R190, R191, R194). The wire unit does the same (log 8). -/
def Obligations.MacParseReadsTheHeader : Prop :=
  (∀ (s : State) (m : MacRegs) (rsv : BitVec 3) (pay : List Byte), macConsistent m →
    s.fb.bytes = macHeader m rsv ++ pay →
      let t : State := { s with
        mac := m, status := 0
        attr := (s.attr.set 0 { valid := true, value := m.ftype.setWidth 32 }).set 1
          { valid := true, value := m.hlen.setWidth 32 } }
      exec .macParse s = .next t ∧ exec (.wireMacFcf (fcfWith m rsv)) s = .next t)
  ∧ ∀ s s' : State, exec .macParse s = .next s' → s'.status = 0 →
      macConsistent s'.mac ∧ ∃ rsv pay, s.fb.bytes = macHeader s'.mac rsv ++ pay

/-- The four failures of `MAC.PARSE`, in their order (41_mac.md R195). -/
def Obligations.MacParseFailures : Prop :=
  ∀ s : State,
    let b0 := byteAt s.fb.bytes 0
    let b1 := byteAt s.fb.bytes 1
    let dmode := b1.extractLsb' 2 2
    let smode := b1.extractLsb' 6 2
    let panc := b0.getLsbD 6
    let hlen := 3 + (if dmode = 0 then 0 else if dmode = 2 then 4 else 10)
      + (if smode = 0 then 0 else (if panc then 0 else 2) + (if smode = 2 then 2 else 8))
    (s.fb.len < 3 → exec .macParse s = failed 2 s.fb.len s)
    ∧ (3 ≤ s.fb.len → (dmode = 1 ∨ smode = 1) → exec .macParse s = failed 2 1 s)
    ∧ (3 ≤ s.fb.len → dmode ≠ 1 → smode ≠ 1 → panc = true → (dmode = 0 ∨ smode = 0) →
        exec .macParse s = failed 2 0 s)
    ∧ (3 ≤ s.fb.len → dmode ≠ 1 → smode ≠ 1 → (panc = true → dmode ≠ 0 ∧ smode ≠ 0) → s.fb.len < hlen →
        exec .macParse s = failed 2 s.fb.len s)

/-- `MAC.RD` returns a register zero-extended, `MAC.WR` writes it with the upper bits of `arg0` dropped, no other
register changed (41_mac.md R192, R193; widths 10_state.md R24). -/
def Obligations.MacRegistersReadAndWrite : Prop :=
  ∀ (s : State) (r : MacReg),
    exec (.macRd r) s = .next { s with res := s.mac.get r, status := 0 }
    ∧ (s.mac.get r).toNat < 2 ^ macWidth r
    ∧ ∃ m : MacRegs, exec (.macWr r) s = .next { s with mac := m, status := 0 }
        ∧ (m.get r).toNat = s.tx.arg0.toNat % 2 ^ macWidth r ∧ ∀ r', r' ≠ r → m.get r' = s.mac.get r'

/-! ## The header registers -/

/-- `IP.RD` returns a header register or the cursor zero-extended, `IP.WR` writes it with the upper bits of `arg0`
dropped, no other register changed (43_ipv6.md R232, R233; widths 10_state.md R25). -/
def Obligations.HeaderRegistersReadAndWrite : Prop :=
  ∀ (s : State) (r : IpReg),
    exec (.ipRd r) s = .next { s with res := s.ipGet r, status := 0 }
    ∧ (s.ipGet r).toNat < 2 ^ ipWidth r
    ∧ ∃ (h : Hdr) (c : Half), exec (.ipWr r) s = .next { s with hdr := h, cur := c, status := 0 }
        ∧ ((({ s with hdr := h, cur := c } : State).ipGet r).toNat = s.tx.arg0.toNat % 2 ^ ipWidth r)
        ∧ ∀ r', r' ≠ r → ({ s with hdr := h, cur := c } : State).ipGet r' = s.ipGet r'

/-- `IP.NEW` sets the construction defaults and empties PB, the chain and the staging node (43_ipv6.md R230). -/
def Obligations.IpNewSetsTheDefaults : Prop :=
  ∀ s : State, exec .ipNew s = .next { s with
    hdr := { ver := 6, tc := 0, fl := 0, plen := 0, nh := 59, hlim := 64, src := 0, dst := 0 }
    cur := 0, chain := [], node := {}, pb := [], status := 0 }

/-- The 40 header bytes: version, traffic class and flow label in the first four, then `PLEN`, `NH`, `HLIM`, `SRC`, `DST`,
big-endian (30_encoding.md R117, 45_serialize.md R303); bytes and registers determine each other. -/
def Obligations.HeaderBytesAndRegistersAgree : Prop :=
  (∀ h : Hdr, headerBytes h
      = [h.ver ++ (h.tc.extractLsb' 4 4 : BitVec 4), (h.tc.extractLsb' 0 4 : BitVec 4) ++ (h.fl.extractLsb' 16 4 : BitVec 4),
          h.fl.extractLsb' 8 8, h.fl.extractLsb' 0 8]
        ++ b2 h.plen ++ [h.nh, h.hlim] ++ b16 h.src ++ b16 h.dst)
  ∧ (∀ (h : Hdr) (pay : List Byte), hdrOf (headerBytes h ++ pay) = h)
  ∧ ∀ bs : List Byte, 40 ≤ bs.length → headerBytes (hdrOf bs) = bs.take 40

/-- `IP.PARSE` loads the registers from the 40 header bytes; a version other than 6 is fatal when strict and reported when
not; fewer than 40 bytes are malformed (43_ipv6.md R231). -/
def Obligations.IpParseLoadsTheRegisters : Prop :=
  ∀ s : State,
    (s.pb.len < 40 → exec .ipParse s = failed 2 s.pb.len s)
    ∧ ∀ (h : Hdr) (pay : List Byte), s.pb.bytes = headerBytes h ++ pay →
      (h.ver = 6 → exec .ipParse s = .next { s with hdr := h, cur := 40, chain := [], status := 0 })
      ∧ (h.ver ≠ 6 → s.config.getLsbD 0 = true → exec .ipParse s = failed 3 0 s)
      ∧ (h.ver ≠ 6 → s.config.getLsbD 0 = false →
          exec .ipParse s = .next { s with hdr := h, cur := 40, chain := [], status := 0x10 })

/-- `IP.ISLL` compares the first ten bits of the selected address with `0b1111111010`, `IP.ISMC` its first byte with
`0xFF` (43_ipv6.md R234, R235). -/
def Obligations.AddressPredicatesCompareTheFirstBits : Prop :=
  ∀ (s : State) (sel : AddrSel),
    let a : Addr := match sel with
      | .src => s.hdr.src
      | .dst => s.hdr.dst
    exec (.ipIsll sel) s = .next { s with res := if a.toNat / 2 ^ 118 = 0b1111111010 then 1 else 0, status := 0 }
    ∧ exec (.ipIsmc sel) s = .next { s with res := if a.toNat / 2 ^ 120 = 0xFF then 1 else 0, status := 0 }

/-! ## The checksum unit -/

/-- `CK.LOAD` loads `ACC`; `CK.FINAL` returns the complement of the end-around-carry sum of `ACC`, which stays
(42_checksum.md R215, R218). -/
def Obligations.CkLoadAndFinal : Prop :=
  ∀ s : State,
    exec .ckLoad s = .next { s with acc := s.tx.arg0, status := 0 }
    ∧ exec .ckFinal s = .next { s with res := BitVec.ofNat 32 (0xFFFF - fold16 s.acc.toNat), status := 0 }

/-- `CK.RUN` adds the 16-bit big-endian words of `n = arg0` bytes at `off` to `ACC`, modulo 2^32; a range outside the
buffer raises `OutOfRange(off)` (42_checksum.md R217). -/
def Obligations.CkRunAddsTheWords : Prop :=
  ∀ (s : State) (b : Buf) (off : Half),
    (off.toNat + s.tx.arg0.toNat ≤ (s.buf b).len →
      let sum := s.acc + BitVec.ofNat 32 (wordSum (((s.buf b).bytes.drop off.toNat).take s.tx.arg0.toNat))
      exec (.ckRun b off) s = .next { s with acc := sum, res := sum, status := 0 })
    ∧ ((s.buf b).len < off.toNat + s.tx.arg0.toNat → exec (.ckRun b off) s = failed 1 off.toNat s)

/-- `CK.PSEUDO` replaces `ACC` by the sum of the pseudo-header: both addresses, the upper-layer length (`PLEN` less the
bytes of the extension headers, modulo 2^32), the next-header operand (42_checksum.md R216). -/
def Obligations.CkPseudoSumsThePseudoHeader : Prop :=
  ∀ (s : State) (nh : Byte),
    let ext := (s.chain.map (fun n => if n.kind = .hbh then 2 + n.payload.length else 0)).sum
    let ulen := (s.hdr.plen.toNat + (2 ^ 32 - ext % 2 ^ 32)) % 2 ^ 32
    let sum := BitVec.ofNat 32
      (addrSum s.hdr.src + addrSum s.hdr.dst + (ulen / 65536 + ulen % 65536) + nh.toNat)
    exec (.ckPseudo nh) s = .next { s with acc := sum, res := sum, status := 0 }

/-- The laws (a) to (e) of the running sum and of `finalize` (42_checksum.md R219). -/
def Obligations.RunningSumLaws : Prop :=
  (∀ (acc : Word) (b c : List Byte), b.length % 2 = 0 → runningSum acc (b ++ c) = runningSum (runningSum acc b) c)
  ∧ (∃ (acc : Word) (b c : List Byte), b.length % 2 = 1 ∧ runningSum acc (b ++ c) ≠ runningSum (runningSum acc b) c)
  ∧ (∀ (acc : Word) (b : List Byte), runningSum acc b = acc + runningSum 0 b)
  ∧ (∀ acc : Word, acc ≠ 0 → (finalize acc).toNat = 0xFFFF - ((acc.toNat - 1) % 0xFFFF + 1))
  ∧ (∀ acc : Word, finalize acc = 0xFFFF ↔ acc = 0)
  ∧ (∀ (acc : Word) (ws ws' : List Half), ws.Perm ws' →
      finalize (runningSum acc (ws.flatMap b2)) = finalize (runningSum acc (ws'.flatMap b2)))

/-- A segment whose checksum field holds its computed checksum verifies, whatever the bytes: "checksum is
self-consistent" (42_checksum.md R213, R214). -/
def Obligations.ChecksumIsSelfConsistent : Prop :=
  ∀ (src dst : Addr) (nh : Byte) (seg : List Byte) (k : Nat), k + 2 ≤ seg.length →
    verifies src dst nh (withCk seg k (transportCk src dst nh seg k)) k = true
    ∧ ((transportCk src dst nh seg k).toNat =
        0xFFFF - fold16 ((addrSum src + addrSum dst + (seg.length % 2 ^ 32 / 65536 + seg.length % 65536) + nh.toNat
          + wordSum (splice seg k [0, 0])) % 2 ^ 32))

/-! ## The payload chain -/

/-- `CH.PARSE` checks the payload's extent, then the cursor, then the room, and goes on with the variant the `NH`
register names (43_ipv6.md R236, 44_chain.md R260 to R262; 60_exceptions.md R411). The wire units are the variants'
instructions (log 8). -/
def Obligations.ChParseDispatchesOnTheNextHeader : Prop :=
  ∀ s : State,
    (s.pb.len < 40 + s.hdr.plen.toNat → ∃ v d, exec .chParse s = failedAny 2 4 v d s)
    ∧ (40 + s.hdr.plen.toNat ≤ s.pb.len → s.cur.toNat < 40 ∨ 40 + s.hdr.plen.toNat < s.cur.toNat →
        ∃ v d, exec .chParse s = failedAny 2 s.cur.toNat v d s)
    ∧ (s.atPayload → s.par.chainMax = 0 → ∃ v d, exec .chParse s = failedAny 2 s.cur.toNat v d s)
    ∧ ∀ x : Variant, s.hdr.nh = x.disp → exec .chParse s = exec x.instr s

/-- TCP (44_chain.md R264): the node of the segment from the cursor to the payload's end, or `MalformedFrame`. That the
next-header unit is an instruction of its own is the model's choice (log 8). -/
def Obligations.TcpSegmentsParse : Prop :=
  ∀ s : State, s.atPayload → 1 ≤ s.par.chainMax →
    let seg := s.rest
    let doff := (tcpDoff seg).toNat
    let ok := s.ckGood 6 seg 16
    (s.hdr.nh = 6 → exec .chParse s = exec .wireNhTcp s)
    ∧ (seg.length < 20 → ∃ v d, exec .wireNhTcp s = failedAny 2 s.payEnd v d s)
    ∧ (20 ≤ seg.length → doff < 5 → ∃ v d, exec .wireNhTcp s = failedAny 2 (s.cur.toNat + 12) v d s)
    ∧ (20 ≤ seg.length → 5 ≤ doff → seg.length < 4 * doff → ∃ v d, exec .wireNhTcp s = failedAny 2 s.payEnd v d s)
    ∧ (20 ≤ seg.length → 5 ≤ doff → 4 * doff ≤ seg.length → ∃ v d,
        exec .wireNhTcp s = parsed [tcpNode seg s.cur (tcpMss seg) ok] s.payEnd (ckStatus ok (s.cur.toNat + 16)) v d s)

/-- UDP (44_chain.md R265): the node of the datagram its length field bounds, or `MalformedFrame`. That the next-header
unit is an instruction of its own is the model's choice (log 8). -/
def Obligations.UdpDatagramsParse : Prop :=
  ∀ s : State, s.atPayload → 1 ≤ s.par.chainMax →
    let ulen := (h16 s.rest 4).toNat
    let seg := s.rest.take ulen
    let ok := s.ckGood 17 seg 6
    (s.hdr.nh = 17 → exec .chParse s = exec .wireNhUdp s)
    ∧ (s.rest.length < 8 → ∃ v d, exec .wireNhUdp s = failedAny 2 s.payEnd v d s)
    ∧ (8 ≤ s.rest.length → ulen < 8 → ∃ v d, exec .wireNhUdp s = failedAny 2 (s.cur.toNat + 4) v d s)
    ∧ (8 ≤ s.rest.length → s.rest.length < ulen → ∃ v d, exec .wireNhUdp s = failedAny 2 s.payEnd v d s)
    ∧ (8 ≤ ulen → ulen ≤ s.rest.length → ∃ v d,
        exec .wireNhUdp s
          = parsed [udpNode seg s.cur ok] (s.cur.toNat + ulen) (ckStatus ok (s.cur.toNat + 6)) v d s)

/-- ICMPv6 (44_chain.md R266): the node of the message, with identifier and sequence number in an echo, or
`MalformedFrame`. That the next-header unit is an instruction of its own is the model's choice (log 8). -/
def Obligations.IcmpMessagesParse : Prop :=
  ∀ s : State, s.atPayload → 1 ≤ s.par.chainMax →
    let seg := s.rest
    let echo := byteAt seg 0 = 128 ∨ byteAt seg 0 = 129
    let ok := s.ckGood 58 seg 2
    (s.hdr.nh = 58 → exec .chParse s = exec .wireNhIcmpv6 s)
    ∧ (seg.length < 4 → ∃ v d, exec .wireNhIcmpv6 s = failedAny 2 s.payEnd v d s)
    ∧ (4 ≤ seg.length → echo → seg.length < 8 → ∃ v d, exec .wireNhIcmpv6 s = failedAny 2 s.payEnd v d s)
    ∧ (4 ≤ seg.length → (echo → 8 ≤ seg.length) → ∃ v d,
        exec .wireNhIcmpv6 s = parsed [icmpNode seg s.cur ok] s.payEnd (ckStatus ok (s.cur.toNat + 2)) v d s)

/-- An unrecognized dispatch byte is no failure: a RAW node holds the rest, the cursor stays, the report is made; first in
the chain or after a Hop-by-Hop header, whose node is kept (44_chain.md R267). That the Hop-by-Hop unit, of which the
second clause speaks, is an instruction of its own is the model's choice (log 8). -/
def Obligations.UnknownDispatchLeavesARawNode : Prop :=
  ∀ s : State, s.atPayload →
    (1 ≤ s.par.chainMax → unknownNh s.hdr.nh → ∃ v d,
      exec .chParse s = parsed [rawNode s.rest s.cur] s.cur.toNat (statusWord 0x20 s.cur.toNat) v d s)
    ∧ (2 ≤ s.par.chainMax → 2 ≤ s.rest.length → hbhSize s.rest ≤ s.rest.length → Framed (hbhOptions s.rest) →
        unknownNh (byteAt s.rest 0) →
        let lim := s.cur.toNat + hbhSize s.rest
        (s.hdr.nh = 0 → exec .chParse s = exec .wireNhHbh s)
        ∧ ∃ v d, exec .wireNhHbh s
            = parsed [hbhNode s.rest s.cur, rawNode (s.rest.drop (hbhSize s.rest)) (BitVec.ofNat 16 lim)] lim
                (statusWord 0x20 lim) v d s)

/-- Hop-by-Hop (44_chain.md R263): a header cut short, or whose options are not framed, is malformed; else the loop goes
on behind it with its next-header byte and one node less of room, and its node stands before the rest. That the
next-header unit is an instruction of its own is the model's choice (log 8). -/
def Obligations.HopByHopHeadersParse : Prop :=
  ∀ (s : State) (room : Nat), s.atPayload → s.pb.len ≤ 65535 → s.par.chainMax = room + 1 →
    let seg := s.rest
    let lim := s.cur.toNat + hbhSize seg
    let s2 : State := { s with
      cur := BitVec.ofNat 16 lim, hdr := { s.hdr with nh := byteAt seg 0 }, par := { s.par with chainMax := room } }
    (seg.length < 2 → ∃ v d, exec .wireNhHbh s = failedAny 2 s.payEnd v d s)
    ∧ (2 ≤ seg.length → seg.length < hbhSize seg → ∃ v d, exec .wireNhHbh s = failedAny 2 s.payEnd v d s)
    ∧ (2 ≤ seg.length → hbhSize seg ≤ seg.length → ¬ Framed (hbhOptions seg) →
        ∃ v d, exec .wireNhHbh s = failedAny 2 lim v d s)
    ∧ (2 ≤ seg.length → hbhSize seg ≤ seg.length → Framed (hbhOptions seg) → ∃ t, exec .chParse s2 = .next t
        ∧ (errField t.status ≠ 0 →
            exec .wireNhHbh s = .next { s with status := t.status, acc := t.acc, draws := t.draws })
        ∧ (errField t.status = 0 →
            exec .wireNhHbh s
              = .next { t with hdr := s.hdr, par := s.par, chain := hbhNode seg s.cur :: t.chain }))

/-- The MSS option as the first option of the TCP segment at the cursor (30_encoding.md R124, 44_chain.md R264): the
node's `MSS` is its value, and where its bytes do stand there it is what the TCP unit reads. That the option is an
instruction of its own is the model's choice (log 8, log 11). -/
def Obligations.MssOptionSetsTheMss : Prop :=
  ∀ (s : State) (mss : Half), s.atPayload → 1 ≤ s.par.chainMax →
    let seg := s.rest
    let ok := s.ckGood 6 seg 16
    24 ≤ seg.length → 6 ≤ (tcpDoff seg).toNat → 4 * (tcpDoff seg).toNat ≤ seg.length →
      (∃ v d, exec (.wireTcpoptMss mss) s
        = parsed [tcpNode seg s.cur mss ok] s.payEnd (ckStatus ok (s.cur.toNat + 16)) v d s)
      ∧ ((seg.drop 20).take 4 = [2, 4] ++ b2 mss → exec (.wireTcpoptMss mss) s = exec .wireNhTcp s)

/-- `CH.CLEAR` empties the chain, `CH.LEN` returns its length (44_chain.md R270, R274). -/
def Obligations.ChClearAndLen : Prop :=
  ∀ s : State,
    exec .chClear s = .next { s with chain := [], status := 0 }
    ∧ exec .chLen s = .next { s with res := BitVec.ofNat 32 s.chain.length, status := 0 }

/-- `CH.PUSH` appends a node built from the staging node: the fields its kind has, 0 in the others; or one of its three
errors, in their order (44_chain.md R271). -/
def Obligations.ChPushAppendsTheStagedNode : Prop :=
  ∀ (s : State) (k : Kind),
    let full := s.chain.length = s.par.chainMax
    let ended := ∃ n, s.chain.getLast? = some n ∧ n.kind ≠ .hbh
    let p := s.node.payload
    let ragged := k = .hbh ∧ ((p.length + 2) % 8 ≠ 0 ∨ 2046 < p.length)
    (full → exec (.chPush k) s = failed 1 s.par.chainMax s)
    ∧ (¬ full → ended → exec (.chPush k) s = failed 1 s.chain.length s)
    ∧ (¬ full → ¬ ended → ragged → exec (.chPush k) s = failed 2 p.length s)
    ∧ (¬ full → ¬ ended → ¬ ragged → ∃ n : Node,
        exec (.chPush k) s = .next { s with chain := s.chain ++ [n], status := 0 }
        ∧ n.kind = k ∧ n.payload = p ∧ n.ckok = false ∧ n.offset = 0
        ∧ ∀ f : NodeField, f.stageable = true →
            n.raw f = if hasField k f then ({ kind := k, f := s.node.f } : Node).raw f else 0)

/-- `CH.RD` returns a field of a node, 0 for a field its kind does not have; `CH.RDP` returns a payload byte; an index or
an offset outside raises `OutOfRange` (44_chain.md R272, R273). -/
def Obligations.ChainReads : Prop :=
  ∀ (s : State) (f : NodeField) (idx : Half),
    (s.chain.length ≤ idx.toNat →
      exec (.chRd f idx) s = failed 1 idx.toNat s ∧ exec (.chRdp idx) s = failed 1 idx.toNat s)
    ∧ ∀ n : Node, s.chain[idx.toNat]? = some n →
      (hasField n.kind f = true → exec (.chRd f idx) s = .next { s with res := n.raw f, status := 0 })
      ∧ (hasField n.kind f = false → exec (.chRd f idx) s = .next { s with res := 0, status := 0 })
      ∧ (n.payload.length ≤ s.tx.arg0.toNat → exec (.chRdp idx) s = failed 1 (s.tx.arg0.toNat % 65536) s)
      ∧ ∀ b : Byte, n.payload[s.tx.arg0.toNat]? = some b →
          exec (.chRdp idx) s = .next { s with res := b.setWidth 32, status := 0 }

/-- `ND.WR` sets one field of the staging node with the upper bits of `arg0` dropped, no other field changed
(44_chain.md R275; widths 10_state.md R28). -/
def Obligations.NdWrStagesOneField : Prop :=
  ∀ (s : State) (f : NodeField), f.stageable = true →
    ∃ g : NodeFields, exec (.ndWr f) s = .next { s with node := { s.node with f := g }, status := 0 }
      ∧ ∀ k : Kind,
        (({ kind := k, f := g } : Node).raw f).toNat = s.tx.arg0.toNat % 2 ^ fieldWidth f
        ∧ ∀ f' : NodeField, f' ≠ f →
            ({ kind := k, f := g } : Node).raw f' = ({ kind := k, f := s.node.f } : Node).raw f'

/-- `ND.PAYLOAD` sets the staging node's payload, or raises `OutOfRange(NP_CAP)` (44_chain.md R276). -/
def Obligations.NdPayloadStagesThePayload : Prop :=
  ∀ (s : State) (n : Half), s.tx.data.length = n.toNat →
    (n.toNat ≤ s.par.pbCap - 40 →
      exec (.ndPayload n) s = .next { s with node := { s.node with payload := s.tx.data }, status := 0 })
    ∧ (s.par.pbCap - 40 < n.toNat → exec (.ndPayload n) s = failed 1 (s.par.pbCap - 40) s)

/-! ## Serialization -/

/-- `IP.SERIALIZE` (45_serialize.md R300 to R303), for a chain of any length: PB is replaced by the header bytes of the
registers and the bytes of the nodes, in order; `PLEN` is their count; `NH` and the `NH` of every node but the last name
the next node (a RAW one aside), the last node's `NH` is as before; every node gets its `OFFSET` and its recomputed
fields and keeps the others; a packet that does not fit raises `OutOfRange(PB_CAP)`. What a failed one leaves of `ACC`
follows R220 and R404 (log 17); the MSS option beside SYN follows R305 (log 15). -/
def Obligations.SerializeLaysOutTheChain : Prop :=
  ∀ s : State,
    let total := totalSize s.chain
    let h := { s.hdr with
      plen := BitVec.ofNat 16 total
      nh := match s.chain.head? with
        | some n => dispOr n.kind s.hdr.nh
        | none => s.hdr.nh }
    (s.par.pbCap < 40 + total → ∃ v d, exec .ipSerialize s = failedAny 1 s.par.pbCap v d s)
    ∧ (40 + total ≤ s.par.pbCap → ∃ (m : Memory) (l : List Node) (v : Word) (d : Nat),
        exec .ipSerialize s = .next { s with
          hdr := h, pb := m, chain := l, cur := BitVec.ofNat 16 (40 + total), acc := v, draws := d, status := 0 }
        ∧ m.wf ∧ m.len = 40 + total ∧ m.bytes = headerBytes h ++ l.flatMap nodeBytes ∧ l.length = s.chain.length
        ∧ ∀ (k : Nat) (a : Node), s.chain[k]? = some a →
            let nh := match s.chain[k + 1]? with
              | some b => dispOr b.kind a.f.nh
              | none => a.f.nh
            let offset := BitVec.ofNat 16 (40 + totalSize (s.chain.take k))
            l[k]? = some (({ a with f := { a.f with nh := nh }, offset := offset } : Node).recomputed h.src h.dst))

/-- The bytes of a node and its recomputed fields (45_serialize.md R304 to R308), for a chain of that one node. The
MSS option beside SYN follows R305 (log 15). -/
def Obligations.SerializedNodeBytes : Prop :=
  ∀ (s : State) (n : Node), s.chain = [n] → 40 + n.size ≤ s.par.pbCap →
    let src := s.hdr.src
    let dst := s.hdr.dst
    let f := n.f
    let p := n.payload
    let syn := f.flags.getLsbD 1
    let wrote (nh : Byte) (g : NodeFields) (ok : Bool) (bytes : List Byte) : Prop :=
      ∃ v d, exec .ipSerialize s = .next { s with
        hdr := { s.hdr with nh := nh, plen := BitVec.ofNat 16 n.size }
        chain := [{ n with f := g, ckok := ok, offset := 40 }]
        pb := Memory.ofBytes (headerBytes { s.hdr with nh := nh, plen := BitVec.ofNat 16 n.size } ++ bytes)
        cur := BitVec.ofNat 16 (40 + n.size), acc := v, draws := d, status := 0 }
    (n.kind = .hbh →
      let hlen : Byte := BitVec.ofNat 8 ((p.length + 2) / 8 - 1)
      wrote 0 { f with hlen := hlen } n.ckok ([f.nh, hlen] ++ p))
    ∧ (n.kind = .tcp →
      let doff : BitVec 4 := if syn then 6 else 5
      let front := b2 f.sport ++ b2 f.dport ++ b4 f.seq ++ b4 f.ack
        ++ [BitVec.ofNat 8 (doff.toNat * 16), f.flags.setWidth 8] ++ b2 f.window
      let back := b2 f.urg ++ (if syn then [2, 4] ++ b2 f.mss else []) ++ p
      let ck := transportCk src dst 6 (front ++ [0, 0] ++ back) 16
      wrote 6 { f with doff := doff, cksum := ck } true (front ++ b2 ck ++ back))
    ∧ (n.kind = .udp →
      let len : Half := BitVec.ofNat 16 (8 + p.length)
      let front := b2 f.sport ++ b2 f.dport ++ b2 len
      let ck := transportCk src dst 17 (front ++ [0, 0] ++ p) 6
      wrote 17 { f with length := len, cksum := ck } true (front ++ b2 ck ++ p))
    ∧ (n.kind = .icmp →
      let back := (if f.itype = 128 ∨ f.itype = 129 then b2 f.ident ++ b2 f.seqno else []) ++ p
      let ck := transportCk src dst 58 ([f.itype, f.code] ++ [0, 0] ++ back) 2
      wrote 58 { f with cksum := ck } true ([f.itype, f.code] ++ b2 ck ++ back))
    ∧ (n.kind = .raw → wrote s.hdr.nh f n.ckok p)

/-- Serialize then parse (45_serialize.md R309 (a)): `IP.SERIALIZE; IP.PARSE; CH.PARSE` ends with `STATUS = 0` and with
the header registers, the chain and PB as serialize left them, every checksum verified. The premises on an
identifier outside an echo and on the framing of the options are the model's reading of "well-formed" (log 20). -/
def Obligations.SerializeThenParse : Prop :=
  ∀ s : State, s.inv → s.hdr.ver = 6 → s.chain ≠ [] → 40 + totalSize s.chain ≤ s.par.pbCap →
    (∀ n, s.chain.getLast? = some n → n.kind ≠ .hbh) → (∀ n ∈ s.chain, reparses n) →
    ∃ t1 t2 t3 : State, exec .ipSerialize s = .next t1 ∧ exec .ipParse t1 = .next t2 ∧ exec .chParse t2 = .next t3
      ∧ t1.status = 0 ∧ t2.status = 0 ∧ t3.status = 0 ∧ t3.hdr = t1.hdr ∧ t3.chain = t1.chain ∧ t3.pb = t1.pb
      ∧ t3.cur.toNat = 40 + t1.hdr.plen.toNat ∧ ∀ n ∈ t3.chain, n.kind ≠ .hbh → n.ckok = true

/-- Parse then serialize (45_serialize.md R309 (b)): from a PB on which `IP.PARSE; CH.PARSE` succeeded without a report
and whose length is `40 + PLEN`, `IP.SERIALIZE` reproduces PB, provided its TCP options are those serialize emits,
the reserved TCP bits are 0, and the UDP length reaches the payload's end. -/
def Obligations.ParseThenSerialize : Prop :=
  ∀ s t1 t2 : State, s.inv → exec .ipParse s = .next t1 → t1.status = 0 → exec .chParse t1 = .next t2 →
    t2.status = 0 → s.pb.len = 40 + t2.hdr.plen.toNat →
    (∀ n ∈ t2.chain, reserializes s.pb.bytes s.pb.len n) →
    ∃ t3 : State, exec .ipSerialize t2 = .next t3 ∧ t3.status = 0 ∧ t3.pb = s.pb ∧ t3.hdr = t2.hdr
      ∧ t3.chain = t2.chain

/-! ## Header compression -/

/-- `HC.SETCTX` writes a context entry as a whole, `HC.RDCTX` returns one word of it, an index of 16 or more raises
`ContextIndexOutOfRange(0)` (46_hc06_decompress.md R320, R321). -/
def Obligations.ContextEntriesAreSetAndRead : Prop :=
  ∀ (s : State) (valid : Bool) (w : CtxWord) (id : Byte),
    (16 ≤ id.toNat → exec (.hcSetctx valid id) s = failed 6 0 s ∧ exec (.hcRdctx w id) s = failed 6 0 s)
    ∧ ∀ i : Fin 16, id.toNat = i.val →
      (∃ e : CtxEntry, exec (.hcSetctx valid id) s = .next { s with ctx := s.ctx.set i e, status := 0 }
        ∧ e.valid = valid ∧ e.pfx.toNat = s.tx.arg0.toNat * 2 ^ 32 + s.tx.arg1.toNat)
      ∧ exec (.hcRdctx w id) s = .next { s with
          status := 0
          res := match w with
            | .valid => if (s.ctx.get i).valid then 1 else 0
            | .high => BitVec.ofNat 32 ((s.ctx.get i).pfx.toNat / 2 ^ 32)
            | .low => BitVec.ofNat 32 ((s.ctx.get i).pfx.toNat % 2 ^ 32) }

/-- `HC.COMP` writes to FB the bytes of 47_hc06_compress.md R360, `iphcDatagram`, or fails with the first of its three
errors and FB as before (R361). That a source `::` is in full whatever a context holds follows R365's prose and D29
against its pseudocode (log 22). The forms of the parts: `AddressPolicyIsPriorityOrdered`, `ChosenFormsLoseNothing`. -/
def Obligations.HcCompWritesOrFails : Prop :=
  ∀ (s : State) (u : Bool),
    let end_ := 40 + s.hdr.plen.toNat
    let out := iphcDatagram u s
    (s.hdr.ver ≠ 6 → exec (.hcComp u) s = failed 3 0 s)
    ∧ (s.hdr.ver = 6 → s.pb.len < end_ → exec (.hcComp u) s = failed 2 4 s)
    ∧ (s.hdr.ver = 6 → end_ ≤ s.pb.len → s.par.fbCap < out.length → exec (.hcComp u) s = failed 1 s.par.fbCap s)
    ∧ (s.hdr.ver = 6 → end_ ≤ s.pb.len → out.length ≤ s.par.fbCap → ∃ m : Memory,
        exec (.hcComp u) s = .next { s with fb := m, status := 0 } ∧ m.wf ∧ m.bytes = out)

/-- The address policy (47_hc06_compress.md R365): link-layer-derived, else the lowest valid context that holds the
prefix, else in full; the source `::` in full whatever a context holds, which follows R365's prose and D29 against its
pseudocode (log 22). -/
def Obligations.AddressPolicyIsPriorityOrdered : Prop :=
  ∀ (s : State) (a : Addr) (mode : BitVec 2) (l2 : DWord),
    let iid := linkIid mode l2
    let high : DWord := a.extractLsb' 64 64
    let low : DWord := a.extractLsb' 0 64
    let derived := high = 0xFE80000000000000#64 ∧ iid = some low
    let holds (i : Fin 16) := (s.ctx.get i).valid = true ∧ (s.ctx.get i).pfx = high
    (derived → encAddr s a mode l2 = ⟨false, 3, 0, []⟩)
    ∧ (∀ i : Fin 16, ¬ derived → holds i → (∀ j : Fin 16, j < i → ¬ holds j) →
        encAddr s a mode l2 = if iid = some low then ⟨true, 3, BitVec.ofNat 4 i, []⟩
          else ⟨true, 1, BitVec.ofNat 4 i, b8 low⟩)
    ∧ (¬ derived → (∀ i : Fin 16, ¬ holds i) → encAddr s a mode l2 = ⟨false, 0, 0, b16 a⟩)
    ∧ (s.hdr.src = 0 → encSrc s = ⟨false, 0, 0, List.replicate 16 0⟩)
    ∧ (s.hdr.src ≠ 0 → encSrc s = encAddr s s.hdr.src s.mac.smode s.mac.saddr)

/-- Traffic class and flow label, hop limit and ports: the compressor chooses the forms of the tables
(47_hc06_compress.md R362, R363, R369), and every form, chosen or not, decompresses to what it stands for, wherever it
stands (46_hc06_decompress.md R324, R326, R330; 30_encoding.md R131, R133, R140). -/
def Obligations.ChosenFormsLoseNothing : Prop :=
  (∀ (tc : Byte) (fl : BitVec 20),
    chooseTf tc fl =
      let tf := if fl = 0 then (if tc = 0 then 3 else 2) else if tc.toNat < 4 then 1 else 0
      (tf, tfBytes tf 0 tc fl))
  ∧ (∀ (tf : BitVec 2) (pad : BitVec 4) (tc : Byte) (fl : BitVec 20) (before after : List Byte), tfFits tf tc fl →
    let e := tfBytes tf pad tc fl
    takeTf (before ++ e ++ after) tf before.length = .ok ((tc, fl), before.length + e.length))
  ∧ (∀ hl : Byte, chooseHlim hl = if hl = 1 then (1, []) else if hl = 64 then (2, []) else if hl = 255 then (3, [])
      else (0, [hl]))
  ∧ (∀ (form : BitVec 2) (hl : Byte) (before after : List Byte), hlimFits form hl →
    let e := if form = 0 then [hl] else []
    takeHlim (before ++ e ++ after) form before.length = .ok (hl, before.length + e.length))
  ∧ (∀ sp dp : Half,
    encPorts sp dp =
      let p := if sp.toNat / 16 = 0xF0B ∧ dp.toNat / 16 = 0xF0B then 3 else if dp.toNat / 256 = 0xF0 then 1
        else if sp.toNat / 256 = 0xF0 then 2 else 0
      (p, portBytes p sp dp))
  ∧ ∀ (p : BitVec 2) (sp dp : Half) (before after : List Byte), portsFit p sp dp →
    let e := portBytes p sp dp
    takePorts (before ++ e ++ after) p before.length = .ok ((sp, dp), before.length + e.length)

/-- Compress then decompress (47_hc06_compress.md R370): if `HC.COMP u` succeeds, `HC.DECOMP header_offset=0` under the
same contexts and MAC registers succeeds and restores the header registers and the payload; and PB byte for byte where
its header bytes were those of the registers (log 20). -/
def Obligations.CompressThenDecompress : Prop :=
  ∀ (s t : State) (u : Bool), s.inv → s.hdr.ver = 6 → s.pb.len = 40 + s.hdr.plen.toNat →
    exec (.hcComp u) s = .next t → errField t.status = 0 →
    ∃ r : State, exec (.hcDecomp 0) t = .next r ∧ r.status = 0 ∧ r.hdr = s.hdr
      ∧ r.pb.bytes = headerBytes s.hdr ++ s.pb.bytes.drop 40
      ∧ (s.pb.bytes.take 40 = headerBytes s.hdr → r.pb = s.pb)

/-- `HC.DECOMP` of a header in any form of 30_encoding.md R131 to R140 (46_hc06_decompress.md R322 to R332): the inline
bytes the two base bytes announce, in the order of R137, become the header registers; an address in full, under
`fe80::/64` or under a context, `::`, or multicast; a UDP header rebuilt, its checksum carried or computed. Said again
for both addresses elided between extended link-layer addresses, IPHC bytes `7A 33`. The IPHC wire unit does the same,
for every IPHC header (log 8, log 9: the model's choice). -/
def Obligations.ElidedLinkLocalHeaderDecompresses : Prop :=
  (∀ (s : State) (off : Half) (nh : Byte) (pay : List Byte),
    s.fb.bytes.drop off.toNat = [0x7A, 0x33, nh] ++ pay → s.mac.smode = 3 → s.mac.dmode = 3 →
    40 + pay.length ≤ s.par.pbCap →
    let h : Hdr := {
      ver := 6, tc := 0, fl := 0, plen := BitVec.ofNat 16 pay.length, nh := nh, hlim := 64
      src := 0xFE80000000000000#64 ++ (s.mac.saddr ^^^ 0x0200000000000000#64)
      dst := 0xFE80000000000000#64 ++ (s.mac.daddr ^^^ 0x0200000000000000#64) }
    ∃ (v : Word) (d : Nat),
      let t : State := { s with
        hdr := h, pb := Memory.ofBytes (headerBytes h ++ pay), cur := 40, chain := [], acc := v, draws := d, status := 0
        attr := s.attr.set 2 { valid := true, value := 0x7A } }
      exec (.hcDecomp off) s = .next t
      ∧ (s.tx.arg0.toNat % 65536 = off.toNat →
          exec (.wireIphc { tf := 3, nh := false, hlim := 2, cid := false, sac := false, sam := 3, m := false, dac := false
                            dam := 3 }) s = .next t))
  ∧ (∀ (s : State) (off : Half) (h : Iphc) (x : Inline) (hd : Hdr) (q : UdpHeader) (pay : List Byte),
    s.iphcHeader off.toNat h x hd (hcBody h.nh q pay) → (h.nh = true → portsFit q.form q.sport q.dport) →
    let body := hcPayload h.nh q hd.src hd.dst pay
    let hd' := { hd with plen := BitVec.ofNat 16 body.length }
    40 + body.length ≤ s.par.pbCap → ∃ (v : Word) (d : Nat),
      exec (.hcDecomp off) s = .next { s with
        hdr := hd', pb := Memory.ofBytes (headerBytes hd' ++ body), cur := 40, chain := [], acc := v, draws := d, status := 0
        attr := s.attr.set 2 { valid := true, value := (0b011#3 ++ h.tf ++ BitVec.ofBool h.nh ++ h.hlim).setWidth 32 } })
  ∧ ∀ (s : State) (off : Half) (h : Iphc), s.tx.arg0.toNat % 65536 = off.toNat → s.iphcAt off.toNat h →
      exec (.wireIphc h) s = exec (.hcDecomp off) s

/-- Failures of `HC.DECOMP` with their offsets, each in a frame that reaches it first (46_hc06_decompress.md R323, R325,
R327 to R331, R333): a frame of any form that ends before its payload, or whose packet does not fit PB; a wrong
dispatch or NHC byte; an absent context; a reserved form; an identifier to derive without a link-layer address, for
source and destination, under `fe80::/64` and under a context. -/
def Obligations.HcDecompFailures : Prop :=
  ∀ (s : State) (off : Half),
    let o := off.toNat
    let fails (code at_ : Nat) : Prop := ∃ v d, exec (.hcDecomp off) s = failedAny code at_ v d s
    (s.fb.len < o + 2 → fails 2 s.fb.len)
    ∧ (o + 2 ≤ s.fb.len → (byteAt s.fb.bytes o).toNat / 32 ≠ 3 → fails 2 o)
    ∧ (∀ sam m dac dam, s.iphcAt o (bareIphc true sam m dac dam) → sam ≠ 0 → (s.ctx.get 0).valid = false →
        fails 7 (o + 1))
    ∧ (∀ m dac dam, s.iphcAt o (bareIphc false 3 m dac dam) → s.mac.smode ≠ 2 → s.mac.smode ≠ 3 → fails 2 (o + 1))
    ∧ (∀ m dac dam, s.iphcAt o (bareIphc true 3 m dac dam) → (s.ctx.get 0).valid = true → s.mac.smode ≠ 2 →
        s.mac.smode ≠ 3 → fails 2 (o + 1))
    ∧ (∀ dam, s.iphcAt o (bareIphc true 0 true true dam) → fails 2 (o + 1))
    ∧ (s.iphcAt o (bareIphc true 0 false true 0) → fails 2 (o + 1))
    ∧ (∀ dam, s.iphcAt o (bareIphc true 0 false true dam) → dam ≠ 0 → (s.ctx.get 0).valid = false → fails 7 (o + 1))
    ∧ (∀ dac, s.iphcAt o (bareIphc true 0 false dac 3) → (dac = true → (s.ctx.get 0).valid = true) →
        s.mac.dmode ≠ 2 → s.mac.dmode ≠ 3 → fails 2 (o + 1))
    ∧ (s.iphcAt o (bareIphc true 0 true false 3) → s.fb.len = o + 2 → fails 2 s.fb.len)
    ∧ (s.iphcAt o (bareIphc true 0 true false 3) → o + 4 ≤ s.fb.len →
        (byteAt s.fb.bytes (o + 3)).toNat / 8 ≠ 0b11110 → fails 2 (o + 3))
    ∧ ∀ (h : Iphc) (x : Inline) (hd : Hdr) (q : UdpHeader) (pay : List Byte),
        s.iphcHeader o h x hd (hcBody h.nh q pay) → (h.nh = true → portsFit q.form q.sport q.dport) →
        (s.par.pbCap < 40 + (hcPayload h.nh q hd.src hd.dst pay).length → fails 1 s.par.pbCap)
        ∧ ∀ n, n + pay.length < s.fb.len →
            let cut : State := { s with fb := Memory.ofBytes (s.fb.bytes.take n) }
            ∃ v d, exec (.hcDecomp off) cut = failedAny 2 n v d cut

/-- The compressed UDP header (30_encoding.md R139, R140; 46_hc06_decompress.md R330 to R332): in all four port forms and
with the checksum carried or elided, the segment is rebuilt, its length from the bytes that remain, an elided checksum
recomputed. That the NHC byte is an instruction of its own, run on the header registers, is the model's choice (log 8
to 10). -/
def Obligations.UdpNhcRebuildsTheSegment : Prop :=
  ∀ (s : State) (c : Bool) (p : BitVec 2) (sp dp ck : Half) (pay : List Byte),
    s.fb.bytes.drop (s.tx.arg0.toNat % 65536)
      = [0b11110#5 ++ BitVec.ofBool c ++ p] ++ portBytes p sp dp ++ (if c then [] else b2 ck) ++ pay →
    portsFit p sp dp → 48 + pay.length ≤ s.par.pbCap →
    let len : Half := BitVec.ofNat 16 (8 + pay.length)
    let front := b2 sp ++ b2 dp ++ b2 len
    let ck' := if c then transportCk s.hdr.src s.hdr.dst 17 (front ++ [0, 0] ++ pay) 6 else ck
    let h := { s.hdr with ver := 6, nh := 17, plen := len }
    ∃ v d, exec (.wireNhcUdp c p) s = .next { s with
      hdr := h, pb := Memory.ofBytes (headerBytes h ++ front ++ b2 ck' ++ pay), cur := 40, chain := [], acc := v
      draws := d, status := 0 }

/-! ## The system commands -/

/-- `SYS.RESET` returns every piece of the spec's state to its reset value; `SYS.CFG` keeps bit 0 of `arg0`
(48_system.md R380, R381). -/
def Obligations.SysResetAndCfg : Prop :=
  ∀ s : State,
    exec .sysCfg s = .next { s with config := BitVec.ofNat 32 (s.tx.arg0.toNat % 2), status := 0 }
    ∧ ∃ t, exec .sysReset s = .next t
        ∧ t.fb.len = 0 ∧ t.pb.len = 0 ∧ t.attr = List.replicate s.par.nAttr { valid := false, value := 0 }
        ∧ (∀ i : Fin 16, t.ctx.get i = { valid := false, pfx := 0 }) ∧ t.mac = {} ∧ t.hdr = {} ∧ t.cur = 0
        ∧ t.chain = [] ∧ t.node = {} ∧ t.acc = 0
        ∧ t.config = (if s.par.strictReset then 1 else 0) ∧ t.res = 0 ∧ t.status = 0
end

