-- ==== Sys2Proof/Laws/Memory.lean ====
section
/-! SUPPORT. Byte sequences and buffers: what reading gives after a write, and that every memory operation keeps the
canonical form. -/

namespace Sys2Proof.Machine

/-! ## Numbers and byte sequences -/

@[simp] theorem tobe_length (n v : Nat) : (tobe n v).length = n := by
  induction n with
  | zero => rfl
  | succ n ih => simp [tobe, ih]

theorem be_append_one (bs : List Byte) (b : Byte) : be (bs ++ [b]) = be bs * 256 + b.toNat := by
  simp [be, List.foldl_append]

theorem be_foldl (a : Nat) (bs : List Byte) :
    bs.foldl (fun acc b => acc * 256 + b.toNat) a = a * 256 ^ bs.length + be bs := by
  induction bs using List.reverseRecOn generalizing a with
  | nil => simp [be]
  | append_singleton bs b ih =>
    simp only [List.foldl_append, List.foldl_cons, List.foldl_nil, ih, be_append_one, List.length_append,
      List.length_cons, List.length_nil, Nat.pow_succ]
    ring

theorem be_cons (b : Byte) (bs : List Byte) : be (b :: bs) = b.toNat * 256 ^ bs.length + be bs := by
  have := be_foldl b.toNat bs
  simpa [be] using this

theorem be_append (as bs : List Byte) : be (as ++ bs) = be as * 256 ^ bs.length + be bs := by
  have := be_foldl (be as) bs
  rw [be, List.foldl_append]
  exact this

theorem be_lt (bs : List Byte) : be bs < 256 ^ bs.length := by
  induction bs with
  | nil => simp [be]
  | cons b bs ih =>
    rw [be_cons, List.length_cons, Nat.pow_succ]
    have hb : b.toNat + 1 ≤ 256 := b.isLt
    nlinarith [Nat.pow_pos (n := bs.length) (show 0 < 256 by decide)]

theorem be_tobe (n v : Nat) : be (tobe n v) = v % 256 ^ n := by
  induction n generalizing v with
  | zero => simp [tobe, be, Nat.mod_one]
  | succ n ih =>
    rw [tobe, be_cons, ih, tobe_length, BitVec.toNat_ofNat, Nat.pow_succ 256 n, Nat.mod_mul (a := 256 ^ n),
      Nat.mul_comm (256 ^ n), Nat.add_comm, show 2 ^ 8 = 256 by rfl]

theorem slice_length (bs : List Byte) (i n : Nat) : (slice bs i n).length = min n (bs.length - i) := by
  simp [slice]

theorem slice_full (bs : List Byte) : slice bs 0 bs.length = bs := by simp [slice]

theorem splice_length (bs new : List Byte) (off : Nat) (h : off + new.length ≤ bs.length) :
    (splice bs off new).length = bs.length := by
  simp only [splice, List.length_append, List.length_take, List.length_drop]
  omega

theorem splice_getElem? (bs new : List Byte) (off a : Nat) (h : off + new.length ≤ bs.length) :
    (splice bs off new)[a]? = if off ≤ a ∧ a < off + new.length then new[a - off]? else bs[a]? := by
  have ho : off ≤ bs.length := by omega
  simp only [splice, List.append_assoc]
  by_cases h1 : a < off
  · rw [List.getElem?_append_left (by simp; omega), List.getElem?_take, if_pos h1, if_neg (by omega)]
  · rw [List.getElem?_append_right (by simp; omega), List.length_take, Nat.min_eq_left ho]
    by_cases h2 : a < off + new.length
    · rw [if_pos ⟨by omega, h2⟩, List.getElem?_append_left (by omega)]
    · rw [if_neg (by omega), List.getElem?_append_right (by omega), List.getElem?_drop]
      congr 1; omega

theorem slice_splice (bs new : List Byte) (off : Nat) (h : off + new.length ≤ bs.length) :
    slice (splice bs off new) off new.length = new := by
  have ho : off ≤ bs.length := by omega
  have : (bs.take off).length = off := by simp [ho]
  rw [slice, splice, List.append_assoc, List.drop_append_of_le_length (by omega)]
  simp

/-! ## Buffers -/

@[simp] theorem Memory.bytes_ofBytes (bs : List Byte) : (Memory.ofBytes bs).bytes = bs := by
  have h : (Prod.snd ∘ fun c : Byte × Nat => (c.2, c.1)) = Prod.fst := rfl
  simp [Memory.ofBytes, Memory.bytes, h, List.zipIdx_map_fst]

@[simp] theorem Memory.len_ofBytes (bs : List Byte) : (Memory.ofBytes bs).len = bs.length := by
  simp [Memory.ofBytes, Memory.len]

@[simp] theorem Memory.bytes_length (m : Memory) : m.bytes.length = m.len := by simp [Memory.bytes, Memory.len]

/-- Building a memory gives the canonical form. -/
theorem Memory.wf_ofBytes (bs : List Byte) : (Memory.ofBytes bs).wf := by
  have h : (Prod.fst ∘ fun c : Byte × Nat => (c.2, c.1)) = Prod.snd := rfl
  simp [Memory.wf, Memory.ofBytes, h, List.zipIdx_map_snd, List.range_eq_range']

/-- A memory in canonical form is what its bytes build: equal contents are equal data. -/
theorem Memory.ofBytes_bytes {m : Memory} (h : m.wf) : Memory.ofBytes m.bytes = m := by
  have hz : m.bytes.zipIdx.map (fun c => (c.2, c.1)) = (m.map Prod.fst).zip (m.map Prod.snd) := by
    rw [h]
    apply List.ext_getElem
    · simp [Memory.bytes]
    · intro i h1 h2
      simp [Memory.bytes, List.getElem_zipIdx]
  rw [Memory.ofBytes, hz]
  apply List.ext_getElem
  · simp
  · intro i h1 h2
    simp

theorem lookup_ofBytes (bs : List Byte) (k i : Nat) :
    ((bs.zipIdx k).map (fun c => (c.2, c.1))).lookup (k + i) = bs[i]? := by
  induction bs generalizing k i with
  | nil => rfl
  | cons b bs ih =>
    cases i with
    | zero => simp
    | succ i =>
      have hne : (k + (i + 1) == k) = false := by simp
      simp only [List.zipIdx_cons, List.map_cons, List.lookup, hne, List.getElem?_cons_succ]
      rw [← ih (k + 1) i]
      congr 1; omega

@[simp] theorem Memory.read_ofBytes (bs : List Byte) (i : Nat) : (Memory.ofBytes bs).read i = bs[i]? := by
  have h := lookup_ofBytes bs 0 i
  rw [Nat.zero_add] at h
  rw [Memory.read, Memory.ofBytes, h]
  cases bs[i]? <;> rfl

/-- In canonical form, reading is indexing the bytes. -/
theorem Memory.read_eq {m : Memory} (h : m.wf) (i : Nat) : m.read i = m.bytes[i]? := by
  conv_lhs => rw [← Memory.ofBytes_bytes h]
  rw [Memory.read_ofBytes]

/-- An offset at or beyond the length reads as no byte. -/
theorem Memory.read_of_len_le {m : Memory} (h : m.wf) {i : Nat} (hi : m.len ≤ i) : m.read i = none := by
  rw [Memory.read_eq h, List.getElem?_eq_none (by simpa using hi)]

/-- What a read of a field can answer. -/
theorem Memory.readBE_eq_some {m : Memory} {off n v : Nat} (h : m.readBE off n = some v) :
    off + n ≤ m.len ∧ v = be (slice m.bytes off n) := by
  unfold Memory.readBE at h
  split at h
  · exact ⟨‹_›, by simpa using h.symm⟩
  · cases h

/-- What a write of a field can answer: the canonical form of the spliced bytes, of the same length. -/
theorem Memory.writeBE_eq_some {m m' : Memory} {off n v : Nat} (h : m.writeBE off n v = some m') :
    off + n ≤ m.len ∧ m' = Memory.ofBytes (splice m.bytes off (tobe n v)) ∧ m'.wf ∧ m'.len = m.len := by
  unfold Memory.writeBE at h
  split at h
  · rename_i hb
    have : m' = Memory.ofBytes (splice m.bytes off (tobe n v)) := by simpa using h.symm
    refine ⟨hb, this, this ▸ Memory.wf_ofBytes _, ?_⟩
    rw [this, Memory.len_ofBytes, splice_length _ _ _ (by simpa using hb), Memory.bytes_length]
  · cases h

/-- A read after a write: the written bytes where it wrote, the old ones elsewhere. -/
theorem Memory.read_writeBE {m m' : Memory} (hm : m.wf) {off n v : Nat} (h : m.writeBE off n v = some m') (a : Nat) :
    m'.read a = if off ≤ a ∧ a < off + n then (tobe n v)[a - off]? else m.read a := by
  obtain ⟨hb, rfl, -, -⟩ := Memory.writeBE_eq_some h
  rw [Memory.read_ofBytes, splice_getElem? _ _ _ _ (by simpa using hb), tobe_length, Memory.read_eq hm]

/-- A field read where it was just written gives the value, cut to its width. -/
theorem Memory.readBE_writeBE {m m' : Memory} {off n v : Nat} (h : m.writeBE off n v = some m') :
    m'.readBE off n = some (v % 256 ^ n) := by
  obtain ⟨hb, rfl, -, hl⟩ := Memory.writeBE_eq_some h
  have hs := slice_splice m.bytes (tobe n v) off (by simpa using hb)
  rw [tobe_length] at hs
  rw [Memory.readBE, hl, if_pos hb, Memory.bytes_ofBytes, hs, be_tobe]

theorem Memory.wf_nil : Memory.wf [] := rfl

/-- The memories of the reset state are in canonical form. -/
theorem State.reset_mem_wf : State.reset.fb.wf ∧ State.reset.pb.wf := ⟨rfl, rfl⟩

theorem State.withBuf_wf {s : State} {b : Buf} {m : Memory} (hf : s.fb.wf) (hp : s.pb.wf) (hm : m.wf) :
    (s.withBuf b m).fb.wf ∧ (s.withBuf b m).pb.wf := by
  cases b
  · exact ⟨hm, hp⟩
  · exact ⟨hf, hm⟩

end Sys2Proof.Machine
end

