-- ==== Sys2Proof/Laws/State.lean ====
section
/-! SUPPORT. One lemma per field and per named update of the state, so that no proof unfolds a record update. -/

namespace Sys2Proof.Machine

@[simp] theorem State.drawAcc_fb (s : State) : (s.drawAcc).fb = s.fb := rfl
@[simp] theorem State.drawAcc_pb (s : State) : (s.drawAcc).pb = s.pb := rfl
@[simp] theorem State.drawAcc_attr (s : State) : (s.drawAcc).attr = s.attr := rfl
@[simp] theorem State.drawAcc_mac (s : State) : (s.drawAcc).mac = s.mac := rfl
@[simp] theorem State.drawAcc_hdr (s : State) : (s.drawAcc).hdr = s.hdr := rfl
@[simp] theorem State.drawAcc_cur (s : State) : (s.drawAcc).cur = s.cur := rfl
@[simp] theorem State.drawAcc_chain (s : State) : (s.drawAcc).chain = s.chain := rfl
@[simp] theorem State.drawAcc_node (s : State) : (s.drawAcc).node = s.node := rfl
@[simp] theorem State.drawAcc_ctx (s : State) : (s.drawAcc).ctx = s.ctx := rfl
@[simp] theorem State.drawAcc_acc (s : State) : (s.drawAcc).acc = Config.freeAcc s.draws := rfl
@[simp] theorem State.drawAcc_config (s : State) : (s.drawAcc).config = s.config := rfl
@[simp] theorem State.drawAcc_status (s : State) : (s.drawAcc).status = s.status := rfl
@[simp] theorem State.drawAcc_res (s : State) : (s.drawAcc).res = s.res := rfl
@[simp] theorem State.drawAcc_par (s : State) : (s.drawAcc).par = s.par := rfl
@[simp] theorem State.drawAcc_tx (s : State) : (s.drawAcc).tx = s.tx := rfl
@[simp] theorem State.drawAcc_program (s : State) : (s.drawAcc).program = s.program := rfl
@[simp] theorem State.drawAcc_draws (s : State) : (s.drawAcc).draws = s.draws + 1 := rfl

@[simp] theorem State.setAttr_fb (s : State) (i : Nat) (v : Word) : (s.setAttr i v).fb = s.fb := rfl
@[simp] theorem State.setAttr_pb (s : State) (i : Nat) (v : Word) : (s.setAttr i v).pb = s.pb := rfl
@[simp] theorem State.setAttr_attr (s : State) (i : Nat) (v : Word) : (s.setAttr i v).attr = s.attr.set i { valid := true, value := v } := rfl
@[simp] theorem State.setAttr_mac (s : State) (i : Nat) (v : Word) : (s.setAttr i v).mac = s.mac := rfl
@[simp] theorem State.setAttr_hdr (s : State) (i : Nat) (v : Word) : (s.setAttr i v).hdr = s.hdr := rfl
@[simp] theorem State.setAttr_cur (s : State) (i : Nat) (v : Word) : (s.setAttr i v).cur = s.cur := rfl
@[simp] theorem State.setAttr_chain (s : State) (i : Nat) (v : Word) : (s.setAttr i v).chain = s.chain := rfl
@[simp] theorem State.setAttr_node (s : State) (i : Nat) (v : Word) : (s.setAttr i v).node = s.node := rfl
@[simp] theorem State.setAttr_ctx (s : State) (i : Nat) (v : Word) : (s.setAttr i v).ctx = s.ctx := rfl
@[simp] theorem State.setAttr_acc (s : State) (i : Nat) (v : Word) : (s.setAttr i v).acc = s.acc := rfl
@[simp] theorem State.setAttr_config (s : State) (i : Nat) (v : Word) : (s.setAttr i v).config = s.config := rfl
@[simp] theorem State.setAttr_status (s : State) (i : Nat) (v : Word) : (s.setAttr i v).status = s.status := rfl
@[simp] theorem State.setAttr_res (s : State) (i : Nat) (v : Word) : (s.setAttr i v).res = s.res := rfl
@[simp] theorem State.setAttr_par (s : State) (i : Nat) (v : Word) : (s.setAttr i v).par = s.par := rfl
@[simp] theorem State.setAttr_tx (s : State) (i : Nat) (v : Word) : (s.setAttr i v).tx = s.tx := rfl
@[simp] theorem State.setAttr_program (s : State) (i : Nat) (v : Word) : (s.setAttr i v).program = s.program := rfl
@[simp] theorem State.setAttr_draws (s : State) (i : Nat) (v : Word) : (s.setAttr i v).draws = s.draws := rfl

@[simp] theorem State.present_fb (s : State) (t : Transaction) (rest : List Transaction) : (s.present t rest).fb = s.fb := rfl
@[simp] theorem State.present_pb (s : State) (t : Transaction) (rest : List Transaction) : (s.present t rest).pb = s.pb := rfl
@[simp] theorem State.present_attr (s : State) (t : Transaction) (rest : List Transaction) : (s.present t rest).attr = s.attr := rfl
@[simp] theorem State.present_mac (s : State) (t : Transaction) (rest : List Transaction) : (s.present t rest).mac = s.mac := rfl
@[simp] theorem State.present_hdr (s : State) (t : Transaction) (rest : List Transaction) : (s.present t rest).hdr = s.hdr := rfl
@[simp] theorem State.present_cur (s : State) (t : Transaction) (rest : List Transaction) : (s.present t rest).cur = s.cur := rfl
@[simp] theorem State.present_chain (s : State) (t : Transaction) (rest : List Transaction) : (s.present t rest).chain = s.chain := rfl
@[simp] theorem State.present_node (s : State) (t : Transaction) (rest : List Transaction) : (s.present t rest).node = s.node := rfl
@[simp] theorem State.present_ctx (s : State) (t : Transaction) (rest : List Transaction) : (s.present t rest).ctx = s.ctx := rfl
@[simp] theorem State.present_acc (s : State) (t : Transaction) (rest : List Transaction) : (s.present t rest).acc = s.acc := rfl
@[simp] theorem State.present_config (s : State) (t : Transaction) (rest : List Transaction) : (s.present t rest).config = s.config := rfl
@[simp] theorem State.present_status (s : State) (t : Transaction) (rest : List Transaction) : (s.present t rest).status = s.status := rfl
@[simp] theorem State.present_res (s : State) (t : Transaction) (rest : List Transaction) : (s.present t rest).res = s.res := rfl
@[simp] theorem State.present_par (s : State) (t : Transaction) (rest : List Transaction) : (s.present t rest).par = s.par := rfl
@[simp] theorem State.present_tx (s : State) (t : Transaction) (rest : List Transaction) : (s.present t rest).tx = t := rfl
@[simp] theorem State.present_program (s : State) (t : Transaction) (rest : List Transaction) : (s.present t rest).program = rest := rfl
@[simp] theorem State.present_draws (s : State) (t : Transaction) (rest : List Transaction) : (s.present t rest).draws = s.draws := rfl

@[simp] theorem State.pushTransaction_fb (s : State) (t : Transaction) : (s.pushTransaction t).fb = s.fb := rfl
@[simp] theorem State.pushTransaction_pb (s : State) (t : Transaction) : (s.pushTransaction t).pb = s.pb := rfl
@[simp] theorem State.pushTransaction_attr (s : State) (t : Transaction) : (s.pushTransaction t).attr = s.attr := rfl
@[simp] theorem State.pushTransaction_mac (s : State) (t : Transaction) : (s.pushTransaction t).mac = s.mac := rfl
@[simp] theorem State.pushTransaction_hdr (s : State) (t : Transaction) : (s.pushTransaction t).hdr = s.hdr := rfl
@[simp] theorem State.pushTransaction_cur (s : State) (t : Transaction) : (s.pushTransaction t).cur = s.cur := rfl
@[simp] theorem State.pushTransaction_chain (s : State) (t : Transaction) : (s.pushTransaction t).chain = s.chain := rfl
@[simp] theorem State.pushTransaction_node (s : State) (t : Transaction) : (s.pushTransaction t).node = s.node := rfl
@[simp] theorem State.pushTransaction_ctx (s : State) (t : Transaction) : (s.pushTransaction t).ctx = s.ctx := rfl
@[simp] theorem State.pushTransaction_acc (s : State) (t : Transaction) : (s.pushTransaction t).acc = s.acc := rfl
@[simp] theorem State.pushTransaction_config (s : State) (t : Transaction) : (s.pushTransaction t).config = s.config := rfl
@[simp] theorem State.pushTransaction_status (s : State) (t : Transaction) : (s.pushTransaction t).status = s.status := rfl
@[simp] theorem State.pushTransaction_res (s : State) (t : Transaction) : (s.pushTransaction t).res = s.res := rfl
@[simp] theorem State.pushTransaction_par (s : State) (t : Transaction) : (s.pushTransaction t).par = s.par := rfl
@[simp] theorem State.pushTransaction_tx (s : State) (t : Transaction) : (s.pushTransaction t).tx = s.tx := rfl
@[simp] theorem State.pushTransaction_program (s : State) (t : Transaction) : (s.pushTransaction t).program = t :: s.program := rfl
@[simp] theorem State.pushTransaction_draws (s : State) (t : Transaction) : (s.pushTransaction t).draws = s.draws := rfl

@[simp] theorem State.placeFrame_fb (s : State) (bs : List Byte) : (s.placeFrame bs).fb = Memory.ofBytes bs := rfl
@[simp] theorem State.placeFrame_pb (s : State) (bs : List Byte) : (s.placeFrame bs).pb = s.pb := rfl
@[simp] theorem State.placeFrame_attr (s : State) (bs : List Byte) : (s.placeFrame bs).attr = s.attr := rfl
@[simp] theorem State.placeFrame_mac (s : State) (bs : List Byte) : (s.placeFrame bs).mac = s.mac := rfl
@[simp] theorem State.placeFrame_hdr (s : State) (bs : List Byte) : (s.placeFrame bs).hdr = s.hdr := rfl
@[simp] theorem State.placeFrame_cur (s : State) (bs : List Byte) : (s.placeFrame bs).cur = s.cur := rfl
@[simp] theorem State.placeFrame_chain (s : State) (bs : List Byte) : (s.placeFrame bs).chain = s.chain := rfl
@[simp] theorem State.placeFrame_node (s : State) (bs : List Byte) : (s.placeFrame bs).node = s.node := rfl
@[simp] theorem State.placeFrame_ctx (s : State) (bs : List Byte) : (s.placeFrame bs).ctx = s.ctx := rfl
@[simp] theorem State.placeFrame_acc (s : State) (bs : List Byte) : (s.placeFrame bs).acc = s.acc := rfl
@[simp] theorem State.placeFrame_config (s : State) (bs : List Byte) : (s.placeFrame bs).config = s.config := rfl
@[simp] theorem State.placeFrame_status (s : State) (bs : List Byte) : (s.placeFrame bs).status = s.status := rfl
@[simp] theorem State.placeFrame_res (s : State) (bs : List Byte) : (s.placeFrame bs).res = s.res := rfl
@[simp] theorem State.placeFrame_par (s : State) (bs : List Byte) : (s.placeFrame bs).par = s.par := rfl
@[simp] theorem State.placeFrame_tx (s : State) (bs : List Byte) : (s.placeFrame bs).tx = s.tx := rfl
@[simp] theorem State.placeFrame_program (s : State) (bs : List Byte) : (s.placeFrame bs).program = s.program := rfl
@[simp] theorem State.placeFrame_draws (s : State) (bs : List Byte) : (s.placeFrame bs).draws = s.draws := rfl

@[simp] theorem State.placePayload_fb (s : State) (nh : Byte) (pay : List Byte) : (s.placePayload nh pay).fb = s.fb := rfl
@[simp] theorem State.placePayload_pb (s : State) (nh : Byte) (pay : List Byte) : (s.placePayload nh pay).pb = Memory.ofBytes (List.replicate Config.ipHdr 0 ++ pay) := rfl
@[simp] theorem State.placePayload_attr (s : State) (nh : Byte) (pay : List Byte) : (s.placePayload nh pay).attr = s.attr := rfl
@[simp] theorem State.placePayload_mac (s : State) (nh : Byte) (pay : List Byte) : (s.placePayload nh pay).mac = s.mac := rfl
@[simp] theorem State.placePayload_hdr (s : State) (nh : Byte) (pay : List Byte) : (s.placePayload nh pay).hdr = { s.hdr with plen := BitVec.ofNat 16 pay.length, nh := nh } := rfl
@[simp] theorem State.placePayload_cur (s : State) (nh : Byte) (pay : List Byte) : (s.placePayload nh pay).cur = 40 := rfl
@[simp] theorem State.placePayload_chain (s : State) (nh : Byte) (pay : List Byte) : (s.placePayload nh pay).chain = s.chain := rfl
@[simp] theorem State.placePayload_node (s : State) (nh : Byte) (pay : List Byte) : (s.placePayload nh pay).node = s.node := rfl
@[simp] theorem State.placePayload_ctx (s : State) (nh : Byte) (pay : List Byte) : (s.placePayload nh pay).ctx = s.ctx := rfl
@[simp] theorem State.placePayload_acc (s : State) (nh : Byte) (pay : List Byte) : (s.placePayload nh pay).acc = s.acc := rfl
@[simp] theorem State.placePayload_config (s : State) (nh : Byte) (pay : List Byte) : (s.placePayload nh pay).config = s.config := rfl
@[simp] theorem State.placePayload_status (s : State) (nh : Byte) (pay : List Byte) : (s.placePayload nh pay).status = s.status := rfl
@[simp] theorem State.placePayload_res (s : State) (nh : Byte) (pay : List Byte) : (s.placePayload nh pay).res = s.res := rfl
@[simp] theorem State.placePayload_par (s : State) (nh : Byte) (pay : List Byte) : (s.placePayload nh pay).par = s.par := rfl
@[simp] theorem State.placePayload_tx (s : State) (nh : Byte) (pay : List Byte) : (s.placePayload nh pay).tx = s.tx := rfl
@[simp] theorem State.placePayload_program (s : State) (nh : Byte) (pay : List Byte) : (s.placePayload nh pay).program = s.program := rfl
@[simp] theorem State.placePayload_draws (s : State) (nh : Byte) (pay : List Byte) : (s.placePayload nh pay).draws = s.draws := rfl

@[simp] theorem State.ipPut_fb (s : State) (r : IpReg) (v : Word) : (s.ipPut r v).fb = s.fb := rfl
@[simp] theorem State.ipPut_pb (s : State) (r : IpReg) (v : Word) : (s.ipPut r v).pb = s.pb := rfl
@[simp] theorem State.ipPut_attr (s : State) (r : IpReg) (v : Word) : (s.ipPut r v).attr = s.attr := rfl
@[simp] theorem State.ipPut_mac (s : State) (r : IpReg) (v : Word) : (s.ipPut r v).mac = s.mac := rfl
@[simp] theorem State.ipPut_hdr (s : State) (r : IpReg) (v : Word) : (s.ipPut r v).hdr = s.hdr.put r v := rfl
@[simp] theorem State.ipPut_cur (s : State) (r : IpReg) (v : Word) : (s.ipPut r v).cur = curPut s.cur r v := rfl
@[simp] theorem State.ipPut_chain (s : State) (r : IpReg) (v : Word) : (s.ipPut r v).chain = s.chain := rfl
@[simp] theorem State.ipPut_node (s : State) (r : IpReg) (v : Word) : (s.ipPut r v).node = s.node := rfl
@[simp] theorem State.ipPut_ctx (s : State) (r : IpReg) (v : Word) : (s.ipPut r v).ctx = s.ctx := rfl
@[simp] theorem State.ipPut_acc (s : State) (r : IpReg) (v : Word) : (s.ipPut r v).acc = s.acc := rfl
@[simp] theorem State.ipPut_config (s : State) (r : IpReg) (v : Word) : (s.ipPut r v).config = s.config := rfl
@[simp] theorem State.ipPut_status (s : State) (r : IpReg) (v : Word) : (s.ipPut r v).status = s.status := rfl
@[simp] theorem State.ipPut_res (s : State) (r : IpReg) (v : Word) : (s.ipPut r v).res = s.res := rfl
@[simp] theorem State.ipPut_par (s : State) (r : IpReg) (v : Word) : (s.ipPut r v).par = s.par := rfl
@[simp] theorem State.ipPut_tx (s : State) (r : IpReg) (v : Word) : (s.ipPut r v).tx = s.tx := rfl
@[simp] theorem State.ipPut_program (s : State) (r : IpReg) (v : Word) : (s.ipPut r v).program = s.program := rfl
@[simp] theorem State.ipPut_draws (s : State) (r : IpReg) (v : Word) : (s.ipPut r v).draws = s.draws := rfl

@[simp] theorem State.resetEngine_fb (s : State) : (s.resetEngine).fb = [] := rfl
@[simp] theorem State.resetEngine_pb (s : State) : (s.resetEngine).pb = [] := rfl
@[simp] theorem State.resetEngine_attr (s : State) : (s.resetEngine).attr = List.replicate s.par.nAttr {} := rfl
@[simp] theorem State.resetEngine_mac (s : State) : (s.resetEngine).mac = {} := rfl
@[simp] theorem State.resetEngine_hdr (s : State) : (s.resetEngine).hdr = {} := rfl
@[simp] theorem State.resetEngine_cur (s : State) : (s.resetEngine).cur = 0 := rfl
@[simp] theorem State.resetEngine_chain (s : State) : (s.resetEngine).chain = [] := rfl
@[simp] theorem State.resetEngine_node (s : State) : (s.resetEngine).node = {} := rfl
@[simp] theorem State.resetEngine_ctx (s : State) : (s.resetEngine).ctx = Vector.replicate 16 {} := rfl
@[simp] theorem State.resetEngine_acc (s : State) : (s.resetEngine).acc = 0 := rfl
@[simp] theorem State.resetEngine_config (s : State) : (s.resetEngine).config = if s.par.strictReset then 1 else 0 := rfl
@[simp] theorem State.resetEngine_status (s : State) : (s.resetEngine).status = 0 := rfl
@[simp] theorem State.resetEngine_res (s : State) : (s.resetEngine).res = 0 := rfl
@[simp] theorem State.resetEngine_par (s : State) : (s.resetEngine).par = s.par := rfl
@[simp] theorem State.resetEngine_tx (s : State) : (s.resetEngine).tx = s.tx := rfl
@[simp] theorem State.resetEngine_program (s : State) : (s.resetEngine).program = s.program := rfl
@[simp] theorem State.resetEngine_draws (s : State) : (s.resetEngine).draws = s.draws := rfl

@[simp] theorem State.withBuf_fb (s : State) (b : Buf) (m : Memory) : (s.withBuf b m).fb = if b = .fb then m else s.fb := by cases b <;> rfl
@[simp] theorem State.withBuf_pb (s : State) (b : Buf) (m : Memory) : (s.withBuf b m).pb = if b = .pb then m else s.pb := by cases b <;> rfl
@[simp] theorem State.withBuf_attr (s : State) (b : Buf) (m : Memory) : (s.withBuf b m).attr = s.attr := by cases b <;> rfl
@[simp] theorem State.withBuf_mac (s : State) (b : Buf) (m : Memory) : (s.withBuf b m).mac = s.mac := by cases b <;> rfl
@[simp] theorem State.withBuf_hdr (s : State) (b : Buf) (m : Memory) : (s.withBuf b m).hdr = s.hdr := by cases b <;> rfl
@[simp] theorem State.withBuf_cur (s : State) (b : Buf) (m : Memory) : (s.withBuf b m).cur = s.cur := by cases b <;> rfl
@[simp] theorem State.withBuf_chain (s : State) (b : Buf) (m : Memory) : (s.withBuf b m).chain = s.chain := by cases b <;> rfl
@[simp] theorem State.withBuf_node (s : State) (b : Buf) (m : Memory) : (s.withBuf b m).node = s.node := by cases b <;> rfl
@[simp] theorem State.withBuf_ctx (s : State) (b : Buf) (m : Memory) : (s.withBuf b m).ctx = s.ctx := by cases b <;> rfl
@[simp] theorem State.withBuf_acc (s : State) (b : Buf) (m : Memory) : (s.withBuf b m).acc = s.acc := by cases b <;> rfl
@[simp] theorem State.withBuf_config (s : State) (b : Buf) (m : Memory) : (s.withBuf b m).config = s.config := by cases b <;> rfl
@[simp] theorem State.withBuf_status (s : State) (b : Buf) (m : Memory) : (s.withBuf b m).status = s.status := by cases b <;> rfl
@[simp] theorem State.withBuf_res (s : State) (b : Buf) (m : Memory) : (s.withBuf b m).res = s.res := by cases b <;> rfl
@[simp] theorem State.withBuf_par (s : State) (b : Buf) (m : Memory) : (s.withBuf b m).par = s.par := by cases b <;> rfl
@[simp] theorem State.withBuf_tx (s : State) (b : Buf) (m : Memory) : (s.withBuf b m).tx = s.tx := by cases b <;> rfl
@[simp] theorem State.withBuf_program (s : State) (b : Buf) (m : Memory) : (s.withBuf b m).program = s.program := by cases b <;> rfl
@[simp] theorem State.withBuf_draws (s : State) (b : Buf) (m : Memory) : (s.withBuf b m).draws = s.draws := by cases b <;> rfl

/-! ## Reading a buffer, a slot, a context entry after an update -/

@[simp] theorem State.buf_fb (s : State) : s.buf .fb = s.fb := rfl
@[simp] theorem State.buf_pb (s : State) : s.buf .pb = s.pb := rfl
@[simp] theorem State.cap_fb (s : State) : s.cap .fb = s.par.fbCap := rfl
@[simp] theorem State.cap_pb (s : State) : s.cap .pb = s.par.pbCap := rfl
@[simp] theorem State.withBuf_buf (s : State) (b : Buf) (m : Memory) : (s.withBuf b m).buf b = m := by cases b <;> rfl
theorem State.withBuf_buf_ne (s : State) {b b' : Buf} (m : Memory) (h : b ≠ b') :
    (s.withBuf b m).buf b' = s.buf b' := by cases b <;> cases b' <;> first | rfl | exact absurd rfl h
@[simp] theorem State.setAttr_length (s : State) (i : Nat) (v : Word) :
    (s.setAttr i v).attr.length = s.attr.length := List.length_set
theorem State.setAttr_get (s : State) {i : Nat} (v : Word) (h : i < s.attr.length) :
    (s.setAttr i v).attr[i]? = some { valid := true, value := v } := by
  rw [State.setAttr_attr, List.getElem?_set_self h]
theorem State.setAttr_get_ne (s : State) {i j : Nat} (v : Word) (h : i ≠ j) :
    (s.setAttr i v).attr[j]? = s.attr[j]? := by
  rw [State.setAttr_attr, List.getElem?_set_ne h]

end Sys2Proof.Machine
end

