-- ==== Sys2Proof/Laws/Ops.lean ====
section
/-! SUPPORT. For each shared operation, once, everything it can do. -/

namespace Sys2Proof.Machine

/-! ## Ending a command -/

theorem raise_eq_next {e : Err} {s s' : State} : raise e s = .next s' ↔ s' = { s with status := e.status } := by
  simp only [raise, Host.Outcome.next.injEq]; exact eq_comm
theorem done_eq_next {s s' : State} : done s = .next s' ↔ s' = { s with status := 0 } := by
  simp only [done, Host.Outcome.next.injEq]; exact eq_comm
theorem ret_eq_next {v : Word} {s s' : State} : ret v s = .next s' ↔ s' = { s with res := v, status := 0 } := by
  simp only [ret, Host.Outcome.next.injEq]; exact eq_comm
theorem report_eq_next {w : Option Report} {s s' : State} :
    report w s = .next s' ↔ s' = { s with status := reportStatus w } := by
  simp only [report, Host.Outcome.next.injEq]; exact eq_comm
theorem raiseAny_eq_next {e : Err} {s s' : State} :
    raiseAny e s = .next s' ↔
      s' = { s with status := e.status, acc := Config.freeAcc s.draws, draws := s.draws + 1 } := by
  simp only [raiseAny, raise, State.drawAcc, Host.Outcome.next.injEq]; exact eq_comm

theorem report_none (s : State) : report none s = done s := rfl

/-! ## Data, buffers -/

theorem dataOf_eq_some {s : State} {n : Half} {d : List Byte} :
    s.dataOf n = some d ↔ d = s.tx.data ∧ s.tx.data.length = n.toNat := by
  unfold State.dataOf
  split <;> simp_all [eq_comm]

theorem loadBE_cases (b : Buf) (off : Half) (n : Nat) (s : State) :
    (off.toNat + n ≤ (s.buf b).len
        ∧ loadBE b off n s = ret (BitVec.ofNat 32 (be (slice (s.buf b).bytes off.toNat n))) s)
    ∨ ((s.buf b).len < off.toNat + n ∧ loadBE b off n s = raise ⟨.outOfRange, off.toNat⟩ s) := by
  by_cases h : off.toNat + n ≤ (s.buf b).len
  · exact .inl ⟨h, by simp [loadBE, Memory.readBE, h]⟩
  · exact .inr ⟨by omega, by simp [loadBE, Memory.readBE, h]⟩

theorem storeBE_cases (b : Buf) (off : Half) (n v : Nat) (s : State) :
    (off.toNat + n ≤ (s.buf b).len ∧ ∃ m, (s.buf b).writeBE off.toNat n v = some m
        ∧ storeBE b off n v s = done (s.withBuf b m))
    ∨ ((s.buf b).len < off.toNat + n ∧ storeBE b off n v s = raise ⟨.outOfRange, off.toNat⟩ s) := by
  by_cases h : off.toNat + n ≤ (s.buf b).len
  · exact .inl ⟨h, _, by rw [Memory.writeBE, if_pos h], by simp [storeBE, Memory.writeBE, h]⟩
  · exact .inr ⟨by omega, by simp [storeBE, Memory.writeBE, h]⟩

/-! ## The parsers -/

theorem macClassify_cases (f : Fcf) (s : State) :
    (∃ e, macError f s.fb.len = some e ∧ macClassify f s = raise e s)
    ∨ (macError f s.fb.len = none ∧ macClassify f s
        = done (({ s with mac := macFields f s.fb.bytes }.setAttr 0 (zext f.ftype)).setAttr 1
            (BitVec.ofNat 32 (macHlen f)))) := by
  unfold macClassify
  cases h : macError f s.fb.len with
  | some e => exact .inl ⟨e, rfl, rfl⟩
  | none => exact .inr ⟨rfl, rfl⟩

theorem dispatch_cases (opt : List Byte → Option Half) (nh : Byte) (s : State) :
    (∃ e, parseChain opt nh s = .error e ∧ dispatch opt nh s = raiseAny e s)
    ∨ (∃ l c w, parseChain opt nh s = .ok (l, c, w)
        ∧ dispatch opt nh s = report w { s with chain := l, cur := BitVec.ofNat 16 c }.drawAcc) := by
  unfold dispatch
  cases h : parseChain opt nh s with
  | error e => exact .inl ⟨e, rfl, rfl⟩
  | ok r => obtain ⟨l, c, w⟩ := r; exact .inr ⟨l, c, w, rfl, rfl⟩

theorem parseChain_cases (opt : List Byte → Option Half) (nh : Byte) (s : State) :
    (s.pb.len < s.payEnd ∧ parseChain opt nh s = .error ⟨.malformedFrame, 4⟩)
    ∨ (s.payEnd ≤ s.pb.len ∧ (s.cur.toNat < 40 ∨ s.payEnd < s.cur.toNat)
        ∧ parseChain opt nh s = .error ⟨.malformedFrame, s.cur.toNat⟩)
    ∨ (s.payEnd ≤ s.pb.len ∧ 40 ≤ s.cur.toNat ∧ s.cur.toNat ≤ s.payEnd
        ∧ parseChain opt nh s = chainLoop ⟨s.pb.bytes, s.hdr.src, s.hdr.dst⟩ opt s.payEnd s.par.chainMax s.cur.toNat nh) := by
  by_cases h : s.payEnd > s.pb.len
  · exact .inl ⟨h, by simp [parseChain, h]⟩
  by_cases hc : s.cur.toNat < Config.ipHdr ∨ s.cur.toNat > s.payEnd
  · exact .inr (.inl ⟨by omega, hc, by simp only [parseChain, h, hc, if_true, if_false]⟩)
  · have hc' : ¬ (s.cur.toNat < 40 ∨ s.cur.toNat > s.payEnd) := hc
    exact .inr (.inr ⟨by omega, by omega, by omega, by simp only [parseChain, h, hc, if_false]⟩)

theorem terminal_cases (r : Except Err (Node × Nat × Option Report)) :
    (∃ e, r = .error e ∧ terminal r = .error e) ∨ (∃ n c w, r = .ok (n, c, w) ∧ terminal r = .ok ([n], c, w)) := by
  rcases r with e | ⟨n, c, w⟩
  · exact .inl ⟨e, rfl, rfl⟩
  · exact .inr ⟨n, c, w, rfl, rfl⟩

/-- One turn of the dispatch loop. -/
theorem chainLoop_succ (x : ParseCtx) (opt : List Byte → Option Half) (fin room c : Nat) (nh : Byte) :
    chainLoop x opt fin (room + 1) c nh =
      match variantOf nh with
      | some .hbh => (parseHbh x c fin).bind (fun r => (chainLoop x opt fin room r.2.1 r.2.2).map
          (fun q => (r.1 :: q.1, q.2)))
      | some .tcp => terminal (parseTcp x opt c fin)
      | some .udp => terminal (parseUdp x c fin)
      | some .icmp => terminal (parseIcmp x c fin)
      | none => .ok (rawRest x c fin) := by
  cases hv : variantOf nh with
  | none => simp [chainLoop, hv]
  | some v =>
    cases v with
    | hbh =>
      rcases hp : parseHbh x c fin with e | ⟨node, c', nh'⟩
      · simp [chainLoop, hv, hp, Except.bind]
      · rcases hl : chainLoop x opt fin room c' nh' with e | ⟨l, c'', w⟩ <;>
          simp [chainLoop, hv, hp, hl, Except.bind, Except.map]
    | tcp | udp | icmp => simp [chainLoop, hv]

theorem take_cases (fb : List Byte) (p n : Nat) :
    (p + n ≤ fb.length ∧ take fb p n = .ok (slice fb p n, p + n))
    ∨ (fb.length < p + n ∧ take fb p n = .error ⟨.malformedFrame, fb.length⟩) := by
  by_cases h : p + n > fb.length
  · exact .inr ⟨h, by simp [take, h]⟩
  · exact .inl ⟨by omega, by simp [take, h]⟩

theorem take_eq_ok {fb r : List Byte} {p n q : Nat} (h : take fb p n = .ok (r, q)) :
    p + n ≤ fb.length ∧ r = slice fb p n ∧ q = p + n ∧ r.length = n := by
  rcases take_cases fb p n with ⟨hb, he⟩ | ⟨hb, he⟩
  · rw [he] at h
    cases h
    exact ⟨hb, rfl, rfl, by rw [slice_length]; omega⟩
  · rw [he] at h; cases h

theorem hcCommit_cases (hd : Hdr) (body : List Byte) (b0 : Option Byte) (s : State) :
    (s.par.pbCap < 40 + body.length ∧ hcCommit hd body b0 s = raiseAny ⟨.outOfRange, s.par.pbCap⟩ s)
    ∨ (40 + body.length ≤ s.par.pbCap ∧ hcCommit hd body b0 s = .next { s with
        hdr := { hd with plen := BitVec.ofNat 16 body.length }
        pb := Memory.ofBytes (headerBytes { hd with plen := BitVec.ofNat 16 body.length } ++ body)
        cur := 40, chain := [], acc := Config.freeAcc s.draws, draws := s.draws + 1, status := 0
        attr := match b0 with
          | some b => s.attr.set 2 { valid := true, value := zext b }
          | none => s.attr }) := by
  by_cases h : Config.ipHdr + body.length > s.par.pbCap
  · exact .inl ⟨h, by simp only [hcCommit, h, if_true]⟩
  · have h' : ¬ (40 + body.length > s.par.pbCap) := h
    refine .inr ⟨by omega, ?_⟩
    simp only [hcCommit, h, if_false]
    cases b0 <;> rfl

theorem decompress_cases (h : Iphc) (off : Nat) (s : State) :
    (∃ e, takeHeader s off h = .error e ∧ decompress h off s = raiseAny e s)
    ∨ (∃ hd p e, takeHeader s off h = .ok (hd, p) ∧ takeBody s.fb.bytes h.nh hd p = .error e
        ∧ decompress h off s = raiseAny e s)
    ∨ (∃ hd p body, takeHeader s off h = .ok (hd, p) ∧ takeBody s.fb.bytes h.nh hd p = .ok body
        ∧ decompress h off s = hcCommit hd body (some ((encodeIphc h).extractLsb' 8 8)) s) := by
  unfold decompress
  rcases h1 : takeHeader s off h with e | ⟨hd, p⟩
  · exact .inl ⟨e, rfl, rfl⟩
  · rcases h2 : takeBody s.fb.bytes h.nh hd p with e | body
    · exact .inr (.inl ⟨hd, p, e, rfl, h2, by simp [h2]⟩)
    · exact .inr (.inr ⟨hd, p, body, rfl, h2, by simp [h2]⟩)

/-! ## Sizes -/

@[simp] theorem headerBytes_length (h : Hdr) : (headerBytes h).length = 40 := by simp [headerBytes]

theorem withCk_length (seg : List Byte) (k : Nat) (ck : Half) (h : k + 2 ≤ seg.length) :
    (withCk seg k ck).length = seg.length := splice_length _ _ _ (by simpa using h)

theorem tcpSegment_length (n : Node) (doff : BitVec 4) :
    (tcpSegment n doff).length = (if isSyn n.f then 24 else 20) + n.payload.length := by
  unfold tcpSegment
  split <;> simp <;> omega

theorem emitNode_length (src dst : Addr) (n : Node) : (emitNode src dst n).2.length = n.size := by
  cases hk : n.kind <;> simp only [emitNode, Node.size, hk]
  · simp [emitHbh]; omega
  · have h := tcpSegment_length n (if isSyn n.f then 6 else 5)
    simp only [emitTcp]
    rw [withCk_length _ _ _ (by rw [h]; split <;> omega), h]
  · simp only [emitUdp]
    rw [withCk_length _ _ _ (by simp; omega)]
    simp; omega
  · simp only [emitIcmp]
    split <;> rw [withCk_length _ _ _ (by simp)] <;> simp <;> omega

/-! ## The statements' terms -/

@[simp] theorem b2_length (h : Half) : (b2 h).length = 2 := rfl
@[simp] theorem b4_length (w : Word) : (b4 w).length = 4 := rfl
@[simp] theorem b8_length (d : DWord) : (b8 d).length = 8 := rfl
@[simp] theorem b16_length (a : Addr) : (b16 a).length = 16 := rfl
@[simp] theorem iphcBytes_length (h : Iphc) : (iphcBytes h).length = 2 := rfl

theorem nodeBytes_length (n : Node) : (nodeBytes n).length = n.size := by
  cases hk : n.kind <;> simp [nodeBytes, Node.size, hk, isSyn, isEcho] <;> (try split) <;> (try simp) <;> omega

@[simp] theorem Node.recomputed_kind (src dst : Addr) (n : Node) : (n.recomputed src dst).kind = n.kind := by
  cases hk : n.kind <;> simp [Node.recomputed, Node.summed, hk]
@[simp] theorem Node.recomputed_payload (src dst : Addr) (n : Node) :
    (n.recomputed src dst).payload = n.payload := by
  cases hk : n.kind <;> simp [Node.recomputed, Node.summed, hk]
@[simp] theorem Node.recomputed_offset (src dst : Addr) (n : Node) : (n.recomputed src dst).offset = n.offset := by
  cases hk : n.kind <;> simp [Node.recomputed, Node.summed, hk]
@[simp] theorem Node.recomputed_nh (src dst : Addr) (n : Node) : (n.recomputed src dst).f.nh = n.f.nh := by
  cases hk : n.kind <;> simp [Node.recomputed, Node.summed, hk]

end Sys2Proof.Machine
end

