-- ==== Sys2Proof/Laws/PerInstr.lean ====
section
/-! SUPPORT. Statements for all instructions, one lemma per constructor. `EncodingFits`: an instruction's word fits the bits
the opcode table gives its row. -/

namespace Sys2Proof.Laws

/-- The word of an instruction fits its row's width. -/
def EncodingFits.Statement (i : Instr) : Prop := encode i < 2 ^ width i

theorem EncodingFits.bfNew (buf : Buf) : EncodingFits.Statement (.bfNew buf) := BitVec.isLt _
theorem EncodingFits.bfSetbytes (buf : Buf) (n : Half) : EncodingFits.Statement (.bfSetbytes buf n) := BitVec.isLt _
theorem EncodingFits.bfLen (buf : Buf) : EncodingFits.Statement (.bfLen buf) := BitVec.isLt _
theorem EncodingFits.bfGetb (buf : Buf) (off : Half) : EncodingFits.Statement (.bfGetb buf off) := BitVec.isLt _
theorem EncodingFits.bfGeth (buf : Buf) (off : Half) : EncodingFits.Statement (.bfGeth buf off) := BitVec.isLt _
theorem EncodingFits.bfGetw (buf : Buf) (off : Half) : EncodingFits.Statement (.bfGetw buf off) := BitVec.isLt _
theorem EncodingFits.bfSetb (buf : Buf) (off : Half) : EncodingFits.Statement (.bfSetb buf off) := BitVec.isLt _
theorem EncodingFits.bfSeth (buf : Buf) (off : Half) : EncodingFits.Statement (.bfSeth buf off) := BitVec.isLt _
theorem EncodingFits.bfSetw (buf : Buf) (off : Half) : EncodingFits.Statement (.bfSetw buf off) := BitVec.isLt _
theorem EncodingFits.atSet (id : Fin 8) : EncodingFits.Statement (.atSet id) := BitVec.isLt _
theorem EncodingFits.atGet (id : Fin 8) : EncodingFits.Statement (.atGet id) := BitVec.isLt _
theorem EncodingFits.macParse : EncodingFits.Statement .macParse := BitVec.isLt _
theorem EncodingFits.macRd (reg : MacReg) : EncodingFits.Statement (.macRd reg) := BitVec.isLt _
theorem EncodingFits.macWr (reg : MacReg) : EncodingFits.Statement (.macWr reg) := BitVec.isLt _
theorem EncodingFits.ckLoad : EncodingFits.Statement .ckLoad := BitVec.isLt _
theorem EncodingFits.ckPseudo (nh : Byte) : EncodingFits.Statement (.ckPseudo nh) := BitVec.isLt _
theorem EncodingFits.ckRun (buf : Buf) (off : Half) : EncodingFits.Statement (.ckRun buf off) := BitVec.isLt _
theorem EncodingFits.ckFinal : EncodingFits.Statement .ckFinal := BitVec.isLt _
theorem EncodingFits.ipNew : EncodingFits.Statement .ipNew := BitVec.isLt _
theorem EncodingFits.ipParse : EncodingFits.Statement .ipParse := BitVec.isLt _
theorem EncodingFits.ipSerialize : EncodingFits.Statement .ipSerialize := BitVec.isLt _
theorem EncodingFits.ipRd (reg : IpReg) : EncodingFits.Statement (.ipRd reg) := BitVec.isLt _
theorem EncodingFits.ipWr (reg : IpReg) : EncodingFits.Statement (.ipWr reg) := BitVec.isLt _
theorem EncodingFits.ipIsll (sel : AddrSel) : EncodingFits.Statement (.ipIsll sel) := BitVec.isLt _
theorem EncodingFits.ipIsmc (sel : AddrSel) : EncodingFits.Statement (.ipIsmc sel) := BitVec.isLt _
theorem EncodingFits.chParse : EncodingFits.Statement .chParse := BitVec.isLt _
theorem EncodingFits.chClear : EncodingFits.Statement .chClear := BitVec.isLt _
theorem EncodingFits.chPush (kind : Kind) : EncodingFits.Statement (.chPush kind) := BitVec.isLt _
theorem EncodingFits.chRd (field : NodeField) (idx : Half) : EncodingFits.Statement (.chRd field idx) := BitVec.isLt _
theorem EncodingFits.chRdp (idx : Half) : EncodingFits.Statement (.chRdp idx) := BitVec.isLt _
theorem EncodingFits.chLen : EncodingFits.Statement .chLen := BitVec.isLt _
theorem EncodingFits.ndWr (field : NodeField) : EncodingFits.Statement (.ndWr field) := BitVec.isLt _
theorem EncodingFits.ndPayload (n : Half) : EncodingFits.Statement (.ndPayload n) := BitVec.isLt _
theorem EncodingFits.hcSetctx (v : Bool) (id : Byte) : EncodingFits.Statement (.hcSetctx v id) := BitVec.isLt _
theorem EncodingFits.hcRdctx (w : CtxWord) (id : Byte) : EncodingFits.Statement (.hcRdctx w id) := BitVec.isLt _
theorem EncodingFits.hcDecomp (off : Half) : EncodingFits.Statement (.hcDecomp off) := BitVec.isLt _
theorem EncodingFits.hcComp (u : Bool) : EncodingFits.Statement (.hcComp u) := BitVec.isLt _
theorem EncodingFits.sysReset : EncodingFits.Statement .sysReset := BitVec.isLt _
theorem EncodingFits.sysCfg : EncodingFits.Statement .sysCfg := BitVec.isLt _
theorem EncodingFits.wireMacFcf (f : Fcf) : EncodingFits.Statement (.wireMacFcf f) := BitVec.isLt _
theorem EncodingFits.wireNhHbh : EncodingFits.Statement .wireNhHbh := BitVec.isLt _
theorem EncodingFits.wireNhTcp : EncodingFits.Statement .wireNhTcp := BitVec.isLt _
theorem EncodingFits.wireNhUdp : EncodingFits.Statement .wireNhUdp := BitVec.isLt _
theorem EncodingFits.wireNhIcmpv6 : EncodingFits.Statement .wireNhIcmpv6 := BitVec.isLt _
theorem EncodingFits.wireIphc (h : Iphc) : EncodingFits.Statement (.wireIphc h) := BitVec.isLt _
theorem EncodingFits.wireNhcUdp (c : Bool) (p : BitVec 2) : EncodingFits.Statement (.wireNhcUdp c p) := BitVec.isLt _
theorem EncodingFits.wireTcpoptMss (mss : Half) : EncodingFits.Statement (.wireTcpoptMss mss) := BitVec.isLt _

end Sys2Proof.Laws
end

