-- ==== Sys2Proof/Tests/Slice0.lean ====
section
/-! SUPPORT. Tests: the well-formedness check, a word of every instruction written from its encoding, single steps with
results from the spec's examples, and for every statement with hypotheses states and operands that meet them. -/

namespace Sys2Proof.Tests

open Sys2Proof.Machine

/-! ## States -/

/-- FB holds `bs`. -/
def frame (bs : List Byte) : State := { State.reset with fb := Memory.ofBytes bs }
/-- The header registers `h`, PB holding their bytes and `pay`, the cursor at the payload. -/
def packet (h : Hdr) (pay : List Byte) : State :=
  { State.reset with pb := Memory.ofBytes (headerBytes h ++ pay), hdr := h, cur := 40 }
/-- A payload under next-header byte `nh`. -/
def payload (nh : Byte) (pay : List Byte) : State :=
  packet { ver := 6, nh := nh, plen := BitVec.ofNat 16 pay.length } pay
/-- `arg0` is `v`. -/
def arg (v : Word) (s : State) : State := { s with tx := { s.tx with arg0 := v } }
/-- The transaction's data. -/
def data (d : List Byte) (s : State) : State := { s with tx := { s.tx with data := d } }
/-- What a next state holds. -/
def after (o : Out) (p : State → Bool) : Bool :=
  match o with
  | .next s => p s
  | _ => false
/-- Extended link-layer addresses of the spec's examples. -/
def extended (s : State) : State :=
  { s with mac := { s.mac with smode := 3, dmode := 3, saddr := 0x1112131415161718, daddr := 0x0102030405060708 } }
/-- `CTX[0] = aaaa::/64`. -/
def withCtx (s : State) : State := { s with ctx := s.ctx.set 0 { valid := true, pfx := 0xAAAA000000000000 } }

/-! ## WellFormed refuses -/

theorem test_wf_refuses_staging_kind : (Instr.ndWr .kind).wf = false := by decide
theorem test_wf_refuses_staging_ckok : (Instr.ndWr .ckok).wf = false := by decide
theorem test_wf_refuses_staging_paylen : (Instr.ndWr .paylen).wf = false := by decide
theorem test_wf_refuses_staging_offset : (Instr.ndWr .offset).wf = false := by decide

/-! ## A word of every instruction, from 30_encoding.md R104 and the wire formats -/

theorem test_decode_bf :
    decodeTableWord 32 0x01010000 = some (.bfNew .pb) ∧ decodeTableWord 32 0x02000003 = some (.bfSetbytes .fb 3)
    ∧ decodeTableWord 32 0x03000000 = some (.bfLen .fb) ∧ decodeTableWord 32 0x04000002 = some (.bfGetb .fb 2)
    ∧ decodeTableWord 32 0x05010004 = some (.bfGeth .pb 4) ∧ decodeTableWord 32 0x06010000 = some (.bfGetw .pb 0)
    ∧ decodeTableWord 32 0x07010033 = some (.bfSetb .pb 51) ∧ decodeTableWord 32 0x08010004 = some (.bfSeth .pb 4)
    ∧ decodeTableWord 32 0x09010000 = some (.bfSetw .pb 0) ∧ decodeTableWord 32 0x0A030000 = some (.atSet 3)
    ∧ decodeTableWord 32 0x0B010000 = some (.atGet 1) := by decide
theorem test_decode_mac_ck :
    decodeTableWord 32 0x10000000 = some .macParse ∧ decodeTableWord 32 0x110F0000 = some (.macRd .hlen)
    ∧ decodeTableWord 32 0x12070000 = some (.macWr .smode) ∧ decodeTableWord 32 0x20000000 = some .ckLoad
    ∧ decodeTableWord 32 0x21000011 = some (.ckPseudo 17) ∧ decodeTableWord 32 0x22010030 = some (.ckRun .pb 48)
    ∧ decodeTableWord 32 0x23000000 = some .ckFinal := by decide
theorem test_decode_ip :
    decodeTableWord 32 0x30000000 = some .ipNew ∧ decodeTableWord 32 0x31000000 = some .ipParse
    ∧ decodeTableWord 32 0x32000000 = some .ipSerialize ∧ decodeTableWord 32 0x33020000 = some (.ipRd .fl)
    ∧ decodeTableWord 32 0x34050000 = some (.ipWr .hlim) ∧ decodeTableWord 32 0x35010000 = some (.ipIsll .dst)
    ∧ decodeTableWord 32 0x36010000 = some (.ipIsmc .dst) := by decide
theorem test_decode_ch :
    decodeTableWord 32 0x40000000 = some .chParse ∧ decodeTableWord 32 0x41000000 = some .chClear
    ∧ decodeTableWord 32 0x42030000 = some (.chPush .icmp) ∧ decodeTableWord 32 0x43030001 = some (.chRd .sport 1)
    ∧ decodeTableWord 32 0x44000001 = some (.chRdp 1) ∧ decodeTableWord 32 0x45000000 = some .chLen
    ∧ decodeTableWord 32 0x46030000 = some (.ndWr .sport) ∧ decodeTableWord 32 0x47000004 = some (.ndPayload 4) := by
  decide
theorem test_decode_hc_sys :
    decodeTableWord 32 0x50010003 = some (.hcSetctx true 3) ∧ decodeTableWord 32 0x51010000 = some (.hcRdctx .high 0)
    ∧ decodeTableWord 32 0x52000015 = some (.hcDecomp 21) ∧ decodeTableWord 32 0x53010000 = some (.hcComp true)
    ∧ decodeTableWord 32 0x70000000 = some .sysReset ∧ decodeTableWord 32 0x71000000 = some .sysCfg := by decide
/-- Frame control `0x8861` (41_mac.md R190), next-header bytes, IPHC `7A 33` and NHC `F2` (47_hc06_compress.md R371), MSS
option `02 04 04 C4` (44_chain.md R264). -/
theorem test_decode_wire :
    decodeTableWord 16 0x8861 = some (.wireMacFcf { smode := 2, fver := 0, dmode := 2, rsv := 0, panc := 1, ar := 1
                                                    pend := 0, sec := 0, ftype := 1 })
    ∧ decodeTableWord 8 0 = some .wireNhHbh ∧ decodeTableWord 8 6 = some .wireNhTcp
    ∧ decodeTableWord 8 17 = some .wireNhUdp ∧ decodeTableWord 8 58 = some .wireNhIcmpv6
    ∧ decodeTableWord 16 0x7A33 = some (.wireIphc { tf := 3, nh := false, hlim := 2, cid := false, sac := false
                                                    sam := 3, m := false, dac := false, dam := 3 })
    ∧ decodeTableWord 8 0xF2 = some (.wireNhcUdp false 2)
    ∧ decodeTableWord 32 0x020404C4 = some (.wireTcpoptMss 1220) := by decide
/-- 30_encoding.md R105: unused bits, selectors and opcodes out of range. -/
theorem test_decode_refuses :
    decodeTableWord 32 0 = none ∧ decodeTableWord 32 0x01020000 = none ∧ decodeTableWord 32 0x03000001 = none
    ∧ decodeTableWord 32 0x0A080000 = none ∧ decodeTableWord 32 0x33070000 = none ∧ decodeTableWord 32 0x42050000 = none
    ∧ decodeTableWord 32 0x43150000 = none ∧ decodeTableWord 32 0x46000000 = none ∧ decodeTableWord 32 0x46120000 = none
    ∧ decodeTableWord 32 0x50020000 = none ∧ decodeTableWord 32 0x51030000 = none ∧ decodeTableWord 32 0x72000000 = none
    ∧ decodeTableWord 8 43 = none := by decide

/-! ## Single steps, with the results of the spec's examples -/

/-- 40_byteframe.md R164, R165: `FB = 02 00 11`. -/
theorem test_getb_out_of_range :
    after (exec (.bfGetb .fb 3) (frame [2, 0, 0x11])) (fun s => s.status == 0x00030001) = true := by decide
theorem test_geth_odd_offset :
    after (exec (.bfGeth .fb 1) (frame [2, 0, 0x11])) (fun s => s.res == 0x11) = true := by decide
/-- 40_byteframe.md R168: `00 0C` at offset 4. -/
theorem test_seth_big_endian :
    after (exec (.bfSeth .fb 4) (arg 0x0C (frame (List.replicate 8 0xFF))))
      (fun s => s.fb.bytes == [0xFF, 0xFF, 0xFF, 0xFF, 0, 0x0C, 0xFF, 0xFF]) = true := by decide
/-- 41_mac.md R191. -/
def macFrame : List Byte :=
  [0x41, 0xCC, 0x07, 0xCD, 0xAB, 8, 7, 6, 5, 4, 3, 2, 1, 0x18, 0x17, 0x16, 0x15, 0x14, 0x13, 0x12, 0x11]
def macFrameRegs : MacRegs :=
  { ftype := 1, panc := 1, dmode := 3, smode := 3, seq := 7, dpan := 0xABCD, span := 0xABCD
    daddr := 0x0102030405060708, saddr := 0x1112131415161718, hlen := 21 }
theorem test_mac_parse : after (exec .macParse (frame macFrame)) (fun s => s.mac == macFrameRegs) = true := by decide
/-- 42_checksum.md R210, R211. -/
theorem test_running_sum_odd : runningSum 0 [0x12, 0x34, 0x56] = 0x6834 := by decide
theorem test_finalize_folds : finalize 0x2DDF0 = 0x220D ∧ finalize 0x1FFFF = 0xFFFE ∧ finalize 0 = 0xFFFF := by decide
/-- 42_checksum.md R212. -/
theorem test_pseudo : pseudo 0xAAAA000000000000000000FFFE005678 0xAAAA0000000000000000000000000001 17 10 = 0x2AAE7 := by
  decide
/-- 43_ipv6.md R231. -/
theorem test_ip_parse : hdrOf ([0x6A, 0xBC, 0xDE, 0xF0, 0, 0, 0x3B, 0xFF] ++ (List.range 32).map (BitVec.ofNat 8))
    = { ver := 6, tc := 0xAB, fl := 0xCDEF0, plen := 0, nh := 59, hlim := 255
        src := 0x000102030405060708090A0B0C0D0E0F, dst := 0x101112131415161718191A1B1C1D1E1F } := by decide
/-- 43_ipv6.md R234: `febf::1` is link-local, `fec0::1` is not. -/
theorem test_isll : isLinkLocal 0xFEBF0000000000000000000000000001 = true
    ∧ isLinkLocal 0xFEC00000000000000000000000000001 = false := by decide
/-- 44_chain.md R260, R263, R265: a Hop-by-Hop header, then UDP. -/
def hbhUdp : State := packet
  { ver := 6, nh := 0, plen := 18, src := 0xAAAA000000000000000000FFFE005678, dst := 0xAAAA0000000000000000000000000001 }
  [0x11, 0, 0x63, 4, 0, 0x1E, 1, 0, 0xF0, 0xB0, 0x16, 0x33, 0, 0x0A, 0xE5, 0xBE, 0x68, 0x69]
theorem test_ch_parse : after (exec .chParse hbhUdp) (fun s => s.status == 0 && s.cur == 58
    && s.chain == [{ kind := .hbh, f := { nh := 17 }, payload := [0x63, 4, 0, 0x1E, 1, 0], offset := 40 },
      { kind := .udp, f := { sport := 61616, dport := 5683, length := 10, cksum := 0xE5BE }, ckok := true
        payload := [0x68, 0x69], offset := 48 }]) = true := by decide +kernel
/-- 45_serialize.md R300: an echo request. -/
def echoChain : State :=
  { State.reset with
    hdr := { ver := 6, hlim := 64, src := 0xFE800000000000001312131415161718, dst := 0xFE800000000000000302030405060708 }
    chain := [{ kind := .icmp, f := { itype := 128, ident := 1, seqno := 1 }, payload := [0x70, 0x69, 0x6E, 0x67] }] }
theorem test_serialize : after (exec .ipSerialize echoChain) (fun s => s.cur == 52 && s.hdr.nh == 58
    && s.pb.bytes.take 8 == [0x60, 0, 0, 0, 0, 0x0C, 0x3A, 0x40]
    && s.pb.bytes.drop 40 == [0x80, 0, 0x3F, 0x7C, 0, 1, 0, 1, 0x70, 0x69, 0x6E, 0x67]) = true := by decide +kernel
/-- 95_test_vectors.md T4: `FLAGS = 0x12` (SYN, ACK), `MSS = 536`. -/
theorem test_serialize_syn_ack :
    after (exec .ipSerialize { State.reset with
        hdr := { ver := 6, hlim := 64, src := 0xFE800000000000000000000000000001, dst := 0xFE800000000000000000000000000002 }
        chain := [{ kind := .tcp, f := { sport := 1024, dport := 80, seq := 0x01020304, flags := 0x12, window := 0x1000
                                         mss := 536 } }] })
      (fun s => s.hdr.plen == 24 && s.pb.bytes.drop 40 == [4, 0, 0, 0x50, 1, 2, 3, 4, 0, 0, 0, 0, 0x60, 0x12, 0x10, 0, 0x86,
        0x58, 0, 0, 2, 4, 2, 0x18]) = true := by decide +kernel
/-- 46_hc06_decompress.md R327: `7A 33` with extended link-layer addresses. -/
theorem test_decomp_elided : after (exec (.hcDecomp 0) (extended (frame [0x7A, 0x33, 0x3A, 1])))
    (fun s => s.hdr.src == 0xFE800000000000001312131415161718 && s.hdr.plen == 1
      && s.attr[2]? == some { valid := true, value := 0x7A }) = true := by decide +kernel
/-- 46_hc06_decompress.md R327 (`7A E6 21 3B 00 01 00 02`, `CTX[2] = fd00::/64`, `CTX[1] = fd01::/64`). -/
def twoContexts (bs : List Byte) : State :=
  { frame bs with
    ctx := ((State.reset.ctx.set 2 { valid := true, pfx := 0xFD00000000000000 }).set 1
      { valid := true, pfx := 0xFD01000000000000 }) }
theorem test_decomp_short_identifiers :
    after (exec (.hcDecomp 0) (twoContexts [0x7A, 0xE6, 0x21, 0x3B, 0, 1, 0, 2]))
      (fun s => s.hdr.src == 0xFD00000000000000000000FFFE000001 && s.hdr.dst == 0xFD01000000000000000000FFFE000002
        && s.hdr.nh == 59 && s.pb.len == 40) = true := by decide +kernel
/-- 47_hc06_compress.md R371. -/
def udpPacket : State :=
  let s := packet { ver := 6, nh := 17, hlim := 64, plen := 10, src := 0xAAAA000000000000000000FFFE005678
                    dst := 0xAAAA000000000000000000FFFE001234 }
    [0xF0, 0xB0, 0x16, 0x33, 0, 0x0A, 0xD4, 0x8B, 0x68, 0x69]
  withCtx { s with mac := { s.mac with smode := 2, dmode := 2, saddr := 0x5678, daddr := 0x1234 } }
theorem test_comp : after (exec (.hcComp true) udpPacket)
    (fun s => s.fb.bytes == [0x7E, 0x77, 0xF2, 0xB0, 0x16, 0x33, 0xD4, 0x8B, 0x68, 0x69]) = true := by decide +kernel
/-- 47_hc06_compress.md R365: "The unspecified source address `::` is sent in full", under a context of prefix 0 too. -/
def fromUnspecified : State :=
  let s := packet { ver := 6, nh := 59, hlim := 64, dst := 0xFF020000000000000000000000000001 } []
  { s with ctx := s.ctx.set 0 { valid := true, pfx := 0 } }
theorem test_comp_unspecified_source : after (exec (.hcComp false) fromUnspecified) (fun s => s.fb.bytes
    == [0x7A, 0x08, 0x3B] ++ List.replicate 16 0 ++ [0xFF, 2] ++ List.replicate 13 0 ++ [1]) = true := by decide +kernel
/-- 70_reset_and_hazards.md R441, straight after reset. -/
theorem test_after_reset :
    after (exec .macParse State.reset) (fun s => s.status == 0x00000002)
      && after (exec .chParse State.reset) (fun s => s.status == 0x00040002)
      && after (exec (.hcComp false) State.reset) (fun s => s.status == 0x00000003) = true := by decide
/-- A command and a wire unit placed by `withFetchWord` are what the next step runs. -/
theorem test_fetch_command : after (step (State.reset.withFetchWord 32 0x71000000)) (fun s => s.config == 0) = true := by
  decide
theorem test_fetch_wire : after (step (State.reset.withFetchWord 8 58)) (fun s => s.chain.length == 1) = true := by
  decide +kernel

/-! ## Witnesses: states and operands that meet the statements' hypotheses -/

theorem witness_EncodedCommandsDecodeBack :
    (Instr.ndWr .seqno).isCommand = true ∧ (Instr.ndWr .seqno).wf = true := by decide
theorem witness_DecodedCommandsEncodeBack : decodeCommand 0x4314FFFF = some (.chRd .offset 0xFFFF) := by decide
theorem witness_WireUnitsDecodeBack :
    decodeIphc 0x7A33 ≠ none ∧ decodeNhcUdp 0xF7 = some (true, 3) ∧ decodeMss 0x0204FFFF = some 0xFFFF
    ∧ Instr.wireNhHbh.isCommand = false ∧ (decodeFcf 0x8861).smode ≠ 1 := by decide

/-- A host that presents one transaction. -/
def present (w : Word) (s : State) : State := { s with program := [{ cmd := w }] }

theorem witness_StepRunsTheDecodedCommand :
    (present 0x30000000 State.reset).program = [{ cmd := 0x30000000 }] ∧ decodeCommand 0x30000000 = some .ipNew
    ∧ State.reset.program = [] := by decide
theorem witness_IllegalWordsChangeOnlyStatus :
    (present 0x46120000 State.reset).program = [{ cmd := 0x46120000 }] ∧ ¬ LegalWord 0x46120000
    ∧ (present 0x46110000 State.reset).program = [{ cmd := 0x46110000 }] ∧ LegalWord 0x46110000 := by decide
theorem witness_StepKeepsTheInvariant :
    (present 0x30000000 State.reset).inv ∧ ∃ s', step (present 0x30000000 State.reset) = .next s' :=
  ⟨by decide, _, rfl⟩
theorem witness_ResetMeetsTheInvariant :
    Config.Params.wf { pbCap := 40, fbCap := 0, chainMax := 1, nAttr := 3 } ∧ Config.Params.wf { pbCap := 65535, fbCap := 65535 } := by
  decide
theorem witness_FatalErrorLeavesAllButStatus :
    (present 0x0B000000 State.reset).program = [{ cmd := 0x0B000000 }]
    ∧ (∃ s', step (present 0x0B000000 State.reset) = .next s' ∧ errField s'.status ≠ 0)
    ∧ decodeCommand 0x0B000000 = some (.atGet 0) ∧ clobbersAcc (.atGet 0) = false :=
  ⟨rfl, ⟨_, rfl, by decide⟩, by decide, rfl⟩
theorem witness_StatusDescribesOneOutcome : ∃ s', exec .chParse (payload 59 [1]) = .next s' := ⟨_, rfl⟩
theorem witness_CommandsRaiseOnlyTheirErrors : Instr.chParse.wf = true ∧ ∃ s', exec .chParse (payload 59 [1]) = .next s' :=
  ⟨rfl, _, rfl⟩
theorem witness_ContextTableChangesOnlyBySetctxAndReset :
    ∃ s', step (present 0x5001000F State.reset) = .next s' ∧ s'.ctx ≠ (present 0x5001000F State.reset).ctx :=
  ⟨_, rfl, by decide⟩
theorem witness_ComponentsChangeOnlyByTheirWriters :
    (∃ s', exec (.atGet 0) State.reset = .next s' ∧ errField s'.status ≠ 0)
    ∧ Component.fb ∉ written (.atGet 0) ∧ Component.pb ∉ written (.atGet 0) := ⟨⟨_, rfl, by decide⟩, by decide, by decide⟩
theorem witness_ParsersLeaveAccFree : clobbersAcc .ipSerialize = true ∧ ∃ s', exec .ipSerialize State.reset = .next s' :=
  ⟨rfl, _, rfl⟩
theorem witness_EveryTransactionCompletes :
    takesData (.hcComp true) = false ∧ (data [1] State.reset).tx.data.length = (Instr.bfSetbytes .fb 1).dataLen
    ∧ takesData (.ndPayload 2) = true ∧ (data [1] State.reset).tx.data.length ≠ (Instr.ndPayload 2).dataLen
    ∧ (State.resetWith { nAttr := 3 }).attr.length ≤ (3 : Fin 8).val := by decide
/-- Exactly the capacity, and one byte more. -/
theorem witness_BfSetbytesReplacesTheContents :
    ((data (List.replicate 127 5) State.reset).tx.data.length = (127 : Half).toNat
      ∧ (127 : Half).toNat ≤ (data (List.replicate 127 5) State.reset).cap .fb)
    ∧ ((data (List.replicate 128 5) State.reset).tx.data.length = (128 : Half).toNat
      ∧ (data (List.replicate 128 5) State.reset).cap .fb < (128 : Half).toNat) := by decide +kernel
/-- The last place of each width, and one place further. -/
theorem witness_BfReadsReturnTheBytes :
    let s := frame [1, 2, 3, 4]
    (s.buf .fb).wf ∧ (s.buf .fb).read 3 = some 4
    ∧ ((s.buf .fb).read 2 = some 3 ∧ (s.buf .fb).read (2 + 1) = some 4)
    ∧ ((s.buf .fb).read 0 = some 1 ∧ (s.buf .fb).read (0 + 1) = some 2 ∧ (s.buf .fb).read (0 + 2) = some 3
      ∧ (s.buf .fb).read (0 + 3) = some 4)
    ∧ (s.buf .fb).len < (4 : Half).toNat + 1 ∧ (s.buf .fb).len < (3 : Half).toNat + 2
    ∧ (s.buf .fb).len < (1 : Half).toNat + 4 := by decide
theorem witness_BfWritesStoreTheBytes :
    let s := frame [1, 2, 3, 4]
    (s.buf .fb).wf ∧ (3 : Half).toNat + 1 ≤ (s.buf .fb).len ∧ (2 : Half).toNat + 2 ≤ (s.buf .fb).len
    ∧ (0 : Half).toNat + 4 ≤ (s.buf .fb).len ∧ (s.buf .fb).len < (4 : Half).toNat + 1
    ∧ (s.buf .fb).len < (3 : Half).toNat + 2 ∧ (s.buf .fb).len < (1 : Half).toNat + 4 := by decide
theorem witness_AttributesAreAMapping :
    State.reset.attr[(7 : Fin 8).val]? = some {}
    ∧ (State.reset.setAttr 7 5).attr[(7 : Fin 8).val]? = some { valid := true, value := 5 } := by decide
theorem witness_MacParseReadsTheHeader :
    macConsistent macFrameRegs ∧ (frame (macFrame ++ [1, 2])).fb.bytes = macHeader macFrameRegs 0 ++ [1, 2]
    ∧ after (exec .macParse (frame macFrame)) (fun s => s.status == 0) = true := by decide
/-- The frames of 41_mac.md R195, then the shortest that passes each check but the last. -/
theorem witness_MacParseFailures :
    (frame [2, 0]).fb.len < 3
    ∧ (3 ≤ (frame [0x61, 0x84, 0x2A]).fb.len ∧ (byteAt (frame [0x61, 0x84, 0x2A]).fb.bytes 1).extractLsb' 2 2 = 1#2)
    ∧ (3 ≤ (frame [0x41, 0x80, 0x2A]).fb.len ∧ (byteAt (frame [0x41, 0x80, 0x2A]).fb.bytes 1).extractLsb' 2 2 = 0#2
      ∧ (byteAt (frame [0x41, 0x80, 0x2A]).fb.bytes 1).extractLsb' 6 2 = 2#2
      ∧ (byteAt (frame [0x41, 0x80, 0x2A]).fb.bytes 0).getLsbD 6 = true)
    ∧ ((frame [0x61, 0x88, 0x2A, 0xCD, 0xAB, 0x34, 0x12, 0x78]).fb.len = 8
      ∧ (byteAt (frame [0x61, 0x88, 0x2A, 0xCD, 0xAB, 0x34, 0x12, 0x78]).fb.bytes 1).extractLsb' 2 2 = 2#2
      ∧ (byteAt (frame [0x61, 0x88, 0x2A, 0xCD, 0xAB, 0x34, 0x12, 0x78]).fb.bytes 1).extractLsb' 6 2 = 2#2) := by decide
theorem witness_HeaderBytesAndRegistersAgree : 40 ≤ (List.replicate 40 (0 : Byte)).length := by decide
/-- 39 bytes; version 6; version 4, strict and lenient. -/
theorem witness_IpParseLoadsTheRegisters :
    (let s := State.reset.withBuf .pb (Memory.ofBytes (List.replicate 39 0)); s.pb.len < 40)
    ∧ (packet { ver := 6 } [1]).pb.bytes = headerBytes { ver := 6 } ++ [1]
    ∧ ((packet { ver := 4 } []).pb.bytes = headerBytes { ver := 4 } ++ []
      ∧ (packet { ver := 4 } []).config.getLsbD 0 = true)
    ∧ ({ packet { ver := 4 } [] with config := 0 }).config.getLsbD 0 = false := by decide +kernel
theorem witness_CkRunAddsTheWords :
    (2 : Half).toNat + (arg 1 (frame [1, 2, 3])).tx.arg0.toNat ≤ ((arg 1 (frame [1, 2, 3])).buf .fb).len
    ∧ ((arg 2 (frame [1, 2, 3])).buf .fb).len < (2 : Half).toNat + (arg 2 (frame [1, 2, 3])).tx.arg0.toNat := by decide
theorem witness_RunningSumLaws :
    ([1, 2] : List Byte).length % 2 = 0 ∧ (0xFFFFFFFF : Word) ≠ 0 ∧ ([1, 2] : List Half).Perm [2, 1] :=
  ⟨by decide, by decide, List.Perm.swap _ _ _⟩
theorem witness_ChecksumIsSelfConsistent : 2 + 2 ≤ ([128, 0, 0, 0] : List Byte).length := by decide
/-- A payload one byte too long; a cursor at 39 and past the end; no room; a known next header. -/
theorem witness_ChParseDispatchesOnTheNextHeader :
    (let s := { payload 6 [1] with hdr := { plen := 2 } }; s.pb.len < 40 + s.hdr.plen.toNat)
    ∧ (let s := { payload 6 [1] with cur := 39 }; 40 + s.hdr.plen.toNat ≤ s.pb.len ∧ s.cur.toNat < 40)
    ∧ (let s := { payload 6 [1] with cur := 42 }; 40 + s.hdr.plen.toNat < s.cur.toNat)
    ∧ (let s := { payload 6 [1] with par := { chainMax := 0 } }; s.atPayload ∧ s.par.chainMax = 0)
    ∧ (payload 6 []).hdr.nh = Variant.tcp.disp := by decide
/-- A TCP segment of `n` bytes with data offset `d`. -/
def tcpOf (d : Byte) (n : Nat) : State := payload 6 (List.replicate 12 0 ++ [d] ++ List.replicate (n - 13) 0)
theorem witness_TcpSegmentsParse :
    ((tcpOf 0x50 19).atPayload ∧ 1 ≤ (tcpOf 0x50 19).par.chainMax ∧ (tcpOf 0x50 19).hdr.nh = 6
      ∧ (tcpOf 0x50 19).rest.length < 20)
    ∧ ((tcpOf 0x40 20).atPayload ∧ 20 ≤ (tcpOf 0x40 20).rest.length ∧ (tcpDoff (tcpOf 0x40 20).rest).toNat < 5)
    ∧ ((tcpOf 0x60 23).atPayload ∧ 5 ≤ (tcpDoff (tcpOf 0x60 23).rest).toNat
      ∧ (tcpOf 0x60 23).rest.length < 4 * (tcpDoff (tcpOf 0x60 23).rest).toNat)
    ∧ ((tcpOf 0x60 24).atPayload ∧ 5 ≤ (tcpDoff (tcpOf 0x60 24).rest).toNat
      ∧ 4 * (tcpDoff (tcpOf 0x60 24).rest).toNat ≤ (tcpOf 0x60 24).rest.length) := by decide +kernel
/-- A UDP header with length field `l`, `n` bytes in all. -/
def udpOf (l : Byte) (n : Nat) : State := payload 17 (([0, 0, 0, 0, 0, l, 0, 0] ++ List.replicate n 0).take n)
theorem witness_UdpDatagramsParse :
    ((udpOf 8 7).atPayload ∧ 1 ≤ (udpOf 8 7).par.chainMax ∧ (udpOf 8 7).hdr.nh = 17 ∧ (udpOf 8 7).rest.length < 8)
    ∧ ((udpOf 7 8).atPayload ∧ 8 ≤ (udpOf 7 8).rest.length ∧ (h16 (udpOf 7 8).rest 4).toNat < 8)
    ∧ ((udpOf 9 8).atPayload ∧ 8 ≤ (udpOf 9 8).rest.length ∧ (udpOf 9 8).rest.length < (h16 (udpOf 9 8).rest 4).toNat)
    ∧ ((udpOf 9 9).atPayload ∧ 8 ≤ (h16 (udpOf 9 9).rest 4).toNat
      ∧ (h16 (udpOf 9 9).rest 4).toNat ≤ (udpOf 9 9).rest.length) := by decide +kernel
/-- A message of type `t` and `n` bytes. -/
def icmpOf (t : Byte) (n : Nat) : State := payload 58 ((t :: List.replicate n 0).take n)
theorem witness_IcmpMessagesParse :
    ((icmpOf 1 3).atPayload ∧ 1 ≤ (icmpOf 1 3).par.chainMax ∧ (icmpOf 1 3).hdr.nh = 58 ∧ (icmpOf 1 3).rest.length < 4)
    ∧ ((icmpOf 129 7).atPayload ∧ 4 ≤ (icmpOf 129 7).rest.length ∧ byteAt (icmpOf 129 7).rest 0 = 129
      ∧ (icmpOf 129 7).rest.length < 8)
    ∧ ((icmpOf 129 8).atPayload ∧ byteAt (icmpOf 129 8).rest 0 = 129 ∧ 8 ≤ (icmpOf 129 8).rest.length)
    ∧ ((icmpOf 1 4).atPayload ∧ 4 ≤ (icmpOf 1 4).rest.length ∧ byteAt (icmpOf 1 4).rest 0 = 1) := by decide +kernel
/-- A Hop-by-Hop header of size byte `l`, options `opts`. -/
def hbhOf (nh l : Byte) (opts : List Byte) : State := payload 0 ([nh, l] ++ opts)
theorem framed_pads (n : Nat) : Framed (List.replicate n 0) := by
  induction n with
  | zero => exact .empty
  | succ n ih => exact .pad1 ih
theorem witness_UnknownDispatchLeavesARawNode :
    ((payload 59 []).atPayload ∧ 1 ≤ (payload 59 []).par.chainMax ∧ unknownNh (payload 59 []).hdr.nh)
    ∧ (let s := hbhOf 43 0 (List.replicate 6 0)
       s.atPayload ∧ 2 ≤ s.par.chainMax ∧ 2 ≤ s.rest.length ∧ hbhSize s.rest ≤ s.rest.length
       ∧ unknownNh (byteAt s.rest 0) ∧ s.hdr.nh = 0 ∧ hbhOptions s.rest = List.replicate 6 0) := by decide +kernel
/-- One byte; seven; an option that runs past the end; a whole header of padding. -/
theorem witness_HopByHopHeadersParse :
    (let s := payload 0 [6]; s.atPayload ∧ s.pb.len ≤ 65535 ∧ s.par.chainMax = 7 + 1 ∧ s.rest.length < 2)
    ∧ (let s := hbhOf 6 0 (List.replicate 5 0); s.atPayload ∧ 2 ≤ s.rest.length ∧ s.rest.length < hbhSize s.rest)
    ∧ (let s := hbhOf 6 0 [1, 5, 0, 0, 0, 0]
       s.atPayload ∧ hbhSize s.rest ≤ s.rest.length ∧ hbhOptions s.rest = [1, 5, 0, 0, 0, 0])
    ∧ (let s := hbhOf 6 0 (List.replicate 6 0)
       s.atPayload ∧ hbhSize s.rest ≤ s.rest.length ∧ hbhOptions s.rest = List.replicate 6 0) := by decide +kernel
theorem witness_not_framed : ¬ Framed [1, 5, 0, 0, 0, 0] := by
  generalize h : ([1, 5, 0, 0, 0, 0] : List Byte) = l
  intro hf
  cases hf with
  | empty => cases h
  | pad1 _ => simp at h
  | option ht hd _ =>
    simp only [List.cons.injEq] at h
    obtain ⟨rfl, rfl, h⟩ := h
    have := congrArg List.length h
    simp [hd] at this
    change 4 = 5 + _ at this
    omega
theorem witness_MssOptionSetsTheMss :
    let s := payload 6 (List.replicate 12 0 ++ [0x60] ++ List.replicate 7 0 ++ [2, 4, 4, 0xC4])
    s.atPayload ∧ 1 ≤ s.par.chainMax ∧ 24 ≤ s.rest.length ∧ 6 ≤ (tcpDoff s.rest).toNat
    ∧ 4 * (tcpDoff s.rest).toNat ≤ s.rest.length ∧ (s.rest.drop 20).take 4 = [2, 4] ++ b2 1220 := by decide +kernel
def hbhNode6 : Node := { kind := .hbh, payload := List.replicate 6 0 }
/-- Eight nodes; a terminated chain; a ragged payload, and the first whole one above 2046 bytes; 6 bytes and 2046 on an
empty chain. -/
theorem witness_ChPushAppendsTheStagedNode :
    (let s : State := { State.reset with chain := List.replicate 8 hbhNode6 }; s.chain.length = s.par.chainMax)
    ∧ (let s : State := { State.reset with chain := [{ kind := .udp }] }
       s.chain.length ≠ s.par.chainMax ∧ (s.chain.getLast?.map Node.kind) = some .udp)
    ∧ (let s : State := { State.reset with node := { payload := List.replicate 5 0 } }
       s.chain.getLast? = none ∧ (s.node.payload.length + 2) % 8 ≠ 0)
    ∧ (let s : State := { State.reset with node := { payload := List.replicate 2054 0 } }
       (s.node.payload.length + 2) % 8 = 0 ∧ 2046 < s.node.payload.length)
    ∧ (let s : State := { State.reset with node := { payload := List.replicate 6 0 } }
       s.chain.length ≠ s.par.chainMax ∧ s.chain.getLast? = none ∧ (s.node.payload.length + 2) % 8 = 0)
    ∧ (let s : State := { State.reset with node := { payload := List.replicate 2046 0 } }
       (s.node.payload.length + 2) % 8 = 0 ∧ ¬ 2046 < s.node.payload.length) := by decide +kernel
/-- Index 1 of a chain of one, a field TCP has and one it has not, the last payload byte and the place after it. -/
theorem witness_ChainReads :
    let n : Node := { kind := .tcp, payload := [9] }
    let s : State := { State.reset with chain := [n] }
    s.chain.length ≤ (1 : Half).toNat ∧ s.chain[(0 : Half).toNat]? = some n ∧ hasField n.kind .mss = true
    ∧ hasField n.kind .length = false ∧ n.payload.length ≤ (arg 1 s).tx.arg0.toNat
    ∧ n.payload[(arg 0 s).tx.arg0.toNat]? = some 9 := by decide
theorem witness_NdWrStagesOneField : NodeField.seqno.stageable = true ∧ NodeField.nh.stageable = true := by decide
theorem witness_NdPayloadStagesThePayload :
    (let s : State := data (List.replicate 2 7) { State.reset with par := { pbCap := 42 } }
     s.tx.data.length = (2 : Half).toNat ∧ (2 : Half).toNat ≤ s.par.pbCap - 40)
    ∧ (let s : State := data (List.replicate 3 7) { State.reset with par := { pbCap := 42 } }
       s.tx.data.length = (3 : Half).toNat ∧ s.par.pbCap - 40 < (3 : Half).toNat) := by decide
/-- A packet one byte too long for PB, and one that just fits, with a link from a Hop-by-Hop node to the last one. -/
theorem witness_SerializeLaysOutTheChain :
    (let s : State := { State.reset with chain := [hbhNode6, { kind := .udp }], par := { pbCap := 55 } }
     s.par.pbCap < 40 + totalSize s.chain)
    ∧ (let s : State := { State.reset with chain := [hbhNode6, { kind := .udp }], par := { pbCap := 56 } }
       40 + totalSize s.chain ≤ s.par.pbCap ∧ s.chain[0]? = some hbhNode6 ∧ s.chain[0 + 1]? = some { kind := .udp }
       ∧ s.chain[1 + 1]? = none) := by
  decide
theorem witness_SerializedNodeBytes (k : Kind) :
    let n : Node := { kind := k, payload := List.replicate 6 0 }
    let s : State := { State.reset with chain := [n] }
    s.chain = [n] ∧ 40 + n.size ≤ s.par.pbCap ∧ n.kind = k := by cases k <;> decide
/-- A Hop-by-Hop header of padding, then UDP. -/
def hbhUdpChain : State :=
  { State.reset with hdr := { ver := 6 }, chain := [hbhNode6, { kind := .udp, payload := [1] }] }
theorem witness_SerializeThenParse :
    (hbhUdpChain.inv ∧ hbhUdpChain.hdr.ver = 6 ∧ hbhUdpChain.chain ≠ []
      ∧ 40 + totalSize hbhUdpChain.chain ≤ hbhUdpChain.par.pbCap)
    ∧ (∀ n, hbhUdpChain.chain.getLast? = some n → n.kind ≠ .hbh) ∧ ∀ n ∈ hbhUdpChain.chain, reparses n := by
  refine ⟨by decide, ?_, ?_⟩
  · intro n h
    have hn : n = { kind := .udp, payload := [1] } := by simpa [hbhUdpChain] using h.symm
    subst hn; decide
  · intro n hn
    have hn' : n = hbhNode6 ∨ n = { kind := .udp, payload := [1] } := by simpa [hbhUdpChain] using hn
    rcases hn' with rfl | rfl
    · exact framed_pads 6
    · trivial
/-- The spec's Hop-by-Hop and UDP packet, parsed. -/
def hbhUdpNodes : List Node :=
  [{ kind := .hbh, f := { nh := 17 }, payload := [0x63, 4, 0, 0x1E, 1, 0], offset := 40 },
   { kind := .udp, f := { sport := 61616, dport := 5683, length := 10, cksum := 0xE5BE }, ckok := true
     payload := [0x68, 0x69], offset := 48 }]
theorem witness_ParseThenSerialize :
    hbhUdp.inv ∧ after (exec .ipParse hbhUdp) (fun t => t.status == 0 && after (exec .chParse t) (fun t2 =>
      t2.status == 0 && hbhUdp.pb.len == 40 + t2.hdr.plen.toNat && t2.chain == hbhUdpNodes)) = true := by decide +kernel
theorem witness_ParseThenSerialize_nodes : ∀ n ∈ hbhUdpNodes, reserializes hbhUdp.pb.bytes hbhUdp.pb.len n := by
  intro n hn
  have hn' : n.kind = .hbh ∨ n = { kind := .udp, ckok := true, payload := [0x68, 0x69], offset := 48
                                   f := { sport := 61616, dport := 5683, length := 10, cksum := 0xE5BE } } := by
    simp only [hbhUdpNodes, List.mem_cons, List.not_mem_nil, or_false] at hn
    rcases hn with rfl | rfl
    · exact .inl rfl
    · exact .inr rfl
  rcases hn' with h | rfl
  · simp [reserializes, h]
  · show (48 : Half).toNat + (10 : Half).toNat = hbhUdp.pb.len
    decide +kernel
theorem witness_ContextEntriesAreSetAndRead : 16 ≤ (16 : Byte).toNat ∧ (15 : Byte).toNat = (15 : Fin 16).val := by decide
/-- Version 4; a payload one byte too long; FB one byte too small, and just large enough. -/
theorem witness_HcCompWritesOrFails :
    (packet { ver := 4 } []).hdr.ver ≠ 6
    ∧ ((packet { ver := 6, plen := 1 } []).hdr.ver = 6
      ∧ (packet { ver := 6, plen := 1 } []).pb.len < 40 + (packet { ver := 6, plen := 1 } []).hdr.plen.toNat)
    ∧ (udpPacket.hdr.ver = 6 ∧ 40 + udpPacket.hdr.plen.toNat ≤ udpPacket.pb.len
      ∧ (iphcDatagram true udpPacket).length = 10)
    ∧ (let s := { udpPacket with par := { fbCap := 9 } }; s.par.fbCap < (iphcDatagram true s).length)
    ∧ (let s := { udpPacket with par := { fbCap := 10 } }; (iphcDatagram true s).length ≤ s.par.fbCap) := by decide +kernel
/-- `fe80::` with the derived identifier; `aaaa::` held by `CTX[0]`; `2001:db8::` held by none. -/
theorem witness_AddressPolicyIsPriorityOrdered :
    (linkIid 2 0x5678 = some 0x000000FFFE005678)
    ∧ (((withCtx State.reset).ctx.get 0).valid = true ∧ ((withCtx State.reset).ctx.get 0).pfx = 0xAAAA000000000000#64
      ∧ (0xAAAA000000000000#64 : DWord) ≠ 0xFE80000000000000#64 ∧ ∀ j : Fin 16, ¬ j < 0)
    ∧ ∀ i : Fin 16, ¬ (((withCtx State.reset).ctx.get i).valid = true
        ∧ ((withCtx State.reset).ctx.get i).pfx = 0x20010DB800000000#64) := by decide
theorem witness_AddressPolicyIsPriorityOrdered_source :
    fromUnspecified.hdr.src = 0 ∧ udpPacket.hdr.src ≠ 0 ∧ (fromUnspecified.ctx.get 0).valid = true
    ∧ (fromUnspecified.ctx.get 0).pfx = 0 := by decide
theorem witness_CompressThenDecompress :
    udpPacket.inv ∧ udpPacket.hdr.ver = 6 ∧ udpPacket.pb.len = 40 + udpPacket.hdr.plen.toNat
    ∧ after (exec (.hcComp true) udpPacket) (fun t => errField t.status == 0) = true
    ∧ udpPacket.pb.bytes.take 40 = headerBytes udpPacket.hdr := by decide +kernel
/-- Every form with an inline field that is not the widest fits some value; the forms without one fit theirs. -/
theorem witness_ChosenFormsLoseNothing :
    (tfFits 0 0xFF 0xFFFFF ∧ tfFits 1 3 0xFFFFF ∧ tfFits 2 0xFF 0 ∧ tfFits 3 0 0)
    ∧ (hlimFits 0 255 ∧ hlimFits 1 1 ∧ hlimFits 2 64 ∧ hlimFits 3 255)
    ∧ (portsFit 0 0 0 ∧ portsFit 1 0 0xF0FF ∧ portsFit 2 0xF0FF 0 ∧ portsFit 3 0xF0BF 0xF0B0) :=
  ⟨by decide, by decide, by decide⟩
/-- The example of 46_hc06_decompress.md R327 at offset 1, both addresses 16 bits under a context, in a PB it just fits. -/
theorem witness_ElidedLinkLocalHeaderDecompresses_contexts :
    let s : State := { twoContexts [9, 0x7A, 0xE6, 0x21, 0x3B, 0, 1, 0, 2, 7] with par := { pbCap := 41 } }
    s.iphcHeader 1
        { tf := 3, nh := false, hlim := 2, cid := true, sac := true, sam := 2, m := false, dac := true, dam := 2 }
        { sci := 2, dci := 1, src := [0, 1], dst := [0, 2] }
        { ver := 6, nh := 59, hlim := 64, src := 0xFD00000000000000000000FFFE000001
          dst := 0xFD01000000000000000000FFFE000002 } (hcBody false {} [7])
      ∧ 40 + (hcPayload false {} 0 0 [7]).length ≤ s.par.pbCap :=
  ⟨⟨by decide, by decide, by decide, by decide, by decide, by decide, by decide, by decide⟩, by decide⟩
/-- `::` and `ff05::aa:bbcc` (46_hc06_decompress.md R329), everything else inline, and a UDP header without its checksum. -/
theorem witness_ElidedLinkLocalHeaderDecompresses_udp :
    let q : UdpHeader := { elided := true, form := 3, sport := 0xF0B1, dport := 0xF0B2 }
    let s := frame [0x64, 0x4A, 0xC5, 0xA1, 0x23, 0x45, 7, 5, 0xAA, 0xBB, 0xCC, 0xF7, 0x12, 1]
    s.iphcHeader 0
        { tf := 0, nh := true, hlim := 0, cid := false, sac := true, sam := 0, m := true, dac := false, dam := 2 }
        { pad := 0xA, dst := [5, 0xAA, 0xBB, 0xCC] }
        { ver := 6, tc := 0x17, fl := 0x12345, nh := 17, hlim := 7, dst := 0xFF050000000000000000000000AABBCC }
        (hcBody true q [1])
      ∧ portsFit q.form q.sport q.dport ∧ 40 + (hcPayload true q 0 0 [1]).length ≤ s.par.pbCap :=
  ⟨⟨by decide, by decide, by decide, by decide, by decide, by decide, by decide, by decide⟩, by decide, by decide⟩
/-- Link-local 64-bit and multicast 48-bit and 8-bit forms, and the identifiers of link-layer addresses. -/
theorem witness_ElidedLinkLocalHeaderDecompresses_forms :
    (let s := extended State.reset
     s.unicastForm true false 1 0 3 0 [0, 0, 0, 0, 0, 0, 0, 5] 0xFE800000000000000000000000000005
     ∧ s.unicastForm false false 3 0 3 0x0102030405060708 [] 0xFE800000000000000302030405060708
     ∧ s.unicastForm false false 3 0 2 0xFFFF1234 [] 0xFE80000000000000000000FFFE001234)
    ∧ multicastForm 1 [2, 0xAA, 0xBB, 0xCC, 0xDD, 0xEE] 0xFF02000000000000000000AABBCCDDEE
    ∧ multicastForm 3 [1] 0xFF020000000000000000000000000001 :=
  ⟨by decide, by decide, by decide⟩
theorem witness_ElidedLinkLocalHeaderDecompresses :
    (let s := arg 0xFFFF0001 (extended (frame [9, 0x7A, 0x33, 0x3A, 1]))
     s.tx.arg0.toNat % 65536 = (1 : Half).toNat ∧ s.fb.bytes.drop (1 : Half).toNat = [0x7A, 0x33, 0x3A] ++ [1] ∧ s.mac.smode = 3 ∧ s.mac.dmode = 3
      ∧ 40 + [1].length ≤ s.par.pbCap)
    ∧ (let s := arg 0x10001 (frame [9, 0x7A, 0x33])
       s.tx.arg0.toNat % 65536 = (1 : Half).toNat
      ∧ s.iphcAt (1 : Half).toNat { tf := 3, nh := false, hlim := 2, cid := false, sac := false, sam := 3, m := false
                                    dac := false, dam := 3 }) := by decide
theorem witness_HcDecompFailures :
    (frame [0x7A]).fb.len < (0 : Half).toNat + 2
    ∧ ((0 : Half).toNat + 2 ≤ (frame [0x41, 0x60]).fb.len ∧ (byteAt (frame [0x41, 0x60]).fb.bytes 0).toNat / 32 ≠ 3)
    ∧ ((frame [0x7E, 0x70]).iphcAt 0 (bareIphc true 3 false false 0)
      ∧ ((frame [0x7E, 0x70]).ctx.get 0).valid = false)
    ∧ ((frame [0x7E, 0x33]).iphcAt 0 (bareIphc false 3 false false 3) ∧ (frame [0x7E, 0x33]).mac.smode ≠ 2
      ∧ (frame [0x7E, 0x33]).mac.smode ≠ 3)
    ∧ (let s := withCtx (frame [0x7E, 0x70])
       s.iphcAt 0 (bareIphc true 3 false false 0) ∧ (s.ctx.get 0).valid = true ∧ s.mac.smode ≠ 2 ∧ s.mac.smode ≠ 3)
    ∧ (frame [0x7E, 0x4F]).iphcAt 0 (bareIphc true 0 true true 3)
    ∧ (frame [0x7E, 0x44]).iphcAt 0 (bareIphc true 0 false true 0)
    ∧ ((frame [0x7E, 0x45]).iphcAt 0 (bareIphc true 0 false true 1) ∧ ((frame [0x7E, 0x45]).ctx.get 0).valid = false)
    ∧ ((frame [0x7E, 0x43]).iphcAt 0 (bareIphc true 0 false false 3) ∧ (frame [0x7E, 0x43]).mac.dmode ≠ 2
      ∧ (frame [0x7E, 0x43]).mac.dmode ≠ 3)
    ∧ (let s := withCtx (frame [0x7E, 0x47])
       s.iphcAt 0 (bareIphc true 0 false true 3) ∧ (s.ctx.get 0).valid = true ∧ s.mac.dmode ≠ 2 ∧ s.mac.dmode ≠ 3)
    ∧ ((frame [0x7E, 0x4B]).iphcAt 0 (bareIphc true 0 true false 3) ∧ (frame [0x7E, 0x4B]).fb.len = 0 + 2)
    ∧ ((frame [0x7E, 0x4B, 1, 0xE0]).iphcAt 0 (bareIphc true 0 true false 3)
      ∧ 0 + 4 ≤ (frame [0x7E, 0x4B, 1, 0xE0]).fb.len
      ∧ (byteAt (frame [0x7E, 0x4B, 1, 0xE0]).fb.bytes (0 + 3)).toNat / 8 ≠ 0b11110) := by decide
/-- A packet one byte too long for PB; the header of a frame cut to its first byte, and to all but its last. -/
theorem witness_HcDecompFailures_header :
    let s : State := { twoContexts [0x7A, 0xE6, 0x21, 0x3B, 0, 1, 0, 2, 7] with par := { pbCap := 40 } }
    s.iphcHeader 0
        { tf := 3, nh := false, hlim := 2, cid := true, sac := true, sam := 2, m := false, dac := true, dam := 2 }
        { sci := 2, dci := 1, src := [0, 1], dst := [0, 2] }
        { ver := 6, nh := 59, hlim := 64, src := 0xFD00000000000000000000FFFE000001
          dst := 0xFD01000000000000000000FFFE000002 } (hcBody false {} [7])
      ∧ s.par.pbCap < 40 + (hcPayload false {} 0 0 [7]).length ∧ 0 + [7].length < s.fb.len ∧ 7 + [7].length < s.fb.len :=
  ⟨⟨by decide, by decide, by decide, by decide, by decide, by decide, by decide, by decide⟩, by decide, by decide,
    by decide⟩
/-- Ports `0xF0B1` and `0xF0B2` in the 4-bit form with an elided checksum; a packet that just fits. -/
theorem witness_UdpNhcRebuildsTheSegment :
    let s := arg 1 { frame [9, 0xF7, 0x12, 5] with par := { pbCap := 49 } }
    s.fb.bytes.drop (s.tx.arg0.toNat % 65536)
      = [0b11110#5 ++ BitVec.ofBool true ++ 3#2] ++ portBytes 3 0xF0B1 0xF0B2 ++ (if true then [] else b2 0) ++ [5]
    ∧ portsFit 3 0xF0B1 0xF0B2 ∧ 48 + ([5] : List Byte).length ≤ s.par.pbCap := by decide

end Sys2Proof.Tests
end

section
/-! SUPPORT. Which outcomes are next states: every way of ending a command is one, so a command ends in one as soon as
each branch of its meaning ends a command (00_scope.md R14). -/

namespace Sys2Proof.Machine

/-- The command terminates in a next state: success or a fatal error (00_scope.md R14). -/
def Completes (o : Out) : Prop := ∃ s', o = .next s'

/-! ## Ending a command -/

theorem raise_completes (e : Err) (s : State) : Completes (raise e s) := ⟨_, rfl⟩
theorem done_completes (s : State) : Completes (done s) := ⟨_, rfl⟩
theorem ret_completes (v : Word) (s : State) : Completes (ret v s) := ⟨_, rfl⟩
theorem report_completes (w : Option Report) (s : State) : Completes (report w s) := ⟨_, rfl⟩
theorem raiseAny_completes (e : Err) (s : State) : Completes (raiseAny e s) := ⟨_, rfl⟩

theorem Completes.ite {c : Prop} [Decidable c] {a b : Out} (ha : Completes a) (hb : Completes b) :
    Completes (if c then a else b) := by
  split
  · exact ha
  · exact hb

/-- `STATUS` of a fatal error, by number: the offset is cut to the 16 bits of `OFF` (60_exceptions.md R403). -/
theorem Err.status_eq_statusWord (e : Err) : e.status = statusWord e.kind.code e.off := by
  apply BitVec.eq_of_toNat_eq
  simp only [Err.status, statusWord, BitVec.toNat_ofNat]
  omega

theorem raise_eq_failed (e : Err) (s : State) : raise e s = failed e.kind.code e.off s := by
  rw [raise, failed, Err.status_eq_statusWord]

/-! ## The data of a transaction -/

theorem dataOf_eq_none {s : State} {n : Half} : s.dataOf n = none ↔ s.tx.data.length ≠ n.toNat := by
  simp [State.dataOf]

theorem execBfSetbytes_completes {s : State} {n : Half} (b : Buf) (h : s.tx.data.length = n.toNat) :
    Completes (execBfSetbytes b n s) := by
  rw [execBfSetbytes, dataOf_eq_some.mpr ⟨rfl, h⟩]
  exact .ite (raise_completes _ _) (done_completes _)

theorem execNdPayload_completes {s : State} {n : Half} (h : s.tx.data.length = n.toNat) :
    Completes (execNdPayload n s) := by
  rw [execNdPayload, dataOf_eq_some.mpr ⟨rfl, h⟩]
  exact .ite (raise_completes _ _) (done_completes _)

theorem execBfSetbytes_refused {s : State} {n : Half} (b : Buf) (h : s.tx.data.length ≠ n.toNat) :
    execBfSetbytes b n s = .refused .dataLength := by
  rw [execBfSetbytes, dataOf_eq_none.mpr h]

theorem execNdPayload_refused {s : State} {n : Half} (h : s.tx.data.length ≠ n.toNat) :
    execNdPayload n s = .refused .dataLength := by
  rw [execNdPayload, dataOf_eq_none.mpr h]

/-! ## The shared operations -/

theorem loadBE_completes (b : Buf) (off : Half) (n : Nat) (s : State) : Completes (loadBE b off n s) := by
  obtain ⟨-, h⟩ | ⟨-, h⟩ := loadBE_cases b off n s <;> rw [h]
  · exact ret_completes _ _
  · exact raise_completes _ _

theorem storeBE_completes (b : Buf) (off : Half) (n v : Nat) (s : State) : Completes (storeBE b off n v s) := by
  obtain ⟨-, m, -, h⟩ | ⟨-, h⟩ := storeBE_cases b off n v s <;> rw [h]
  · exact done_completes _
  · exact raise_completes _ _

theorem macClassify_completes (f : Fcf) (s : State) : Completes (macClassify f s) := by
  obtain ⟨e, -, h⟩ | ⟨-, h⟩ := macClassify_cases f s <;> rw [h]
  · exact raise_completes _ _
  · exact done_completes _

theorem dispatch_completes (opt : List Byte → Option Half) (nh : Byte) (s : State) :
    Completes (dispatch opt nh s) := by
  obtain ⟨e, -, h⟩ | ⟨l, c, w, -, h⟩ := dispatch_cases opt nh s <;> rw [h]
  · exact raiseAny_completes _ _
  · exact report_completes _ _

theorem hcCommit_completes (hd : Hdr) (body : List Byte) (b0 : Option Byte) (s : State) :
    Completes (hcCommit hd body b0 s) := by
  obtain ⟨-, h⟩ | ⟨-, h⟩ := hcCommit_cases hd body b0 s <;> rw [h]
  · exact raiseAny_completes _ _
  · exact ⟨_, rfl⟩

theorem decompress_completes (h : Iphc) (off : Nat) (s : State) : Completes (decompress h off s) := by
  obtain ⟨e, -, he⟩ | ⟨hd, p, e, -, -, he⟩ | ⟨hd, p, body, -, -, he⟩ := decompress_cases h off s <;> rw [he]
  · exact raiseAny_completes _ _
  · exact raiseAny_completes _ _
  · exact hcCommit_completes _ _ _ _

/-! ## The commands with branches of their own -/

theorem execBfNew_completes (b : Buf) (s : State) : Completes (execBfNew b s) := by
  cases b <;> exact done_completes _

theorem execAtSet_completes (id : Fin 8) (s : State) : Completes (execAtSet id s) := by
  unfold execAtSet
  split
  · exact raise_completes _ _
  · exact done_completes _

theorem execAtGet_completes (id : Fin 8) (s : State) : Completes (execAtGet id s) := by
  unfold execAtGet
  split
  · exact raise_completes _ _
  · exact .ite (ret_completes _ _) (raise_completes _ _)

theorem execIpParse_completes (s : State) : Completes (execIpParse s) :=
  .ite (raise_completes _ _) (.ite (raise_completes _ _) (report_completes _ _))

theorem execIpSerialize_completes (s : State) : Completes (execIpSerialize s) :=
  .ite (raiseAny_completes _ _) (done_completes _)

theorem execCkRun_completes (b : Buf) (off : Half) (s : State) : Completes (execCkRun b off s) :=
  .ite (raise_completes _ _) (ret_completes _ _)

theorem execChPush_completes (k : Kind) (s : State) : Completes (execChPush k s) := by
  unfold execChPush
  split
  · exact raise_completes _ _
  · exact done_completes _

theorem execChRd_completes (fld : NodeField) (idx : Half) (s : State) : Completes (execChRd fld idx s) := by
  unfold execChRd
  split
  · exact raise_completes _ _
  · exact ret_completes _ _

theorem execChRdp_completes (idx : Half) (s : State) : Completes (execChRdp idx s) := by
  unfold execChRdp
  split
  · exact raise_completes _ _
  · split
    · exact raise_completes _ _
    · exact ret_completes _ _

theorem execNdWr_completes (fld : NodeField) (s : State) : Completes (execNdWr fld s) :=
  .ite (done_completes _) (raise_completes _ _)

theorem execHcSetctx_completes (v : Bool) (id : Byte) (s : State) : Completes (execHcSetctx v id s) := by
  unfold execHcSetctx
  split
  · exact raise_completes _ _
  · exact done_completes _

theorem execHcRdctx_completes (w : CtxWord) (id : Byte) (s : State) : Completes (execHcRdctx w id s) := by
  unfold execHcRdctx
  split
  · exact raise_completes _ _
  · exact ret_completes _ _

theorem execHcDecomp_completes (off : Half) (s : State) : Completes (execHcDecomp off s) := by
  unfold execHcDecomp
  split
  · exact raiseAny_completes _ _
  · split
    · exact raiseAny_completes _ _
    · exact decompress_completes _ _ _

theorem execHcComp_completes (u : Bool) (s : State) : Completes (execHcComp u s) :=
  .ite (raise_completes _ _) (.ite (raise_completes _ _) (.ite (raise_completes _ _) (done_completes _)))

theorem execWireIphc_completes (h : Iphc) (s : State) : Completes (execWireIphc h s) := by
  unfold execWireIphc
  split
  · exact raiseAny_completes _ _
  · exact decompress_completes _ _ _

theorem execWireNhcUdp_completes (c : Bool) (p : BitVec 2) (s : State) : Completes (execWireNhcUdp c p s) := by
  unfold execWireNhcUdp
  split
  · exact raiseAny_completes _ _
  · split
    · exact raiseAny_completes _ _
    · exact hcCommit_completes _ _ _ _

/-! ## Every instruction -/

/-- An instruction that takes data completes on data of the length its word names, every other one on every state. -/
theorem exec_completes (i : Instr) (s : State) (h : takesData i = true → s.tx.data.length = i.dataLen) :
    Completes (exec i s) := by
  cases i with
  | bfSetbytes b n => exact execBfSetbytes_completes b (h rfl)
  | ndPayload n => exact execNdPayload_completes (h rfl)
  | bfLen | macRd | ckPseudo | ckFinal | ipRd | ipIsll | ipIsmc | chLen => exact ret_completes _ _
  | macWr | ckLoad | ipNew | ipWr | chClear | sysReset | sysCfg => exact done_completes _
  | bfGetb | bfGeth | bfGetw => exact loadBE_completes _ _ _ _
  | bfSetb | bfSeth | bfSetw => exact storeBE_completes _ _ _ _ _
  | macParse | wireMacFcf => exact macClassify_completes _ _
  | chParse | wireNhHbh | wireNhTcp | wireNhUdp | wireNhIcmpv6 | wireTcpoptMss => exact dispatch_completes _ _ _
  | bfNew b => exact execBfNew_completes b s
  | atSet id => exact execAtSet_completes id s
  | atGet id => exact execAtGet_completes id s
  | ckRun b off => exact execCkRun_completes b off s
  | ipParse => exact execIpParse_completes s
  | ipSerialize => exact execIpSerialize_completes s
  | chPush k => exact execChPush_completes k s
  | chRd fld idx => exact execChRd_completes fld idx s
  | chRdp idx => exact execChRdp_completes idx s
  | ndWr fld => exact execNdWr_completes fld s
  | hcSetctx v id => exact execHcSetctx_completes v id s
  | hcRdctx w id => exact execHcRdctx_completes w id s
  | hcDecomp off => exact execHcDecomp_completes off s
  | hcComp u => exact execHcComp_completes u s
  | wireIphc hd => exact execWireIphc_completes hd s
  | wireNhcUdp c p => exact execWireNhcUdp_completes c p s

/-- The only refusal: `BF.SETBYTES` and `ND.PAYLOAD` on data of another length than their word names (log 6). -/
theorem exec_refused_of_data_length_ne {i : Instr} {s : State} (hi : takesData i = true)
    (h : s.tx.data.length ≠ i.dataLen) : exec i s = .refused .dataLength := by
  cases i with
  | bfSetbytes b n => exact execBfSetbytes_refused b h
  | ndPayload n => exact execNdPayload_refused h
  | _ => cases hi

/-- `AT.SET` on a slot id beyond a small file of slots (log 23). -/
theorem execAtSet_absent {id : Fin 8} {s : State} (h : s.attr.length ≤ id.val) :
    execAtSet id s = failed 9 0 s := by
  rw [execAtSet, List.getElem?_eq_none h]
  exact raise_eq_failed _ s

/-- `AT.GET` on a slot id beyond a small file of slots (log 23). -/
theorem execAtGet_absent {id : Fin 8} {s : State} (h : s.attr.length ≤ id.val) :
    execAtGet id s = failed 9 0 s := by
  rw [execAtGet, List.getElem?_eq_none h]
  exact raise_eq_failed _ s

/-- Settles O17: an instruction's meaning ends a command in each of its branches, but for the two that check the
length of their data first. -/
theorem everyTransactionCompletes : Obligations.EveryTransactionCompletes := by
  intro i s
  refine ⟨fun h => exec_completes i s fun hi => ?_, exec_refused_of_data_length_ne, fun id hid =>
    ⟨execAtSet_absent hid, execAtGet_absent hid⟩⟩
  exact h.resolve_left (by simp [hi])

end Sys2Proof.Machine
end

section
/-! SUPPORT. The equations of a step, the fields of the `STATUS` word of an error or a report, and that the parsers fail
with errors of fatal kinds only (60_exceptions.md R400, R403). -/

namespace Sys2Proof.Machine

/-! ## The step -/

theorem step_of_program_nil {s : State} (h : s.program = []) : step s = .next s := by simp [step, h]

theorem step_of_decode {s : State} {t : Transaction} {ts : List Transaction} {i : Instr} (hp : s.program = t :: ts)
    (hd : decodeCommand t.cmd = some i) : step s = exec i (s.present t ts) := by simp [step, hp, hd]

theorem step_of_illegal {s : State} {t : Transaction} {ts : List Transaction} (hp : s.program = t :: ts)
    (hd : decodeCommand t.cmd = none) : step s = illegal (s.present t ts) := by simp [step, hp, hd]

/-- Settles O6: the step's equations for a legal word and for no transaction. -/
theorem stepRunsTheDecodedCommand : Obligations.StepRunsTheDecodedCommand :=
  ⟨fun _ _ _ _ hp hd => step_of_decode hp hd, fun _ hp => step_of_program_nil hp⟩

/-! ## The fields of a `STATUS` word -/

theorem statusWord_toNat {code : Nat} (off : Nat) (hc : code < 128) :
    (statusWord code off).toNat = off % 65536 * 65536 + code := by
  simp only [statusWord, BitVec.toNat_ofNat]
  omega

theorem errField_statusWord {code : Nat} (off : Nat) (hc : code < 128) :
    errField (statusWord code off) = code % 16 := by
  rw [errField, statusWord_toNat off hc]; omega

theorem warnField_statusWord {code : Nat} (off : Nat) (hc : code < 128) :
    warnField (statusWord code off) = code / 16 := by
  rw [warnField, statusWord_toNat off hc]; omega

theorem reservedField_statusWord {code : Nat} (off : Nat) (hc : code < 128) :
    reservedField (statusWord code off) = 0 := by
  rw [reservedField, statusWord_toNat off hc]; omega

theorem statusOk_zero : statusOk 0 := by decide

/-! ## Errors and reports -/

/-- The kinds a fatal error can have; the other two are reports only (60_exceptions.md R400, R408). -/
def Err.fatal (e : Err) : Bool :=
  match e.kind with
  | .unknownDispatch | .checksumMismatch => false
  | .outOfRange | .malformedFrame | .badVersion | .contextIndexOutOfRange | .unknownContext | .attributeNotFound
  | .illegalCommand => true

theorem Err.code_mem_of_fatal {e : Err} (h : e.fatal = true) : e.kind.code ∈ [1, 2, 3, 6, 7, 8, 9] := by
  obtain ⟨kind, off⟩ := e
  cases kind with
  | unknownDispatch | checksumMismatch => cases h
  | _ => simp [ErrKind.code]

theorem statusOk_of_fatal {e : Err} (h : e.fatal = true) : statusOk e.status := by
  have hc := Err.code_mem_of_fatal h
  have hlt : e.kind.code < 10 := by simp at hc; omega
  rw [Err.status_eq_statusWord, statusOk, errField_statusWord _ (by omega), warnField_statusWord _ (by omega),
    reservedField_statusWord _ (by omega)]
  simp at hc ⊢
  omega

theorem Warn.flag_mem (w : Warn) : w.flag ∈ [16, 32, 64] := by cases w <;> decide

theorem reportStatus_some (r : Report) : reportStatus (some r) = statusWord r.warn.flag r.off := by
  apply BitVec.eq_of_toNat_eq
  simp only [reportStatus, statusWord, BitVec.toNat_ofNat]
  omega

theorem errField_reportStatus (w : Option Report) : errField (reportStatus w) = 0 := by
  cases w with
  | none => rfl
  | some r =>
    have hf := r.warn.flag_mem
    simp at hf
    rw [reportStatus_some, errField_statusWord _ (by omega)]
    omega

theorem statusOk_report (w : Option Report) : statusOk (reportStatus w) := by
  cases w with
  | none => exact statusOk_zero
  | some r =>
    have hf := r.warn.flag_mem
    simp at hf
    rw [reportStatus_some, statusOk, errField_statusWord _ (by omega), warnField_statusWord _ (by omega),
      reservedField_statusWord _ (by omega)]
    simp
    omega

/-! ## The parsers raise errors of fatal kinds only -/

/-- A parse that fails, fails with an error of a fatal kind. -/
def FailsFatally {α : Type} (r : Except Err α) : Prop := ∀ e, r = .error e → e.fatal = true

section
variable {α β : Type}

theorem FailsFatally.ok (a : α) : FailsFatally (.ok a : Except Err α) := nofun

theorem FailsFatally.error {e : Err} (h : e.fatal = true) : FailsFatally (.error e : Except Err α) := by
  intro e' he
  cases he
  exact h

/-- The error of a first parser, handed on by the parser that ran it. -/
theorem FailsFatally.handOn {r : Except Err α} {e : Err} (hr : FailsFatally r) (he : r = .error e) :
    FailsFatally (.error e : Except Err β) := .error (hr e he)

theorem FailsFatally.ite {c : Prop} [Decidable c] {a b : Except Err α} (ha : FailsFatally a) (hb : FailsFatally b) :
    FailsFatally (if c then a else b) := by
  split
  · exact ha
  · exact hb

theorem FailsFatally.bind {r : Except Err α} {k : α → Except Err β} (hr : FailsFatally r)
    (hk : ∀ a, FailsFatally (k a)) : FailsFatally (r.bind k) := by
  cases r with
  | error e => exact hr.handOn rfl
  | ok a => exact hk a

theorem FailsFatally.map {r : Except Err α} {f : α → β} (hr : FailsFatally r) : FailsFatally (r.map f) := by
  cases r with
  | error e => exact hr.handOn rfl
  | ok a => exact .ok _
end

theorem macError_fatal {f : Fcf} {len : Nat} {e : Err} (h : macError f len = some e) : e.fatal = true := by
  unfold macError at h
  split_ifs at h <;> cases h <;> rfl

theorem pushError_fatal {k : Kind} {s : State} {e : Err} (h : pushError k s = some e) : e.fatal = true := by
  unfold pushError at h
  split_ifs at h <;> cases h <;> rfl

/-! ### The payload chain -/

theorem parseHbh_fatal {x : ParseCtx} {c fin : Nat} : FailsFatally (parseHbh x c fin) :=
  .ite (.error rfl) (.ite (.error rfl) (.ite (.ok _) (.error rfl)))

theorem parseTcp_fatal {x : ParseCtx} {opt : List Byte → Option Half} {c fin : Nat} :
    FailsFatally (parseTcp x opt c fin) :=
  .ite (.error rfl) (.ite (.error rfl) (.ite (.error rfl) (.ok _)))

theorem parseUdp_fatal {x : ParseCtx} {c fin : Nat} : FailsFatally (parseUdp x c fin) :=
  .ite (.error rfl) (.ite (.error rfl) (.ite (.error rfl) (.ok _)))

theorem parseIcmp_fatal {x : ParseCtx} {c fin : Nat} : FailsFatally (parseIcmp x c fin) :=
  .ite (.error rfl) (.ite (.error rfl) (.ok _))

theorem terminal_fatal {r : Except Err (Node × Nat × Option Report)} (hr : FailsFatally r) :
    FailsFatally (terminal r) := by
  obtain ⟨e, he, ht⟩ | ⟨n, c, w, -, ht⟩ := terminal_cases r <;> rw [ht]
  · exact hr.handOn he
  · exact .ok _

theorem chainLoop_fatal {x : ParseCtx} {opt : List Byte → Option Half} {fin room c : Nat} {nh : Byte} :
    FailsFatally (chainLoop x opt fin room c nh) := by
  induction room generalizing c nh with
  | zero => exact .error rfl
  | succ room ih =>
    rw [chainLoop_succ]
    split
    · exact parseHbh_fatal.bind fun r => ih.map
    · exact terminal_fatal parseTcp_fatal
    · exact terminal_fatal parseUdp_fatal
    · exact terminal_fatal parseIcmp_fatal
    · exact .ok _

theorem parseChain_fatal {opt : List Byte → Option Half} {nh : Byte} {s : State} :
    FailsFatally (parseChain opt nh s) :=
  .ite (.error rfl) (.ite (.error rfl) chainLoop_fatal)

/-! ### The compressed header: an error of a field is `take`'s, or one of its own -/

theorem take_fatal {fb : List Byte} {p n : Nat} : FailsFatally (take fb p n) := .ite (.error rfl) (.ok _)

theorem takeCid_fatal {fb : List Byte} {cid : Bool} {p : Nat} : FailsFatally (takeCid fb cid p) := by
  unfold takeCid
  repeat' split
  all_goals first | exact .ok _ | exact take_fatal.handOn ‹_›

theorem takeTf_fatal {fb : List Byte} {tf : BitVec 2} {p : Nat} : FailsFatally (takeTf fb tf p) := by
  unfold takeTf
  repeat' split
  all_goals first | exact .ok _ | exact take_fatal.handOn ‹_›

theorem takeNh_fatal {fb : List Byte} {nhc : Bool} {p : Nat} : FailsFatally (takeNh fb nhc p) := by
  unfold takeNh
  repeat' split
  all_goals first | exact .ok _ | exact take_fatal.handOn ‹_›

theorem takeHlim_fatal {fb : List Byte} {hl : BitVec 2} {p : Nat} : FailsFatally (takeHlim fb hl p) := by
  unfold takeHlim
  repeat' split
  all_goals first | exact .ok _ | exact take_fatal.handOn ‹_›

theorem takePorts_fatal {fb : List Byte} {pp : BitVec 2} {p : Nat} : FailsFatally (takePorts fb pp p) := by
  unfold takePorts
  repeat' split
  all_goals first | exact .ok _ | exact take_fatal.handOn ‹_›

theorem takeCk_fatal {fb : List Byte} {c : Bool} {p : Nat} : FailsFatally (takeCk fb c p) := by
  unfold takeCk
  repeat' split
  all_goals first | exact .ok _ | exact take_fatal.handOn ‹_›

theorem withPrefix_fatal {fb : List Byte} {off : Nat} {pre : DWord} {am mode : BitVec 2} {l2 : DWord} {p : Nat} :
    FailsFatally (withPrefix fb off pre am mode l2 p) := by
  unfold withPrefix
  repeat' split
  all_goals first | exact .ok _ | exact .error rfl | exact take_fatal.handOn ‹_›

theorem unicast_fatal {s : State} {off : Nat} {isSrc ac : Bool} {am : BitVec 2} {ci : BitVec 4} {mode : BitVec 2}
    {l2 : DWord} {p : Nat} : FailsFatally (unicast s off isSrc ac am ci mode l2 p) := by
  unfold unicast
  refine .ite (.ite ?_ withPrefix_fatal) (.ite (.ite (.ok _) (.error rfl)) (.ite (.error rfl) withPrefix_fatal))
  split
  · exact take_fatal.handOn ‹_›
  · exact .ok _

theorem multicast_fatal {fb : List Byte} {off : Nat} {dac : Bool} {dam : BitVec 2} {p : Nat} :
    FailsFatally (multicast fb off dac dam p) := by
  unfold multicast
  repeat' split
  all_goals first | exact .ok _ | exact .error rfl | exact take_fatal.handOn ‹_›

theorem takeDst_fatal {s : State} {off : Nat} {h : Iphc} {dci : BitVec 4} {p : Nat} :
    FailsFatally (takeDst s off h dci p) :=
  .ite multicast_fatal unicast_fatal

theorem takeHeader_fatal {s : State} {off : Nat} {h : Iphc} : FailsFatally (takeHeader s off h) := by
  unfold takeHeader
  split
  · exact takeCid_fatal.handOn ‹_›
  split
  · exact takeTf_fatal.handOn ‹_›
  split
  · exact takeNh_fatal.handOn ‹_›
  split
  · exact takeHlim_fatal.handOn ‹_›
  split
  · exact unicast_fatal.handOn ‹_›
  split
  · exact takeDst_fatal.handOn ‹_›
  · exact .ok _

theorem udpBody_fatal {fb : List Byte} {src dst : Addr} {c : Bool} {pp : BitVec 2} {p : Nat} :
    FailsFatally (udpBody fb src dst c pp p) := by
  unfold udpBody
  split
  · exact takePorts_fatal.handOn ‹_›
  split
  · exact takeCk_fatal.handOn ‹_›
  · exact .ok _

theorem takeBody_fatal {fb : List Byte} {nhc : Bool} {hd : Hdr} {p : Nat} : FailsFatally (takeBody fb nhc hd p) := by
  unfold takeBody
  refine .ite ?_ (.ok _)
  split
  · exact take_fatal.handOn ‹_›
  split
  · exact .error rfl
  · exact udpBody_fatal

end Sys2Proof.Machine
end

section
/-! SUPPORT. What every instruction leaves unchanged and what it leaves in `STATUS`: once for all instructions, the
three ways one ends (60_exceptions.md R403, R404, R406). -/

namespace Sys2Proof.Machine

/-- Beside `STATUS`, `t` differs from `s` in the components `ws` at most; each field is found by computation where the
components are given. -/
structure Frame (ws : List Component) (s t : State) : Prop where
  fb : .fb ∈ ws ∨ t.fb = s.fb := by simp [written]
  pb : .pb ∈ ws ∨ t.pb = s.pb := by simp [written]
  attr : .attr ∈ ws ∨ t.attr = s.attr := by simp [written]
  mac : .mac ∈ ws ∨ t.mac = s.mac := by simp [written]
  hdr : .hdr ∈ ws ∨ t.hdr = s.hdr := by simp [written]
  cur : .cur ∈ ws ∨ t.cur = s.cur := by simp [written]
  chain : .chain ∈ ws ∨ t.chain = s.chain := by simp [written]
  node : .node ∈ ws ∨ t.node = s.node := by simp [written]
  ctx : .ctx ∈ ws ∨ t.ctx = s.ctx := by simp [written]
  acc : .acc ∈ ws ∨ (t.acc = s.acc ∧ t.draws = s.draws) := by simp [written]
  config : .config ∈ ws ∨ t.config = s.config := by simp [written]
  res : .res ∈ ws ∨ t.res = s.res := by simp [written]
  par : t.par = s.par := by rfl
  tx : t.tx = s.tx := by rfl
  program : t.program = s.program := by rfl

theorem Frame.agree {ws : List Component} {s t : State} (h : Frame ws s t) {c : Component} (hc : c ∉ ws) :
    agree s t c := by
  cases c with
  | fb => exact h.fb.resolve_left hc
  | pb => exact h.pb.resolve_left hc
  | attr => exact h.attr.resolve_left hc
  | mac => exact h.mac.resolve_left hc
  | hdr => exact h.hdr.resolve_left hc
  | cur => exact h.cur.resolve_left hc
  | chain => exact h.chain.resolve_left hc
  | node => exact h.node.resolve_left hc
  | ctx => exact h.ctx.resolve_left hc
  | acc => exact h.acc.resolve_left hc
  | config => exact h.config.resolve_left hc
  | res => exact h.res.resolve_left hc

theorem Frame.refl (ws : List Component) (s : State) : Frame ws s s := by constructor <;> simp

theorem Frame.status {ws : List Component} {s t : State} (h : Frame ws s t) (w : Word) :
    Frame ws s { t with status := w } := { h with }

theorem Frame.drawAcc {ws : List Component} {s t : State} (h : Frame ws s t) (hacc : .acc ∈ ws) :
    Frame ws s t.drawAcc := { h with acc := .inl hacc }

/-- How an instruction that writes the components `ws` ends in state `s`: refused, with a fatal error, with a fatal
error and a free `ACC`, or with success and at most one report. -/
inductive Ending (ws : List Component) (s : State) : Out → Prop
  | refused (r : Refusal) : Ending ws s (.refused r)
  | raise {e : Err} (he : e.fatal = true) : Ending ws s (raise e s)
  | raiseAny {e : Err} (he : e.fatal = true) (hacc : .acc ∈ ws) : Ending ws s (raiseAny e s)
  | report (w : Option Report) {t : State} (ht : Frame ws s t) : Ending ws s (report w t)

section
variable {ws : List Component} {s s' : State}

theorem Ending.done {t : State} (h : Frame ws s t) : Ending ws s (done t) := .report none h

theorem Ending.ret {v : Word} {t : State} (h : Frame ws s { t with res := v }) : Ending ws s (ret v t) := .report none h

/-- A next state written out in full is plain success where its `STATUS` is 0. -/
theorem Ending.next {t : State} (h : Frame ws s t) (h0 : t.status = 0) : Ending ws s (.next t) := by
  have hd : Machine.done t = .next t := by rw [Machine.done, ← h0]
  exact hd ▸ .done h

theorem Ending.ite {c : Prop} [Decidable c] {a b : Out} (ha : Ending ws s a) (hb : Ending ws s b) :
    Ending ws s (if c then a else b) := by
  split
  · exact ha
  · exact hb

/-! ## What follows of an ending -/

/-- The ending of an instruction that answers a next state: an error or a report, `STATUS` being its word. -/
theorem Ending.cases_next (h : Ending ws s (.next s')) :
    (∃ e : Err, e.fatal = true ∧ s'.status = e.status ∧ s'.res = s.res ∧ Frame ws s s')
    ∨ (∃ w, s'.status = reportStatus w ∧ Frame ws s s') := by
  generalize ho : (.next s' : Out) = o at h
  cases h with
  | refused r => cases ho
  | @raise e he =>
    obtain rfl := raise_eq_next.mp ho.symm
    exact .inl ⟨e, he, rfl, rfl, (Frame.refl ws s).status _⟩
  | @raiseAny e he hacc =>
    obtain rfl := raiseAny_eq_next.mp ho.symm
    exact .inl ⟨e, he, rfl, rfl, ((Frame.refl ws s).drawAcc hacc).status _⟩
  | report w ht =>
    obtain rfl := report_eq_next.mp ho.symm
    exact .inr ⟨w, rfl, ht.status _⟩

theorem Ending.frame (h : Ending ws s (.next s')) : Frame ws s s' := by
  obtain ⟨-, -, -, -, hf⟩ | ⟨-, -, hf⟩ := h.cases_next <;> exact hf

theorem Ending.statusOk (h : Ending ws s (.next s')) : statusOk s'.status := by
  obtain ⟨e, he, hs, -, -⟩ | ⟨w, hs, -⟩ := h.cases_next <;> rw [hs]
  · exact statusOk_of_fatal he
  · exact statusOk_report w

theorem Ending.res_of_error (h : Ending ws s (.next s')) (he : errField s'.status ≠ 0) : s'.res = s.res := by
  obtain ⟨-, -, -, hr, -⟩ | ⟨w, hs, -⟩ := h.cases_next
  · exact hr
  · exact absurd (hs ▸ errField_reportStatus w) he
end

/-! ## The shared operations -/

theorem loadBE_ending (b : Buf) (off : Half) (n : Nat) (s : State) : Ending [.res] s (loadBE b off n s) := by
  obtain ⟨-, h⟩ | ⟨-, h⟩ := loadBE_cases b off n s <;> rw [h]
  · exact .ret {}
  · exact .raise rfl

theorem withBuf_frame (b : Buf) (off : Half) (m : Memory) (s : State) :
    Frame (written (.bfSetb b off)) s (s.withBuf b m) := by
  cases b <;> exact {}

theorem storeBE_ending (b : Buf) (off : Half) (n v : Nat) (s : State) :
    Ending (written (.bfSetb b off)) s (storeBE b off n v s) := by
  obtain ⟨-, m, -, h⟩ | ⟨-, h⟩ := storeBE_cases b off n v s <;> rw [h]
  · exact .done (withBuf_frame b off m s)
  · exact .raise rfl

theorem macClassify_ending (f : Fcf) (s : State) : Ending (written .macParse) s (macClassify f s) := by
  obtain ⟨e, he, h⟩ | ⟨-, h⟩ := macClassify_cases f s <;> rw [h]
  · exact .raise (macError_fatal he)
  · exact .done {}

theorem dispatch_ending (opt : List Byte → Option Half) (nh : Byte) (s : State) :
    Ending (written .chParse) s (dispatch opt nh s) := by
  obtain ⟨e, he, h⟩ | ⟨l, c, w, -, h⟩ := dispatch_cases opt nh s <;> rw [h]
  · exact .raiseAny (parseChain_fatal e he) (by simp [written])
  · exact .report w {}

/-- The commit of the UDP NHC unit, which leaves `ATTR` (log 10). -/
theorem hcCommit_none_ending (c : Bool) (p : BitVec 2) (hd : Hdr) (body : List Byte) (s : State) :
    Ending (written (.wireNhcUdp c p)) s (hcCommit hd body none s) := by
  obtain ⟨-, h⟩ | ⟨-, h⟩ := hcCommit_cases hd body none s <;> rw [h]
  · exact .raiseAny rfl (by simp [written])
  · exact .next {} rfl

theorem hcCommit_some_ending (off : Half) (hd : Hdr) (body : List Byte) (b0 : Byte) (s : State) :
    Ending (written (.hcDecomp off)) s (hcCommit hd body (some b0) s) := by
  obtain ⟨-, h⟩ | ⟨-, h⟩ := hcCommit_cases hd body (some b0) s <;> rw [h]
  · exact .raiseAny rfl (by simp [written])
  · exact .next {} rfl

theorem decompress_ending (off' : Half) (h : Iphc) (off : Nat) (s : State) :
    Ending (written (.hcDecomp off')) s (decompress h off s) := by
  obtain ⟨e, he, heq⟩ | ⟨hd, p, e, -, he, heq⟩ | ⟨hd, p, body, -, -, heq⟩ := decompress_cases h off s <;> rw [heq]
  · exact .raiseAny (takeHeader_fatal e he) (by simp [written])
  · exact .raiseAny (takeBody_fatal e he) (by simp [written])
  · exact hcCommit_some_ending _ _ _ _ _

/-! ## The commands with branches of their own -/

theorem execBfNew_ending (b : Buf) (s : State) : Ending (written (.bfNew b)) s (execBfNew b s) := by
  cases b <;> exact .done {}

theorem execBfSetbytes_ending (b : Buf) (n : Half) (s : State) :
    Ending (written (.bfSetbytes b n)) s (execBfSetbytes b n s) := by
  unfold execBfSetbytes
  split
  · exact .refused _
  · exact .ite (.raise rfl) (.done (by cases b <;> exact {}))

theorem execAtSet_ending (id : Fin 8) (s : State) : Ending (written (.atSet id)) s (execAtSet id s) := by
  unfold execAtSet
  split
  · exact .raise rfl
  · exact .done {}

theorem execAtGet_ending (id : Fin 8) (s : State) : Ending (written (.atGet id)) s (execAtGet id s) := by
  unfold execAtGet
  split
  · exact .raise rfl
  · exact .ite (.ret {}) (.raise rfl)

theorem execCkRun_ending (b : Buf) (off : Half) (s : State) : Ending (written (.ckRun b off)) s (execCkRun b off s) :=
  .ite (.raise rfl) (.ret {})

theorem execIpParse_ending (s : State) : Ending (written .ipParse) s (execIpParse s) :=
  .ite (.raise rfl) (.ite (.raise rfl) (.report _ {}))

theorem execIpSerialize_ending (s : State) : Ending (written .ipSerialize) s (execIpSerialize s) :=
  .ite (.raiseAny rfl (by simp [written])) (.done {})

theorem execIpWr_ending (reg : IpReg) (s : State) : Ending (written (.ipWr reg)) s (execIpWr reg s) := by
  cases reg with
  | cur => exact .done { hdr := .inr rfl }
  | _ => exact .done { cur := .inr rfl }

theorem execChPush_ending (k : Kind) (s : State) : Ending (written (.chPush k)) s (execChPush k s) := by
  unfold execChPush
  split
  · exact .raise (pushError_fatal ‹_›)
  · exact .done {}

theorem execChRd_ending (fld : NodeField) (idx : Half) (s : State) :
    Ending (written (.chRd fld idx)) s (execChRd fld idx s) := by
  unfold execChRd
  split
  · exact .raise rfl
  · exact .ret {}

theorem execChRdp_ending (idx : Half) (s : State) : Ending (written (.chRdp idx)) s (execChRdp idx s) := by
  unfold execChRdp
  split
  · exact .raise rfl
  split
  · exact .raise rfl
  · exact .ret {}

theorem execNdWr_ending (fld : NodeField) (s : State) : Ending (written (.ndWr fld)) s (execNdWr fld s) :=
  .ite (.done {}) (.raise rfl)

theorem execNdPayload_ending (n : Half) (s : State) : Ending (written (.ndPayload n)) s (execNdPayload n s) := by
  unfold execNdPayload
  split
  · exact .refused _
  · exact .ite (.raise rfl) (.done {})

theorem execHcSetctx_ending (v : Bool) (id : Byte) (s : State) :
    Ending (written (.hcSetctx v id)) s (execHcSetctx v id s) := by
  unfold execHcSetctx
  split
  · exact .raise rfl
  · exact .done {}

theorem execHcRdctx_ending (w : CtxWord) (id : Byte) (s : State) :
    Ending (written (.hcRdctx w id)) s (execHcRdctx w id s) := by
  unfold execHcRdctx
  split
  · exact .raise rfl
  · exact .ret {}

theorem execHcDecomp_ending (off : Half) (s : State) : Ending (written (.hcDecomp off)) s (execHcDecomp off s) := by
  unfold execHcDecomp
  split
  · exact .raiseAny (take_fatal _ ‹_›) (by simp [written])
  split
  · exact .raiseAny rfl (by simp [written])
  · exact decompress_ending _ _ _ _

theorem execHcComp_ending (u : Bool) (s : State) : Ending (written (.hcComp u)) s (execHcComp u s) :=
  .ite (.raise rfl) (.ite (.raise rfl) (.ite (.raise rfl) (.done {})))

theorem execWireIphc_ending (h : Iphc) (s : State) : Ending (written (.wireIphc h)) s (execWireIphc h s) := by
  unfold execWireIphc
  split
  · exact .raiseAny (take_fatal _ ‹_›) (by simp [written])
  · exact decompress_ending 0 _ _ _

theorem execWireNhcUdp_ending (c : Bool) (p : BitVec 2) (s : State) :
    Ending (written (.wireNhcUdp c p)) s (execWireNhcUdp c p s) := by
  unfold execWireNhcUdp
  split
  · exact .raiseAny (take_fatal _ ‹_›) (by simp [written])
  split
  · exact .raiseAny (udpBody_fatal _ ‹_›) (by simp [written])
  · exact hcCommit_none_ending _ _ _ _ _

/-! ## Every instruction -/

theorem exec_ending (i : Instr) (s : State) : Ending (written i) s (exec i s) := by
  cases i with
  | bfNew b => exact execBfNew_ending b s
  | bfSetbytes b n => exact execBfSetbytes_ending b n s
  | bfGetb | bfGeth | bfGetw => exact loadBE_ending _ _ _ _
  | bfSetb b off | bfSeth b off | bfSetw b off =>
    cases b
    · exact storeBE_ending .fb off _ _ s
    · exact storeBE_ending .pb off _ _ s
  | atSet id => exact execAtSet_ending id s
  | atGet id => exact execAtGet_ending id s
  | macParse | wireMacFcf => exact macClassify_ending _ _
  | bfLen | macRd | ckPseudo | ckFinal | ipRd | ipIsll | ipIsmc | chLen => exact .ret {}
  | macWr | ckLoad | ipNew | chClear | sysReset | sysCfg => exact .done {}
  | ckRun b off => exact execCkRun_ending b off s
  | ipParse => exact execIpParse_ending s
  | ipSerialize => exact execIpSerialize_ending s
  | ipWr reg => exact execIpWr_ending reg s
  | chParse | wireNhHbh | wireNhTcp | wireNhUdp | wireNhIcmpv6 | wireTcpoptMss => exact dispatch_ending _ _ _
  | chPush k => exact execChPush_ending k s
  | chRd fld idx => exact execChRd_ending fld idx s
  | chRdp idx => exact execChRdp_ending idx s
  | ndWr fld => exact execNdWr_ending fld s
  | ndPayload n => exact execNdPayload_ending n s
  | hcSetctx v id => exact execHcSetctx_ending v id s
  | hcRdctx w id => exact execHcRdctx_ending w id s
  | hcDecomp off => exact execHcDecomp_ending off s
  | hcComp u => exact execHcComp_ending u s
  | wireIphc h => exact execWireIphc_ending h s
  | wireNhcUdp c p => exact execWireNhcUdp_ending c p s

theorem exec_ends {i : Instr} {s s' : State} (h : exec i s = .next s') : Ending (written i) s (.next s') :=
  h ▸ exec_ending i s

/-- Settles O12: every ending leaves the word of a fatal error or of at most one report. -/
theorem statusDescribesOneOutcome : Obligations.StatusDescribesOneOutcome :=
  fun _ _ _ h => (exec_ends h).statusOk

/-- Settles O15: every ending frames the components the instruction does not write. -/
theorem componentsChangeOnlyByTheirWriters : Obligations.ComponentsChangeOnlyByTheirWriters := by
  intro i s s' h
  have hend := exec_ends h
  have hf := hend.frame
  refine ⟨fun c hc => hf.agree hc, fun hc a => ?_, fun hc a => ?_, hend.res_of_error, hf.par, hf.tx, hf.program⟩
  · rw [hf.fb.resolve_left hc]
  · rw [hf.pb.resolve_left hc]

end Sys2Proof.Machine
end

section
/-! SUPPORT. Chains that meet the invariant (10_state.md R27, R28): what the parser builds, what `CH.PUSH` appends, what
serialization links and recomputes. -/

namespace Sys2Proof.Machine

/-- The invariant's part about a chain: at most `room` nodes, every one but the last HBH, every one well-formed. -/
structure ChainOk (p : Config.Params) (room : Nat) (l : List Node) : Prop where
  length_le : l.length ≤ room
  shape : chainShape l = true
  nodes : ∀ n ∈ l, nodeOk p n

section
variable {p : Config.Params} {room : Nat} {l : List Node} {n : Node}

theorem chainShape_iff : chainShape l = true ↔ ∀ k ∈ (l.map Node.kind).dropLast, k = .hbh := by
  induction l using chainShape.induct with
  | case1 | case2 => simp [chainShape]
  | case3 n m ns ih => simpa [chainShape] using fun _ => ih

theorem ChainOk.nil : ChainOk p room [] := ⟨Nat.zero_le _, rfl, nofun⟩

theorem ChainOk.singleton (h : nodeOk p n) : ChainOk p (room + 1) [n] :=
  ⟨by simp, rfl, by simpa using h⟩

theorem ChainOk.cons_hbh (h : ChainOk p room l) (hn : nodeOk p n) (hk : n.kind = .hbh) :
    ChainOk p (room + 1) (n :: l) where
  length_le := Nat.succ_le_succ h.length_le
  shape := by
    cases l with
    | nil => rfl
    | cons m ns => simp [chainShape, hk, h.shape]
  nodes := by simpa using ⟨hn, h.nodes⟩

/-- Length and shape of a chain depend on the kinds of its nodes only. -/
theorem ChainOk.of_kinds {l' : List Node} (h : ChainOk p room l) (hk : l'.map Node.kind = l.map Node.kind)
    (hn : ∀ n ∈ l', nodeOk p n) : ChainOk p room l' where
  length_le := by
    have hl := congrArg List.length hk
    simp only [List.length_map] at hl
    exact hl ▸ h.length_le
  shape := by rw [chainShape_iff, hk]; exact chainShape_iff.mp h.shape
  nodes := hn

/-! ## Nodes -/

/-- Bytes taken from between the header and the end of a packet fit a node (00_scope.md R7: `NP_CAP = PB_CAP - 40`). -/
theorem slice_length_le_npCap {c fin m : Nat} (bs : List Byte) (i : Nat) (hc : 40 ≤ c) (hfin : fin ≤ p.pbCap)
    (hm : m ≤ fin - c) : (slice bs i m).length ≤ p.npCap := by
  rw [slice_length, Config.Params.npCap, Config.ipHdr]
  omega

/-- Serialization and linking change the fields, `CKOK` and the offset of a node. -/
theorem nodeOk_update {f : NodeFields} {ckok : Bool} {off : Half} (hn : nodeOk p n) (hf : f = f.only n.kind)
    (hck : hasField n.kind .ckok = false → ckok = false) :
    nodeOk p { n with f := f, ckok := ckok, offset := off } := by
  obtain ⟨hp, -, -, hu⟩ := hn
  exact ⟨hp, hf, hck, hu⟩

/-- A node of a kind with a checksum is free in `CKOK` and in the length of its payload. -/
theorem nodeOk_transport (hk : hasField n.kind .ckok = true) (hf : n.f = n.f.only n.kind)
    (hp : n.payload.length ≤ p.npCap) : nodeOk p n :=
  ⟨hp, hf, by simp [hk], fun hh => by simp [hh, hasField] at hk⟩

theorem NodeFields.only_only (k : Kind) (f : NodeFields) : (f.only k).only k = f.only k := by
  cases k <;> rfl

/-! ## The parsers -/

section
variable {x : ParseCtx} {opt : List Byte → Option Half} {c fin c' : Nat} {nh nh' : Byte} {w : Option Report}

theorem parseHbh_ok (hc : 40 ≤ c) (hfin : fin ≤ p.pbCap) (hpb : fin ≤ x.pb.length)
    (h : parseHbh x c fin = .ok (n, c', nh')) : nodeOk p n ∧ n.kind = .hbh ∧ c ≤ c' := by
  simp only [parseHbh] at h
  split_ifs at h with hhead htot
  obtain ⟨rfl, rfl, -⟩ : _ ∧ _ ∧ _ := by simpa using h
  have hlen : (slice x.pb (c + 2) (8 * ((byteAt x.pb (c + 1)).toNat + 1) - 2)).length
      = 8 * ((byteAt x.pb (c + 1)).toNat + 1) - 2 := by
    rw [slice_length]; omega
  have hb : (byteAt x.pb (c + 1)).toNat < 256 := BitVec.isLt _
  refine ⟨⟨slice_length_le_npCap _ _ hc hfin (by omega), rfl, fun _ => rfl, fun _ => ?_⟩, rfl, by omega⟩
  simp only [hlen]
  omega

theorem parseTcp_ok (hc : 40 ≤ c) (hfin : fin ≤ p.pbCap) (h : parseTcp x opt c fin = .ok (n, c', w)) :
    nodeOk p n := by
  simp only [parseTcp] at h
  split_ifs at h <;> obtain ⟨rfl, -, -⟩ : _ ∧ _ ∧ _ := by simpa using h
  all_goals exact nodeOk_transport rfl rfl (slice_length_le_npCap _ _ hc hfin (by omega))

theorem parseUdp_ok (hc : 40 ≤ c) (hfin : fin ≤ p.pbCap) (h : parseUdp x c fin = .ok (n, c', w)) :
    nodeOk p n := by
  simp only [parseUdp] at h
  split_ifs at h
  obtain ⟨rfl, -, -⟩ : _ ∧ _ ∧ _ := by simpa using h
  exact nodeOk_transport rfl rfl (slice_length_le_npCap _ _ hc hfin (by omega))

theorem parseIcmp_ok (hc : 40 ≤ c) (hfin : fin ≤ p.pbCap) (h : parseIcmp x c fin = .ok (n, c', w)) :
    nodeOk p n := by
  simp only [parseIcmp] at h
  split_ifs at h <;> obtain ⟨rfl, -, -⟩ : _ ∧ _ ∧ _ := by simpa using h
  all_goals exact nodeOk_transport rfl rfl (slice_length_le_npCap _ _ hc hfin (by omega))

theorem rawRest_ok (hc : 40 ≤ c) (hfin : fin ≤ p.pbCap) : ChainOk p (room + 1) (rawRest x c fin).1 :=
  .singleton ⟨slice_length_le_npCap _ _ hc hfin le_rfl, rfl, fun _ => rfl, nofun⟩

theorem terminal_eq_ok {r : Except Err (Node × Nat × Option Report)} (h : terminal r = .ok (l, c', w)) :
    ∃ n, r = .ok (n, c', w) ∧ l = [n] := by
  obtain ⟨e, -, ht⟩ | ⟨n, c, w, hr, ht⟩ := terminal_cases r <;> rw [ht] at h <;> cases h
  exact ⟨n, hr, rfl⟩

/-- The loop builds at most `room` nodes, each inside the payload, and goes on behind HBH nodes only. -/
theorem chainLoop_ok (hc : 40 ≤ c) (hfin : fin ≤ p.pbCap) (hpb : fin ≤ x.pb.length)
    (h : chainLoop x opt fin room c nh = .ok (l, c', w)) : ChainOk p room l := by
  induction room generalizing c nh l with
  | zero => cases h
  | succ room ih =>
    rw [chainLoop_succ] at h
    split at h
    · rcases hh : parseHbh x c fin with e | ⟨node, c1, nh1⟩
      · simp [hh, Except.bind] at h
      rcases hl : chainLoop x opt fin room c1 nh1 with e | ⟨rest, c2, w2⟩
      · simp [hh, hl, Except.bind, Except.map] at h
      obtain ⟨rfl, rfl, rfl⟩ : _ ∧ _ ∧ _ := by simpa [hh, hl, Except.bind, Except.map] using h
      obtain ⟨hnode, hkind, hle⟩ := parseHbh_ok hc hfin hpb hh
      exact (ih (hc.trans hle) hl).cons_hbh hnode hkind
    · obtain ⟨n, hn, rfl⟩ := terminal_eq_ok h
      exact .singleton (parseTcp_ok hc hfin hn)
    · obtain ⟨n, hn, rfl⟩ := terminal_eq_ok h
      exact .singleton (parseUdp_ok hc hfin hn)
    · obtain ⟨n, hn, rfl⟩ := terminal_eq_ok h
      exact .singleton (parseIcmp_ok hc hfin hn)
    · cases h
      exact rawRest_ok hc hfin

theorem parseChain_ok {s : State} (hpb : s.pb.len ≤ s.par.pbCap) (h : parseChain opt nh s = .ok (l, c', w)) :
    ChainOk s.par s.par.chainMax l := by
  obtain ⟨-, he⟩ | ⟨-, -, he⟩ | ⟨hend, hlow, -, he⟩ := parseChain_cases opt nh s <;> rw [he] at h
  · cases h
  · cases h
  · exact chainLoop_ok hlow (hend.trans hpb) (by simpa using hend) h
end

/-! ## `CH.PUSH` -/

theorem kinds_hbh_of_not_terminated (h : ChainOk p room l) (ht : terminated l = false) :
    ∀ n ∈ l, n.kind = .hbh := by
  have hs := chainShape_iff.mp h.shape
  rcases l.eq_nil_or_concat with rfl | ⟨as, a, rfl⟩
  · simp
  · have ha : a.kind = .hbh := by simpa [terminated] using ht
    have has : ∀ n ∈ as, n.kind = .hbh := by simpa using hs
    simpa [or_imp, forall_and, ha] using has

/-- The node that passes the checks of `CH.PUSH` can stand behind the chain (44_chain.md R271). -/
theorem push_ok {k : Kind} {s : State} (h : ChainOk s.par s.par.chainMax s.chain)
    (hp : s.node.payload.length ≤ s.par.npCap) (he : pushError k s = none) :
    ChainOk s.par s.par.chainMax (s.chain ++ [s.node.build k]) := by
  unfold pushError at he
  split_ifs at he with hfull hterm hhbh
  have hlen := h.length_le
  have hk := kinds_hbh_of_not_terminated h (by simpa using hterm)
  refine ⟨by simp; omega, chainShape_iff.mpr (by simpa using hk), ?_⟩
  have hbuild : nodeOk s.par (s.node.build k) := by
    refine ⟨hp, (NodeFields.only_only k _).symm, fun _ => rfl, fun hkind => ?_⟩
    have hkind' : k = .hbh := hkind
    simp only [Staging.build]
    simp [hkind'] at hhbh
    exact hhbh
  intro n hn
  rcases List.mem_append.mp hn with hn | hn
  · exact h.nodes n hn
  · obtain rfl := List.mem_singleton.mp hn
    exact hbuild

/-! ## Serialization -/

theorem NodeFields.only_hbh_update {f : NodeFields} (h : f = f.only .hbh) (nh hlen : Byte) :
    { f with nh := nh, hlen := hlen } = NodeFields.only .hbh { f with nh := nh, hlen := hlen } := by rw [h]; rfl

theorem linkNh_nodes (hs : chainShape l = true) (hl : ∀ n ∈ l, nodeOk p n) : ∀ n ∈ linkNh l, nodeOk p n := by
  induction l using linkNh.induct with
  | case1 | case2 => exact hl
  | case3 n m ns ih =>
    obtain ⟨hk, hs'⟩ : n.kind = .hbh ∧ chainShape (m :: ns) = true := by simpa [chainShape] using hs
    have hn := hl n (by simp)
    have ⟨_, hf, hck, _⟩ := hn
    have hlinked := nodeOk_update (off := n.offset) hn
      (hk ▸ NodeFields.only_hbh_update (hk ▸ hf) (leadNh (m :: ns) n.f.nh) n.f.hlen) hck
    simpa [linkNh] using ⟨hlinked, ih hs' fun a ha => hl a (List.mem_cons_of_mem n ha)⟩

theorem linkNh_kinds (l : List Node) : (linkNh l).map Node.kind = l.map Node.kind := by
  induction l using linkNh.induct with
  | case1 | case2 => rfl
  | case3 n m ns ih => simpa [linkNh] using ih

theorem chainSize_linkNh (l : List Node) : chainSize (linkNh l) = chainSize l := by
  induction l using linkNh.induct with
  | case1 | case2 => rfl
  | case3 n m ns ih => rw [linkNh, chainSize, ih]; rfl

theorem ChainOk.linkNh (h : ChainOk p room l) : ChainOk p room (linkNh l) :=
  h.of_kinds (linkNh_kinds l) (linkNh_nodes h.shape h.nodes)

theorem emitNode_ok (src dst : Addr) (hn : nodeOk p n) : nodeOk p (emitNode src dst n).1 := by
  obtain ⟨kind, f, ckok, payload, offset⟩ := n
  have ⟨_, hf, hck, _⟩ := hn
  cases kind with
  | hbh => exact nodeOk_update hn (NodeFields.only_hbh_update hf _ _) hck
  | tcp => exact nodeOk_update hn (by rw [hf]; rfl) nofun
  | udp => exact nodeOk_update hn (by rw [hf]; rfl) nofun
  | icmp => exact nodeOk_update hn (by rw [hf]; rfl) nofun
  | raw => exact hn

theorem emitNode_kind (src dst : Addr) (n : Node) : (emitNode src dst n).1.kind = n.kind := by
  cases hk : n.kind <;> simp [emitNode, emitHbh, emitTcp, emitUdp, emitIcmp, hk]

theorem emitChain_kinds (src dst : Addr) (off : Nat) (l : List Node) :
    (emitChain src dst off l).1.map Node.kind = l.map Node.kind := by
  induction l generalizing off with
  | nil => rfl
  | cons n ns ih => simp [emitChain, emitNode_kind, ih]

theorem emitChain_nodes (src dst : Addr) (off : Nat) (hl : ∀ n ∈ l, nodeOk p n) :
    ∀ n ∈ (emitChain src dst off l).1, nodeOk p n := by
  induction l generalizing off with
  | nil => exact hl
  | cons n ns ih =>
    have hn := hl n (by simp)
    simp only [emitChain, List.forall_mem_cons]
    exact ⟨emitNode_ok src dst hn, ih _ fun a ha => hl a (List.mem_cons_of_mem n ha)⟩

theorem ChainOk.emitChain (h : ChainOk p room l) (src dst : Addr) (off : Nat) :
    ChainOk p room (emitChain src dst off l).1 :=
  h.of_kinds (emitChain_kinds src dst off l) (emitChain_nodes src dst off h.nodes)

theorem emitChain_length (src dst : Addr) (off : Nat) (l : List Node) :
    (emitChain src dst off l).2.length = chainSize l := by
  induction l generalizing off with
  | nil => rfl
  | cons n ns ih => rw [Machine.emitChain, List.length_append, emitNode_length, ih]; rfl
end

end Sys2Proof.Machine
end

section
/-! SUPPORT. Every instruction keeps the invariant: the part beside `STATUS` is kept by each meaning from a state that
has it, and `STATUS` is right after any instruction. -/

namespace Sys2Proof.Machine

/-- The invariant but for `STATUS`. -/
structure State.Sound (s : State) : Prop where
  par : s.par.wf
  fbWf : s.fb.wf
  pbWf : s.pb.wf
  fbCap : s.fb.len ≤ s.par.fbCap
  pbCap : s.pb.len ≤ s.par.pbCap
  attr : s.attr.length = s.par.nAttr
  chain : ChainOk s.par s.par.chainMax s.chain
  node : s.node.payload.length ≤ s.par.npCap
  config : s.config.toNat < 2

theorem State.inv_iff (s : State) : s.inv ↔ s.Sound ∧ statusOk s.status := by
  constructor
  · rintro ⟨hpar, hfw, hpw, hfc, hpc, hattr, hlen, hshape, hnodes, hnode, hconf, hstat⟩
    exact ⟨⟨hpar, hfw, hpw, hfc, hpc, hattr, ⟨hlen, hshape, hnodes⟩, hnode, hconf⟩, hstat⟩
  · rintro ⟨⟨hpar, hfw, hpw, hfc, hpc, hattr, ⟨hlen, hshape, hnodes⟩, hnode, hconf⟩, hstat⟩
    exact ⟨hpar, hfw, hpw, hfc, hpc, hattr, hlen, hshape, hnodes, hnode, hconf, hstat⟩

/-- The state an instruction answers, if it answers one, has the invariant but for `STATUS`. -/
def Keeps (o : Out) : Prop := ∀ s', o = .next s' → s'.Sound

section
variable {s : State}

/-! ## Ending a command -/

theorem Keeps.next (h : s.Sound) : Keeps (.next s) := by
  intro s' hs
  cases hs
  exact h

theorem Keeps.refused (r : Refusal) : Keeps (.refused r) := nofun

theorem Keeps.raise {e : Err} (h : s.Sound) : Keeps (raise e s) := .next { h with }
theorem Keeps.raiseAny {e : Err} (h : s.Sound) : Keeps (raiseAny e s) := .next { h with }
theorem Keeps.done (h : s.Sound) : Keeps (done s) := .next { h with }
theorem Keeps.ret {v : Word} (h : s.Sound) : Keeps (ret v s) := .next { h with }
theorem Keeps.report {w : Option Report} (h : s.Sound) : Keeps (report w s) := .next { h with }

theorem Keeps.ite {c : Prop} [Decidable c] {a b : Out} (ha : c → Keeps a) (hb : ¬ c → Keeps b) :
    Keeps (if c then a else b) := by
  split
  · exact ha ‹_›
  · exact hb ‹_›

/-! ## The shared operations -/

theorem State.Sound.withBuf {b : Buf} {m : Memory} (h : s.Sound) (hw : m.wf) (hc : m.len ≤ s.cap b) :
    (s.withBuf b m).Sound := by
  cases b
  · exact { h with fbWf := hw, fbCap := hc }
  · exact { h with pbWf := hw, pbCap := hc }

theorem State.Sound.setAttr (h : s.Sound) (i : Nat) (v : Word) : (s.setAttr i v).Sound :=
  { h with attr := (s.setAttr_length i v).trans h.attr }

theorem State.Sound.buf_len_le (h : s.Sound) (b : Buf) : (s.buf b).len ≤ s.cap b := by
  cases b
  · exact h.fbCap
  · exact h.pbCap

theorem State.Sound.present (h : s.Sound) (t : Transaction) (ts : List Transaction) : (s.present t ts).Sound :=
  { h with }

theorem loadBE_keeps (h : s.Sound) (b : Buf) (off : Half) (n : Nat) : Keeps (loadBE b off n s) := by
  obtain ⟨-, he⟩ | ⟨-, he⟩ := loadBE_cases b off n s <;> rw [he]
  · exact .ret h
  · exact .raise h

theorem storeBE_keeps (h : s.Sound) (b : Buf) (off : Half) (n v : Nat) : Keeps (storeBE b off n v s) := by
  obtain ⟨-, m, hm, he⟩ | ⟨-, he⟩ := storeBE_cases b off n v s <;> rw [he]
  · obtain ⟨-, -, hw, hl⟩ := Memory.writeBE_eq_some hm
    exact .done (h.withBuf hw (hl.trans_le (h.buf_len_le b)))
  · exact .raise h

theorem macClassify_keeps (h : s.Sound) (f : Fcf) : Keeps (macClassify f s) := by
  obtain ⟨e, -, he⟩ | ⟨-, he⟩ := macClassify_cases f s <;> rw [he]
  · exact .raise h
  · have hmac : { s with mac := macFields f s.fb.bytes }.Sound := { h with }
    exact .done ((hmac.setAttr _ _).setAttr _ _)

theorem dispatch_keeps (h : s.Sound) (opt : List Byte → Option Half) (nh : Byte) : Keeps (dispatch opt nh s) := by
  obtain ⟨e, -, he⟩ | ⟨l, c, w, hl, he⟩ := dispatch_cases opt nh s <;> rw [he]
  · exact .raiseAny h
  · have hchain := parseChain_ok h.pbCap hl
    exact .report { h with chain := hchain }

theorem hcCommit_keeps (h : s.Sound) (hd : Hdr) (body : List Byte) (b0 : Option Byte) :
    Keeps (hcCommit hd body b0 s) := by
  obtain ⟨-, he⟩ | ⟨hcap, he⟩ := hcCommit_cases hd body b0 s <;> rw [he]
  · exact .raiseAny h
  · refine .next { h with pbWf := Memory.wf_ofBytes _, pbCap := by simpa using hcap, attr := ?_, chain := .nil }
    cases b0 with
    | none => exact h.attr
    | some b => exact List.length_set.trans h.attr

theorem decompress_keeps (h : s.Sound) (hd : Iphc) (off : Nat) : Keeps (decompress hd off s) := by
  obtain ⟨e, -, he⟩ | ⟨hd, p, e, -, -, he⟩ | ⟨hd, p, body, -, -, he⟩ := decompress_cases hd off s <;> rw [he]
  · exact .raiseAny h
  · exact .raiseAny h
  · exact hcCommit_keeps h _ _ _

/-! ## The commands with branches of their own -/

theorem execBfNew_keeps (h : s.Sound) (b : Buf) : Keeps (execBfNew b s) := by
  cases b
  · exact .done { h with fbWf := Memory.wf_nil, fbCap := Nat.zero_le _, attr := (List.length_map _).trans h.attr }
  · exact .done { h with pbWf := Memory.wf_nil, pbCap := Nat.zero_le _ }

theorem execBfSetbytes_keeps (h : s.Sound) (b : Buf) (n : Half) : Keeps (execBfSetbytes b n s) := by
  unfold execBfSetbytes
  split
  · exact .refused _
  · obtain ⟨rfl, hlen⟩ := dataOf_eq_some.mp ‹_›
    exact .ite (fun _ => .raise h) fun hcap => .done (h.withBuf (Memory.wf_ofBytes _) (by simpa [hlen] using hcap))

theorem execAtSet_keeps (h : s.Sound) (id : Fin 8) : Keeps (execAtSet id s) := by
  unfold execAtSet
  split
  · exact .raise h
  · exact .done (h.setAttr _ _)

theorem execAtGet_keeps (h : s.Sound) (id : Fin 8) : Keeps (execAtGet id s) := by
  unfold execAtGet
  split
  · exact .raise h
  · exact .ite (fun _ => .ret h) fun _ => .raise h

theorem execCkRun_keeps (h : s.Sound) (b : Buf) (off : Half) : Keeps (execCkRun b off s) :=
  .ite (fun _ => .raise h) fun _ => .ret { h with }

theorem execIpNew_keeps (h : s.Sound) : Keeps (execIpNew s) :=
  .done { h with pbWf := Memory.wf_nil, pbCap := Nat.zero_le _, chain := .nil, node := Nat.zero_le _ }

theorem execIpParse_keeps (h : s.Sound) : Keeps (execIpParse s) :=
  .ite (fun _ => .raise h) fun _ => .ite (fun _ => .raise h) fun _ => .report { h with chain := .nil }

theorem execIpSerialize_keeps (h : s.Sound) : Keeps (execIpSerialize s) :=
  .ite (fun _ => .raiseAny h) fun hcap => .done
    { h with
      pbWf := Memory.wf_ofBytes _
      pbCap := by simpa [emitChain_length, chainSize_linkNh] using hcap
      chain := h.chain.linkNh.emitChain _ _ _ }

theorem execChPush_keeps (h : s.Sound) (k : Kind) : Keeps (execChPush k s) := by
  unfold execChPush
  split
  · exact .raise h
  · exact .done { h with chain := push_ok h.chain h.node ‹_› }

theorem execChRd_keeps (h : s.Sound) (fld : NodeField) (idx : Half) : Keeps (execChRd fld idx s) := by
  unfold execChRd
  split
  · exact .raise h
  · exact .ret h

theorem execChRdp_keeps (h : s.Sound) (idx : Half) : Keeps (execChRdp idx s) := by
  unfold execChRdp
  split
  · exact .raise h
  split
  · exact .raise h
  · exact .ret h

theorem execNdWr_keeps (h : s.Sound) (fld : NodeField) : Keeps (execNdWr fld s) :=
  .ite (fun _ => .done { h with }) fun _ => .raise h

theorem execNdPayload_keeps (h : s.Sound) (n : Half) : Keeps (execNdPayload n s) := by
  unfold execNdPayload
  split
  · exact .refused _
  · obtain ⟨rfl, hlen⟩ := dataOf_eq_some.mp ‹_›
    exact .ite (fun _ => .raise h) fun hcap => .done { h with node := by simpa [hlen] using hcap }

theorem execHcSetctx_keeps (h : s.Sound) (v : Bool) (id : Byte) : Keeps (execHcSetctx v id s) := by
  unfold execHcSetctx
  split
  · exact .raise h
  · exact .done { h with }

theorem execHcRdctx_keeps (h : s.Sound) (w : CtxWord) (id : Byte) : Keeps (execHcRdctx w id s) := by
  unfold execHcRdctx
  split
  · exact .raise h
  · exact .ret h

theorem execHcDecomp_keeps (h : s.Sound) (off : Half) : Keeps (execHcDecomp off s) := by
  unfold execHcDecomp
  split
  · exact .raiseAny h
  split
  · exact .raiseAny h
  · exact decompress_keeps h _ _

theorem execHcComp_keeps (h : s.Sound) (u : Bool) : Keeps (execHcComp u s) :=
  .ite (fun _ => .raise h) fun _ => .ite (fun _ => .raise h) fun _ => .ite (fun _ => .raise h) fun hcap =>
    .done { h with fbWf := Memory.wf_ofBytes _, fbCap := by simpa using hcap }

theorem resetEngine_sound (h : s.Sound) : s.resetEngine.Sound where
  par := h.par
  fbWf := Memory.wf_nil
  pbWf := Memory.wf_nil
  fbCap := Nat.zero_le _
  pbCap := Nat.zero_le _
  attr := List.length_replicate
  chain := .nil
  node := Nat.zero_le _
  config := by rw [State.resetEngine_config]; split <;> decide

theorem execSysCfg_keeps (h : s.Sound) : Keeps (execSysCfg s) :=
  have hbit : ((s.tx.arg0.extractLsb' 0 1).setWidth 32).toNat < 2 := by
    rw [BitVec.toNat_setWidth]
    exact (Nat.mod_le _ _).trans_lt (BitVec.isLt _)
  .done { h with config := hbit }

theorem execWireIphc_keeps (h : s.Sound) (hd : Iphc) : Keeps (execWireIphc hd s) := by
  unfold execWireIphc
  split
  · exact .raiseAny h
  · exact decompress_keeps h _ _

theorem execWireNhcUdp_keeps (h : s.Sound) (c : Bool) (p : BitVec 2) : Keeps (execWireNhcUdp c p s) := by
  unfold execWireNhcUdp
  split
  · exact .raiseAny h
  split
  · exact .raiseAny h
  · exact hcCommit_keeps h _ _ _

/-! ## Every instruction, every step -/

theorem exec_keeps (i : Instr) (h : s.Sound) : Keeps (exec i s) := by
  cases i with
  | bfNew b => exact execBfNew_keeps h b
  | bfSetbytes b n => exact execBfSetbytes_keeps h b n
  | bfGetb | bfGeth | bfGetw => exact loadBE_keeps h _ _ _
  | bfSetb | bfSeth | bfSetw => exact storeBE_keeps h _ _ _ _
  | bfLen | macRd | ckFinal | ipRd | ipIsll | ipIsmc | chLen => exact .ret h
  | ckPseudo => exact .ret { h with }
  | macWr | ckLoad | ipWr => exact .done { h with }
  | chClear => exact .done { h with chain := .nil }
  | sysReset => exact .done (resetEngine_sound h)
  | sysCfg => exact execSysCfg_keeps h
  | atSet id => exact execAtSet_keeps h id
  | atGet id => exact execAtGet_keeps h id
  | macParse | wireMacFcf => exact macClassify_keeps h _
  | ckRun b off => exact execCkRun_keeps h b off
  | ipNew => exact execIpNew_keeps h
  | ipParse => exact execIpParse_keeps h
  | ipSerialize => exact execIpSerialize_keeps h
  | chParse | wireNhHbh | wireNhTcp | wireNhUdp | wireNhIcmpv6 | wireTcpoptMss => exact dispatch_keeps h _ _
  | chPush k => exact execChPush_keeps h k
  | chRd fld idx => exact execChRd_keeps h fld idx
  | chRdp idx => exact execChRdp_keeps h idx
  | ndWr fld => exact execNdWr_keeps h fld
  | ndPayload n => exact execNdPayload_keeps h n
  | hcSetctx v id => exact execHcSetctx_keeps h v id
  | hcRdctx w id => exact execHcRdctx_keeps h w id
  | hcDecomp off => exact execHcDecomp_keeps h off
  | hcComp u => exact execHcComp_keeps h u
  | wireIphc hd => exact execWireIphc_keeps h hd
  | wireNhcUdp c p => exact execWireNhcUdp_keeps h c p
end

theorem exec_inv {i : Instr} {s s' : State} (h : s.Sound) (he : exec i s = .next s') : s'.inv :=
  (State.inv_iff s').mpr ⟨exec_keeps i h s' he, (exec_ends he).statusOk⟩

theorem illegal_inv {s s' : State} (h : s.Sound) (he : illegal s = .next s') : s'.inv := by
  refine (State.inv_iff s').mpr ⟨Keeps.raise h s' he, ?_⟩
  rw [raise_eq_next.mp he]
  exact statusOk_of_fatal rfl

/-- Settles O8: a step holds the state, runs an instruction, or raises `IllegalCommand`. -/
theorem stepKeepsTheInvariant : Obligations.StepKeepsTheInvariant := by
  intro s s' hinv hstep
  obtain ⟨hs, -⟩ := (State.inv_iff s).mp hinv
  cases hp : s.program with
  | nil =>
    rw [step_of_program_nil hp] at hstep
    cases hstep
    exact hinv
  | cons t ts =>
    cases hd : decodeCommand t.cmd with
    | none => exact illegal_inv (hs.present t ts) (step_of_illegal hp hd ▸ hstep)
    | some i => exact exec_inv (hs.present t ts) (step_of_decode hp hd ▸ hstep)

end Sys2Proof.Machine
end

section
/-! SUPPORT. Command words (30_encoding.md R100 to R105): the ids, the fields of a word and each format of the opcode
map described once; then the rows of the map, and from them decoding, encoding and legality of a word. -/

namespace Sys2Proof

open Machine

/-! ## Fields of a bit vector -/

theorem bitVec_append_eq_iff {n m : Nat} {x : BitVec n} {y : BitVec m} {w : BitVec (n + m)} :
    x ++ y = w ↔ x = w.extractLsb' m n ∧ y = w.extractLsb' 0 m := by
  constructor
  · rintro rfl
    exact ⟨BitVec.extractLsb'_append_eq_left.symm, BitVec.extractLsb'_append_eq_right.symm⟩
  · rintro ⟨rfl, rfl⟩
    exact BitVec.extractLsb'_append_extractLsb'

theorem extractLsb'_extractLsb' {n s l t k : Nat} (w : BitVec n) (h : t + k ≤ l) :
    (w.extractLsb' s l).extractLsb' t k = w.extractLsb' (s + t) k := by
  ext i hi
  simp only [BitVec.getElem_extractLsb', BitVec.getLsbD_extractLsb', Nat.add_assoc,
    decide_eq_true (show t + i < l by omega), Bool.true_and]

theorem ofBool_eq_extractLsb'_iff {n i : Nat} {b : Bool} {w : BitVec n} :
    BitVec.ofBool b = w.extractLsb' i 1 ↔ b = w.getLsbD i := by
  simp [BitVec.eq_of_getLsbD_eq_iff, BitVec.getLsbD_ofBool]

/-! ## Ids -/

/-- In a list without repetitions, the place of an entry identifies it. -/
theorem getElem?_eq_some_iff_of_nodup {α : Type} {l : List α} (hl : l.Nodup) {a b : Byte} {x : α}
    (hb : l[b.toNat]? = some x) : l[a.toNat]? = some x ↔ a = b := by
  constructor
  · intro ha
    have hlt : a.toNat < l.length := (List.getElem?_eq_some_iff.mp ha).1
    exact BitVec.eq_of_toNat_eq ((List.getElem?_inj hlt hl).mp (ha.trans hb.symm))
  · rintro rfl
    exact hb

theorem Buf.ofId_eq_some {a : Byte} {b : Buf} : Buf.ofId a = some b ↔ a = b.id := by
  cases b <;> revert a <;> decide

theorem AddrSel.ofId_eq_some {a : Byte} {b : AddrSel} : AddrSel.ofId a = some b ↔ a = b.id := by
  cases b <;> revert a <;> decide

theorem boolOfId_eq_some {a : Byte} {b : Bool} : boolOfId a = some b ↔ a = boolId b := by
  cases b <;> revert a <;> decide

theorem CtxWord.ofId_eq_some {a : Byte} {b : CtxWord} : CtxWord.ofId a = some b ↔ a = b.id := by
  cases b <;> revert a <;> decide

theorem MacReg.ofId_eq_some {a : Byte} {r : MacReg} : MacReg.ofId a = some r ↔ a = r.id :=
  getElem?_eq_some_iff_of_nodup (l := MacReg.all) (by decide) (by cases r <;> rfl)

theorem IpReg.ofId_eq_some {a : Byte} {r : IpReg} : IpReg.ofId a = some r ↔ a = r.id :=
  Option.join_eq_some_iff.trans
    (getElem?_eq_some_iff_of_nodup (l := IpReg.all) (by decide) (by cases r <;> rfl))

theorem Kind.ofId_eq_some {a : Byte} {k : Kind} : Kind.ofId a = some k ↔ a = k.id :=
  getElem?_eq_some_iff_of_nodup (l := Kind.all) (by decide) (by cases k <;> rfl)

theorem NodeField.ofId_eq_some {a : Byte} {f : NodeField} : NodeField.ofId a = some f ↔ a = f.id :=
  getElem?_eq_some_iff_of_nodup (l := NodeField.all) (by decide) (by cases f <;> rfl)

theorem stageOfId_eq_some {a : Byte} {f : NodeField} : stageOfId a = some f ↔ a = f.id ∧ f.stageable = true := by
  rw [stageOfId, Option.filter_eq_some_iff, NodeField.ofId_eq_some]

theorem attrOfId_eq_some {a : Byte} {k : Fin 8} : attrOfId a = some k ↔ a = BitVec.ofNat 8 k.val := by
  have hk : (BitVec.ofNat 8 k.val).toNat = k.val := by rw [BitVec.toNat_ofNat]; omega
  rw [attrOfId, ← BitVec.toNat_inj, hk]
  split
  · simp [Fin.ext_iff]
  · simp; omega

/-! ## The fields of a word (30_encoding.md R100) -/

theorem cmdWord_eq_iff {op : Nat} {a : Byte} {imm : Half} {w : Word} :
    cmdWord op a imm = w ↔ BitVec.ofNat 8 op = cmdOp w ∧ a = cmdA w ∧ imm = cmdImm w := by
  rw [cmdWord, bitVec_append_eq_iff, bitVec_append_eq_iff, extractLsb'_extractLsb' _ (by decide),
    extractLsb'_extractLsb' _ (by decide), and_assoc]
  rfl

@[simp] theorem cmdOp_cmdWord (op : Nat) (a : Byte) (imm : Half) : cmdOp (cmdWord op a imm) = BitVec.ofNat 8 op :=
  (cmdWord_eq_iff.mp rfl).1.symm
@[simp] theorem cmdA_cmdWord (op : Nat) (a : Byte) (imm : Half) : cmdA (cmdWord op a imm) = a :=
  (cmdWord_eq_iff.mp rfl).2.1.symm
@[simp] theorem cmdImm_cmdWord (op : Nat) (a : Byte) (imm : Half) : cmdImm (cmdWord op a imm) = imm :=
  (cmdWord_eq_iff.mp rfl).2.2.symm

theorem cmdWord_fields (w : Word) : cmdWord (cmdOp w).toNat (cmdA w) (cmdImm w) = w :=
  cmdWord_eq_iff.mpr ⟨by rw [BitVec.ofNat_toNat, BitVec.setWidth_eq], rfl, rfl⟩

theorem cmd_ext_iff {v w : Word} : v = w ↔ cmdOp v = cmdOp w ∧ cmdA v = cmdA w ∧ cmdImm v = cmdImm w := by
  conv_lhs => rw [← cmdWord_fields v, cmdWord_eq_iff, BitVec.ofNat_toNat, BitVec.setWidth_eq]

/-- An immediate with `imm[15:8]` clear is told by `imm[7:0]` (30_encoding.md R101). -/
theorem highByte_eq_zero_iff {imm : Half} {b : Byte} :
    imm.extractLsb' 8 8 = 0 ∧ imm.extractLsb' 0 8 = b ↔ imm = 0#8 ++ b := by
  rw [eq_comm (a := imm), bitVec_append_eq_iff, eq_comm, eq_comm (a := b)]
  rfl

/-! ## The formats (30_encoding.md R101) -/

section
variable {α : Type} {sel : Byte → Option α} {a : Byte} {imm : Half} {i : Instr}

theorem fmtZ_eq_some {j : Instr} : fmtZ j a imm = some i ↔ a = 0 ∧ imm = 0 ∧ j = i := by
  simp [fmtZ, and_assoc]

theorem fmtI_eq_some {f : Half → Instr} : fmtI f a imm = some i ↔ a = 0 ∧ f imm = i := by simp [fmtI]

theorem fmtS_eq_some {f : α → Instr} : fmtS sel f a imm = some i ↔ imm = 0 ∧ ∃ x, sel a = some x ∧ f x = i := by
  simp [fmtS]

theorem fmtSI_eq_some {f : α → Half → Instr} : fmtSI sel f a imm = some i ↔ ∃ x, sel a = some x ∧ f x imm = i := by
  simp [fmtSI]

theorem fmtSId_eq_some {f : α → Byte → Instr} :
    fmtSId sel f a imm = some i ↔ ∃ x b, sel a = some x ∧ imm = 0#8 ++ b ∧ f x b = i := by
  simp only [fmtSId, ← highByte_eq_zero_iff]
  split <;> simp_all

theorem fmtNh_eq_some {f : Byte → Instr} : fmtNh f a imm = some i ↔ ∃ b, a = 0 ∧ imm = 0#8 ++ b ∧ f b = i := by
  simp only [fmtNh, ← highByte_eq_zero_iff]
  split <;> simp_all
end

/-! ## Encoding and decoding (30_encoding.md R104) -/

theorem opcodes_nodup : (commandRows.map Prod.fst).Nodup := by decide

theorem lookup_eq_some_iff_of_nodup {α : Type} {l : List (Nat × α)} (hl : (l.map Prod.fst).Nodup) {k : Nat} {v : α} :
    l.lookup k = some v ↔ (k, v) ∈ l := by
  induction l with
  | nil => simp
  | cons r l ih =>
    obtain ⟨k', v'⟩ := r
    obtain ⟨hr, hl⟩ := List.nodup_cons.mp hl
    by_cases hk : k = k'
    · subst hk
      have hv : (k, v) ∉ l := fun hv => hr (List.mem_map.mpr ⟨_, hv, rfl⟩)
      simp [List.lookup, hv, eq_comm]
    · simp [List.lookup, beq_false_of_ne hk, hk, ih hl]

theorem decodeCommand_eq_some {w : Word} {i : Instr} :
    decodeCommand w = some i ↔ ∃ r ∈ commandRows, (cmdOp w).toNat = r.1 ∧ r.2 (cmdA w) (cmdImm w) = some i := by
  simp only [decodeCommand, Option.bind_eq_some_iff, lookup_eq_some_iff_of_nodup opcodes_nodup, Prod.exists]
  constructor
  · rintro ⟨f, hrow, hf⟩
    exact ⟨_, f, hrow, rfl, hf⟩
  · rintro ⟨_, f, hrow, rfl, hf⟩
    exact ⟨f, hrow, hf⟩

theorem decodeCommand_cmdWord {op : Nat} (hop : op < 256) (a : Byte) (imm : Half) :
    decodeCommand (cmdWord op a imm) = (commandRows.lookup op).bind (fun f => f a imm) := by
  rw [decodeCommand, cmdOp_cmdWord, cmdA_cmdWord, cmdImm_cmdWord, BitVec.toNat_ofNat, Nat.mod_eq_of_lt hop]

/-- The number of a command decodes to it where its row's reader takes its fields. -/
theorem decodeCommand_of_row {op : Nat} {f : Reader} {a : Byte} {imm : Half} {i : Instr}
    (hrow : commandRows.lookup op = some f) (hf : f a imm = some i) (hop : op < 256 := by decide) :
    decodeCommand (BitVec.ofNat 32 (cmdWord op a imm).toNat) = some i := by
  rw [BitVec.ofNat_toNat, BitVec.setWidth_eq, decodeCommand_cmdWord hop, hrow]
  exact hf

theorem decodeCommand_encode {i : Instr} (hc : i.isCommand = true) (hwf : i.wf = true) :
    decodeCommand (BitVec.ofNat 32 (encode i)) = some i := by
  cases i with
  | macParse | ckLoad | ckFinal | ipNew | ipParse | ipSerialize | chParse | chClear | chLen | sysReset | sysCfg =>
    exact decodeCommand_of_row rfl (fmtZ_eq_some.mpr ⟨rfl, rfl, rfl⟩)
  | bfNew | bfLen => exact decodeCommand_of_row rfl (fmtS_eq_some.mpr ⟨rfl, _, Buf.ofId_eq_some.mpr rfl, rfl⟩)
  | bfSetbytes | bfGetb | bfGeth | bfGetw | bfSetb | bfSeth | bfSetw | ckRun =>
    exact decodeCommand_of_row rfl (fmtSI_eq_some.mpr ⟨_, Buf.ofId_eq_some.mpr rfl, rfl⟩)
  | atSet | atGet => exact decodeCommand_of_row rfl (fmtS_eq_some.mpr ⟨rfl, _, attrOfId_eq_some.mpr rfl, rfl⟩)
  | macRd | macWr => exact decodeCommand_of_row rfl (fmtS_eq_some.mpr ⟨rfl, _, MacReg.ofId_eq_some.mpr rfl, rfl⟩)
  | ckPseudo => exact decodeCommand_of_row rfl (fmtNh_eq_some.mpr ⟨_, rfl, rfl, rfl⟩)
  | ipRd | ipWr => exact decodeCommand_of_row rfl (fmtS_eq_some.mpr ⟨rfl, _, IpReg.ofId_eq_some.mpr rfl, rfl⟩)
  | ipIsll | ipIsmc => exact decodeCommand_of_row rfl (fmtS_eq_some.mpr ⟨rfl, _, AddrSel.ofId_eq_some.mpr rfl, rfl⟩)
  | chPush => exact decodeCommand_of_row rfl (fmtS_eq_some.mpr ⟨rfl, _, Kind.ofId_eq_some.mpr rfl, rfl⟩)
  | chRd => exact decodeCommand_of_row rfl (fmtSI_eq_some.mpr ⟨_, NodeField.ofId_eq_some.mpr rfl, rfl⟩)
  | chRdp | ndPayload | hcDecomp => exact decodeCommand_of_row rfl (fmtI_eq_some.mpr ⟨rfl, rfl⟩)
  | ndWr => exact decodeCommand_of_row rfl (fmtS_eq_some.mpr ⟨rfl, _, stageOfId_eq_some.mpr ⟨rfl, hwf⟩, rfl⟩)
  | hcSetctx => exact decodeCommand_of_row rfl (fmtSId_eq_some.mpr ⟨_, _, boolOfId_eq_some.mpr rfl, rfl, rfl⟩)
  | hcRdctx => exact decodeCommand_of_row rfl (fmtSId_eq_some.mpr ⟨_, _, CtxWord.ofId_eq_some.mpr rfl, rfl, rfl⟩)
  | hcComp => exact decodeCommand_of_row rfl (fmtS_eq_some.mpr ⟨rfl, _, boolOfId_eq_some.mpr rfl, rfl⟩)
  | _ => cases hc

theorem decodeTableWord_of_command {w : Nat} {i : Instr} (h : decodeCommand (BitVec.ofNat 32 w) = some i) :
    decodeTableWord 32 w = some i := by simp [decodeTableWord, h]

/-- Settles O1: the row of each command reads its own fields back. -/
theorem encodedCommandsDecodeBack : Obligations.EncodedCommandsDecodeBack := fun _ hc hwf =>
  have h := decodeCommand_encode hc hwf
  ⟨h, decodeTableWord_of_command h⟩

/-! ## The rows encode what they read -/

/-- `i` is a well-formed command whose word has opcode `op`, selector byte `a` and immediate `imm`. -/
structure Encodes (op : Nat) (a : Byte) (imm : Half) (i : Instr) : Prop where
  encode_eq : encode i = (cmdWord op a imm).toNat := by rfl
  isCommand : i.isCommand = true := by rfl
  wf : i.wf = true := by rfl

/-- Whatever a row's reader answers is a well-formed command with the fields the reader was given. -/
def RowEncodes (r : Nat × Reader) : Prop := ∀ a imm i, r.2 a imm = some i → Encodes r.1 a imm i

section
variable {op : Nat} {α : Type} {sel : Byte → Option α} {id : α → Byte}

theorem fmtZ_encodes {j : Instr} (h : Encodes op 0 0 j) : RowEncodes (op, fmtZ j) := by
  intro a imm i hi
  obtain ⟨rfl, rfl, rfl⟩ := fmtZ_eq_some.mp hi
  exact h

theorem fmtI_encodes {f : Half → Instr} (h : ∀ imm, Encodes op 0 imm (f imm)) : RowEncodes (op, fmtI f) := by
  intro a imm i hi
  obtain ⟨rfl, rfl⟩ := fmtI_eq_some.mp hi
  exact h imm

theorem fmtNh_encodes {f : Byte → Instr} (h : ∀ b, Encodes op 0 (0#8 ++ b) (f b)) : RowEncodes (op, fmtNh f) := by
  intro a imm i hi
  obtain ⟨b, rfl, rfl, rfl⟩ := fmtNh_eq_some.mp hi
  exact h b

theorem fmtS_encodes {f : α → Instr} (h : ∀ a x, sel a = some x → Encodes op a 0 (f x)) :
    RowEncodes (op, fmtS sel f) := by
  intro a imm i hi
  obtain ⟨rfl, x, hx, rfl⟩ := fmtS_eq_some.mp hi
  exact h a x hx

theorem fmtSI_encodes {f : α → Half → Instr} (h : ∀ a x, sel a = some x → ∀ imm, Encodes op a imm (f x imm)) :
    RowEncodes (op, fmtSI sel f) := by
  intro a imm i hi
  obtain ⟨x, hx, rfl⟩ := fmtSI_eq_some.mp hi
  exact h a x hx imm

theorem fmtSId_encodes {f : α → Byte → Instr} (h : ∀ a x, sel a = some x → ∀ b, Encodes op a (0#8 ++ b) (f x b)) :
    RowEncodes (op, fmtSId sel f) := by
  intro a imm i hi
  obtain ⟨x, b, hx, rfl, rfl⟩ := fmtSId_eq_some.mp hi
  exact h a x hx b

/-- A claim about the ids holds of whatever a selector reads, if it reads nothing but ids. -/
theorem forall_of_ids {p : Byte → α → Prop} (hsel : ∀ {a x}, sel a = some x ↔ a = id x) (h : ∀ x, p (id x) x) (a : Byte)
    (x : α) (hx : sel a = some x) : p a x := hsel.mp hx ▸ h x

theorem fmtB_encodes {f : Buf → Instr} (h : ∀ b, Encodes op b.id 0 (f b)) : RowEncodes (op, fmtB f) :=
  fmtS_encodes (forall_of_ids Buf.ofId_eq_some h)

theorem fmtBO_encodes {f : Buf → Half → Instr} (h : ∀ b imm, Encodes op b.id imm (f b imm)) :
    RowEncodes (op, fmtBO f) :=
  fmtSI_encodes (forall_of_ids Buf.ofId_eq_some h)
end

theorem ndWr_encodes (a : Byte) (f : NodeField) (h : stageOfId a = some f) : Encodes 0x46 a 0 (.ndWr f) := by
  obtain ⟨rfl, hf⟩ := stageOfId_eq_some.mp h
  exact { wf := hf }

theorem commandRows_encode : ∀ r ∈ commandRows, RowEncodes r := by
  rw [← List.forall_iff_forall_mem]
  exact ⟨
    -- Byte Frames and attributes
    fmtB_encodes fun _ => {}, fmtBO_encodes fun _ _ => {}, fmtB_encodes fun _ => {},
    fmtBO_encodes fun _ _ => {}, fmtBO_encodes fun _ _ => {}, fmtBO_encodes fun _ _ => {},
    fmtBO_encodes fun _ _ => {}, fmtBO_encodes fun _ _ => {}, fmtBO_encodes fun _ _ => {},
    fmtS_encodes (forall_of_ids attrOfId_eq_some fun _ => {}),
    fmtS_encodes (forall_of_ids attrOfId_eq_some fun _ => {}),
    -- the frame classifier and the checksum unit
    fmtZ_encodes {}, fmtS_encodes (forall_of_ids MacReg.ofId_eq_some fun _ => {}),
    fmtS_encodes (forall_of_ids MacReg.ofId_eq_some fun _ => {}),
    fmtZ_encodes {}, fmtNh_encodes fun _ => {}, fmtBO_encodes fun _ _ => {}, fmtZ_encodes {},
    -- the header registers
    fmtZ_encodes {}, fmtZ_encodes {}, fmtZ_encodes {},
    fmtS_encodes (forall_of_ids IpReg.ofId_eq_some fun _ => {}),
    fmtS_encodes (forall_of_ids IpReg.ofId_eq_some fun _ => {}),
    fmtS_encodes (forall_of_ids AddrSel.ofId_eq_some fun _ => {}),
    fmtS_encodes (forall_of_ids AddrSel.ofId_eq_some fun _ => {}),
    -- the chain and its nodes
    fmtZ_encodes {}, fmtZ_encodes {}, fmtS_encodes (forall_of_ids Kind.ofId_eq_some fun _ => {}),
    fmtSI_encodes (forall_of_ids NodeField.ofId_eq_some fun _ _ => {}), fmtI_encodes fun _ => {}, fmtZ_encodes {},
    fmtS_encodes ndWr_encodes, fmtI_encodes fun _ => {},
    -- header compression and the system commands
    fmtSId_encodes (forall_of_ids boolOfId_eq_some fun _ _ => {}),
    fmtSId_encodes (forall_of_ids CtxWord.ofId_eq_some fun _ _ => {}),
    fmtI_encodes fun _ => {}, fmtS_encodes (forall_of_ids boolOfId_eq_some fun _ => {}),
    fmtZ_encodes {}, fmtZ_encodes {}⟩

/-- Settles O2: a word is its three fields, and the row that reads them encodes what it answers. -/
theorem decodedCommandsEncodeBack : Obligations.DecodedCommandsEncodeBack := by
  intro w i h
  obtain ⟨r, hr, hop, hread⟩ := decodeCommand_eq_some.mp h
  obtain ⟨hencode, hcommand, hwf⟩ := commandRows_encode r hr _ _ _ hread
  rw [← hop, cmdWord_fields] at hencode
  exact ⟨hencode, hcommand, hwf⟩

/-! ## The legal words (30_encoding.md R105) -/

@[simp] theorem cmdOp_and (v w : Word) : cmdOp (v &&& w) = cmdOp v &&& cmdOp w := BitVec.extractLsb'_and
@[simp] theorem cmdA_and (v w : Word) : cmdA (v &&& w) = cmdA v &&& cmdA w := BitVec.extractLsb'_and
@[simp] theorem cmdImm_and (v w : Word) : cmdImm (v &&& w) = cmdImm v &&& cmdImm w := BitVec.extractLsb'_and

theorem cmdA_toNat (w : Word) : (cmdA w).toNat = w.toNat / 65536 % 256 := by
  simp [cmdA, BitVec.extractLsb'_toNat, Nat.shiftRight_eq_div_pow]

theorem and_byteMask (a : Byte) : a &&& 0xFF = a := BitVec.and_allOnes
theorem and_halfMask (imm : Half) : imm &&& 0xFFFF = imm := BitVec.and_allOnes

theorem and_highMask_eq_zero_iff (imm : Half) : imm &&& 0xFF00 = 0 ↔ imm.extractLsb' 8 8 = 0 := by
  have hhigh : BitVec.extractLsb' 8 8 (0xFF00 : Half) = 0xFF := rfl
  have hlow : BitVec.extractLsb' 0 8 (0xFF00 : Half) = 0 := rfl
  rw [show (0 : Half) = 0#8 ++ 0#8 from rfl, ← highByte_eq_zero_iff, BitVec.extractLsb'_and, BitVec.extractLsb'_and,
    hhigh, hlow, and_byteMask]
  exact and_iff_left BitVec.and_zero

/-- A mask of the whole opcode byte, and of `ma` and `mi` in the other two fields. -/
theorem and_cmdWord_eq_iff {op : Nat} (hop : op < 256) (w : Word) (ma : Byte) (mi : Half) :
    w &&& cmdWord 0xFF ma mi = cmdWord op 0 0 ↔ (cmdOp w).toNat = op ∧ cmdA w &&& ma = 0 ∧ cmdImm w &&& mi = 0 := by
  have hall : BitVec.ofNat 8 0xFF = BitVec.allOnes 8 := rfl
  have hop' : (BitVec.ofNat 8 op).toNat = op := by rw [BitVec.toNat_ofNat, Nat.mod_eq_of_lt hop]
  rw [cmd_ext_iff]
  simp only [cmdOp_and, cmdA_and, cmdImm_and, cmdOp_cmdWord, cmdA_cmdWord, cmdImm_cmdWord, hall,
    BitVec.and_allOnes]
  rw [← BitVec.toNat_inj, hop']

/-- A row of the opcode map and a row of the opcode table accept the same words. -/
def RowsAgree (r : Nat × Reader) (t : Word × Word × (Nat → Bool)) : Prop :=
  ∀ w, ((cmdOp w).toNat = r.1 ∧ (r.2 (cmdA w) (cmdImm w)).isSome = true)
    ↔ (w &&& t.2.1 = t.1 ∧ t.2.2 (w.toNat / 65536 % 256) = true)

/-- A selector accepts exactly the bytes clear under a mask whose number is in range. -/
abbrev SelectorAgrees {α : Type} (sel : Byte → Option α) (ma : Byte) (range : Nat → Bool) : Prop :=
  ∀ a, (sel a).isSome = true ↔ a &&& ma = 0 ∧ range a.toNat = true

theorem Buf.ofId_agrees : SelectorAgrees Buf.ofId 0xFE (fun _ => true) := by decide
theorem AddrSel.ofId_agrees : SelectorAgrees AddrSel.ofId 0xFE (fun _ => true) := by decide
theorem boolOfId_agrees : SelectorAgrees boolOfId 0xFE (fun _ => true) := by decide
theorem CtxWord.ofId_agrees : SelectorAgrees CtxWord.ofId 0xFC (fun a => decide (a ≤ 2)) := by decide
theorem attrOfId_agrees : SelectorAgrees attrOfId 0xF8 (fun _ => true) := by decide
theorem MacReg.ofId_agrees : SelectorAgrees MacReg.ofId 0xF0 (fun _ => true) := by decide
theorem IpReg.ofId_agrees : SelectorAgrees IpReg.ofId 0xF0 (fun a => a != 7) := by decide
theorem Kind.ofId_agrees : SelectorAgrees Kind.ofId 0xF8 (fun a => decide (a ≤ 4)) := by decide
theorem NodeField.ofId_agrees : SelectorAgrees NodeField.ofId 0xE0 (fun a => decide (a ≤ 20)) := by decide
theorem stageOfId_agrees : SelectorAgrees stageOfId 0xE0 (fun a => decide (1 ≤ a ∧ a ≤ 17)) := by decide

section
variable {op : Nat} {α : Type} {sel : Byte → Option α} {ma : Byte} {mi : Half} {range : Nat → Bool}

theorem rowsAgree_of_masks {f : Reader}
    (h : ∀ a imm, (f a imm).isSome = true ↔ a &&& ma = 0 ∧ imm &&& mi = 0 ∧ range a.toNat = true)
    (hop : op < 256 := by decide) :
    RowsAgree (op, f) (cmdWord op 0 0, cmdWord 0xFF ma mi, range) := by
  intro w
  rw [and_cmdWord_eq_iff hop, ← cmdA_toNat, h, and_assoc, and_assoc]

theorem fmtZ_agrees {j : Instr} (hop : op < 256 := by decide) :
    RowsAgree (op, fmtZ j) (cmdWord op 0 0, cmdWord 0xFF 0xFF 0xFFFF, fun _ => true) := by
  refine rowsAgree_of_masks (fun a imm => ?_) hop
  rw [and_byteMask, and_halfMask, fmtZ]
  split <;> simp_all

theorem fmtI_agrees {f : Half → Instr} (hop : op < 256 := by decide) :
    RowsAgree (op, fmtI f) (cmdWord op 0 0, cmdWord 0xFF 0xFF 0, fun _ => true) := by
  refine rowsAgree_of_masks (fun a imm => ?_) hop
  rw [and_byteMask, fmtI]
  split <;> simp_all

theorem fmtNh_agrees {f : Byte → Instr} (hop : op < 256 := by decide) :
    RowsAgree (op, fmtNh f) (cmdWord op 0 0, cmdWord 0xFF 0xFF 0xFF00, fun _ => true) := by
  refine rowsAgree_of_masks (fun a imm => ?_) hop
  rw [and_byteMask, and_highMask_eq_zero_iff, fmtNh]
  split <;> simp_all

theorem fmtS_agrees {f : α → Instr} (h : SelectorAgrees sel ma range) (hop : op < 256 := by decide) :
    RowsAgree (op, fmtS sel f) (cmdWord op 0 0, cmdWord 0xFF ma 0xFFFF, range) := by
  refine rowsAgree_of_masks (fun a imm => ?_) hop
  rw [and_halfMask, and_left_comm, ← h, fmtS]
  split <;> simp_all

theorem fmtSI_agrees {f : α → Half → Instr} (h : SelectorAgrees sel ma range) (hop : op < 256 := by decide) :
    RowsAgree (op, fmtSI sel f) (cmdWord op 0 0, cmdWord 0xFF ma 0, range) := by
  refine rowsAgree_of_masks (fun a imm => ?_) hop
  simp [fmtSI, h a]

theorem fmtSId_agrees {f : α → Byte → Instr} (h : SelectorAgrees sel ma range) (hop : op < 256 := by decide) :
    RowsAgree (op, fmtSId sel f) (cmdWord op 0 0, cmdWord 0xFF ma 0xFF00, range) := by
  refine rowsAgree_of_masks (fun a imm => ?_) hop
  rw [and_highMask_eq_zero_iff, and_left_comm, ← h, fmtSId]
  split <;> simp_all

theorem fmtB_agrees {f : Buf → Instr} (hop : op < 256 := by decide) :
    RowsAgree (op, fmtB f) (cmdWord op 0 0, cmdWord 0xFF 0xFE 0xFFFF, fun _ => true) :=
  fmtS_agrees Buf.ofId_agrees hop

theorem fmtBO_agrees {f : Buf → Half → Instr} (hop : op < 256 := by decide) :
    RowsAgree (op, fmtBO f) (cmdWord op 0 0, cmdWord 0xFF 0xFE 0, fun _ => true) :=
  fmtSI_agrees Buf.ofId_agrees hop
end

theorem rows_agree : ∀ p ∈ commandRows.zip legalRows, RowsAgree p.1 p.2 := by
  rw [← List.forall_iff_forall_mem]
  exact ⟨
    -- Byte Frames and attributes
    fmtB_agrees, fmtBO_agrees, fmtB_agrees, fmtBO_agrees, fmtBO_agrees, fmtBO_agrees, fmtBO_agrees, fmtBO_agrees,
    fmtBO_agrees, fmtS_agrees attrOfId_agrees, fmtS_agrees attrOfId_agrees,
    -- the frame classifier and the checksum unit
    fmtZ_agrees, fmtS_agrees MacReg.ofId_agrees, fmtS_agrees MacReg.ofId_agrees, fmtZ_agrees, fmtNh_agrees,
    fmtBO_agrees, fmtZ_agrees,
    -- the header registers
    fmtZ_agrees, fmtZ_agrees, fmtZ_agrees, fmtS_agrees IpReg.ofId_agrees, fmtS_agrees IpReg.ofId_agrees,
    fmtS_agrees AddrSel.ofId_agrees, fmtS_agrees AddrSel.ofId_agrees,
    -- the chain and its nodes
    fmtZ_agrees, fmtZ_agrees, fmtS_agrees Kind.ofId_agrees, fmtSI_agrees NodeField.ofId_agrees, fmtI_agrees,
    fmtZ_agrees, fmtS_agrees stageOfId_agrees, fmtI_agrees,
    -- header compression and the system commands
    fmtSId_agrees boolOfId_agrees, fmtSId_agrees CtxWord.ofId_agrees, fmtI_agrees, fmtS_agrees boolOfId_agrees,
    fmtZ_agrees, fmtZ_agrees⟩

theorem decodeCommand_isSome_iff {w : Word} :
    (decodeCommand w).isSome = true
      ↔ ∃ r ∈ commandRows, (cmdOp w).toNat = r.1 ∧ (r.2 (cmdA w) (cmdImm w)).isSome = true := by
  simp only [Option.isSome_iff_exists, decodeCommand_eq_some]
  tauto

/-- Settles O3: the opcode map and the opcode table agree row by row. -/
theorem decoderAcceptsExactlyLegalWords : Obligations.DecoderAcceptsExactlyLegalWords := by
  intro w
  have hmap : (commandRows.zip legalRows).map Prod.fst = commandRows := List.map_fst_zip (by decide)
  have htable : (commandRows.zip legalRows).map Prod.snd = legalRows := List.map_snd_zip (by decide)
  rw [decodeCommand_isSome_iff, LegalWord]
  conv_lhs => rw [← hmap]
  conv_rhs => rw [← htable]
  simp only [List.mem_map, exists_exists_and_eq_and]
  exact exists_congr fun p => and_congr_right fun hp => rows_agree p hp w

end Sys2Proof
end

section
/-! SUPPORT. The words of the spec's examples, the step on a word that is no command, and the wire units of
30_encoding.md Part B. -/

namespace Sys2Proof

/-- Settles O5: each word by computation. -/
theorem specWordsDecode : Obligations.SpecWordsDecode := by
  unfold Obligations.SpecWordsDecode
  decide

/-! ## A word that is no command -/

namespace Machine

theorem illegal_eq_failed (s : State) : illegal s = failed 9 0 s := raise_eq_failed _ s

/-- Settles O7: the decoder accepts exactly the legal words, and a step raises on the others. -/
theorem illegalWordsChangeOnlyStatus : Obligations.IllegalWordsChangeOnlyStatus := by
  intro s t ts hp
  have hlegal := decoderAcceptsExactlyLegalWords t.cmd
  constructor
  · intro hill
    have hnone : decodeCommand t.cmd = none := by simpa using mt hlegal.mp hill
    exact (step_of_illegal hp hnone).trans (illegal_eq_failed _)
  · intro hleg
    obtain ⟨i, hi⟩ := Option.isSome_iff_exists.mp (hlegal.mpr hleg)
    exact ⟨i, hi, step_of_decode hp hi⟩

end Machine

/-! ## The wire units: decoding inverts encoding -/

/-- Frame control (30_encoding.md R111). -/
theorem encodeFcf_eq_iff {f : Fcf} {w : BitVec 16} : encodeFcf f = w ↔ decodeFcf w = f := by
  cases f
  simp only [encodeFcf]
  iterate 8 rw [bitVec_append_eq_iff]
  simp only [decodeFcf, Fcf.mk.injEq, extractLsb'_extractLsb', Nat.reduceAdd, Nat.reduceLeDiff, and_assoc, eq_comm]

/-- The IPHC base bytes (30_encoding.md R130). -/
theorem encodeIphc_eq_iff {h : Iphc} {w : BitVec 16} : encodeIphc h = w ↔ decodeIphc w = some h := by
  cases h
  simp only [encodeIphc]
  iterate 9 rw [bitVec_append_eq_iff]
  rw [decodeIphc, Option.ite_none_right_eq_some]
  simp only [extractLsb'_extractLsb', ofBool_eq_extractLsb'_iff, Nat.reduceAdd, Nat.reduceLeDiff, and_assoc,
    Option.some.injEq, Iphc.mk.injEq, eq_comm]

/-- A next-header byte (30_encoding.md R120). -/
theorem variantOf_eq_some {b : Byte} {v : Variant} : variantOf b = some v ↔ b = v.disp := by
  cases v <;> revert b <;> decide

/-- The UDP NHC byte (30_encoding.md R139). -/
theorem encodeNhcUdp_eq_iff {c : Bool} {p : BitVec 2} {b : Byte} :
    encodeNhcUdp c p = b ↔ decodeNhcUdp b = some (c, p) := by
  simp only [encodeNhcUdp]
  iterate 2 rw [bitVec_append_eq_iff]
  rw [decodeNhcUdp, Option.ite_none_right_eq_some]
  simp only [extractLsb'_extractLsb', ofBool_eq_extractLsb'_iff, Nat.reduceAdd, Nat.reduceLeDiff, and_assoc,
    Option.some.injEq, Prod.mk.injEq, eq_comm]

/-- The MSS option (30_encoding.md R124). -/
theorem encodeMss_eq_iff {m : Half} {w : Word} : encodeMss m = w ↔ decodeMss w = some m := by
  rw [encodeMss, bitVec_append_eq_iff, decodeMss, Option.ite_none_right_eq_some]
  simp only [Option.some.injEq, eq_comm]

/-! ## The wire units in the numbering of the opcode table -/

theorem decodeTableWord_half (w : BitVec 16) : decodeTableWord 16 w.toNat = some (decodeWireHalf w) := by
  simp [decodeTableWord]

theorem decodeTableWord_byte (b : Byte) : decodeTableWord 8 b.toNat = decodeWireByte b := by
  simp [decodeTableWord]

/-- An MSS option is no command: its selector byte 4 is no buffer (30_encoding.md R105). -/
theorem decodeCommand_encodeMss (m : Half) : decodeCommand (encodeMss m) = none :=
  decodeCommand_cmdWord (op := 0x02) (by decide) 0x04 m

theorem decodeTableWord_mss (m : Half) : decodeTableWord 32 (encodeMss m).toNat = some (.wireTcpoptMss m) := by
  simp [decodeTableWord, decodeCommand_encodeMss, encodeMss_eq_iff.mp rfl]

/-- A frame control with the top bits of an IPHC header has source mode 1 (log 12). -/
theorem decodeIphc_encodeFcf {f : Fcf} (h : f.smode ≠ 1) : decodeIphc (encodeFcf f) = none := by
  refine if_neg fun htop => h ?_
  have hsmode : (encodeFcf f).extractLsb' 14 2 = f.smode := congrArg Fcf.smode (encodeFcf_eq_iff.mp rfl)
  rw [← hsmode, ← extractLsb'_extractLsb' (s := 13) (l := 3) (t := 1) _ (by decide), htop]
  rfl

theorem decodeWireHalf_encodeFcf {f : Fcf} (h : f.smode ≠ 1) : decodeWireHalf (encodeFcf f) = .wireMacFcf f := by
  rw [decodeWireHalf, decodeIphc_encodeFcf h]
  exact congrArg _ (encodeFcf_eq_iff.mp rfl)

theorem decodeWireHalf_encodeIphc (h : Iphc) : decodeWireHalf (encodeIphc h) = .wireIphc h := by
  rw [decodeWireHalf, encodeIphc_eq_iff.mp rfl]

theorem decodeWireByte_disp (v : Variant) : decodeWireByte v.disp = some v.instr := by
  rw [decodeWireByte, variantOf_eq_some.mpr rfl]

/-- No UDP NHC byte is a next-header byte the registry knows. -/
theorem variantOf_encodeNhcUdp (c : Bool) (p : BitVec 2) : variantOf (encodeNhcUdp c p) = none := by
  revert c p
  decide

theorem decodeWireByte_encodeNhcUdp (c : Bool) (p : BitVec 2) :
    decodeWireByte (encodeNhcUdp c p) = some (.wireNhcUdp c p) := by
  rw [decodeWireByte, variantOf_encodeNhcUdp, encodeNhcUdp_eq_iff.mp rfl]
  rfl

theorem decodeTableWord_encode_wire {i : Instr} (hi : i.isCommand = false) (hf : ∀ f, i = .wireMacFcf f → f.smode ≠ 1) :
    decodeTableWord (width i) (encode i) = some i := by
  cases i with
  | wireMacFcf f => exact (decodeTableWord_half _).trans (congrArg some (decodeWireHalf_encodeFcf (hf f rfl)))
  | wireNhHbh => exact (decodeTableWord_byte _).trans (decodeWireByte_disp .hbh)
  | wireNhTcp => exact (decodeTableWord_byte _).trans (decodeWireByte_disp .tcp)
  | wireNhUdp => exact (decodeTableWord_byte _).trans (decodeWireByte_disp .udp)
  | wireNhIcmpv6 => exact (decodeTableWord_byte _).trans (decodeWireByte_disp .icmp)
  | wireIphc h => exact (decodeTableWord_half _).trans (congrArg some (decodeWireHalf_encodeIphc h))
  | wireNhcUdp c p => exact (decodeTableWord_byte _).trans (decodeWireByte_encodeNhcUdp c p)
  | wireTcpoptMss m => exact decodeTableWord_mss m
  | _ => cases hi

/-- Settles O4: each unit's encoder and decoder invert each other, and the table's widths keep the units apart. -/
theorem wireUnitsDecodeBack : Obligations.WireUnitsDecodeBack :=
  ⟨fun _ => encodeFcf_eq_iff.mp rfl, fun _ => encodeFcf_eq_iff.mpr rfl,
    fun _ => encodeIphc_eq_iff.mp rfl, fun _ _ => encodeIphc_eq_iff.mpr,
    fun _ _ => variantOf_eq_some,
    fun _ _ => encodeNhcUdp_eq_iff.mp rfl, fun _ _ _ => encodeNhcUdp_eq_iff.mpr,
    fun _ => encodeMss_eq_iff.mp rfl, fun _ _ => encodeMss_eq_iff.mpr,
    fun _ => decodeTableWord_encode_wire⟩

end Sys2Proof
end

section
/-! SUPPORT. Byte sequences and the numbers and fields they carry, big-endian and little-endian (00_scope.md R9), and
the 40 header bytes (30_encoding.md R117). -/

namespace Sys2Proof.Machine

/-! ## Parts of a byte sequence -/

section
variable {as bs cs : List Byte} {i k m n : Nat}

theorem slice_append (hi : as.length = i) (hn : bs.length = n) : slice (as ++ (bs ++ cs)) i n = bs := by
  subst hi hn
  simp [slice]

theorem slice_append_slice (bs : List Byte) (i m n : Nat) :
    slice bs i m ++ slice bs (i + m) n = slice bs i (m + n) := by
  rw [slice, slice, slice, List.take_add, List.drop_drop]

theorem slice_zero_append_drop (bs : List Byte) (n : Nat) : slice bs 0 n ++ bs.drop n = bs := List.take_append_drop n bs

theorem slice_zero (bs : List Byte) (n : Nat) : slice bs 0 n = bs.take n := rfl

theorem slice_length_of_le (h : i + n ≤ bs.length) : (slice bs i n).length = n := by rw [slice_length]; omega

theorem slice_to_end (h : bs.length - i ≤ n) : slice bs i n = bs.drop i :=
  List.take_of_length_le (by simpa using h)

theorem slice_one (h : i < bs.length) : slice bs i 1 = [byteAt bs i] := by
  rw [slice, List.drop_eq_getElem_cons h, byteAt, List.getD_eq_getElem _ _ h]
  rfl

theorem slice_succ (h : i < bs.length) : slice bs i (n + 1) = byteAt bs i :: slice bs (i + 1) n := by
  rw [Nat.add_comm, ← slice_append_slice, slice_one h]
  rfl

theorem slice_two (h : i + 1 < bs.length) : slice bs i 2 = [byteAt bs i, byteAt bs (i + 1)] := by
  rw [slice_succ (by omega), slice_one h]

theorem slice_four (h : i + 3 < bs.length) :
    slice bs i 4 = [byteAt bs i, byteAt bs (i + 1), byteAt bs (i + 2), byteAt bs (i + 3)] := by
  rw [slice_succ (by omega), slice_succ (by omega), slice_two h]
end

/-! ## Big-endian numbers -/

theorem ofNat_div_eq_extractLsb' {w : Nat} (v : BitVec w) (k : Nat) :
    BitVec.ofNat 8 (v.toNat / 256 ^ k) = v.extractLsb' (8 * k) 8 := by
  rw [BitVec.extractLsb', Nat.shiftRight_eq_div_pow, Nat.pow_mul]

/-- The bytes of a word, most significant first, cut from it. -/
theorem tobe_toNat {w : Nat} (n : Nat) (v : BitVec w) :
    tobe n v.toNat = (List.range n).reverse.map (fun k => v.extractLsb' (8 * k) 8) := by
  induction n with
  | zero => rfl
  | succ n ih => simp [tobe, ih, List.range_succ, ofNat_div_eq_extractLsb']

theorem tobe_half (h : Half) : tobe 2 h.toNat = b2 h := tobe_toNat 2 h
theorem tobe_word (w : Word) : tobe 4 w.toNat = b4 w := tobe_toNat 4 w

theorem tobe_addr (a : Addr) : tobe 16 a.toNat = b16 a := by
  rw [tobe_toNat]
  simp only [b16, b8, b4, extractLsb'_extractLsb', Nat.reduceAdd, Nat.reduceLeDiff]
  rfl

theorem tobe_add_mul (n q v : Nat) : tobe n (q * 256 ^ n + v) = tobe n v := by
  induction n generalizing q with
  | zero => rfl
  | succ n ih =>
    have hpow : q * 256 ^ (n + 1) + v = q * 256 * 256 ^ n + v := by ring
    have hdiv : (q * 256 * 256 ^ n + v) / 256 ^ n = q * 256 + v / 256 ^ n := by
      rw [Nat.add_comm, Nat.add_mul_div_right _ _ (by positivity), Nat.add_comm]
    have hbyte : BitVec.ofNat 8 (q * 256 + v / 256 ^ n) = BitVec.ofNat 8 (v / 256 ^ n) := by
      apply BitVec.eq_of_toNat_eq
      simp only [BitVec.toNat_ofNat]
      omega
    rw [tobe, tobe, hpow, hdiv, hbyte, ih]

theorem tobe_be {bs : List Byte} {n : Nat} (hn : bs.length = n) : tobe n (be bs) = bs := by
  induction bs generalizing n with
  | nil => subst hn; rfl
  | cons b bs ih =>
    subst hn
    have hdiv : (b.toNat * 256 ^ bs.length + be bs) / 256 ^ bs.length = b.toNat := by
      rw [Nat.add_comm, Nat.add_mul_div_right _ _ (by positivity), Nat.div_eq_of_lt (be_lt bs), Nat.zero_add]
    rw [List.length_cons, tobe, be_cons, tobe_add_mul, ih rfl, hdiv, BitVec.ofNat_toNat, BitVec.setWidth_eq]

theorem ofNat_be_tobe {w n : Nat} (hw : w = 8 * n) (v : BitVec w) : BitVec.ofNat w (be (tobe n v.toNat)) = v := by
  have hlt : v.toNat < 256 ^ n := by simpa [hw, Nat.pow_mul] using v.isLt
  rw [be_tobe, Nat.mod_eq_of_lt hlt, BitVec.ofNat_toNat, BitVec.setWidth_eq]

theorem toNat_ofNat_be {w n : Nat} (hw : w = 8 * n) {bs : List Byte} (hn : bs.length = n) :
    (BitVec.ofNat w (be bs)).toNat = be bs := by
  have hlt : be bs < 2 ^ w := by simpa [hw, hn, Nat.pow_mul] using be_lt bs
  rw [BitVec.toNat_ofNat, Nat.mod_eq_of_lt hlt]

@[simp] theorem ofNat_be_b2 (h : Half) : BitVec.ofNat 16 (be (b2 h)) = h := by
  rw [← tobe_half]
  exact ofNat_be_tobe (n := 2) rfl h

@[simp] theorem ofNat_be_b4 (w : Word) : BitVec.ofNat 32 (be (b4 w)) = w := by
  rw [← tobe_word]
  exact ofNat_be_tobe (n := 4) rfl w

@[simp] theorem ofNat_be_b16 (a : Addr) : BitVec.ofNat 128 (be (b16 a)) = a := by
  rw [← tobe_addr]
  exact ofNat_be_tobe (n := 16) rfl a

theorem b2_ofNat_be {bs : List Byte} (hn : bs.length = 2) : b2 (BitVec.ofNat 16 (be bs)) = bs := by
  rw [← tobe_half, toNat_ofNat_be rfl hn, tobe_be hn]

theorem b16_ofNat_be {bs : List Byte} (hn : bs.length = 16) : b16 (BitVec.ofNat 128 (be bs)) = bs := by
  rw [← tobe_addr, toNat_ofNat_be rfl hn, tobe_be hn]

theorem b2_append (x y : Byte) : b2 (x ++ y) = [x, y] := by
  generalize hw : x ++ y = w
  obtain ⟨rfl, rfl⟩ := bitVec_append_eq_iff.mp hw
  rfl

theorem b4_append_halves (x y : Half) : b4 (x ++ y) = b2 x ++ b2 y := by
  generalize hw : x ++ y = w
  obtain ⟨rfl, rfl⟩ := bitVec_append_eq_iff.mp hw
  simp only [b4, b2, extractLsb'_extractLsb', Nat.reduceAdd, Nat.reduceLeDiff]
  rfl

theorem b4_append (x y z t : Byte) : b4 (x ++ y ++ z ++ t) = [x, y, z, t] := by
  generalize hw : x ++ y ++ z ++ t = w
  obtain ⟨hxyz, rfl⟩ := bitVec_append_eq_iff.mp hw
  obtain ⟨hxy, rfl⟩ := bitVec_append_eq_iff.mp hxyz
  obtain ⟨rfl, rfl⟩ := bitVec_append_eq_iff.mp hxy
  simp only [b4, extractLsb'_extractLsb', Nat.reduceAdd, Nat.reduceLeDiff]

/-- The 16-bit field at a place, read as a number and as two bytes. -/
theorem half_eq_h16 {seg : List Byte} {i : Nat} (h : i + 1 < seg.length) : half seg i = h16 seg i := by
  rw [half, slice_two h, ← b2_append, ofNat_be_b2]
  rfl

/-- The 32-bit field at a place, read as a number and as four bytes. -/
theorem word_eq_h32 {seg : List Byte} {i : Nat} (h : i + 3 < seg.length) : word seg i = h32 seg i := by
  rw [word, slice_four h, ← b4_append, ofNat_be_b4]
  rfl

/-! ## Little-endian numbers -/

@[simp] theorem leBytes_length (n v : Nat) : (leBytes n v).length = n := by
  induction n generalizing v with
  | zero => rfl
  | succ n ih => simp [leBytes, ih]

theorem le_leBytes (n v : Nat) : le (leBytes n v) = v % 256 ^ n := by
  induction n generalizing v with
  | zero => simp [leBytes, le, Nat.mod_one]
  | succ n ih => rw [leBytes, le, ih, BitVec.toNat_ofNat, Nat.pow_succ' (m := 256), Nat.mod_mul]

theorem leBytes_le {bs : List Byte} {n : Nat} (hn : bs.length = n) : leBytes n (le bs) = bs := by
  induction bs generalizing n with
  | nil => subst hn; rfl
  | cons b bs ih =>
    subst hn
    have hbyte : BitVec.ofNat 8 (b.toNat + 256 * le bs) = b := by
      apply BitVec.eq_of_toNat_eq
      rw [BitVec.toNat_ofNat]
      omega
    have hrest : (b.toNat + 256 * le bs) / 256 = le bs := by omega
    rw [List.length_cons, leBytes, le, hbyte, hrest, ih rfl]

theorem le_lt (bs : List Byte) : le bs < 256 ^ bs.length := by
  have h := le_leBytes bs.length (le bs)
  rw [leBytes_le rfl] at h
  exact h ▸ Nat.mod_lt _ (by positivity)

/-! ## The header bytes -/

theorem headerBytes_eq (h : Hdr) : headerBytes h
    = b4 (h.ver ++ h.tc ++ h.fl) ++ b2 h.plen ++ [h.nh, h.hlim] ++ b16 h.src ++ b16 h.dst := by
  rw [headerBytes, tobe_word, tobe_half, tobe_addr, tobe_addr]

/-- The first word of a header, byte by byte: version, traffic class and flow label. -/
theorem b4_firstWord (ver : BitVec 4) (tc : Byte) (fl : BitVec 20) :
    b4 (ver ++ tc ++ fl)
      = [ver ++ (tc.extractLsb' 4 4 : BitVec 4), (tc.extractLsb' 0 4 : BitVec 4) ++ (fl.extractLsb' 16 4 : BitVec 4),
          fl.extractLsb' 8 8, fl.extractLsb' 0 8] := by
  generalize hw : ver ++ tc ++ fl = w
  obtain ⟨hvertc, rfl⟩ := bitVec_append_eq_iff.mp hw
  obtain ⟨rfl, rfl⟩ := bitVec_append_eq_iff.mp hvertc
  simp only [b4, extractLsb'_extractLsb', Nat.reduceAdd, Nat.reduceLeDiff]
  rw [BitVec.extractLsb'_append_extractLsb'_eq_extractLsb' (start₂ := 28) rfl,
    BitVec.extractLsb'_append_extractLsb'_eq_extractLsb' (start₂ := 20) rfl]

/-- The registers of a header's parts, its first word uncut. -/
theorem hdrOf_parts (w : Word) (plen : Half) (nh hlim : Byte) (src dst : Addr) (pay : List Byte) :
    hdrOf (b4 w ++ b2 plen ++ [nh, hlim] ++ b16 src ++ b16 dst ++ pay)
      = { ver := w.extractLsb' 28 4, tc := w.extractLsb' 20 8, fl := w.extractLsb' 0 20, plen := plen, nh := nh
          hlim := hlim, src := src, dst := dst } := by
  have hread : hdrOf (b4 w ++ b2 plen ++ [nh, hlim] ++ b16 src ++ b16 dst ++ pay)
      = { ver := (w.extractLsb' 24 8).extractLsb' 4 4
          tc := (w.extractLsb' 24 8).extractLsb' 0 4 ++ (w.extractLsb' 16 8).extractLsb' 4 4
          fl := (w.extractLsb' 16 8).extractLsb' 0 4 ++ w.extractLsb' 8 8 ++ w.extractLsb' 0 8
          plen := BitVec.ofNat 16 (be (b2 plen)), nh := nh, hlim := hlim
          src := BitVec.ofNat 128 (be (b16 src)), dst := BitVec.ofNat 128 (be (b16 dst)) } := rfl
  simp only [hread, extractLsb'_extractLsb', Nat.reduceAdd, Nat.reduceLeDiff, ofNat_be_b2, ofNat_be_b16]
  rw [BitVec.extractLsb'_append_extractLsb'_eq_extractLsb' (start₂ := 24) rfl,
    BitVec.extractLsb'_append_extractLsb'_eq_extractLsb' (start₂ := 16) rfl,
    BitVec.extractLsb'_append_extractLsb'_eq_extractLsb' (start₂ := 8) rfl]

theorem hdrOf_headerBytes (h : Hdr) (pay : List Byte) : hdrOf (headerBytes h ++ pay) = h := by
  obtain ⟨hvertc, hfl⟩ := bitVec_append_eq_iff.mp (rfl : h.ver ++ h.tc ++ h.fl = h.ver ++ h.tc ++ h.fl)
  obtain ⟨hver, htc⟩ := bitVec_append_eq_iff.mp hvertc
  simp only [extractLsb'_extractLsb', Nat.reduceAdd, Nat.reduceLeDiff] at hver htc
  rw [headerBytes_eq, hdrOf_parts, ← hver, ← htc, ← hfl]

/-- Forty bytes are the header bytes of some registers. -/
theorem exists_headerBytes {bs : List Byte} (h : 40 ≤ bs.length) : ∃ hd, bs.take 40 = headerBytes hd := by
  let w : Word := byteAt bs 0 ++ byteAt bs 1 ++ byteAt bs 2 ++ byteAt bs 3
  have hw : w.extractLsb' 28 4 ++ w.extractLsb' 20 8 ++ w.extractLsb' 0 20 = w := by
    rw [BitVec.extractLsb'_append_extractLsb'_eq_extractLsb' (start₂ := 28) rfl,
      BitVec.extractLsb'_append_extractLsb'_eq_extractLsb' (start₂ := 20) rfl]
    exact BitVec.extractLsb'_eq_self
  refine ⟨{ ver := w.extractLsb' 28 4, tc := w.extractLsb' 20 8, fl := w.extractLsb' 0 20
            plen := BitVec.ofNat 16 (be (slice bs 4 2)), nh := byteAt bs 6, hlim := byteAt bs 7
            src := BitVec.ofNat 128 (be (slice bs 8 16)), dst := BitVec.ofNat 128 (be (slice bs 24 16)) }, ?_⟩
  rw [headerBytes_eq, hw, b4_append, b2_ofNat_be (slice_length_of_le (by omega)),
    b16_ofNat_be (slice_length_of_le (by omega)), b16_ofNat_be (slice_length_of_le (by omega)),
    ← slice_four (i := 0) (by omega), ← slice_two (i := 6) (by omega), slice_append_slice bs 0,
    slice_append_slice bs 0, slice_append_slice bs 0, slice_append_slice bs 0, slice_zero]

theorem headerBytes_hdrOf {bs : List Byte} (h : 40 ≤ bs.length) : headerBytes (hdrOf bs) = bs.take 40 := by
  obtain ⟨hd, hhd⟩ := exists_headerBytes h
  conv_lhs => rw [← List.take_append_drop 40 bs, hhd, hdrOf_headerBytes]
  exact hhd.symm

/-- Settles O28: the registers cut the header's parts, and the parts make up the header. -/
theorem headerBytesAndRegistersAgree : Obligations.HeaderBytesAndRegistersAgree :=
  ⟨fun h => by rw [headerBytes_eq, b4_firstWord], hdrOf_headerBytes, fun _ => headerBytes_hdrOf⟩

end Sys2Proof.Machine
end

section
/-! SUPPORT. The 802.15.4 frame classifier: reading a header of MAC registers gives them back, and what is read is the
header (30_encoding.md R110 to R113, 41_mac.md R190, R191). -/

namespace Sys2Proof.Machine

@[ext] theorem MacRegs.ext {a b : MacRegs} (ftype : a.ftype = b.ftype) (sec : a.sec = b.sec) (pend : a.pend = b.pend)
    (ar : a.ar = b.ar) (panc : a.panc = b.panc) (dmode : a.dmode = b.dmode) (fver : a.fver = b.fver)
    (smode : a.smode = b.smode) (seq : a.seq = b.seq) (dpan : a.dpan = b.dpan) (span : a.span = b.span)
    (daddr : a.daddr = b.daddr) (saddr : a.saddr = b.saddr) (hlen : a.hlen = b.hlen) : a = b := by
  cases a
  cases b
  simp_all

/-! ## Addresses by mode (30_encoding.md R112, R113) -/

theorem addrMode_cases (mode : BitVec 2) : mode = 0 ∨ mode = 1 ∨ mode = 2 ∨ mode = 3 := by
  revert mode
  decide

theorem alen_le (mode : BitVec 2) : alen mode ≤ 8 := by
  revert mode
  decide

/-- An address that fits its mode fits the bytes the mode has. -/
theorem addr_lt_alen {mode : BitVec 2} {a : DWord} (h0 : mode ≠ 0) (h1 : mode ≠ 1) (h2 : mode = 2 → a.toNat < 65536) :
    a.toNat < 256 ^ alen mode := by
  obtain rfl | rfl | rfl | rfl := addrMode_cases mode
  · exact absurd rfl h0
  · exact absurd rfl h1
  · exact h2 rfl
  · exact a.isLt

theorem ofNat_le_leBytes {w n : Nat} {v : BitVec w} (h : v.toNat < 256 ^ n) :
    BitVec.ofNat w (le (leBytes n v.toNat)) = v := by
  rw [le_leBytes, Nat.mod_eq_of_lt h, BitVec.ofNat_toNat, BitVec.setWidth_eq]

/-- The bytes of a field that was read little-endian into a register wide enough. -/
theorem leBytes_ofNat_le_slice {w i n : Nat} {bs : List Byte} (h : i + n ≤ bs.length) (hw : 8 * n ≤ w) :
    leBytes n (BitVec.ofNat w (le (slice bs i n))).toNat = slice bs i n := by
  have hn := slice_length_of_le h
  have hlt : le (slice bs i n) < 2 ^ w := calc
    le (slice bs i n) < 2 ^ (8 * n) := by simpa [hn, Nat.pow_mul] using le_lt (slice bs i n)
    _ ≤ 2 ^ w := Nat.pow_le_pow_right (by decide) hw
  rw [BitVec.toNat_ofNat, Nat.mod_eq_of_lt hlt, leBytes_le hn]

/-- A two-byte address field is below `2^16` whatever register it goes to. -/
theorem ofNat_le_slice_lt (w : Nat) (bs : List Byte) (i : Nat) :
    (BitVec.ofNat w (le (slice bs i 2))).toNat < 65536 := by
  have hlen : (slice bs i 2).length ≤ 2 := by rw [slice_length]; omega
  calc (BitVec.ofNat w (le (slice bs i 2))).toNat
    _ ≤ le (slice bs i 2) := by rw [BitVec.toNat_ofNat]; exact Nat.mod_le _ _
    _ < 256 ^ (slice bs i 2).length := le_lt _
    _ ≤ 256 ^ 2 := Nat.pow_le_pow_right (by decide) hlen

/-! ## The parts of a header -/

/-- The bytes a frame control gives to the destination and to the source, each with its PAN id where it has one. -/
def macDstLen (f : Fcf) : Nat := if f.dmode ≠ 0 then 2 + alen f.dmode else 0
def macSrcLen (f : Fcf) : Nat := if f.smode ≠ 0 then (if f.panc = 1 then 0 else 2) + alen f.smode else 0

theorem macHlen_eq (f : Fcf) : macHlen f = 3 + macDstLen f + macSrcLen f := rfl

theorem macHlen_lt (f : Fcf) : macHlen f < 256 := by
  have hd := alen_le f.dmode
  have hs := alen_le f.smode
  unfold macHlen
  split_ifs <;> omega

section
variable {f : Fcf}

theorem macDstLen_of_dst (hd : f.dmode ≠ 0) : macDstLen f = 2 + alen f.dmode := if_pos hd
theorem macDstLen_of_no_dst (hd : f.dmode = 0) : macDstLen f = 0 := if_neg (not_not.mpr hd)
theorem macSrcLen_of_shared_pan (hs : f.smode ≠ 0) (hp : f.panc = 1) : macSrcLen f = alen f.smode := by
  rw [macSrcLen, if_pos hs, if_pos hp, Nat.zero_add]
theorem macSrcLen_of_own_pan (hs : f.smode ≠ 0) (hp : f.panc ≠ 1) : macSrcLen f = 2 + alen f.smode := by
  rw [macSrcLen, if_pos hs, if_neg hp]
theorem macSrcLen_of_no_src (hs : f.smode = 0) : macSrcLen f = 0 := if_neg (not_not.mpr hs)
end

/-- The destination and the source fields of a header. -/
def macDst (m : MacRegs) : List Byte :=
  if m.dmode = 0 then [] else leBytes 2 m.dpan.toNat ++ leBytes (alen m.dmode) m.daddr.toNat
def macSrc (m : MacRegs) : List Byte :=
  if m.smode = 0 then []
  else (if m.panc = 1 then [] else leBytes 2 m.span.toNat) ++ leBytes (alen m.smode) m.saddr.toNat

section
variable {m : MacRegs}

theorem macDst_of_dst (hd : m.dmode ≠ 0) :
    macDst m = leBytes 2 m.dpan.toNat ++ leBytes (alen m.dmode) m.daddr.toNat := if_neg hd
theorem macDst_of_no_dst (hd : m.dmode = 0) : macDst m = [] := if_pos hd
theorem macSrc_of_shared_pan (hs : m.smode ≠ 0) (hp : m.panc = 1) :
    macSrc m = leBytes (alen m.smode) m.saddr.toNat := by rw [macSrc, if_neg hs, if_pos hp, List.nil_append]
theorem macSrc_of_own_pan (hs : m.smode ≠ 0) (hp : m.panc ≠ 1) :
    macSrc m = leBytes 2 m.span.toNat ++ leBytes (alen m.smode) m.saddr.toNat := by rw [macSrc, if_neg hs, if_neg hp]
theorem macSrc_of_no_src (hs : m.smode = 0) : macSrc m = [] := if_pos hs
end

theorem leBytes_half (h : Half) : leBytes 2 h.toNat = [h.extractLsb' 0 8, h.extractLsb' 8 8] := by
  have hlow : BitVec.ofNat 8 h.toNat = h.extractLsb' 0 8 := rfl
  have hhigh : BitVec.ofNat 8 (h.toNat / 256) = h.extractLsb' 8 8 := ofNat_div_eq_extractLsb' h 1
  rw [leBytes, leBytes, leBytes, hlow, hhigh]

section
variable (m : MacRegs) (rsv : BitVec 3)

theorem macHeader_eq :
    macHeader m rsv = leBytes 2 (encodeFcf (fcfWith m rsv)).toNat ++ ([m.seq] ++ (macDst m ++ macSrc m)) := by
  rw [leBytes_half, ← List.append_assoc [m.seq]]
  exact List.append_assoc _ _ _

theorem macDst_length : (macDst m).length = macDstLen (fcfWith m rsv) := by
  by_cases hd : m.dmode = 0
  · rw [macDst_of_no_dst hd, macDstLen_of_no_dst hd, List.length_nil]
  · rw [macDst_of_dst hd, macDstLen_of_dst hd, List.length_append, leBytes_length, leBytes_length]
    rfl

theorem macSrc_length : (macSrc m).length = macSrcLen (fcfWith m rsv) := by
  by_cases hs : m.smode = 0
  · rw [macSrc_of_no_src hs, macSrcLen_of_no_src hs, List.length_nil]
  by_cases hp : m.panc = 1
  · rw [macSrc_of_shared_pan hs hp, macSrcLen_of_shared_pan hs hp, leBytes_length]
    rfl
  · rw [macSrc_of_own_pan hs hp, macSrcLen_of_own_pan hs hp, List.length_append, leBytes_length, leBytes_length]
    rfl

/-- The declared header length is the length of the header (30_encoding.md R112). -/
theorem macHeader_length : (macHeader m rsv).length = macHlen (fcfWith m rsv) := by
  simp only [macHeader_eq, List.length_append, leBytes_length, macDst_length m rsv, macSrc_length m rsv, macHlen_eq,
    List.length_singleton]
  omega
end

/-! ## What is read, register by register (41_mac.md R190) -/

section
variable {f : Fcf} (fb : List Byte)

theorem macFields_of_dst (hd : f.dmode ≠ 0) :
    (macFields f fb).dpan = BitVec.ofNat 16 (le (slice fb 3 2))
      ∧ (macFields f fb).daddr = BitVec.ofNat 64 (le (slice fb 5 (alen f.dmode))) :=
  ⟨if_pos hd, if_pos hd⟩

theorem macFields_of_no_dst (hd : f.dmode = 0) : (macFields f fb).dpan = 0 ∧ (macFields f fb).daddr = 0 :=
  ⟨if_neg (not_not.mpr hd), if_neg (not_not.mpr hd)⟩

/-- The source fields start where the destination's end. -/
theorem srcStart_eq (f : Fcf) : (if f.dmode ≠ 0 then 3 + 2 + alen f.dmode else 3) = 3 + macDstLen f := by
  unfold macDstLen
  split_ifs <;> omega

theorem macFields_of_shared_pan (hs : f.smode ≠ 0) (hp : f.panc = 1) :
    (macFields f fb).span = (macFields f fb).dpan
      ∧ (macFields f fb).saddr = BitVec.ofNat 64 (le (slice fb (3 + macDstLen f) (alen f.smode))) := by
  have hpan : ¬ (f.smode ≠ 0 ∧ f.panc ≠ 1) := fun h => h.2 hp
  simp only [macFields, srcStart_eq, if_pos hs, if_pos hp, if_neg hpan, and_self]

theorem macFields_of_own_pan (hs : f.smode ≠ 0) (hp : f.panc ≠ 1) :
    (macFields f fb).span = BitVec.ofNat 16 (le (slice fb (3 + macDstLen f) 2))
      ∧ (macFields f fb).saddr = BitVec.ofNat 64 (le (slice fb (3 + macDstLen f + 2) (alen f.smode))) := by
  have hpan : f.smode ≠ 0 ∧ f.panc ≠ 1 := ⟨hs, hp⟩
  simp only [macFields, srcStart_eq, if_pos hs, if_neg hp, if_pos hpan, and_self]

theorem macFields_of_no_src (hs : f.smode = 0) : (macFields f fb).span = 0 ∧ (macFields f fb).saddr = 0 :=
  ⟨if_neg (not_not.mpr hs), if_neg (not_not.mpr hs)⟩

theorem fcfWith_macFields : fcfWith (macFields f fb) f.rsv = f := rfl

theorem macFields_hlen : (macFields f fb).hlen.toNat = macHlen f := Nat.mod_eq_of_lt (macHlen_lt f)
end

/-! ## From the registers to the bytes and back -/

/-- A little-endian field that stands at a place of a frame is read there. -/
theorem ofNat_le_slice {w n i : Nat} {v : BitVec w} {fb front rest : List Byte}
    (hfb : fb = front ++ (leBytes n v.toNat ++ rest)) (hi : front.length = i) (hv : v.toNat < 256 ^ n) :
    BitVec.ofNat w (le (slice fb i n)) = v := by
  rw [hfb, slice_append hi (leBytes_length _ _), ofNat_le_leBytes hv]

section
variable {m : MacRegs} (rsv : BitVec 3) (pay : List Byte)

theorem fcfOf_macHeader : fcfOf (macHeader m rsv ++ pay) = fcfWith m rsv := by
  have hfcf : macHeader m rsv ++ pay = [] ++ (leBytes 2 (encodeFcf (fcfWith m rsv)).toNat
      ++ ([m.seq] ++ (macDst m ++ macSrc m) ++ pay)) := by
    rw [macHeader_eq, List.append_assoc, List.nil_append]
  rw [fcfOf, ofNat_le_slice (i := 0) hfcf rfl (BitVec.isLt _)]
  exact encodeFcf_eq_iff.mp rfl

/-- A frame as its first three bytes, its destination, and what follows. -/
theorem macHeader_append_dst : ∃ front, front.length = 3
    ∧ macHeader m rsv ++ pay = front ++ (macDst m ++ (macSrc m ++ pay)) :=
  ⟨leBytes 2 (encodeFcf (fcfWith m rsv)).toNat ++ [m.seq], by simp, by simp only [macHeader_eq, List.append_assoc]⟩

/-- A frame as what stands before its source, its source, and the payload. -/
theorem macHeader_append_src : ∃ front, front.length = 3 + macDstLen (fcfWith m rsv)
    ∧ macHeader m rsv ++ pay = front ++ (macSrc m ++ pay) := by
  obtain ⟨front, hlen, hfront⟩ := macHeader_append_dst (m := m) rsv pay
  exact ⟨front ++ macDst m, by rw [List.length_append, hlen, macDst_length m rsv], by rw [hfront, List.append_assoc]⟩

theorem macFields_dst_macHeader (hm : macConsistent m) :
    (macFields (fcfWith m rsv) (macHeader m rsv ++ pay)).dpan = m.dpan
      ∧ (macFields (fcfWith m rsv) (macHeader m rsv ++ pay)).daddr = m.daddr := by
  obtain ⟨hd1, -, -, hd0, hd2, -⟩ := hm
  obtain ⟨front, hlen, hfront⟩ := macHeader_append_dst (m := m) rsv pay
  by_cases hd : m.dmode = 0
  · obtain ⟨hpan, haddr⟩ := macFields_of_no_dst (f := fcfWith m rsv) (macHeader m rsv ++ pay) hd
    exact ⟨hpan.trans (hd0 hd).1.symm, haddr.trans (hd0 hd).2.symm⟩
  · obtain ⟨hpan, haddr⟩ := macFields_of_dst (f := fcfWith m rsv) (macHeader m rsv ++ pay) hd
    rw [macDst_of_dst hd, List.append_assoc] at hfront
    exact ⟨hpan.trans (ofNat_le_slice hfront hlen m.dpan.isLt),
      haddr.trans (ofNat_le_slice (hfront.trans (List.append_assoc _ _ _).symm) (by simp [hlen])
        (addr_lt_alen hd hd1 hd2))⟩

theorem macFields_src_macHeader (hm : macConsistent m) :
    (macFields (fcfWith m rsv) (macHeader m rsv ++ pay)).span = m.span
      ∧ (macFields (fcfWith m rsv) (macHeader m rsv ++ pay)).saddr = m.saddr := by
  obtain ⟨hdpan, -⟩ := macFields_dst_macHeader rsv pay hm
  obtain ⟨-, hs1, -, -, -, hs0, hs2, hspan, -⟩ := hm
  obtain ⟨front, hlen, hfront⟩ := macHeader_append_src (m := m) rsv pay
  by_cases hs : m.smode = 0
  · obtain ⟨hpan, haddr⟩ := macFields_of_no_src (f := fcfWith m rsv) (macHeader m rsv ++ pay) hs
    exact ⟨hpan.trans (hs0 hs).1.symm, haddr.trans (hs0 hs).2.symm⟩
  by_cases hp : m.panc = 1
  · obtain ⟨hpan, haddr⟩ := macFields_of_shared_pan (f := fcfWith m rsv) (macHeader m rsv ++ pay) hs hp
    rw [macSrc_of_shared_pan hs hp] at hfront
    exact ⟨(hpan.trans hdpan).trans (hspan hp).symm,
      haddr.trans (ofNat_le_slice hfront hlen (addr_lt_alen hs hs1 hs2))⟩
  · obtain ⟨hpan, haddr⟩ := macFields_of_own_pan (f := fcfWith m rsv) (macHeader m rsv ++ pay) hs hp
    rw [macSrc_of_own_pan hs hp, List.append_assoc] at hfront
    exact ⟨hpan.trans (ofNat_le_slice hfront hlen m.span.isLt),
      haddr.trans (ofNat_le_slice (hfront.trans (List.append_assoc _ _ _).symm) (by simp [hlen])
        (addr_lt_alen hs hs1 hs2))⟩

theorem macFields_macHeader (hm : macConsistent m) :
    macFields (fcfWith m rsv) (macHeader m rsv ++ pay) = m := by
  obtain ⟨hdpan, hdaddr⟩ := macFields_dst_macHeader rsv pay hm
  obtain ⟨hspan, hsaddr⟩ := macFields_src_macHeader rsv pay hm
  have hhlen : (macFields (fcfWith m rsv) (macHeader m rsv ++ pay)).hlen = m.hlen := by
    obtain ⟨-, -, -, -, -, -, -, -, hhlen⟩ := hm
    apply BitVec.eq_of_toNat_eq
    rw [macFields_hlen, hhlen, macHeader_length]
    rfl
  exact MacRegs.ext rfl rfl rfl rfl rfl rfl rfl rfl rfl hdpan hspan hdaddr hsaddr hhlen
end

/-- What passes the checks of 41_mac.md R195. -/
theorem macError_eq_none {f : Fcf} {len : Nat} : macError f len = none ↔
    f.dmode ≠ 1 ∧ f.smode ≠ 1 ∧ (f.panc = 1 → f.dmode ≠ 0 ∧ f.smode ≠ 0) ∧ macHlen f ≤ len := by
  constructor
  · intro h
    unfold macError at h
    split_ifs at h with h3 hmode hpan hlen
    obtain ⟨hd, hs⟩ := not_or.mp hmode
    exact ⟨hd, hs, fun hp => not_or.mp (not_and.mp hpan hp), not_lt.mp hlen⟩
  · rintro ⟨hd, hs, hpanc, hlen⟩
    have hfront := macHlen_eq f
    have hpan : ¬ (f.panc = 1 ∧ (f.dmode = 0 ∨ f.smode = 0)) := fun h => h.2.elim (hpanc h.1).1 (hpanc h.1).2
    rw [macError, if_neg (by omega), if_neg (not_or.mpr ⟨hd, hs⟩), if_neg hpan, if_neg (by omega)]

theorem macError_macHeader {m : MacRegs} (rsv : BitVec 3) (pay : List Byte) (hm : macConsistent m) :
    macError (fcfWith m rsv) (macHeader m rsv ++ pay).length = none := by
  obtain ⟨hd1, hs1, hpanc, -⟩ := hm
  refine macError_eq_none.mpr ⟨hd1, hs1, hpanc, ?_⟩
  rw [List.length_append, macHeader_length]
  exact Nat.le_add_right _ _

/-! ## From the bytes to the registers and back -/

section
variable {f : Fcf} {fb : List Byte}

theorem macDst_macFields (h : macHlen f ≤ fb.length) : macDst (macFields f fb) = slice fb 3 (macDstLen f) := by
  have hlen := macHlen_eq f
  have halen := alen_le f.dmode
  by_cases hd : f.dmode = 0
  · exact (macDst_of_no_dst hd).trans (by rw [macDstLen_of_no_dst hd]; rfl)
  · obtain ⟨hpan, haddr⟩ := macFields_of_dst fb hd
    rw [macDstLen_of_dst hd] at hlen ⊢
    rw [macDst_of_dst hd, hpan, haddr, ← slice_append_slice]
    exact congrArg₂ _ (leBytes_ofNat_le_slice (by omega) (by decide))
      (leBytes_ofNat_le_slice (n := alen f.dmode) (by omega) (by omega))

theorem macSrc_macFields (h : macHlen f ≤ fb.length) :
    macSrc (macFields f fb) = slice fb (3 + macDstLen f) (macSrcLen f) := by
  have hlen := macHlen_eq f
  have halen := alen_le f.smode
  by_cases hs : f.smode = 0
  · exact (macSrc_of_no_src hs).trans (by rw [macSrcLen_of_no_src hs]; rfl)
  by_cases hp : f.panc = 1
  · obtain ⟨-, haddr⟩ := macFields_of_shared_pan fb hs hp
    rw [macSrcLen_of_shared_pan hs hp] at hlen ⊢
    rw [macSrc_of_shared_pan hs hp, haddr]
    exact leBytes_ofNat_le_slice (n := alen f.smode) (by omega) (by omega)
  · obtain ⟨hpan, haddr⟩ := macFields_of_own_pan fb hs hp
    rw [macSrcLen_of_own_pan hs hp] at hlen ⊢
    rw [macSrc_of_own_pan hs hp, hpan, haddr, ← slice_append_slice]
    exact congrArg₂ _ (leBytes_ofNat_le_slice (by omega) (by decide))
      (leBytes_ofNat_le_slice (n := alen f.smode) (by omega) (by omega))

/-- The header of what was read is the bytes it was read from. -/
theorem macHeader_macFields (hf : f = fcfOf fb) (h : macHlen f ≤ fb.length) :
    macHeader (macFields f fb) f.rsv = slice fb 0 (macHlen f) := by
  have hlen := macHlen_eq f
  have hfcf : leBytes 2 (encodeFcf f).toNat = slice fb 0 2 := by
    rw [encodeFcf_eq_iff.mpr hf.symm]
    exact leBytes_ofNat_le_slice (by omega) (by decide)
  have hseq : [(macFields f fb).seq] = slice fb (0 + 2) 1 := (slice_one (by omega)).symm
  rw [macHeader_eq, fcfWith_macFields, hfcf, hseq, macDst_macFields h, macSrc_macFields h, slice_append_slice,
    slice_append_slice fb (0 + 2), slice_append_slice fb 0, hlen]
  congr 1
  omega

theorem macFields_consistent (hok : macError f fb.length = none) : macConsistent (macFields f fb) := by
  obtain ⟨hd1, hs1, hpanc, hlen⟩ := macError_eq_none.mp hok
  have hdshort (hd : f.dmode = 2) : (macFields f fb).daddr.toNat < 65536 := by
    rw [(macFields_of_dst fb (by rw [hd]; decide)).2, hd]
    exact ofNat_le_slice_lt 64 fb 5
  have hsshort (hs : f.smode = 2) : (macFields f fb).saddr.toNat < 65536 := by
    have hs0 : f.smode ≠ 0 := by rw [hs]; decide
    by_cases hp : f.panc = 1
    · rw [(macFields_of_shared_pan fb hs0 hp).2, hs]
      exact ofNat_le_slice_lt 64 fb _
    · rw [(macFields_of_own_pan fb hs0 hp).2, hs]
      exact ofNat_le_slice_lt 64 fb _
  have hhlen : (macFields f fb).hlen.toNat = (macHeader (macFields f fb) 0).length := by
    rw [macFields_hlen, macHeader_length]
    rfl
  exact ⟨hd1, hs1, hpanc, macFields_of_no_dst fb, hdshort, macFields_of_no_src fb, hsshort,
    fun hp => (macFields_of_shared_pan fb (hpanc hp).2 hp).1, hhlen⟩
end

/-! ## The classifier -/

theorem macClassify_macHeader {s : State} {m : MacRegs} {rsv : BitVec 3} {pay : List Byte} (hm : macConsistent m)
    (hfb : s.fb.bytes = macHeader m rsv ++ pay) :
    macClassify (fcfWith m rsv) s = .next { s with
      mac := m, status := 0
      attr := (s.attr.set 0 { valid := true, value := m.ftype.setWidth 32 }).set 1
        { valid := true, value := m.hlen.setWidth 32 } } := by
  have hok : macError (fcfWith m rsv) s.fb.len = none := by
    rw [← Memory.bytes_length, hfb]
    exact macError_macHeader rsv pay hm
  have hhlen : BitVec.ofNat 32 (macHlen (fcfWith m rsv)) = m.hlen.setWidth 32 := by
    obtain ⟨-, -, -, -, -, -, -, -, hhlen⟩ := hm
    have hlen : macHlen (fcfWith m rsv) = m.hlen.toNat := (hhlen.trans (macHeader_length m 0)).symm
    rw [hlen, BitVec.ofNat_toNat]
  obtain ⟨e, he, -⟩ | ⟨-, h⟩ := macClassify_cases (fcfWith m rsv) s
  · cases hok.symm.trans he
  · rw [h, hhlen, hfb, macFields_macHeader rsv pay hm]
    rfl

/-- No fatal error leaves `STATUS` 0 (60_exceptions.md R400). -/
theorem Err.status_ne_zero (e : Err) : e.status ≠ 0 := by
  have hcode : 0 < e.kind.code ∧ e.kind.code < 128 := by cases e.kind <;> decide
  intro h
  have hnat := statusWord_toNat e.off hcode.2
  have hzero : (0 : Word).toNat = 0 := rfl
  rw [← Err.status_eq_statusWord, h, hzero] at hnat
  omega

theorem macClassify_success {s s' : State} {f : Fcf} (h : macClassify f s = .next s') (hs : s'.status = 0) :
    macError f s.fb.len = none ∧ s'.mac = macFields f s.fb.bytes := by
  obtain ⟨e, he, h'⟩ | ⟨hok, h'⟩ := macClassify_cases f s
  · obtain rfl := raise_eq_next.mp (h'.symm.trans h)
    exact absurd hs e.status_ne_zero
  · obtain rfl := done_eq_next.mp (h'.symm.trans h)
    exact ⟨hok, rfl⟩

/-- Settles O23: what the classifier reads of a header is the registers, and the header of what it reads is the frame's
own first bytes. -/
theorem macParseReadsTheHeader : Obligations.MacParseReadsTheHeader := by
  constructor
  · intro s m rsv pay hm hfb
    have hclassify := macClassify_macHeader hm hfb
    refine ⟨?_, hclassify⟩
    have hfcf : fcfOf s.fb.bytes = fcfWith m rsv := by rw [hfb, fcfOf_macHeader]
    exact (congrArg (macClassify · s) hfcf).trans hclassify
  · intro s s' h hs
    obtain ⟨hok, hmac⟩ := macClassify_success h hs
    rw [← Memory.bytes_length] at hok
    obtain ⟨-, -, -, hlen⟩ := macError_eq_none.mp hok
    rw [hmac]
    refine ⟨macFields_consistent hok, (fcfOf s.fb.bytes).rsv, s.fb.bytes.drop (macHlen (fcfOf s.fb.bytes)), ?_⟩
    rw [macHeader_macFields rfl hlen, slice_zero_append_drop]

end Sys2Proof.Machine
end

section
/-! SUPPORT. The TCP parser on a segment (44_chain.md R264) and its first option (30_encoding.md R124). -/

namespace Sys2Proof.Machine

/-! ## Checksums and reports -/

/-- A segment verifies where the recomputed checksum is the field's value (42_checksum.md R214). -/
theorem verifies_eq {src dst : Addr} {nh : Byte} {seg : List Byte} {k : Nat} (hk : k + 1 < seg.length) :
    verifies src dst nh seg k = (transportCk src dst nh seg k == h16 seg k) := by
  have hfield : be (slice seg k 2) = (h16 seg k).toNat := by
    rw [← half_eq_h16 hk, half, toNat_ofNat_be (n := 2) rfl (slice_length_of_le (by omega))]
  rw [verifies, hfield, Bool.eq_iff_iff, beq_iff_eq, beq_iff_eq, BitVec.toNat_inj]

theorem reportStatus_ckReport (ok : Bool) (off : Nat) : reportStatus (ckReport ok off) = ckStatus ok off := by
  cases ok
  · exact reportStatus_some _
  · rfl

/-! ## The TCP segment -/

/-- The TCP node of a well-formed segment, the value of its first option given by `opt` (44_chain.md R264). -/
theorem parseTcp_eq {x : ParseCtx} {opt : List Byte → Option Half} {c fin : Nat} {seg : List Byte}
    (hseg : slice x.pb c (fin - c) = seg) (hlen : seg.length = fin - c) (h20 : 20 ≤ seg.length)
    (hdoff : 5 ≤ (tcpDoff seg).toNat) (hopts : 4 * (tcpDoff seg).toNat ≤ seg.length) :
    let ok := transportCk x.src x.dst 6 seg 16 == h16 seg 16
    parseTcp x opt c fin
      = .ok (tcpNode seg (BitVec.ofNat 16 c) (if 6 ≤ (tcpDoff seg).toNat then (opt seg).getD 0 else 0) ok, fin,
          ckReport ok (c + 16)) := by
  intro ok
  have hdoff' : (byteAt seg 12).extractLsb' 4 4 = tcpDoff seg := rfl
  have hmss : 4 * (tcpDoff seg).toNat ≥ 24 ↔ 6 ≤ (tcpDoff seg).toNat := by omega
  have hpay : slice seg (4 * (tcpDoff seg).toNat) (fin - c - 4 * (tcpDoff seg).toNat)
      = seg.drop (4 * (tcpDoff seg).toNat) := slice_to_end (by omega)
  simp only [parseTcp, hseg, hdoff']
  rw [if_neg (by omega), if_neg (by omega), if_neg (by omega)]
  simp (disch := omega) only [verifies_eq, half_eq_h16, word_eq_h32, hmss, hpay]
  rfl

/-! ## Dispatching the payload -/

section
variable {s : State}

theorem rest_length (hat : s.atPayload) : s.rest.length = s.payEnd - s.cur.toNat := by
  obtain ⟨hend, hlow, hhigh⟩ := hat
  have hpay : s.payEnd = 40 + s.hdr.plen.toNat := rfl
  exact slice_length_of_le (by rw [Memory.bytes_length]; omega)

/-- With the cursor in the payload and the payload in PB, parsing is the dispatch loop (44_chain.md R260). -/
theorem parseChain_of_atPayload (hat : s.atPayload) (opt : List Byte → Option Half) (nh : Byte) :
    parseChain opt nh s
      = chainLoop ⟨s.pb.bytes, s.hdr.src, s.hdr.dst⟩ opt s.payEnd s.par.chainMax s.cur.toNat nh := by
  obtain ⟨hend, hlow, hhigh⟩ := hat
  have hpay : s.payEnd = 40 + s.hdr.plen.toNat := rfl
  obtain ⟨h, -⟩ | ⟨-, h, -⟩ | ⟨-, -, -, h⟩ := parseChain_cases opt nh s
  · omega
  · omega
  · exact h

theorem dispatch_of_parseChain {opt : List Byte → Option Half} {nh : Byte} {l : List Node} {c : Nat} {w : Option Report}
    (h : parseChain opt nh s = .ok (l, c, w)) :
    dispatch opt nh s = parsed l c (reportStatus w) (Config.freeAcc s.draws) (s.draws + 1) s := by
  rw [dispatch, h]
  rfl

/-- A well-formed TCP segment at the cursor gives its node and ends the parse (44_chain.md R264). -/
theorem dispatch_tcp (hat : s.atPayload) (hmax : 1 ≤ s.par.chainMax) (opt : List Byte → Option Half)
    (h20 : 20 ≤ s.rest.length) (hdoff : 5 ≤ (tcpDoff s.rest).toNat)
    (hopts : 4 * (tcpDoff s.rest).toNat ≤ s.rest.length) :
    dispatch opt Variant.tcp.disp s
      = parsed [tcpNode s.rest s.cur (if 6 ≤ (tcpDoff s.rest).toNat then (opt s.rest).getD 0 else 0)
          (s.ckGood 6 s.rest 16)] s.payEnd (ckStatus (s.ckGood 6 s.rest 16) (s.cur.toNat + 16))
          (Config.freeAcc s.draws) (s.draws + 1) s := by
  have hparse := parseTcp_eq (x := ⟨s.pb.bytes, s.hdr.src, s.hdr.dst⟩) (opt := opt) rfl (rest_length hat) h20 hdoff
    hopts
  obtain ⟨room, hroom⟩ := Nat.exists_eq_add_of_le' hmax
  have hchain := parseChain_of_atPayload hat opt Variant.tcp.disp
  rw [hroom, chainLoop_succ, variantOf_eq_some.mpr rfl] at hchain
  simp only [hparse, terminal] at hchain
  rw [dispatch_of_parseChain hchain, reportStatus_ckReport, BitVec.ofNat_toNat, BitVec.setWidth_eq]
  rfl
end

/-! ## The MSS option -/

/-- The option's four bytes (30_encoding.md R124). -/
theorem b4_encodeMss (mss : Half) : b4 (encodeMss mss) = [2, 4] ++ b2 mss := b4_append_halves 0x0204 mss

theorem firstMss_of_bytes {seg : List Byte} {mss : Half} (h : (seg.drop 20).take 4 = [2, 4] ++ b2 mss) :
    firstMss seg = some mss := by
  have hword : word seg 20 = encodeMss mss := by rw [word, slice, h, ← b4_encodeMss, ofNat_be_b4]
  exact encodeMss_eq_iff.mp hword.symm

/-- Settles O42: the unit is the TCP parser with the option given, and the TCP unit reads the same option. -/
theorem mssOptionSetsTheMss : Obligations.MssOptionSetsTheMss := by
  intro s mss hat hmax seg ok h24 hdoff hopts
  have htcp (opt) := dispatch_tcp hat hmax opt (le_trans (by decide) h24) (le_trans (by decide) hdoff) hopts
  simp only [if_pos (show 6 ≤ (tcpDoff s.rest).toNat from hdoff)] at htcp
  refine ⟨⟨_, _, htcp fun _ => some mss⟩, fun hbytes => ?_⟩
  have hfirst : firstMss s.rest = some mss := firstMss_of_bytes hbytes
  exact (htcp fun _ => some mss).trans ((htcp firstMss).trans (by rw [hfirst])).symm

end Sys2Proof.Machine
end

section
/-! SUPPORT. The compressed UDP header (30_encoding.md R139, R140; 46_hc06_decompress.md R330 to R332): each reader on
the bytes it reads. -/

namespace Sys2Proof.Machine

/-! ## Reading a field where it stands -/

section
variable {fb bs rest : List Byte} {p n : Nat}

/-- Taking the field that stands at `p` gives its bytes, and what follows stands behind it. -/
theorem take_of_drop (h : fb.drop p = bs ++ rest) (hn : bs.length = n) (hpos : 0 < n) :
    take fb p n = .ok (bs, p + n) ∧ fb.drop (p + n) = rest := by
  have hlen : fb.length - p = bs.length + rest.length := by rw [← List.length_drop, h, List.length_append]
  have hslice : slice fb p n = bs := by rw [slice, h, ← hn, List.take_left]
  refine ⟨by rw [take, if_neg (by omega), hslice], ?_⟩
  rw [← List.drop_drop, h, ← hn, List.drop_left]
end

theorem bytes_join (h : Half) : h.extractLsb' 8 8 ++ h.extractLsb' 0 8 = h := by
  rw [BitVec.extractLsb'_append_extractLsb'_eq_extractLsb' (start₂ := 8) rfl]
  exact BitVec.extractLsb'_eq_self

theorem nibble_join (h : Half) : h.extractLsb' 4 12 ++ h.extractLsb' 0 4 = h := by
  rw [BitVec.extractLsb'_append_extractLsb'_eq_extractLsb' (start₂ := 4) rfl]
  exact BitVec.extractLsb'_eq_self

section
variable {fb t : List Byte} {p q n : Nat}

theorem takePorts_inline (h : take fb p 4 = .ok (t, q)) :
    takePorts fb 0 p = .ok ((byteAt t 0 ++ byteAt t 1, byteAt t 2 ++ byteAt t 3), q) := by
  rw [takePorts, if_pos rfl, h]

theorem takePorts_shortDest (h : take fb p 3 = .ok (t, q)) :
    takePorts fb 1 p = .ok ((byteAt t 0 ++ byteAt t 1, 0xF0#8 ++ byteAt t 2), q) := by
  rw [takePorts, if_neg (by decide), if_pos rfl, h]

theorem takePorts_shortSource (h : take fb p 3 = .ok (t, q)) :
    takePorts fb 2 p = .ok ((0xF0#8 ++ byteAt t 0, byteAt t 1 ++ byteAt t 2), q) := by
  rw [takePorts, if_neg (by decide), if_neg (by decide), if_pos rfl, h]

theorem takePorts_nibbles (h : take fb p 1 = .ok (t, q)) :
    takePorts fb 3 p
      = .ok ((0xF0B#12 ++ (byteAt t 0).extractLsb' 4 4, 0xF0B#12 ++ (byteAt t 0).extractLsb' 0 4), q) := by
  rw [takePorts, if_neg (by decide), if_neg (by decide), if_neg (by decide), h]
end

/-- The ports of each form, from their inline bytes (30_encoding.md R140). -/
theorem takePorts_of_drop {fb rest : List Byte} {pp : BitVec 2} {sp dp : Half} {p : Nat}
    (h : fb.drop p = portBytes pp sp dp ++ rest) (hfit : portsFit pp sp dp) :
    ∃ q, takePorts fb pp p = .ok ((sp, dp), q) ∧ fb.drop q = rest := by
  obtain ⟨h1, h2, h3⟩ := hfit
  obtain rfl | rfl | rfl | rfl := addrMode_cases pp
  · obtain ⟨ht, hrest⟩ := take_of_drop (n := 4) h rfl (by decide)
    have hsp : byteAt (portBytes 0 sp dp) 0 ++ byteAt (portBytes 0 sp dp) 1 = sp := bytes_join sp
    have hdp : byteAt (portBytes 0 sp dp) 2 ++ byteAt (portBytes 0 sp dp) 3 = dp := bytes_join dp
    exact ⟨p + 4, (takePorts_inline ht).trans (by rw [hsp, hdp]), hrest⟩
  · obtain ⟨ht, hrest⟩ := take_of_drop (n := 3) h rfl (by decide)
    have hsp : byteAt (portBytes 1 sp dp) 0 ++ byteAt (portBytes 1 sp dp) 1 = sp := bytes_join sp
    have hdp : 0xF0#8 ++ byteAt (portBytes 1 sp dp) 2 = dp := h1 rfl ▸ bytes_join dp
    exact ⟨p + 3, (takePorts_shortDest ht).trans (by rw [hsp, hdp]), hrest⟩
  · obtain ⟨ht, hrest⟩ := take_of_drop (n := 3) h rfl (by decide)
    have hsp : 0xF0#8 ++ byteAt (portBytes 2 sp dp) 0 = sp := h2 rfl ▸ bytes_join sp
    have hdp : byteAt (portBytes 2 sp dp) 1 ++ byteAt (portBytes 2 sp dp) 2 = dp := bytes_join dp
    exact ⟨p + 3, (takePorts_shortSource ht).trans (by rw [hsp, hdp]), hrest⟩
  · obtain ⟨ht, hrest⟩ := take_of_drop (n := 1) h rfl (by decide)
    obtain ⟨hs, hd⟩ := h3 rfl
    have hhigh : (byteAt (portBytes 3 sp dp) 0).extractLsb' 4 4 = sp.extractLsb' 0 4 :=
      BitVec.extractLsb'_append_eq_left
    have hlow : (byteAt (portBytes 3 sp dp) 0).extractLsb' 0 4 = dp.extractLsb' 0 4 :=
      BitVec.extractLsb'_append_eq_right
    have hsp : 0xF0B#12 ++ sp.extractLsb' 0 4 = sp := hs ▸ nibble_join sp
    have hdp : 0xF0B#12 ++ dp.extractLsb' 0 4 = dp := hd ▸ nibble_join dp
    exact ⟨p + 1, (takePorts_nibbles ht).trans (by rw [hhigh, hlow, hsp, hdp]), hrest⟩

/-- The checksum, where it is carried (30_encoding.md R139). -/
theorem takeCk_of_drop {fb rest : List Byte} {c : Bool} {ck : Half} {p : Nat}
    (h : fb.drop p = (if c then [] else b2 ck) ++ rest) :
    ∃ q, takeCk fb c p = .ok (if c then none else some ck, q) ∧ fb.drop q = rest := by
  cases c
  · obtain ⟨ht, hrest⟩ := take_of_drop (bs := b2 ck) (n := 2) h rfl (by decide)
    exact ⟨p + 2, by simp [takeCk, ht], hrest⟩
  · exact ⟨p, rfl, h⟩

/-- Writing the checksum of a UDP segment puts it behind the length. -/
theorem withCk_udp {front : List Byte} (hfront : front.length = 6) (pay : List Byte) (ck : Half) :
    withCk (front ++ [0, 0] ++ pay) 6 ck = front ++ b2 ck ++ pay := by
  rw [withCk, tobe_half, splice, b2_length, List.append_assoc front, List.take_left' hfront, ← List.append_assoc front,
    List.drop_left' (by simp [hfront])]

/-- A length cut to 16 bits is written as it stands. -/
theorem tobe_two (n : Nat) : tobe 2 n = b2 (BitVec.ofNat 16 n) := by
  have hdiv : n / 65536 * 256 ^ 2 + n % 65536 = n := Nat.div_add_mod' n 65536
  rw [← tobe_half, BitVec.toNat_ofNat, ← tobe_add_mul 2 (n / 65536) (n % 2 ^ 16), hdiv]

/-- The segment rebuilt from a compressed header whose inline fields stand at `p` (46_hc06_decompress.md R331). -/
theorem udpBody_of_drop {fb pay : List Byte} {src dst : Addr} {q : UdpHeader} {p : Nat}
    (h : fb.drop p = portBytes q.form q.sport q.dport ++ ((if q.elided then [] else b2 q.cksum) ++ pay))
    (hfit : portsFit q.form q.sport q.dport) :
    udpBody fb src dst q.elided q.form p = .ok (q.segment src dst pay) := by
  obtain ⟨p1, hports, hdrop1⟩ := takePorts_of_drop h hfit
  obtain ⟨p2, hck, hdrop2⟩ := takeCk_of_drop hdrop1
  simp only [udpBody, hports, hck, hdrop2, tobe_two, BitVec.ofNat_toNat, BitVec.setWidth_eq]
  rw [withCk_udp rfl]
  cases he : q.elided <;> simp [UdpHeader.segment, he]

@[simp] theorem UdpHeader.segment_length (q : UdpHeader) (src dst : Addr) (pay : List Byte) :
    (q.segment src dst pay).length = 8 + pay.length := by
  simp [UdpHeader.segment]
  omega

/-! ## The UDP NHC unit -/

/-- Settles O59: the unit's byte, its ports and its checksum are read in order, and the segment is committed. -/
theorem udpNhcRebuildsTheSegment : Obligations.UdpNhcRebuildsTheSegment := by
  intro s c p sp dp ck pay hfb hfit hcap len front ck' h
  have hoff : unitOffset s = s.tx.arg0.toNat % 65536 := by
    rw [unitOffset, BitVec.extractLsb'_toNat, Nat.shiftRight_zero]
  let q : UdpHeader := { elided := c, form := p, sport := sp, dport := dp, cksum := ck }
  rw [← hoff, List.append_assoc, List.append_assoc] at hfb
  obtain ⟨htake, hrest⟩ := take_of_drop (n := 1) hfb rfl (by decide)
  have hbody : udpBody s.fb.bytes s.hdr.src s.hdr.dst c p (unitOffset s + 1)
      = .ok (q.segment s.hdr.src s.hdr.dst pay) := udpBody_of_drop (q := q) hrest hfit
  have hlen := q.segment_length s.hdr.src s.hdr.dst pay
  have hexec : exec (.wireNhcUdp c p) s
      = hcCommit { s.hdr with ver := 6, nh := 17 } (q.segment s.hdr.src s.hdr.dst pay) none s := by
    change execWireNhcUdp c p s = _
    simp only [execWireNhcUdp, htake, hbody]
  obtain ⟨hbig, -⟩ | ⟨-, hcommit⟩ := hcCommit_cases { s.hdr with ver := 6, nh := 17 }
      (q.segment s.hdr.src s.hdr.dst pay) none s
  · omega
  · have hpb : headerBytes h ++ front ++ b2 ck' ++ pay = headerBytes h ++ q.segment s.hdr.src s.hdr.dst pay := by
      rw [List.append_assoc, List.append_assoc]
      rfl
    refine ⟨Config.freeAcc s.draws, s.draws + 1, hexec.trans (hcommit.trans ?_)⟩
    rw [hpb, hlen]

end Sys2Proof.Machine
end

section
/-! SUPPORT. The Byte Frame commands and the slots of `ATTR` (40_byteframe.md R161 to R171): what an accessor loads and
stores, byte by byte. -/

namespace Sys2Proof.Machine

/-! ## Replacing a buffer -/

theorem done_withBuf (s : State) (b : Buf) (m : Memory) :
    done (s.withBuf b m) = .next ({ s with status := 0 }.withBuf b m) := by cases b <;> rfl

section
variable {s : State} {b : Buf} {n : Half}

theorem execBfSetbytes_of_fits (hdata : s.tx.data.length = n.toNat) (hfits : n.toNat ≤ s.cap b) :
    execBfSetbytes b n s = done (s.withBuf b (Memory.ofBytes s.tx.data)) := by
  rw [execBfSetbytes, dataOf_eq_some.mpr ⟨rfl, hdata⟩]
  exact if_neg (Nat.not_lt.mpr hfits)

theorem execBfSetbytes_of_too_long (hdata : s.tx.data.length = n.toNat) (hlong : s.cap b < n.toNat) :
    execBfSetbytes b n s = failed 1 (s.cap b) s := by
  rw [execBfSetbytes, dataOf_eq_some.mpr ⟨rfl, hdata⟩]
  exact (if_pos hlong).trans (raise_eq_failed _ s)
end

/-- Settles O19: the new contents are the canonical memory of the data. -/
theorem bfSetbytesReplacesTheContents : Obligations.BfSetbytesReplacesTheContents := by
  intro s b n hdata
  refine ⟨fun hfits => ⟨Memory.ofBytes s.tx.data, ?_, Memory.wf_ofBytes _, ?_, Memory.read_ofBytes _⟩,
    execBfSetbytes_of_too_long hdata⟩
  · exact (execBfSetbytes_of_fits hdata hfits).trans (done_withBuf s b _)
  · rw [Memory.len_ofBytes, hdata]

/-! ## Loads -/

/-- A byte that reads stands first in what is left of the buffer from its offset on. -/
theorem Memory.drop_of_read {m : Memory} (hm : m.wf) {i : Nat} {x : Byte} (h : m.read i = some x) :
    m.bytes.drop i = x :: m.bytes.drop (i + 1) := by
  rw [Memory.read_eq hm] at h
  obtain ⟨hi, rfl⟩ := List.getElem?_eq_some_iff.mp h
  exact List.drop_eq_getElem_cons hi

section
variable {s : State} {b : Buf} {off : Half} {n : Nat}

/-- Loading the field whose bytes stand at `off` gives their big-endian number. -/
theorem loadBE_of_drop {xs rest : List Byte} (h : (s.buf b).bytes.drop off.toNat = xs ++ rest) (hn : xs.length = n)
    (hpos : 0 < n) : loadBE b off n s = ret (BitVec.ofNat 32 (be xs)) s := by
  have hlen : (s.buf b).len - off.toNat = xs.length + rest.length := by
    rw [← Memory.bytes_length, ← List.length_drop, h, List.length_append]
  have hslice : slice (s.buf b).bytes off.toNat n = xs := by rw [slice, h, ← hn, List.take_left]
  rcases loadBE_cases b off n s with ⟨-, hload⟩ | ⟨hout, -⟩
  · rw [hload, hslice]
  · omega

theorem loadBE_of_out_of_range (h : (s.buf b).len < off.toNat + n) : loadBE b off n s = failed 1 off.toNat s := by
  rcases loadBE_cases b off n s with ⟨hin, -⟩ | ⟨-, hload⟩
  · omega
  · rw [hload, raise_eq_failed]
    rfl
end

theorem be_b2 (h : Half) : be (b2 h) = h.toNat := by
  rw [← toNat_ofNat_be (w := 16) rfl (b2_length h), ofNat_be_b2]

theorem ofNat_be_one (x : Byte) : BitVec.ofNat 32 (be [x]) = x.setWidth 32 := by
  simp [be, BitVec.ofNat_toNat]

theorem ofNat_be_two (x y : Byte) : BitVec.ofNat 32 (be [x, y]) = (x ++ y).setWidth 32 := by
  rw [← b2_append, be_b2, BitVec.ofNat_toNat]

theorem ofNat_be_four (x y z t : Byte) : BitVec.ofNat 32 (be [x, y, z, t]) = x ++ y ++ z ++ t := by
  rw [← b4_append, ofNat_be_b4]

/-- Settles O20: the bytes that read one after another from `off` on are the field the command loads. -/
theorem bfReadsReturnTheBytes : Obligations.BfReadsReturnTheBytes := by
  intro s b off hwf
  refine ⟨rfl, fun x0 h0 => ?getb, fun x0 x1 h0 h1 => ?geth, fun x0 x1 x2 x3 h0 h1 h2 h3 => ?getw,
    loadBE_of_out_of_range, loadBE_of_out_of_range, loadBE_of_out_of_range⟩
  case getb =>
    have hload : loadBE b off 1 s = _ := loadBE_of_drop (xs := [x0]) (Memory.drop_of_read hwf h0) rfl (by decide)
    rw [ofNat_be_one] at hload
    exact hload
  case geth =>
    have hbytes : (s.buf b).bytes.drop off.toNat = [x0, x1] ++ (s.buf b).bytes.drop (off.toNat + 2) := by
      rw [Memory.drop_of_read hwf h0, Memory.drop_of_read hwf h1]
      rfl
    have hload : loadBE b off 2 s = _ := loadBE_of_drop hbytes rfl (by decide)
    rw [ofNat_be_two] at hload
    exact hload
  case getw =>
    have hbytes : (s.buf b).bytes.drop off.toNat = [x0, x1, x2, x3] ++ (s.buf b).bytes.drop (off.toNat + 4) := by
      rw [Memory.drop_of_read hwf h0, Memory.drop_of_read hwf h1, Memory.drop_of_read hwf h2, Memory.drop_of_read hwf h3]
      rfl
    have hload : loadBE b off 4 s = _ := loadBE_of_drop hbytes rfl (by decide)
    rw [ofNat_be_four] at hload
    exact hload

/-! ## Stores -/

section
variable {s : State} {b : Buf} {off : Half} {n v : Nat}

/-- A store inside the buffer: the field's bytes read as the value's, every other byte and the length as before. -/
theorem storeBE_of_in_range (hwf : (s.buf b).wf) (h : off.toNat + n ≤ (s.buf b).len) :
    ∃ m : Memory, storeBE b off n v s = .next ({ s with status := 0 }.withBuf b m) ∧ m.wf ∧ m.len = (s.buf b).len
      ∧ (∀ k, k < n → m.read (off.toNat + k) = (tobe n v)[k]?)
      ∧ ∀ a, (a < off.toNat ∨ off.toNat + n ≤ a) → m.read a = (s.buf b).read a := by
  rcases storeBE_cases b off n v s with ⟨-, m, hm, hstore⟩ | ⟨hout, -⟩
  · obtain ⟨-, -, hmwf, hmlen⟩ := Memory.writeBE_eq_some hm
    refine ⟨m, hstore.trans (done_withBuf s b m), hmwf, hmlen, fun k hk => ?_, fun a ha => ?_⟩
    · rw [Memory.read_writeBE hwf hm, if_pos (by omega), Nat.add_sub_cancel_left]
    · rw [Memory.read_writeBE hwf hm, if_neg (by omega)]
  · omega

theorem storeBE_of_out_of_range (h : (s.buf b).len < off.toNat + n) : storeBE b off n v s = failed 1 off.toNat s := by
  rcases storeBE_cases b off n v s with ⟨hin, -⟩ | ⟨-, hstore⟩
  · omega
  · rw [hstore, raise_eq_failed]
    rfl
end

theorem tobe_byte (x : Byte) : tobe 1 x.toNat = [x] := by
  rw [tobe_toNat]
  exact congrArg (fun y => [y]) BitVec.extractLsb'_eq_self

theorem tobe_lowHalf (w : Word) :
    tobe 2 (w.extractLsb' 0 16).toNat = [w.extractLsb' 8 8, w.extractLsb' 0 8] := by
  rw [tobe_half]
  simp only [b2, extractLsb'_extractLsb', Nat.reduceAdd, Nat.reduceLeDiff]

theorem b4_getElem? (w : Word) {k : Nat} (hk : k < 4) : (b4 w)[k]? = some (w.extractLsb' (24 - 8 * k) 8) := by
  interval_cases k <;> rfl

/-- Settles O21: each command is a store of its width, whose bytes are those of `arg0`. -/
theorem bfWritesStoreTheBytes : Obligations.BfWritesStoreTheBytes := by
  intro s b off hwf
  refine ⟨fun hin => ?setb, fun hin => ?seth, fun hin => ?setw,
    storeBE_of_out_of_range, storeBE_of_out_of_range, storeBE_of_out_of_range⟩
  case setb =>
    obtain ⟨m, hexec, hmwf, hlen, hfield, hrest⟩ :=
      storeBE_of_in_range (v := (s.tx.arg0.extractLsb' 0 8).toNat) hwf hin
    rw [tobe_byte] at hfield
    exact ⟨m, hexec, hmwf, hlen, hfield 0 (by decide), fun a ha => hrest a (by omega)⟩
  case seth =>
    obtain ⟨m, hexec, hmwf, hlen, hfield, hrest⟩ :=
      storeBE_of_in_range (v := (s.tx.arg0.extractLsb' 0 16).toNat) hwf hin
    rw [tobe_lowHalf] at hfield
    exact ⟨m, hexec, hmwf, hlen, hfield 0 (by decide), hfield 1 (by decide), hrest⟩
  case setw =>
    obtain ⟨m, hexec, hmwf, hlen, hfield, hrest⟩ := storeBE_of_in_range (v := s.tx.arg0.toNat) hwf hin
    rw [tobe_word] at hfield
    exact ⟨m, hexec, hmwf, hlen, fun k hk => (hfield k hk).trans (b4_getElem? _ hk), hrest⟩

/-! ## BF.NEW -/

/-- The cleared MAC registers read 0 under every id. -/
theorem MacRegs.get_cleared (r : MacReg) : ({} : MacRegs).get r = 0 := by cases r <;> decide

/-- Settles O18: both forms of the command are record updates. -/
theorem bfNewEmptiesABuffer : Obligations.BfNewEmptiesABuffer := fun _ => ⟨rfl, rfl, MacRegs.get_cleared⟩

/-! ## The slots of `ATTR` -/

section
variable {s : State} {id : Fin 8} {a : Slot}

theorem execAtSet_of_slot (h : s.attr[id.val]? = some a) : execAtSet id s = done (s.setAttr id s.tx.arg0) := by
  rw [execAtSet, h]

theorem execAtGet_of_valid (h : s.attr[id.val]? = some a) (hv : a.valid = true) : execAtGet id s = ret a.value s := by
  rw [execAtGet, h]
  exact if_pos hv

theorem execAtGet_of_invalid (h : s.attr[id.val]? = some a) (hv : a.valid = false) :
    execAtGet id s = failed 8 0 s := by
  rw [execAtGet, h]
  exact (if_neg (by simp [hv])).trans (raise_eq_failed _ s)
end

/-- Settles O22: `AT.SET` sets one slot of the list, `AT.GET` reads it. -/
theorem attributesAreAMapping : Obligations.AttributesAreAMapping := by
  intro s id a h
  have hid : id.val < s.attr.length := (List.getElem?_eq_some_iff.mp h).1
  refine ⟨⟨(s.setAttr id s.tx.arg0).attr, execAtSet_of_slot h, s.setAttr_length id _, s.setAttr_get _ hid,
    fun j hj => s.setAttr_get_ne _ (Ne.symm hj)⟩, execAtGet_of_valid h, execAtGet_of_invalid h⟩

end Sys2Proof.Machine
end

section
/-! SUPPORT. The failures of the frame classifier (41_mac.md R195) and the MAC registers by id (41_mac.md R192, R193). -/

namespace Sys2Proof.Machine

/-! ## The frame control by the bytes of the frame (30_encoding.md R111) -/

section
variable {fb : List Byte}

/-- The first two bytes of a frame are the halves of its frame-control field, the low one first. -/
theorem fcfHalf_bytes (h : 2 ≤ fb.length) :
    (BitVec.ofNat 16 (le (slice fb 0 2))).extractLsb' 0 8 = byteAt fb 0
      ∧ (BitVec.ofNat 16 (le (slice fb 0 2))).extractLsb' 8 8 = byteAt fb 1 := by
  have hbytes := leBytes_ofNat_le_slice (w := 16) (i := 0) (n := 2) h (by decide)
  rw [leBytes_half] at hbytes
  have hpair := hbytes.trans (slice_two h)
  exact ⟨(List.cons.inj hpair).1, List.singleton_inj.mp (List.cons.inj hpair).2⟩

theorem fcfOf_dmode (h : 2 ≤ fb.length) : (fcfOf fb).dmode = (byteAt fb 1).extractLsb' 2 2 := by
  rw [← (fcfHalf_bytes h).2, extractLsb'_extractLsb' _ (by decide)]
  rfl

theorem fcfOf_smode (h : 2 ≤ fb.length) : (fcfOf fb).smode = (byteAt fb 1).extractLsb' 6 2 := by
  rw [← (fcfHalf_bytes h).2, extractLsb'_extractLsb' _ (by decide)]
  rfl

theorem fcfOf_panc_eq_one_iff (h : 2 ≤ fb.length) : (fcfOf fb).panc = 1 ↔ (byteAt fb 0).getLsbD 6 = true := by
  have hpanc : (fcfOf fb).panc = (byteAt fb 0).extractLsb' 6 1 := by
    rw [← (fcfHalf_bytes h).1, extractLsb'_extractLsb' _ (by decide)]
    rfl
  rw [hpanc, eq_comm, eq_comm (b := true)]
  exact ofBool_eq_extractLsb'_iff (b := true)
end

/-! ## The declared length by the addressing modes (30_encoding.md R112) -/

section
variable {f : Fcf}

theorem alen_of_address {mode : BitVec 2} (h0 : mode ≠ 0) (h1 : mode ≠ 1) : alen mode = if mode = 2 then 2 else 8 := by
  obtain rfl | rfl | rfl | rfl := addrMode_cases mode
  · exact absurd rfl h0
  · exact absurd rfl h1
  · rfl
  · rfl

theorem macDstLen_of_mode (h : f.dmode ≠ 1) :
    macDstLen f = if f.dmode = 0 then 0 else if f.dmode = 2 then 4 else 10 := by
  by_cases h0 : f.dmode = 0
  · rw [macDstLen_of_no_dst h0, if_pos h0]
  · rw [macDstLen_of_dst h0, alen_of_address h0 h, if_neg h0]
    split_ifs <;> rfl

theorem macSrcLen_of_mode (h : f.smode ≠ 1) :
    macSrcLen f = if f.smode = 0 then 0 else (if f.panc = 1 then 0 else 2) + (if f.smode = 2 then 2 else 8) := by
  by_cases h0 : f.smode = 0
  · rw [macSrcLen_of_no_src h0, if_pos h0]
  · rw [macSrcLen, if_pos h0, alen_of_address h0 h, if_neg h0]
end

/-! ## The failures in their order (41_mac.md R195) -/

section
variable {f : Fcf} {len : Nat}

theorem macError_of_short (h : len < 3) : macError f len = some ⟨.malformedFrame, len⟩ := if_pos h

theorem macError_of_reserved_mode (h3 : 3 ≤ len) (h : f.dmode = 1 ∨ f.smode = 1) :
    macError f len = some ⟨.malformedFrame, 1⟩ := by
  rw [macError, if_neg (by omega), if_pos h]

theorem macError_of_absent_address (h3 : 3 ≤ len) (hd : f.dmode ≠ 1) (hs : f.smode ≠ 1) (hp : f.panc = 1)
    (h : f.dmode = 0 ∨ f.smode = 0) : macError f len = some ⟨.malformedFrame, 0⟩ := by
  rw [macError, if_neg (by omega), if_neg (not_or.mpr ⟨hd, hs⟩), if_pos ⟨hp, h⟩]

theorem macError_of_truncated (h3 : 3 ≤ len) (hd : f.dmode ≠ 1) (hs : f.smode ≠ 1)
    (hp : f.panc = 1 → f.dmode ≠ 0 ∧ f.smode ≠ 0) (h : len < macHlen f) :
    macError f len = some ⟨.malformedFrame, len⟩ := by
  have hpan : ¬ (f.panc = 1 ∧ (f.dmode = 0 ∨ f.smode = 0)) := fun hc => hc.2.elim (hp hc.1).1 (hp hc.1).2
  rw [macError, if_neg (by omega), if_neg (not_or.mpr ⟨hd, hs⟩), if_neg hpan, if_pos h]
end

theorem execMacParse_of_macError {s : State} {off : Nat}
    (h : macError (fcfOf s.fb.bytes) s.fb.len = some ⟨.malformedFrame, off⟩) : execMacParse s = failed 2 off s := by
  rw [execMacParse, macClassify, h]
  exact raise_eq_failed _ s

/-- Settles O24: each check of the frame control decides once those before it have passed, and the frame control's
fields are bits of the first two bytes. -/
theorem macParseFailures : Obligations.MacParseFailures := by
  intro s b0 b1 dmode smode panc hlen
  by_cases h3 : s.fb.len < 3
  · have hshort := execMacParse_of_macError (s := s) (macError_of_short h3)
    exact ⟨fun _ => hshort, fun h => absurd h3 h.not_gt, fun h => absurd h3 h.not_gt, fun h => absurd h3 h.not_gt⟩
  have hbytes : 2 ≤ s.fb.bytes.length := by rw [Memory.bytes_length]; omega
  have hdmode : (fcfOf s.fb.bytes).dmode = dmode := fcfOf_dmode hbytes
  have hsmode : (fcfOf s.fb.bytes).smode = smode := fcfOf_smode hbytes
  have hpanc : (fcfOf s.fb.bytes).panc = 1 ↔ panc = true := fcfOf_panc_eq_one_iff hbytes
  have hhlen (hd : dmode ≠ 1) (hs : smode ≠ 1) : macHlen (fcfOf s.fb.bytes) = hlen := by
    rw [macHlen_eq, macDstLen_of_mode (by rwa [hdmode]), macSrcLen_of_mode (by rwa [hsmode])]
    simp only [hdmode, hsmode, hpanc, hlen]
  simp only [← hdmode, ← hsmode, ← hpanc] at hhlen ⊢
  refine ⟨fun h => absurd h h3, fun h3 hmode => ?reserved, fun h3 hd hs hp habsent => ?absent,
    fun h3 hd hs hp hlong => ?truncated⟩
  case reserved => exact execMacParse_of_macError (macError_of_reserved_mode h3 hmode)
  case absent => exact execMacParse_of_macError (macError_of_absent_address h3 hd hs hp habsent)
  case truncated => exact execMacParse_of_macError (macError_of_truncated h3 hd hs hp (hhlen hd hs ▸ hlong))

/-! ## The MAC registers by id (10_state.md R24) -/

@[simp] theorem highWord_append (hi lo : Word) : highWord (hi ++ lo) = hi := BitVec.extractLsb'_append_eq_left
@[simp] theorem lowWord_append (hi lo : Word) : lowWord (hi ++ lo) = lo := BitVec.extractLsb'_append_eq_right

theorem zext_toNat_lt {w : Nat} (v : BitVec w) : (zext v).toNat < 2 ^ w := by
  rw [BitVec.toNat_setWidth]
  exact (Nat.mod_le _ _).trans_lt v.isLt

/-- A word written to a register reads back without its upper bits. -/
theorem zext_setWidth_toNat {w : Nat} (v : Word) : (zext (v.setWidth w)).toNat = v.toNat % 2 ^ w := by
  have hlt : v.toNat % 2 ^ w < 2 ^ 32 := (Nat.mod_le _ _).trans_lt v.isLt
  rw [BitVec.toNat_setWidth, BitVec.toNat_setWidth, Nat.mod_eq_of_lt hlt]

theorem MacRegs.get_lt (m : MacRegs) (r : MacReg) : (m.get r).toNat < 2 ^ macWidth r := by
  cases r with
  | daddrHi | daddrLo | saddrHi | saddrLo => exact BitVec.isLt _
  | _ => exact zext_toNat_lt _

theorem MacRegs.get_put_self (m : MacRegs) (r : MacReg) (v : Word) :
    ((m.put r v).get r).toNat = v.toNat % 2 ^ macWidth r := by
  cases r with
  | daddrHi | saddrHi =>
    rw [get, put, highWord_append]
    exact (Nat.mod_eq_of_lt v.isLt).symm
  | daddrLo | saddrLo =>
    rw [get, put, lowWord_append]
    exact (Nat.mod_eq_of_lt v.isLt).symm
  | _ => exact zext_setWidth_toNat v

/-- A write leaves the other registers: those of another field are not touched, and the two halves of an address are
put back beside each other. -/
theorem MacRegs.get_put_of_ne (m : MacRegs) (v : Word) {r r' : MacReg} (h : r' ≠ r) :
    (m.put r v).get r' = m.get r' := by
  cases r' with
  | daddrHi | daddrLo | saddrHi | saddrLo => cases r <;> simp [get, put] at h ⊢
  | _ => cases r <;> trivial

/-- Settles O25: reading and writing a register by its id, the commands being record updates. -/
theorem macRegistersReadAndWrite : Obligations.MacRegistersReadAndWrite := fun s r =>
  ⟨rfl, s.mac.get_lt r, s.mac.put r s.tx.arg0, rfl, s.mac.get_put_self r _, fun _ h => s.mac.get_put_of_ne _ h⟩

end Sys2Proof.Machine
end

section
/-! SUPPORT. The checksum functions by number (42_checksum.md R210 to R214): the running sum adds the sum of the words,
`finalize` is the complement of the end-around-carry sum; and with them the checksum commands (R215 to R220). -/

namespace Sys2Proof.Machine

/-! ## The sum of the words of a byte sequence -/

@[simp] theorem wordSum_nil : wordSum [] = 0 := rfl

theorem wordSum_one (b : Byte) : wordSum [b] = b.toNat * 256 := by simp [wordSum, byteAt]

theorem wordSum_two (b0 b1 : Byte) : wordSum [b0, b1] = b0.toNat * 256 + b1.toNat := by
  simp [wordSum, byteAt, Finset.sum_range_succ]

/-- Behind an even number of bytes, high and low bytes stay where they are. -/
theorem wordSum_append {bs : List Byte} (h : bs.length % 2 = 0) (cs : List Byte) :
    wordSum (bs ++ cs) = wordSum bs + wordSum cs := by
  have hleft {i : Nat} (hi : i < bs.length) : byteAt (bs ++ cs) i = byteAt bs i :=
    List.getD_append _ _ _ _ hi
  have hright (i : Nat) : byteAt (bs ++ cs) (bs.length + i) = byteAt cs i := by
    rw [byteAt, List.getD_append_right _ _ _ _ (Nat.le_add_right _ _), Nat.add_sub_cancel_left]
    rfl
  have hparity (i : Nat) : (bs.length + i) % 2 = i % 2 := by omega
  rw [wordSum, List.length_append, Finset.sum_range_add]
  simp only [hright, hparity]
  exact congrArg (· + wordSum cs) (Finset.sum_congr rfl fun i hi => by rw [hleft (Finset.mem_range.mp hi)])

theorem wordSum_cons_cons (b0 b1 : Byte) (bs : List Byte) :
    wordSum (b0 :: b1 :: bs) = b0.toNat * 256 + b1.toNat + wordSum bs := by
  rw [← wordSum_two]
  exact wordSum_append (bs := [b0, b1]) (Nat.mod_self 2) bs

theorem wordSum_b2 (h : Half) : wordSum (b2 h) = h.toNat := by
  rw [← be_b2 h, b2, wordSum_two]
  simp [be]

/-- The 16-bit words of a big-endian number are its digits in base 65536. -/
theorem wordSum_tobe (n v : Nat) : wordSum (tobe (2 * n) v) = ∑ k ∈ Finset.range n, v / 65536 ^ k % 65536 := by
  induction n with
  | zero => rfl
  | succ n ih =>
    have hlow : 256 ^ (2 * n) = 65536 ^ n := by rw [Nat.pow_mul]
    have hhigh : v / 256 ^ (2 * n + 1) = v / 65536 ^ n / 256 := by rw [Nat.pow_succ, hlow, Nat.div_div_eq_div_mul]
    have hword (x : Nat) : x / 256 % 256 * 256 + x % 256 = x % 65536 := by omega
    rw [Nat.mul_succ, tobe, tobe, wordSum_cons_cons, ih, Finset.sum_range_succ, Nat.add_comm, hhigh, hlow,
      BitVec.toNat_ofNat, BitVec.toNat_ofNat, hword]

theorem wordSum_tobe_addr (a : Addr) : wordSum (tobe 16 a.toNat) = addrSum a := wordSum_tobe 8 a.toNat

theorem wordSum_tobe_four (v : Nat) : wordSum (tobe 4 v) = v % 2 ^ 32 / 65536 + v % 65536 := by
  rw [wordSum_tobe 2 v, Finset.sum_range_succ, Finset.sum_range_one]
  omega

theorem wordSum_flatMap_b2 (ws : List Half) : wordSum (ws.flatMap b2) = (ws.map BitVec.toNat).sum := by
  induction ws with
  | nil => rfl
  | cons w ws ih =>
    rw [List.flatMap_cons, wordSum_append (bs := b2 w) (Nat.mod_self 2), wordSum_b2, ih, List.map_cons, List.sum_cons]

/-! ## `running_sum` and `pseudo` (42_checksum.md R210, R212) -/

/-- The running sum adds the sum of the words, modulo 2^32. -/
theorem runningSum_eq (acc : Word) (bs : List Byte) : runningSum acc bs = acc + BitVec.ofNat 32 (wordSum bs) := by
  induction acc, bs using runningSum.induct with
  | case1 acc => exact (BitVec.add_zero acc).symm
  | case2 acc b => rw [runningSum, wordSum_one]
  | case3 acc b0 b1 bs ih => rw [runningSum, ih, wordSum_cons_cons, BitVec.ofNat_add _ (wordSum bs), BitVec.add_assoc]

theorem runningSum_append (acc : Word) {bs : List Byte} (h : bs.length % 2 = 0) (cs : List Byte) :
    runningSum acc (bs ++ cs) = runningSum (runningSum acc bs) cs := by
  simp only [runningSum_eq, wordSum_append h, BitVec.ofNat_add, BitVec.add_assoc]

/-- The pseudo-header's words: both addresses, the length, the next header. -/
theorem pseudo_eq (src dst : Addr) (nh : Byte) (ulen : Nat) :
    pseudo src dst nh ulen
      = BitVec.ofNat 32 (addrSum src + addrSum dst + (ulen % 2 ^ 32 / 65536 + ulen % 65536) + nh.toNat) := by
  have hnh : wordSum [0, 0, 0, nh] = nh.toNat := by simp [wordSum_cons_cons]
  simp only [pseudo, runningSum_eq, wordSum_tobe_addr, wordSum_tobe_four, hnh, BitVec.ofNat_add, zero_add]

/-! ## `finalize` (42_checksum.md R211) -/

theorem fold16_of_ne_zero {n : Nat} (h : n ≠ 0) : fold16 n = (n - 1) % 65535 + 1 := if_neg h

theorem fold16_le (n : Nat) : fold16 n ≤ 65535 := by
  unfold fold16
  split <;> omega

theorem fold16_eq_zero_iff {n : Nat} : fold16 n = 0 ↔ n = 0 := by
  unfold fold16
  split <;> omega

/-- Adding the high half to the low one keeps the end-around-carry sum: 65536 is 1 modulo 65535. -/
theorem fold16_halves (n : Nat) : fold16 (n % 65536 + n / 65536) = fold16 n := by
  unfold fold16
  split <;> split <;> omega

theorem fold16_of_lt {n : Nat} (h : n < 65536) : fold16 n = n := by
  unfold fold16
  split <;> omega

theorem foldCarry_toNat (acc : Word) : (foldCarry acc).toNat = acc.toNat % 65536 + acc.toNat / 65536 := by
  have hacc := acc.isLt
  have hlow : (acc.extractLsb' 0 16).toNat = acc.toNat % 65536 := by
    rw [BitVec.extractLsb'_toNat, Nat.shiftRight_zero]
  have hhigh : (acc.extractLsb' 16 16).toNat = acc.toNat / 65536 := by
    rw [BitVec.extractLsb'_toNat, Nat.shiftRight_eq_div_pow]
    omega
  have hzero : acc.extractLsb' 16 16 = 0 ↔ acc.toNat / 65536 = 0 := by
    rw [← BitVec.toNat_inj, hhigh]
    rfl
  rw [foldCarry, hlow, hhigh]
  split
  case isTrue h =>
    have hnone := hzero.mp h
    omega
  case isFalse h =>
    rw [BitVec.toNat_ofNat]
    omega

/-- Two folds reach the end-around-carry sum: the first leaves at most `0x1FFFE`, the second at most `0xFFFF`. -/
theorem foldCarry_foldCarry_toNat (acc : Word) : (foldCarry (foldCarry acc)).toNat = fold16 acc.toNat := by
  have hacc := acc.isLt
  have hlt : (foldCarry (foldCarry acc)).toNat < 65536 := by
    rw [foldCarry_toNat, foldCarry_toNat]
    omega
  rw [← fold16_of_lt hlt, foldCarry_toNat, fold16_halves, foldCarry_toNat, fold16_halves]

theorem finalize_toNat (acc : Word) : (finalize acc).toNat = 0xFFFF - fold16 acc.toNat := by
  have hle := fold16_le acc.toNat
  rw [finalize, BitVec.toNat_not, BitVec.extractLsb'_toNat, foldCarry_foldCarry_toNat, Nat.shiftRight_zero]
  omega

theorem zext_finalize (acc : Word) : zext (finalize acc) = BitVec.ofNat 32 (0xFFFF - fold16 acc.toNat) := by
  rw [← finalize_toNat, BitVec.ofNat_toNat]

theorem finalize_toNat_of_ne_zero {acc : Word} (h : acc ≠ 0) :
    (finalize acc).toNat = 0xFFFF - ((acc.toNat - 1) % 0xFFFF + 1) := by
  rw [finalize_toNat, fold16_of_ne_zero fun h0 => h (BitVec.eq_of_toNat_eq h0)]

theorem finalize_eq_ones_iff {acc : Word} : finalize acc = 0xFFFF ↔ acc = 0 := by
  have hle := fold16_le acc.toNat
  have hones : (0xFFFF : Half).toNat = 65535 := rfl
  have hzero : acc = 0 ↔ fold16 acc.toNat = 0 := by
    rw [fold16_eq_zero_iff, ← BitVec.toNat_inj]
    rfl
  rw [hzero, ← BitVec.toNat_inj, finalize_toNat, hones]
  omega

/-- The running sum does not see the order of the words. -/
theorem runningSum_perm (acc : Word) {ws ws' : List Half} (h : ws.Perm ws') :
    runningSum acc (ws.flatMap b2) = runningSum acc (ws'.flatMap b2) := by
  rw [runningSum_eq, runningSum_eq, wordSum_flatMap_b2, wordSum_flatMap_b2, (h.map BitVec.toNat).sum_eq]

/-- Over an odd first part the sum need not split: the byte behind it is the low byte of one word, or the high byte of
another. -/
theorem runningSum_append_ne_of_odd : runningSum 0 ([1] ++ [1]) ≠ runningSum (runningSum 0 [1]) [1] := by decide

/-- Settles O34: laws (a), (b) and (e) are laws of the sum of the words, (c) and (d) of the end-around-carry sum. -/
theorem runningSumLaws : Obligations.RunningSumLaws := by
  refine ⟨fun acc b c h => runningSum_append acc h c, ⟨0, [1], [1], rfl, runningSum_append_ne_of_odd⟩,
    fun acc b => ?additive, fun acc => finalize_toNat_of_ne_zero, fun acc => finalize_eq_ones_iff,
    fun acc ws ws' h => congrArg finalize (runningSum_perm acc h)⟩
  case additive => rw [runningSum_eq, runningSum_eq 0, zero_add]

/-! ## The checksum of a segment (42_checksum.md R213, R214) -/

/-- A splice over a splice of the same place and length replaces it. -/
theorem splice_splice {bs as cs : List Byte} {off : Nat} (h : off + as.length ≤ bs.length)
    (hlen : cs.length = as.length) : splice (splice bs off as) off cs = splice bs off cs := by
  have hfirst : (splice bs off as).length = bs.length := splice_length _ _ _ h
  apply List.ext_getElem?
  intro i
  rw [splice_getElem? _ _ _ _ (by omega), splice_getElem? _ _ _ _ h, splice_getElem? _ _ _ _ (by omega), hlen]
  split_ifs <;> rfl

section
variable {seg : List Byte} {k : Nat}

/-- The checksum takes its field as zero, so what the field holds does not matter. -/
theorem transportCk_withCk (src dst : Addr) (nh : Byte) (h : k + 2 ≤ seg.length) (ck : Half) :
    transportCk src dst nh (withCk seg k ck) k = transportCk src dst nh seg k := by
  have hzero : splice (withCk seg k ck) k [0, 0] = splice seg k [0, 0] := splice_splice h rfl
  rw [transportCk, transportCk, withCk_length _ _ _ h, hzero]

theorem be_slice_withCk (h : k + 2 ≤ seg.length) (ck : Half) : be (slice (withCk seg k ck) k 2) = ck.toNat := by
  have hfield : slice (withCk seg k ck) k 2 = tobe 2 ck.toNat := slice_splice seg (tobe 2 ck.toNat) k h
  rw [hfield, tobe_half, be_b2]

theorem verifies_withCk (src dst : Addr) (nh : Byte) (h : k + 2 ≤ seg.length) :
    verifies src dst nh (withCk seg k (transportCk src dst nh seg k)) k = true := by
  rw [verifies, transportCk_withCk src dst nh h, be_slice_withCk h, beq_self_eq_true]
end

/-- The checksum by number: the words of the pseudo-header and those of the segment with its field zero. -/
theorem transportCk_toNat (src dst : Addr) (nh : Byte) (seg : List Byte) (k : Nat) :
    (transportCk src dst nh seg k).toNat
      = 0xFFFF - fold16 ((addrSum src + addrSum dst + (seg.length % 2 ^ 32 / 65536 + seg.length % 65536) + nh.toNat
          + wordSum (splice seg k [0, 0])) % 2 ^ 32) := by
  rw [transportCk, finalize_toNat, runningSum_eq, pseudo_eq, ← BitVec.ofNat_add, BitVec.toNat_ofNat]

/-- Settles O35: the checksum does not depend on its field, and the field written reads back. -/
theorem checksumIsSelfConsistent : Obligations.ChecksumIsSelfConsistent := fun src dst nh seg k h =>
  ⟨verifies_withCk src dst nh h, transportCk_toNat src dst nh seg k⟩

/-! ## The checksum commands (42_checksum.md R215 to R218) -/

/-- Settles O31: the commands are record updates, and the value is `finalize` by number. -/
theorem ckLoadAndFinal : Obligations.CkLoadAndFinal := fun s =>
  ⟨rfl, by rw [← zext_finalize]; rfl⟩

/-- Settles O32: the command is the bounds check and the running sum of the slice. -/
theorem ckRunAddsTheWords : Obligations.CkRunAddsTheWords := by
  intro s b off
  refine ⟨fun hin => ?sum, fun hout => ?outOfRange⟩
  case sum =>
    have hexec : exec (.ckRun b off) s = _ := if_neg (by omega)
    rw [hexec, runningSum_eq]
    rfl
  case outOfRange =>
    have hexec : exec (.ckRun b off) s = _ := if_pos hout
    exact hexec.trans (raise_eq_failed _ s)

theorem extBytes_eq_sum (chain : List Node) :
    extBytes chain = (chain.map fun n => if n.kind = .hbh then 2 + n.payload.length else 0).sum := by
  induction chain with
  | nil => rfl
  | cons n ns ih => rw [extBytes, ih, List.map_cons, List.sum_cons]

/-- The upper-layer length, a subtraction that wraps modulo 2^32 (42_checksum.md R216). -/
theorem zext_sub_ofNat_toNat (plen : Half) (ext : Nat) :
    (zext plen - BitVec.ofNat 32 ext).toNat = (plen.toNat + (2 ^ 32 - ext % 2 ^ 32)) % 2 ^ 32 := by
  have hplen := plen.isLt
  rw [BitVec.toNat_sub, BitVec.toNat_setWidth, BitVec.toNat_ofNat]
  omega

/-- Settles O33: the command is the pseudo-header's sum, its length operand being below 2^32. -/
theorem ckPseudoSumsThePseudoHeader : Obligations.CkPseudoSumsThePseudoHeader := by
  intro s nh ext ulen sum
  have hulen : (zext s.hdr.plen - BitVec.ofNat 32 (extBytes s.chain)).toNat = ulen := by
    rw [zext_sub_ofNat_toNat, extBytes_eq_sum]
  have hlt : ulen % 2 ^ 32 = ulen := Nat.mod_mod _ _
  have hsum : pseudo s.hdr.src s.hdr.dst nh ulen = sum := by rw [pseudo_eq, hlt]
  rw [← hsum, ← hulen]
  rfl

/-! ## The commands that use the checksum unit (42_checksum.md R220) -/

/-- A command ends in a next state that holds the next free value in `ACC` and counts it (log 1). -/
def DrawsAcc (s : State) (o : Out) : Prop :=
  ∃ t, o = .next t ∧ t.acc = Config.freeAcc s.draws ∧ t.draws = s.draws + 1

theorem raiseAny_drawsAcc (e : Err) (s : State) : DrawsAcc s (raiseAny e s) := ⟨_, rfl, rfl, rfl⟩

theorem dispatch_drawsAcc (opt : List Byte → Option Half) (nh : Byte) (s : State) : DrawsAcc s (dispatch opt nh s) := by
  obtain ⟨e, -, h⟩ | ⟨l, c, w, -, h⟩ := dispatch_cases opt nh s <;> rw [h]
  · exact raiseAny_drawsAcc e s
  · exact ⟨_, rfl, rfl, rfl⟩

theorem hcCommit_drawsAcc (hd : Hdr) (body : List Byte) (b0 : Option Byte) (s : State) :
    DrawsAcc s (hcCommit hd body b0 s) := by
  obtain ⟨-, h⟩ | ⟨-, h⟩ := hcCommit_cases hd body b0 s <;> rw [h]
  · exact raiseAny_drawsAcc _ s
  · exact ⟨_, rfl, rfl, rfl⟩

theorem decompress_drawsAcc (h : Iphc) (off : Nat) (s : State) : DrawsAcc s (decompress h off s) := by
  obtain ⟨e, -, heq⟩ | ⟨hd, p, e, -, -, heq⟩ | ⟨hd, p, body, -, -, heq⟩ := decompress_cases h off s <;> rw [heq]
  · exact raiseAny_drawsAcc e s
  · exact raiseAny_drawsAcc e s
  · exact hcCommit_drawsAcc hd body _ s

theorem execIpSerialize_drawsAcc (s : State) : DrawsAcc s (execIpSerialize s) := by
  unfold execIpSerialize
  dsimp only
  split
  · exact raiseAny_drawsAcc _ s
  · exact ⟨_, rfl, rfl, rfl⟩

theorem execHcDecomp_drawsAcc (off : Half) (s : State) : DrawsAcc s (execHcDecomp off s) := by
  unfold execHcDecomp
  split
  · exact raiseAny_drawsAcc _ s
  split
  · exact raiseAny_drawsAcc _ s
  · exact decompress_drawsAcc _ _ s

theorem execWireIphc_drawsAcc (h : Iphc) (s : State) : DrawsAcc s (execWireIphc h s) := by
  unfold execWireIphc
  split
  · exact raiseAny_drawsAcc _ s
  · exact decompress_drawsAcc h _ s

theorem execWireNhcUdp_drawsAcc (c : Bool) (p : BitVec 2) (s : State) : DrawsAcc s (execWireNhcUdp c p s) := by
  unfold execWireNhcUdp
  split
  · exact raiseAny_drawsAcc _ s
  split
  · exact raiseAny_drawsAcc _ s
  · exact hcCommit_drawsAcc _ _ _ s

theorem exec_drawsAcc {i : Instr} (h : clobbersAcc i = true) (s : State) : DrawsAcc s (exec i s) := by
  cases i with
  | chParse | wireNhHbh | wireNhTcp | wireNhUdp | wireNhIcmpv6 | wireTcpoptMss => exact dispatch_drawsAcc _ _ s
  | ipSerialize => exact execIpSerialize_drawsAcc s
  | hcDecomp off => exact execHcDecomp_drawsAcc off s
  | wireIphc hdr => exact execWireIphc_drawsAcc hdr s
  | wireNhcUdp c p => exact execWireNhcUdp_drawsAcc c p s
  | _ => cases h

/-- Settles O16: each of the commands draws the next free value, however it ends. -/
theorem parsersLeaveAccFree : Obligations.ParsersLeaveAccFree := by
  intro i s s' hi h
  obtain ⟨t, ht, hacc, hdraws⟩ := exec_drawsAcc hi s
  obtain rfl : s' = t := by simpa [h] using ht
  exact ⟨hacc, hdraws⟩

end Sys2Proof.Machine
end

section
/-! SUPPORT. The header registers by id, the IPv6 header parser and the address predicates (43_ipv6.md R230 to R235), and
how `CH.PARSE` enters the payload (43_ipv6.md R236, 44_chain.md R260 to R262). -/

namespace Sys2Proof.Machine

/-! ## The words of an address (10_state.md R25) -/

/-- Word `j` of the address of four words is the one put at `j`. -/
theorem addrWord_addrOf (w : Nat → Word) {j : Nat} (hj : j < 4) :
    addrWord (addrOf (w 0) (w 1) (w 2) (w 3)) j = w j := by
  obtain ⟨hhigh, h3⟩ := bitVec_append_eq_iff.mp (rfl : addrOf (w 0) (w 1) (w 2) (w 3) = _)
  obtain ⟨hhigher, h2⟩ := bitVec_append_eq_iff.mp hhigh
  obtain ⟨h0, h1⟩ := bitVec_append_eq_iff.mp hhigher
  simp (disch := decide) only [extractLsb'_extractLsb'] at h0 h1 h2
  match j, hj with
  | 0, _ => exact h0.symm
  | 1, _ => exact h1.symm
  | 2, _ => exact h2.symm
  | 3, _ => exact h3.symm

/-- Writing a word of an address replaces that word and leaves the other three. -/
theorem addrWord_setAddrWord (a : Addr) (v : Word) (k : Nat) {j : Nat} (hj : j < 4) :
    addrWord (setAddrWord a k v) j = if k = j then v else addrWord a j :=
  addrWord_addrOf (fun i => if k = i then v else addrWord a i) hj

/-! ## The header registers and the cursor by id (43_ipv6.md R232, R233) -/

section
variable (s : State)

theorem State.ipGet_lt (r : IpReg) : (s.ipGet r).toNat < 2 ^ ipWidth r := by
  cases r with
  | src0 | src1 | src2 | src3 | dst0 | dst1 | dst2 | dst3 => exact BitVec.isLt _
  | _ => exact zext_toNat_lt _

theorem State.ipGet_ipPut_self (r : IpReg) (v : Word) : ((s.ipPut r v).ipGet r).toNat = v.toNat % 2 ^ ipWidth r := by
  cases r with
  | src0 | src1 | src2 | src3 | dst0 | dst1 | dst2 | dst3 =>
    rw [ipGet, ipPut_hdr, Hdr.put, addrWord_setAddrWord _ _ _ (by decide), if_pos rfl]
    exact (Nat.mod_eq_of_lt v.isLt).symm
  | _ => exact zext_setWidth_toNat v

/-- A write leaves the other registers and the cursor: those of another field are not touched, and the other words of an
address are put back beside the one written. -/
theorem State.ipGet_ipPut_of_ne (v : Word) {r r' : IpReg} (h : r' ≠ r) : (s.ipPut r v).ipGet r' = s.ipGet r' := by
  cases r' with
  | src0 | src1 | src2 | src3 | dst0 | dst1 | dst2 | dst3 =>
    cases r <;> simp [ipGet, Hdr.put, addrWord_setAddrWord] at h ⊢
  | _ => cases r <;> trivial
end

/-- Settles O26: reading and writing a register by its id, the commands being record updates. -/
theorem headerRegistersReadAndWrite : Obligations.HeaderRegistersReadAndWrite := fun s r =>
  ⟨rfl, s.ipGet_lt r, s.hdr.put r s.tx.arg0, curPut s.cur r s.tx.arg0, rfl, s.ipGet_ipPut_self r _,
    fun _ h => s.ipGet_ipPut_of_ne _ h⟩

/-! ## Loading the registers (43_ipv6.md R230, R231) -/

/-- Settles O27: the command is this record update. -/
theorem ipNewSetsTheDefaults : Obligations.IpNewSetsTheDefaults := fun _ => rfl

section
variable {s : State} {h : Hdr} {pay : List Byte}

theorem execIpParse_of_short (hlen : s.pb.len < 40) : execIpParse s = failed 2 s.pb.len s := by
  rw [execIpParse, if_pos hlen, raise_eq_failed]
  rfl

/-- With the header's bytes in front of PB, only the version check is left to decide. -/
theorem execIpParse_of_header (hpb : s.pb.bytes = headerBytes h ++ pay) :
    execIpParse s = if h.ver ≠ 6 ∧ s.strict then raise ⟨.badVersion, 0⟩ s
      else report (if h.ver ≠ 6 then some ⟨.badVersion, 0⟩ else none) { s with hdr := h, cur := 40, chain := [] } := by
  have hlen : ¬ s.pb.len < 40 := by
    rw [← Memory.bytes_length, hpb, List.length_append, headerBytes_length]
    omega
  rw [execIpParse, if_neg hlen, hpb, hdrOf_headerBytes]
end

/-- Settles O29: the header read is the one whose bytes stand in PB, and of the version check each outcome is one
branch. -/
theorem ipParseLoadsTheRegisters : Obligations.IpParseLoadsTheRegisters := by
  refine fun s => ⟨execIpParse_of_short, fun h pay hpb => ?_⟩
  have hparse : exec .ipParse s = _ := execIpParse_of_header hpb
  refine ⟨fun hver => ?version6, fun hver hstrict => ?strict, fun hver hlenient => ?lenient⟩
  case version6 =>
    rw [hparse, if_neg (fun hc => hc.1 hver), if_neg (not_not.mpr hver)]
    rfl
  case strict =>
    rw [hparse, if_pos ⟨hver, hstrict⟩, raise_eq_failed]
    rfl
  case lenient =>
    have hnotStrict : ¬ s.strict = true := Bool.eq_false_iff.mp hlenient
    rw [hparse, if_neg (fun hc => hnotStrict hc.2), if_pos hver]
    rfl

/-! ## The address predicates (30_encoding.md R119) -/

/-- The `n` uppermost bits of a bit vector are its number divided by the weight of the lowest of them. -/
theorem extractLsb'_toNat_of_top {n k w : Nat} (a : BitVec w) (hw : k + n = w) :
    (a.extractLsb' k n).toNat = a.toNat / 2 ^ k := by
  have hlt : a.toNat / 2 ^ k < 2 ^ n := by
    rw [Nat.div_lt_iff_lt_mul (Nat.two_pow_pos k), ← Nat.pow_add, Nat.add_comm n k, hw]
    exact a.isLt
  rw [BitVec.extractLsb'_toNat, Nat.shiftRight_eq_div_pow, Nat.mod_eq_of_lt hlt]

theorem isLinkLocal_iff (a : Addr) : isLinkLocal a = true ↔ a.toNat / 2 ^ 118 = 0b1111111010 := by
  rw [isLinkLocal, beq_iff_eq, ← BitVec.toNat_inj, extractLsb'_toNat_of_top a rfl]
  rfl

theorem isMulticast_iff (a : Addr) : isMulticast a = true ↔ a.toNat / 2 ^ 120 = 0xFF := by
  rw [isMulticast, beq_iff_eq, ← BitVec.toNat_inj, extractLsb'_toNat_of_top a rfl]
  rfl

/-- Settles O30: each predicate by the number of the bits it compares. -/
theorem addressPredicatesCompareTheFirstBits : Obligations.AddressPredicatesCompareTheFirstBits := by
  intro s sel a
  have haddr : s.hdr.addr sel = a := by cases sel <;> rfl
  have hll : exec (.ipIsll sel) s = ret (boolWord (isLinkLocal (s.hdr.addr sel))) s := rfl
  have hmc : exec (.ipIsmc sel) s = ret (boolWord (isMulticast (s.hdr.addr sel))) s := rfl
  simp only [hll, hmc, haddr, boolWord, isLinkLocal_iff, isMulticast_iff]
  exact ⟨rfl, rfl⟩

/-! ## Entering the payload (44_chain.md R260 to R262) -/

theorem raiseAny_eq_failedAny (e : Err) (s : State) :
    raiseAny e s = failedAny e.kind.code e.off (Config.freeAcc s.draws) (s.draws + 1) s := by
  rw [raiseAny, raise_eq_failed]
  rfl

theorem dispatch_of_malformed {opt : List Byte → Option Half} {nh : Byte} {s : State} {off : Nat}
    (h : parseChain opt nh s = .error ⟨.malformedFrame, off⟩) : ∃ v d, dispatch opt nh s = failedAny 2 off v d s := by
  refine ⟨Config.freeAcc s.draws, s.draws + 1, ?_⟩
  rw [dispatch, h]
  exact raiseAny_eq_failedAny _ s

section
variable {s : State} (opt : List Byte → Option Half) (nh : Byte)

theorem parseChain_of_long (h : s.pb.len < s.payEnd) : parseChain opt nh s = .error ⟨.malformedFrame, 4⟩ := if_pos h

theorem parseChain_of_cur_outside (hend : s.payEnd ≤ s.pb.len) (hcur : s.cur.toNat < 40 ∨ s.payEnd < s.cur.toNat) :
    parseChain opt nh s = .error ⟨.malformedFrame, s.cur.toNat⟩ := by
  rw [parseChain, if_neg hend.not_gt]
  exact if_pos hcur

theorem parseChain_of_no_room (hat : s.atPayload) (hmax : s.par.chainMax = 0) :
    parseChain opt nh s = .error ⟨.malformedFrame, s.cur.toNat⟩ := by
  rw [parseChain_of_atPayload hat, hmax, chainLoop]
end

/-- A variant's unit is the dispatch on the variant's own byte (log 8). -/
theorem exec_variantInstr (x : Variant) (s : State) : exec x.instr s = dispatch firstMss x.disp s := by cases x <;> rfl

/-- Settles O36: an error of the entry checks ends the command, and past them it is the dispatch on `NH`. -/
theorem chParseDispatchesOnTheNextHeader : Obligations.ChParseDispatchesOnTheNextHeader := by
  intro s
  have hexec : exec .chParse s = dispatch firstMss s.hdr.nh s := rfl
  rw [hexec]
  refine ⟨fun hlong => ?extent, fun hend hcur => ?cursor, fun hat hmax => ?room, fun x hnh => ?variant⟩
  case extent => exact dispatch_of_malformed (parseChain_of_long _ _ hlong)
  case cursor => exact dispatch_of_malformed (parseChain_of_cur_outside _ _ hend hcur)
  case room => exact dispatch_of_malformed (parseChain_of_no_room _ _ hat hmax)
  case variant => rw [exec_variantInstr, hnh]

end Sys2Proof.Machine
end

section
/-! SUPPORT. The payload's parsers on the bytes from the cursor to the payload's end (44_chain.md R260 to R267): which
error each raises, the node it builds, and how the dispatch loop ends or goes on. -/

namespace Sys2Proof.Machine

/-! ## Parts of a part of a byte sequence -/

section
variable {bs : List Byte} {i n : Nat}

theorem slice_drop (bs : List Byte) (i n k : Nat) : (slice bs i n).drop k = slice bs (i + k) (n - k) := by
  rw [slice, slice, List.drop_take, List.drop_drop]

theorem slice_take {m : Nat} (h : m ≤ n) : (slice bs i n).take m = slice bs i m := by
  rw [slice, slice, List.take_take, Nat.min_eq_left h]

theorem slice_slice {j m : Nat} (h : j + m ≤ n) : slice (slice bs i n) j m = slice bs (i + j) m := by
  rw [slice, slice_drop, slice_take (by omega)]

theorem byteAt_slice {j : Nat} (h : j < n) : byteAt (slice bs i n) j = byteAt bs (i + j) := by
  simp [byteAt, slice, List.getD, h]

/-- A field inside the first `n` bytes is a field of the whole. -/
theorem h16_take (h : i + 1 < n) : h16 (bs.take n) i = h16 bs i := by
  have hbyte {j : Nat} (hj : j < n) : byteAt (bs.take n) j = byteAt bs j := by
    simpa [slice_zero] using byteAt_slice (bs := bs) (i := 0) hj
  rw [h16, h16, hbyte (by omega), hbyte h]

theorem be_slice_two (h : i + 1 < bs.length) : be (slice bs i 2) = (h16 bs i).toNat := by
  rw [← half_eq_h16 h, half, toNat_ofNat_be (n := 2) rfl (slice_length_of_le (by omega))]

/-- Four bytes are one word or two halves. -/
theorem h32_eq_append (bs : List Byte) (i : Nat) : h32 bs i = h16 bs i ++ h16 bs (i + 2) := by
  have hbytes : b4 (h32 bs i) = b4 (h16 bs i ++ h16 bs (i + 2)) := by
    rw [h32, b4_append, b4_append_halves, h16, h16, b2_append, b2_append]
    rfl
  rw [← ofNat_be_b4 (h32 bs i), hbytes, ofNat_be_b4]
end

/-! ## TCP (44_chain.md R264) -/

section
variable {x : ParseCtx} {opt : List Byte → Option Half} {c fin : Nat}

theorem parseTcp_of_short (h : fin - c < 20) : parseTcp x opt c fin = .error ⟨.malformedFrame, fin⟩ := if_pos h

theorem parseTcp_of_low_doff (h20 : 20 ≤ fin - c) (h : (tcpDoff (slice x.pb c (fin - c))).toNat < 5) :
    parseTcp x opt c fin = .error ⟨.malformedFrame, c + 12⟩ :=
  (if_neg h20.not_gt).trans (if_pos h)

theorem parseTcp_of_high_doff (h20 : 20 ≤ fin - c) (hdoff : 5 ≤ (tcpDoff (slice x.pb c (fin - c))).toNat)
    (h : fin - c < 4 * (tcpDoff (slice x.pb c (fin - c))).toNat) :
    parseTcp x opt c fin = .error ⟨.malformedFrame, fin⟩ :=
  (if_neg h20.not_gt).trans ((if_neg hdoff.not_gt).trans (if_pos h))
end

theorem firstMss_eq {seg : List Byte} (h : 24 ≤ seg.length) :
    firstMss seg = if byteAt seg 20 = 2 ∧ byteAt seg 21 = 4 then some (h16 seg 22) else none := by
  have hkind : h16 seg 20 = 0x0204 ↔ byteAt seg 20 = 2 ∧ byteAt seg 21 = 4 := bitVec_append_eq_iff
  have hhigh : (h32 seg 20).extractLsb' 16 16 = h16 seg 20 := by
    rw [h32_eq_append]
    exact BitVec.extractLsb'_append_eq_left
  have hlow : (h32 seg 20).extractLsb' 0 16 = h16 seg 22 := by
    rw [h32_eq_append]
    exact BitVec.extractLsb'_append_eq_right
  rw [firstMss, word_eq_h32 (by omega), decodeMss, hhigh, hlow]
  exact if_congr hkind rfl rfl

/-- The option read is the statements' `MSS`. -/
theorem tcpMss_eq {seg : List Byte} (hopts : 4 * (tcpDoff seg).toNat ≤ seg.length) :
    (if 6 ≤ (tcpDoff seg).toNat then (firstMss seg).getD 0 else 0) = tcpMss seg := by
  by_cases h6 : 6 ≤ (tcpDoff seg).toNat
  · rw [if_pos h6, firstMss_eq (by omega), tcpMss]
    simp only [h6, true_and]
    split <;> rfl
  · rw [if_neg h6, tcpMss, if_neg fun hc => h6 hc.1]

/-! ## UDP (44_chain.md R265) -/

section
variable {x : ParseCtx} {c fin : Nat}

theorem parseUdp_of_short (h : fin - c < 8) : parseUdp x c fin = .error ⟨.malformedFrame, fin⟩ := if_pos (by omega)

variable {seg : List Byte} (hseg : slice x.pb c (fin - c) = seg) (hlen : seg.length = fin - c) (h8 : 8 ≤ seg.length)
include hseg hlen h8

/-- Past the header check the datagram's length field decides. -/
theorem parseUdp_of_header :
    parseUdp x c fin =
      if (h16 seg 4).toNat < 8 then .error ⟨.malformedFrame, c + 4⟩
      else if c + (h16 seg 4).toNat > fin then .error ⟨.malformedFrame, fin⟩
      else
        let dgram := slice x.pb c (h16 seg 4).toNat
        let ok := verifies x.src x.dst 17 dgram 6
        .ok ({ kind := .udp
               f := { sport := half dgram 0, dport := half dgram 2, length := BitVec.ofNat 16 (h16 seg 4).toNat
                      cksum := half dgram 6 }
               ckok := ok, payload := slice dgram 8 ((h16 seg 4).toNat - 8), offset := BitVec.ofNat 16 c },
             c + (h16 seg 4).toNat, ckReport ok (c + 6)) := by
  have hfield : be (slice x.pb (c + 4) 2) = (h16 seg 4).toNat := by
    rw [← be_slice_two (by omega), ← hseg, slice_slice (by omega)]
  rw [parseUdp, if_neg (by omega), hfield]

theorem parseUdp_of_low_length (h : (h16 seg 4).toNat < 8) :
    parseUdp x c fin = .error ⟨.malformedFrame, c + 4⟩ := by
  rw [parseUdp_of_header hseg hlen h8, if_pos h]

theorem parseUdp_of_high_length (h : seg.length < (h16 seg 4).toNat) :
    parseUdp x c fin = .error ⟨.malformedFrame, fin⟩ := by
  rw [parseUdp_of_header hseg hlen h8, if_neg (by omega), if_pos (by omega)]
end

/-- The UDP node of the bytes the length field names. -/
theorem parseUdp_eq {x : ParseCtx} {c fin : Nat} {seg : List Byte} (hseg : slice x.pb c (fin - c) = seg)
    (hlen : seg.length = fin - c) (h8 : 8 ≤ (h16 seg 4).toNat) (hin : (h16 seg 4).toNat ≤ seg.length) :
    let dgram := seg.take (h16 seg 4).toNat
    let ok := transportCk x.src x.dst 17 dgram 6 == h16 dgram 6
    parseUdp x c fin
      = .ok (udpNode dgram (BitVec.ofNat 16 c) ok, c + (h16 seg 4).toNat, ckReport ok (c + 6)) := by
  intro dgram ok
  have hdgram : slice x.pb c (h16 seg 4).toNat = dgram := by rw [← slice_take (n := fin - c) (by omega), hseg]
  have hdlen : dgram.length = (h16 seg 4).toNat := by rw [List.length_take, Nat.min_eq_left hin]
  have hfield : BitVec.ofNat 16 (h16 seg 4).toNat = h16 dgram 4 := by
    rw [h16_take (by omega), BitVec.ofNat_toNat, BitVec.setWidth_eq]
  have hpay : slice dgram 8 ((h16 seg 4).toNat - 8) = dgram.drop 8 := slice_to_end (by omega)
  rw [parseUdp_of_header hseg hlen (by omega), if_neg (by omega), if_neg (by omega)]
  simp (disch := omega) only [hdgram, hfield, hpay, verifies_eq, half_eq_h16]
  rfl

/-! ## ICMPv6 (44_chain.md R266) -/

theorem isEcho_iff {t : Byte} : isEcho t = true ↔ t = 128 ∨ t = 129 := by simp [isEcho]

section
variable {x : ParseCtx} {c fin : Nat}

theorem parseIcmp_of_short (h : fin - c < 4) : parseIcmp x c fin = .error ⟨.malformedFrame, fin⟩ := if_pos h

theorem parseIcmp_of_short_echo (h4 : 4 ≤ fin - c) (hecho : isEcho (byteAt (slice x.pb c (fin - c)) 0) = true)
    (h : fin - c < 8) : parseIcmp x c fin = .error ⟨.malformedFrame, fin⟩ :=
  (if_neg h4.not_gt).trans (if_pos ⟨hecho, h⟩)

/-- The ICMPv6 node of a message, an echo or not. -/
theorem parseIcmp_eq {seg : List Byte} (hseg : slice x.pb c (fin - c) = seg) (hlen : seg.length = fin - c)
    (h4 : 4 ≤ seg.length) (h8 : isEcho (byteAt seg 0) = true → 8 ≤ seg.length) :
    let ok := transportCk x.src x.dst 58 seg 2 == h16 seg 2
    parseIcmp x c fin = .ok (icmpNode seg (BitVec.ofNat 16 c) ok, fin, ckReport ok (c + 2)) := by
  intro ok
  have hcut : ¬ (isEcho (byteAt seg 0) = true ∧ fin - c < 8) := fun hc => by have := h8 hc.1; omega
  simp only [parseIcmp, hseg]
  rw [if_neg (by omega), if_neg hcut, icmpNode]
  by_cases hecho : isEcho (byteAt seg 0) = true
  · have h8 := h8 hecho
    have hpay : slice seg 8 (fin - c - 8) = seg.drop 8 := slice_to_end (by omega)
    simp (disch := omega) only [if_pos hecho, if_pos (isEcho_iff.mp hecho), hpay, verifies_eq, half_eq_h16]
    rfl
  · have hpay : slice seg 4 (fin - c - 4) = seg.drop 4 := slice_to_end (by omega)
    simp (disch := omega) only [if_neg hecho, if_neg (mt isEcho_iff.mpr hecho), hpay, verifies_eq, half_eq_h16]
    rfl
end

/-! ## Hop-by-Hop options (44_chain.md R263) -/

section
variable {t l : Byte} {data rest : List Byte}

theorem framed_pad1_iff : Framed (0 :: rest) ↔ Framed rest := by
  refine ⟨fun h => ?_, .pad1⟩
  cases h with
  | pad1 h => exact h
  | option hne => exact absurd rfl hne

theorem not_framed_lone (ht : t ≠ 0) : ¬ Framed [t] := by
  rintro (_ | h)
  exact ht rfl

theorem framed_option_iff (ht : t ≠ 0) :
    Framed (t :: l :: data) ↔ l.toNat ≤ data.length ∧ Framed (data.drop l.toNat) := by
  constructor
  · intro h
    cases h with
    | pad1 => exact absurd rfl ht
    | option _ hlen hrest =>
      rw [← hlen, List.drop_left]
      exact ⟨by simp, hrest⟩
  · rintro ⟨hlen, hrest⟩
    have h := Framed.option ht (List.length_take_of_le hlen) hrest
    rwa [List.take_append_drop] at h
end

section
variable {t : Byte} (fuel : Nat)

theorem walkOptions_nil : walkOptions fuel [] = true := by cases fuel <;> rfl

theorem walkOptions_pad1 (rest : List Byte) : walkOptions (fuel + 1) (0 :: rest) = walkOptions fuel rest := if_pos rfl

theorem walkOptions_lone (ht : t ≠ 0) : walkOptions (fuel + 1) [t] = false := if_neg ht

theorem walkOptions_option (ht : t ≠ 0) (l : Byte) (data : List Byte) :
    walkOptions (fuel + 1) (t :: l :: data)
      = if l.toNat > data.length then false else walkOptions fuel (data.drop l.toNat) := if_neg ht
end

/-- With fuel for every byte, the walk decides whether the options end where the area ends. -/
theorem walkOptions_iff {fuel : Nat} {bs : List Byte} (h : bs.length ≤ fuel) :
    walkOptions fuel bs = true ↔ Framed bs := by
  induction fuel generalizing bs with
  | zero =>
    obtain rfl : bs = [] := List.eq_nil_of_length_eq_zero (by omega)
    exact iff_of_true rfl .empty
  | succ fuel ih =>
    rcases bs with _ | ⟨t, rest⟩
    · exact iff_of_true (walkOptions_nil _) .empty
    rw [List.length_cons] at h
    by_cases ht : t = 0
    · subst ht
      rw [walkOptions_pad1, ih (by omega), framed_pad1_iff]
    rcases rest with _ | ⟨l, data⟩
    · exact iff_of_false (by simp [walkOptions_lone fuel ht]) (not_framed_lone ht)
    · rw [List.length_cons] at h
      have hdrop : (data.drop l.toNat).length ≤ fuel := by rw [List.length_drop]; omega
      rw [framed_option_iff ht, ← ih hdrop, walkOptions_option fuel ht]
      simp

/-! ## The Hop-by-Hop header (44_chain.md R263) -/

section
variable {x : ParseCtx} {c fin : Nat}

theorem parseHbh_of_short (h : fin - c < 2) : parseHbh x c fin = .error ⟨.malformedFrame, fin⟩ := if_pos (by omega)

variable {seg : List Byte} (hseg : slice x.pb c (fin - c) = seg) (hlen : seg.length = fin - c) (h2 : 2 ≤ seg.length)
include hseg hlen h2

theorem parseHbh_of_truncated (h : seg.length < hbhSize seg) :
    parseHbh x c fin = .error ⟨.malformedFrame, fin⟩ := by
  have hsize : hbhSize seg = 8 * ((byteAt x.pb (c + 1)).toNat + 1) := by
    rw [hbhSize, ← hseg, byteAt_slice (by omega)]
  simp only [parseHbh]
  rw [if_neg (by omega), ← hsize, if_pos (by omega)]

/-- A whole header: its node where its options are framed, else an error at its end. -/
theorem parseHbh_of_whole (h : hbhSize seg ≤ seg.length) [Decidable (Framed (hbhOptions seg))] :
    parseHbh x c fin = if Framed (hbhOptions seg) then
        .ok (hbhNode seg (BitVec.ofNat 16 c), c + hbhSize seg, byteAt seg 0)
      else .error ⟨.malformedFrame, c + hbhSize seg⟩ := by
  have hnh : byteAt x.pb c = byteAt seg 0 := by rw [← hseg, byteAt_slice (by omega), Nat.add_zero]
  have hhlen : byteAt x.pb (c + 1) = byteAt seg 1 := by rw [← hseg, byteAt_slice (by omega)]
  have hsize : 8 * ((byteAt seg 1).toNat + 1) = hbhSize seg := rfl
  have hopts : slice x.pb (c + 2) (hbhSize seg - 2) = hbhOptions seg := by
    rw [hbhOptions, ← slice_drop, ← slice_take (n := fin - c) (by omega), hseg]
  simp only [parseHbh, hnh, hhlen, hsize, hopts]
  rw [if_neg (by omega), if_neg (by omega)]
  exact if_congr (walkOptions_iff le_rfl) rfl rfl
end

/-! ## The dispatch loop (44_chain.md R260) -/

/-- `CH.PARSE` with a variant's byte in `NH` is the variant's unit (log 8). -/
theorem execChParse_of_variant {s : State} {x : Variant} (h : s.hdr.nh = x.disp) : exec .chParse s = exec x.instr s :=
  (chParseDispatchesOnTheNextHeader s).2.2.2 x h

/-- What the parsers read of a state. -/
abbrev State.parseCtx (s : State) : ParseCtx := ⟨s.pb.bytes, s.hdr.src, s.hdr.dst⟩

theorem ofNat_cur (s : State) : BitVec.ofNat 16 s.cur.toNat = s.cur := by rw [BitVec.ofNat_toNat, BitVec.setWidth_eq]

section
variable {s : State} {opt : List Byte → Option Half} {nh : Byte}

theorem exists_dispatch_eq_parsed {l : List Node} {c : Nat} {w : Option Report}
    (h : parseChain opt nh s = .ok (l, c, w)) : ∃ v d, dispatch opt nh s = parsed l c (reportStatus w) v d s :=
  ⟨_, _, dispatch_of_parseChain h⟩

section
variable {r : Except Err (Node × Nat × Option Report)} (hat : s.atPayload) (hmax : 1 ≤ s.par.chainMax)
  (hturn : ∀ room, chainLoop s.parseCtx opt s.payEnd (room + 1) s.cur.toNat nh = terminal r)
include hat hmax hturn

/-- With room for a node, a parser of a terminal node ends the parse. -/
theorem parseChain_of_terminal : parseChain opt nh s = terminal r := by
  obtain ⟨room, hroom⟩ := Nat.exists_eq_add_of_le' hmax
  rw [parseChain_of_atPayload hat, hroom, hturn]

theorem dispatch_of_terminal_malformed {off : Nat} (h : r = .error ⟨.malformedFrame, off⟩) :
    ∃ v d, dispatch opt nh s = failedAny 2 off v d s :=
  dispatch_of_malformed (by rw [parseChain_of_terminal hat hmax hturn, h, terminal])

theorem dispatch_of_terminal_node {n : Node} {c off : Nat} {ok : Bool} (h : r = .ok (n, c, ckReport ok off)) :
    ∃ v d, dispatch opt nh s = parsed [n] c (ckStatus ok off) v d s := by
  rw [← reportStatus_ckReport]
  exact exists_dispatch_eq_parsed (by rw [parseChain_of_terminal hat hmax hturn, h, terminal])
end
end

theorem variantOf_of_unknownNh {b : Byte} (h : unknownNh b) : variantOf b = none := by
  obtain ⟨h0, h6, h17, h58⟩ := h
  rw [variantOf, if_neg h0, if_neg h6, if_neg h17, if_neg h58]

theorem reportStatus_unknownDispatch (off : Nat) :
    reportStatus (some ⟨.unknownDispatch, off⟩) = statusWord 0x20 off := reportStatus_some _

theorem chainLoop_of_unknownNh {nh : Byte} (h : unknownNh nh) (x : ParseCtx) (opt : List Byte → Option Half)
    (fin room c : Nat) :
    chainLoop x opt fin (room + 1) c nh
      = .ok ([rawNode (slice x.pb c (fin - c)) (BitVec.ofNat 16 c)], c, some ⟨.unknownDispatch, c⟩) := by
  rw [chainLoop_succ, variantOf_of_unknownNh h]
  rfl

theorem chainLoop_hbh (x : ParseCtx) (opt : List Byte → Option Half) (fin room c : Nat) :
    chainLoop x opt fin (room + 1) c Variant.hbh.disp
      = (parseHbh x c fin).bind fun r => (chainLoop x opt fin room r.2.1 r.2.2).map fun q => (r.1 :: q.1, q.2) := by
  rw [chainLoop_succ, variantOf_eq_some.mpr rfl]

section
variable {s : State} {room : Nat} (hat : s.atPayload) (hroom : s.par.chainMax = room + 1)
  (opt : List Byte → Option Half)
include hat hroom

theorem parseChain_hbh_of_error {e : Err} (h : parseHbh s.parseCtx s.cur.toNat s.payEnd = .error e) :
    parseChain opt Variant.hbh.disp s = .error e := by
  rw [parseChain_of_atPayload hat, hroom, chainLoop_hbh, h]
  rfl

/-- Behind a well-formed header the loop goes on, and the header's node stands before what it builds. -/
theorem parseChain_hbh_of_framed (h2 : 2 ≤ s.rest.length) (hwhole : hbhSize s.rest ≤ s.rest.length)
    (hframed : Framed (hbhOptions s.rest)) :
    parseChain opt Variant.hbh.disp s
      = (chainLoop s.parseCtx opt s.payEnd room (s.cur.toNat + hbhSize s.rest) (byteAt s.rest 0)).map
          fun q => (hbhNode s.rest s.cur :: q.1, q.2) := by
  classical
  have hparse := parseHbh_of_whole (x := s.parseCtx) (seg := s.rest) rfl (rest_length hat) h2 hwhole
  rw [if_pos hframed, ofNat_cur] at hparse
  rw [parseChain_of_atPayload hat, hroom, chainLoop_hbh, hparse]
  rfl
end

/-! ## The transport units -/

/-- Settles O37: each check of the segment decides once those before it have passed, and the node is the parser's. -/
theorem tcpSegmentsParse : Obligations.TcpSegmentsParse := by
  intro s hat hmax seg doff ok
  have hlen : seg.length = s.payEnd - s.cur.toNat := rest_length hat
  have hmalformed {off : Nat} := dispatch_of_terminal_malformed (opt := firstMss) (nh := Variant.tcp.disp) (off := off)
    hat hmax fun _ => rfl
  refine ⟨execChParse_of_variant (x := .tcp), fun hshort => ?short, fun h20 hlow => ?lowDoff,
    fun h20 h5 hhigh => ?highDoff, fun h20 h5 hin => ?node⟩
  case short => exact hmalformed (parseTcp_of_short (hlen ▸ hshort))
  case lowDoff => exact hmalformed (parseTcp_of_low_doff (hlen ▸ h20) hlow)
  case highDoff => exact hmalformed (parseTcp_of_high_doff (hlen ▸ h20) h5 (hlen.symm.trans_lt hhigh))
  case node =>
    have hdispatch := dispatch_tcp hat hmax firstMss h20 h5 hin
    rw [tcpMss_eq hin] at hdispatch
    exact ⟨_, _, hdispatch⟩

/-- Settles O38: the header check, then the two bounds of the length field, then the node of the bytes it names. -/
theorem udpDatagramsParse : Obligations.UdpDatagramsParse := by
  intro s hat hmax ulen seg ok
  have hlen : s.rest.length = s.payEnd - s.cur.toNat := rest_length hat
  have hmalformed {off : Nat} := dispatch_of_terminal_malformed (opt := firstMss) (nh := Variant.udp.disp) (off := off)
    hat hmax fun _ => rfl
  refine ⟨execChParse_of_variant (x := .udp), fun hshort => ?short, fun h8 hlow => ?lowLength,
    fun h8 hhigh => ?highLength, fun h8 hin => ?node⟩
  case short => exact hmalformed (parseUdp_of_short (hlen ▸ hshort))
  case lowLength => exact hmalformed (parseUdp_of_low_length rfl hlen h8 hlow)
  case highLength => exact hmalformed (parseUdp_of_high_length rfl hlen h8 hhigh)
  case node =>
    have hparse := parseUdp_eq (x := s.parseCtx) rfl hlen h8 hin
    rw [ofNat_cur] at hparse
    exact dispatch_of_terminal_node hat hmax (fun _ => rfl) hparse

/-- Settles O39: the message's length is checked, longer for an echo, then the node is the parser's. -/
theorem icmpMessagesParse : Obligations.IcmpMessagesParse := by
  intro s hat hmax seg echo ok
  have hlen : seg.length = s.payEnd - s.cur.toNat := rest_length hat
  have hmalformed {off : Nat} := dispatch_of_terminal_malformed (opt := firstMss) (nh := Variant.icmp.disp)
    (off := off) hat hmax fun _ => rfl
  refine ⟨execChParse_of_variant (x := .icmp), fun hshort => ?short, fun h4 hecho hshort => ?shortEcho,
    fun h4 h8 => ?node⟩
  case short => exact hmalformed (parseIcmp_of_short (hlen ▸ hshort))
  case shortEcho => exact hmalformed (parseIcmp_of_short_echo (hlen ▸ h4) (isEcho_iff.mpr hecho) (hlen ▸ hshort))
  case node =>
    have hparse := parseIcmp_eq (x := s.parseCtx) rfl hlen h4 fun hecho => h8 (isEcho_iff.mp hecho)
    rw [ofNat_cur] at hparse
    exact dispatch_of_terminal_node hat hmax (fun _ => rfl) hparse

/-! ## Unknown dispatch bytes, and what stands behind a Hop-by-Hop header -/

/-- Settles O40: an unknown byte ends the loop with a RAW node, at its first turn or behind the header. -/
theorem unknownDispatchLeavesARawNode : Obligations.UnknownDispatchLeavesARawNode := by
  intro s hat
  refine ⟨fun hmax hnh => ?first, fun hmax h2 hwhole hframed hnh => ⟨execChParse_of_variant (x := .hbh), ?behind⟩⟩
  case first =>
    obtain ⟨room, hroom⟩ := Nat.exists_eq_add_of_le' hmax
    have hparse := parseChain_of_atPayload hat firstMss s.hdr.nh
    rw [hroom, chainLoop_of_unknownNh hnh, ofNat_cur] at hparse
    rw [← reportStatus_unknownDispatch]
    exact exists_dispatch_eq_parsed hparse
  case behind =>
    obtain ⟨room, hroom⟩ := Nat.exists_eq_add_of_le' hmax
    have hparse := parseChain_hbh_of_framed (room := room + 1) hat hroom firstMss h2 hwhole hframed
    rw [chainLoop_of_unknownNh hnh, ← Nat.sub_sub, ← slice_drop] at hparse
    rw [← reportStatus_unknownDispatch]
    exact exists_dispatch_eq_parsed hparse

/-- The state in which the parse goes on behind the Hop-by-Hop header at the cursor (44_chain.md R263). -/
def State.behindHbh (s : State) (room : Nat) : State :=
  { s with
    cur := BitVec.ofNat 16 (s.cur.toNat + hbhSize s.rest), hdr := { s.hdr with nh := byteAt s.rest 0 }
    par := { s.par with chainMax := room } }

section
variable {s : State} (hat : s.atPayload) (hlen : s.pb.len ≤ 65535) (hwhole : hbhSize s.rest ≤ s.rest.length)
include hat hlen hwhole

theorem behindHbh_cur (room : Nat) : (s.behindHbh room).cur.toNat = s.cur.toNat + hbhSize s.rest := by
  have hrest := rest_length hat
  obtain ⟨hend, hlow, hhigh⟩ := hat
  have hpay : s.payEnd = 40 + s.hdr.plen.toNat := rfl
  exact Nat.mod_eq_of_lt (by omega)

theorem parseChain_behindHbh (opt : List Byte → Option Half) (room : Nat) (nh : Byte) :
    parseChain opt nh (s.behindHbh room)
      = chainLoop s.parseCtx opt s.payEnd room (s.cur.toNat + hbhSize s.rest) nh := by
  have hcur := behindHbh_cur hat hlen hwhole room
  have hrest := rest_length hat
  obtain ⟨hend, hlow, hhigh⟩ := hat
  have hpay : s.payEnd = 40 + s.hdr.plen.toNat := rfl
  have hat' : (s.behindHbh room).atPayload := by
    rw [State.atPayload, hcur]
    exact ⟨hend, by omega, show _ ≤ 40 + s.hdr.plen.toNat by omega⟩
  rw [parseChain_of_atPayload hat', hcur]
  rfl
end

theorem errField_ne_zero_of_fatal {e : Err} (h : e.fatal = true) : errField e.status ≠ 0 := by
  have hcode := Err.code_mem_of_fatal h
  simp only [List.mem_cons, List.not_mem_nil, or_false] at hcode
  rw [Err.status_eq_statusWord, errField_statusWord _ (by omega)]
  omega

/-- Settles O41: an error of the header ends the command; past a whole, framed header both parses run the same loop,
whose errors are fatal and whose reports are not. -/
theorem hopByHopHeadersParse : Obligations.HopByHopHeadersParse := by
  intro s room hat hlen65535 hroom seg lim s2
  have hlen : seg.length = s.payEnd - s.cur.toNat := rest_length hat
  have hmalformed {off : Nat} (h : parseHbh s.parseCtx s.cur.toNat s.payEnd = .error ⟨.malformedFrame, off⟩) :
      ∃ v d, exec .wireNhHbh s = failedAny 2 off v d s :=
    dispatch_of_malformed (parseChain_hbh_of_error hat hroom firstMss h)
  refine ⟨fun hshort => ?short, fun h2 hcut => ?truncated, fun h2 hwhole hragged => ?unframed,
    fun h2 hwhole hframed => ?goesOn⟩
  case short => exact hmalformed (parseHbh_of_short (hlen ▸ hshort))
  case truncated => exact hmalformed (parseHbh_of_truncated rfl hlen h2 hcut)
  case unframed =>
    classical
    exact hmalformed ((parseHbh_of_whole (seg := seg) rfl hlen h2 hwhole).trans (if_neg hragged))
  case goesOn =>
    have hhere := parseChain_hbh_of_framed hat hroom firstMss h2 hwhole hframed
    have hbehind := parseChain_behindHbh hat hlen65535 hwhole firstMss room (byteAt s.rest 0)
    rw [← hbehind] at hhere
    have hexec : exec .wireNhHbh s = dispatch firstMss Variant.hbh.disp s := rfl
    have hexec2 : exec .chParse s2 = dispatch firstMss (byteAt s.rest 0) (s.behindHbh room) := rfl
    rcases hrest : parseChain firstMss (byteAt s.rest 0) (s.behindHbh room) with e | ⟨l, c, w⟩
    · rw [hrest] at hhere
      have hfatal : errField e.status ≠ 0 := errField_ne_zero_of_fatal (parseChain_fatal e hrest)
      refine ⟨_, hexec2.trans (by rw [dispatch, hrest]; rfl), fun _ => ?_, fun h => absurd h hfatal⟩
      rw [hexec, dispatch, hhere]
      rfl
    · rw [hrest] at hhere
      have hreport : errField (reportStatus w) = 0 := errField_reportStatus w
      refine ⟨_, hexec2.trans (dispatch_of_parseChain hrest), fun h => absurd hreport h, fun _ => ?_⟩
      exact hexec.trans (dispatch_of_parseChain hhere)

end Sys2Proof.Machine
end

section
/-! SUPPORT. The chain and node commands (44_chain.md R270 to R276): the checks of `CH.PUSH` and the node it builds, the
staging fields by id. -/

namespace Sys2Proof.Machine

/-! ## Reading the chain (44_chain.md R270, R272 to R274) -/

/-- Settles O43: both commands are record updates. -/
theorem chClearAndLen : Obligations.ChClearAndLen := fun _ => ⟨rfl, rfl⟩

section
variable {s : State} {idx : Half}

theorem execChRd_of_outside (field : NodeField) (h : s.chain.length ≤ idx.toNat) :
    execChRd field idx s = failed 1 idx.toNat s := by
  rw [execChRd, List.getElem?_eq_none h]
  exact raise_eq_failed _ s

theorem execChRdp_of_outside (h : s.chain.length ≤ idx.toNat) : execChRdp idx s = failed 1 idx.toNat s := by
  rw [execChRdp, List.getElem?_eq_none h]
  exact raise_eq_failed _ s

variable {n : Node} (hn : s.chain[idx.toNat]? = some n)
include hn

theorem execChRd_of_node (field : NodeField) :
    execChRd field idx s = ret (if hasField n.kind field then n.raw field else 0) s := by
  rw [execChRd, hn]
  rfl

theorem execChRdp_of_byte {b : Byte} (hb : n.payload[s.tx.arg0.toNat]? = some b) :
    execChRdp idx s = ret (zext b) s := by
  simp only [execChRdp, hn, hb]

theorem execChRdp_of_beyond (h : n.payload.length ≤ s.tx.arg0.toNat) :
    execChRdp idx s = failed 1 (s.tx.arg0.toNat % 65536) s := by
  have hoff : (s.tx.arg0.extractLsb' 0 16).toNat = s.tx.arg0.toNat % 65536 := by
    rw [BitVec.extractLsb'_toNat, Nat.shiftRight_zero]
  simp only [execChRdp, hn, List.getElem?_eq_none h, hoff]
  exact raise_eq_failed _ s
end

/-- Settles O45: inside the chain the node's field or payload byte is returned, and each bound raises its error. -/
theorem chainReads : Obligations.ChainReads := by
  intro s f idx
  refine ⟨fun hout => ⟨execChRd_of_outside f hout, execChRdp_of_outside hout⟩, fun n hn =>
    ⟨fun hhas => ?has, fun hnot => ?hasNot, execChRdp_of_beyond hn, fun _ hb => execChRdp_of_byte hn hb⟩⟩
  case has => exact (execChRd_of_node hn f).trans (by rw [if_pos hhas]; rfl)
  case hasNot => exact (execChRd_of_node hn f).trans (by rw [if_neg (Bool.eq_false_iff.mp hnot)]; rfl)

/-! ## `CH.PUSH` (44_chain.md R271) -/

theorem terminated_iff {chain : List Node} :
    terminated chain = true ↔ ∃ n, chain.getLast? = some n ∧ n.kind ≠ .hbh := by
  unfold terminated
  cases chain.getLast? <;> simp

section
variable {k : Kind} {s : State}

theorem execChPush_of_full (h : s.chain.length = s.par.chainMax) : execChPush k s = failed 1 s.par.chainMax s := by
  have herror : pushError k s = some ⟨.outOfRange, s.par.chainMax⟩ := if_pos h
  rw [execChPush, herror]
  exact raise_eq_failed _ s

variable (hroom : s.chain.length ≠ s.par.chainMax)
include hroom

theorem execChPush_of_terminated (h : terminated s.chain = true) : execChPush k s = failed 1 s.chain.length s := by
  have herror : pushError k s = some ⟨.outOfRange, s.chain.length⟩ := (if_neg hroom).trans (if_pos h)
  rw [execChPush, herror]
  exact raise_eq_failed _ s

variable (hopen : ¬ terminated s.chain = true)
include hopen

theorem execChPush_of_ragged
    (h : k = .hbh ∧ ((s.node.payload.length + 2) % 8 ≠ 0 ∨ s.node.payload.length > 2046)) :
    execChPush k s = failed 2 s.node.payload.length s := by
  have herror : pushError k s = some ⟨.malformedFrame, s.node.payload.length⟩ :=
    (if_neg hroom).trans ((if_neg hopen).trans (if_pos h))
  rw [execChPush, herror]
  exact raise_eq_failed _ s

theorem execChPush_of_fits
    (h : ¬ (k = .hbh ∧ ((s.node.payload.length + 2) % 8 ≠ 0 ∨ s.node.payload.length > 2046))) :
    execChPush k s = done { s with chain := s.chain ++ [s.node.build k] } := by
  have hnone : pushError k s = none := (if_neg hroom).trans ((if_neg hopen).trans (if_neg h))
  rw [execChPush, hnone]
end

/-- The node built has the staging values in the fields of its kind, 0 in the others. -/
theorem Staging.raw_build (st : Staging) (k : Kind) {f : NodeField} (h : f.stageable = true) :
    (st.build k).raw f = if hasField k f then ({ kind := k, f := st.f } : Node).raw f else 0 := by
  cases f with
  | kind | ckok | paylen | offset => cases h
  | _ => cases k <;> rfl

/-- Settles O44: each check of the command decides once those before it have passed, and the node is the one built
of the staging node. -/
theorem chPushAppendsTheStagedNode : Obligations.ChPushAppendsTheStagedNode := by
  intro s k full ended p ragged
  refine ⟨fun hfull => ?full, fun hroom hended => ?ended, fun hroom hopen hragged => ?ragged,
    fun hroom hopen hfits => ?push⟩
  case full => exact execChPush_of_full hfull
  case ended => exact execChPush_of_terminated hroom (terminated_iff.mpr hended)
  case ragged => exact execChPush_of_ragged hroom (mt terminated_iff.mp hopen) hragged
  case push =>
    exact ⟨s.node.build k, execChPush_of_fits hroom (mt terminated_iff.mp hopen) hfits, rfl, rfl, rfl, rfl,
      fun _ => s.node.raw_build k⟩

/-! ## The staging node (44_chain.md R275, R276) -/

/-- A value staged reads back without its upper bits. -/
theorem NodeFields.raw_put_self (g : NodeFields) (k : Kind) (v : Word) {f : NodeField} (h : f.stageable = true) :
    (({ kind := k, f := g.put f v } : Node).raw f).toNat = v.toNat % 2 ^ fieldWidth f := by
  cases f with
  | kind | ckok | paylen | offset => cases h
  | seq | ack => exact (Nat.mod_eq_of_lt v.isLt).symm
  | _ => exact zext_setWidth_toNat v

theorem NodeFields.raw_put_of_ne (g : NodeFields) (k : Kind) (v : Word) {f f' : NodeField} (h : f' ≠ f) :
    ({ kind := k, f := g.put f v } : Node).raw f' = ({ kind := k, f := g } : Node).raw f' := by
  cases f' <;> cases f <;> trivial

/-- Settles O46: writing one staging field by its id, the command being a record update. -/
theorem ndWrStagesOneField : Obligations.NdWrStagesOneField := by
  intro s f hf
  have hexec : exec (.ndWr f) s = _ := if_pos hf
  exact ⟨s.node.f.put f s.tx.arg0, hexec, fun k =>
    ⟨s.node.f.raw_put_self k _ hf, fun _ hne => s.node.f.raw_put_of_ne k _ hne⟩⟩

/-- Settles O47: with the data the word names, the command is the bounds check and a record update. -/
theorem ndPayloadStagesThePayload : Obligations.NdPayloadStagesThePayload := by
  intro s n hdata
  have hexec : exec (.ndPayload n) s = if n.toNat > s.par.npCap then raise ⟨.outOfRange, s.par.npCap⟩ s
      else done { s with node := { s.node with payload := s.tx.data } } := by
    change execNdPayload n s = _
    rw [execNdPayload, dataOf_eq_some.mpr ⟨rfl, hdata⟩]
  refine ⟨fun hfits => ?stages, fun hlong => ?tooLong⟩
  case stages => exact hexec.trans (if_neg (Nat.not_lt.mpr hfits))
  case tooLong => exact hexec.trans ((if_pos hlong).trans (raise_eq_failed _ s))

end Sys2Proof.Machine
end

section
/-! SUPPORT. Serialization (45_serialize.md R300 to R308): the bytes of a node and the fields recomputed for it, the
chain as serialization leaves it, and the command on a chain that fits. -/

namespace Sys2Proof.Machine

/-! ## A node's bytes and its checksum field -/

/-- Where the checksum stands in the bytes of a node of a kind; only the transport kinds have one (10_state.md R28). -/
def ckPlace : Kind → Nat
  | .tcp => 16 | .udp => 6 | .icmp => 2 | .hbh | .raw => 0

/-- The bytes of a transport node before its checksum field (45_serialize.md R305 to R307). -/
def Node.ckFront (n : Node) : List Byte :=
  match n.kind with
  | .tcp =>
    b2 n.f.sport ++ b2 n.f.dport ++ b4 n.f.seq ++ b4 n.f.ack ++ [n.f.doff ++ 0#4, 0#2 ++ n.f.flags] ++ b2 n.f.window
  | .udp => b2 n.f.sport ++ b2 n.f.dport ++ b2 n.f.length
  | .icmp => [n.f.itype, n.f.code]
  | .hbh | .raw => []

/-- The bytes of a transport node behind its checksum field. -/
def Node.ckBack (n : Node) : List Byte :=
  match n.kind with
  | .tcp => b2 n.f.urg ++ (if n.f.flags.getLsbD 1 then [2, 4] ++ b2 n.f.mss else []) ++ n.payload
  | .udp => n.payload
  | .icmp => (if n.f.itype = 128 ∨ n.f.itype = 129 then b2 n.f.ident ++ b2 n.f.seqno else []) ++ n.payload
  | .hbh | .raw => []

/-- The fields of a transport node with the one that counts its bytes recomputed: `DOFF` or `LENGTH`. -/
def Node.sized (n : Node) : NodeFields :=
  match n.kind with
  | .tcp => { n.f with doff := if n.f.flags.getLsbD 1 then 6 else 5 }
  | .udp => { n.f with length := BitVec.ofNat 16 (8 + n.payload.length) }
  | .icmp | .hbh | .raw => n.f

theorem withCk_append (front back : List Byte) (old ck : Half) :
    withCk (front ++ b2 old ++ back) front.length ck = front ++ b2 ck ++ back := by
  have hdrop : (front ++ b2 old ++ back).drop (front.length + 2) = back := by
    rw [← b2_length old, ← List.length_append, List.drop_left]
  have htake : (front ++ b2 old ++ back).take front.length = front := by rw [List.append_assoc, List.take_left]
  rw [withCk, tobe_half, splice, b2_length, hdrop, htake]

section
variable {n : Node} (hck : hasField n.kind .ckok = true)
include hck

theorem nodeBytes_eq_ckField : nodeBytes n = n.ckFront ++ b2 n.f.cksum ++ n.ckBack := by
  cases hk : n.kind with
  | hbh | raw => rw [hk] at hck; cases hck
  | _ => simp only [nodeBytes, Node.ckFront, Node.ckBack, hk, List.append_assoc]

theorem ckFront_length : n.ckFront.length = ckPlace n.kind := by
  cases hk : n.kind with
  | hbh | raw => rw [hk] at hck; cases hck
  | _ => simp [Node.ckFront, ckPlace, hk]

theorem ckPlace_le : ckPlace n.kind + 2 ≤ (nodeBytes n).length := by
  rw [nodeBytes_eq_ckField hck, ← ckFront_length hck]
  simp

/-- Writing the checksum field of a node's bytes gives the bytes of the node with that checksum. -/
theorem withCk_nodeBytes (ck : Half) :
    withCk (nodeBytes n) (ckPlace n.kind) ck = nodeBytes { n with f := { n.f with cksum := ck } } := by
  have hck' : hasField ({ n with f := { n.f with cksum := ck } } : Node).kind .ckok = true := hck
  rw [nodeBytes_eq_ckField hck, nodeBytes_eq_ckField hck', ← ckFront_length hck]
  exact withCk_append _ _ _ _

theorem recomputed_eq_summed (src dst : Addr) :
    n.recomputed src dst = n.summed src dst (dispOr n.kind 0) (ckPlace n.kind) n.sized := by
  cases hk : n.kind with
  | hbh | raw => rw [hk] at hck; cases hck
  | _ => simp only [Node.recomputed, Node.sized, hk]; rfl

/-- A transport node is as serialization leaves it when its sizes are those of its bytes and its checksum verifies. -/
theorem recomputed_eq_self_iff {src dst : Addr} :
    n.recomputed src dst = n ↔ n.sized = n.f ∧ n.ckok = true
      ∧ transportCk src dst (dispOr n.kind 0) (nodeBytes n) (ckPlace n.kind) = n.f.cksum := by
  have hsum : transportCk src dst (dispOr n.kind 0) (nodeBytes { n with f := { n.f with cksum := 0 } }) (ckPlace n.kind)
      = transportCk src dst (dispOr n.kind 0) (nodeBytes n) (ckPlace n.kind) := by
    rw [← withCk_nodeBytes hck, transportCk_withCk _ _ _ (ckPlace_le hck)]
  rw [recomputed_eq_summed hck, Node.summed]
  constructor
  · intro h
    have hf := congrArg Node.f h
    have hok : true = n.ckok := congrArg Node.ckok h
    have hsized : n.sized = n.f := by
      have hcksum : n.sized.cksum = n.f.cksum := by cases hk : n.kind <;> simp only [Node.sized, hk]
      calc n.sized = { n.sized with cksum := n.f.cksum } := by rw [← hcksum]
        _ = n.f := by rw [← hf]
    have hcksum := congrArg NodeFields.cksum hf
    rw [hsized, hsum] at hcksum
    exact ⟨hsized, hok.symm, hcksum⟩
  · rintro ⟨hsized, hok, hcksum⟩
    rw [hsized, hsum, hcksum, ← hok]
end

theorem recomputed_recomputed (src dst : Addr) (n : Node) :
    (n.recomputed src dst).recomputed src dst = n.recomputed src dst := by
  obtain ⟨kind, f, ckok, payload, offset⟩ := n
  cases kind <;> rfl

@[simp] theorem recomputed_size (src dst : Addr) (n : Node) : (n.recomputed src dst).size = n.size := by
  obtain ⟨kind, f, ckok, payload, offset⟩ := n
  cases kind <;> rfl

/-! ## Emission is recomputation -/

section
variable (src dst : Addr) {n : Node}

/-- Emission of a transport node with the fields `g`, of whose bytes with no checksum `seg` is the segment. -/
theorem emit_summed (hck : hasField n.kind .ckok = true) (nh : Byte) {k : Nat} (hk : ckPlace n.kind = k)
    (g : NodeFields) {seg : List Byte} (hseg : seg = nodeBytes { n with f := { g with cksum := 0 } }) :
    (({ n with f := { g with cksum := transportCk src dst nh seg k }, ckok := true } : Node),
        withCk seg k (transportCk src dst nh seg k))
      = (n.summed src dst nh k g, nodeBytes (n.summed src dst nh k g)) := by
  have hck' : hasField ({ n with f := { g with cksum := 0 } } : Node).kind .ckok = true := hck
  subst hseg hk
  exact Prod.ext rfl (withCk_nodeBytes hck' _)

theorem tcpSegment_eq (hk : n.kind = .tcp) (doff : BitVec 4) :
    tcpSegment n doff = nodeBytes { n with f := { n.f with doff := doff, cksum := 0 } } := by
  simp only [tcpSegment, nodeBytes, hk, isSyn, tobe_half, tobe_word, b4_encodeMss]
  rfl

theorem emitTcp_eq (hk : n.kind = .tcp) :
    emitTcp src dst n = (n.recomputed src dst, nodeBytes (n.recomputed src dst)) := by
  have hrec : n.recomputed src dst = n.summed src dst 6 16 { n.f with doff := if isSyn n.f then 6 else 5 } := by
    simp only [Node.recomputed, hk]; rfl
  rw [hrec]
  exact emit_summed src dst (by rw [hk]; rfl) 6 (k := 16) (by rw [hk, ckPlace])
    { n.f with doff := if isSyn n.f then 6 else 5 } (tcpSegment_eq hk _)

theorem emitUdp_eq (hk : n.kind = .udp) :
    emitUdp src dst n = (n.recomputed src dst, nodeBytes (n.recomputed src dst)) := by
  have hrec : n.recomputed src dst
      = n.summed src dst 17 6 { n.f with length := BitVec.ofNat 16 (8 + n.payload.length) } := by
    simp only [Node.recomputed, hk]
  rw [hrec]
  refine emit_summed src dst (by rw [hk]; rfl) 17 (k := 6) (by rw [hk, ckPlace])
    { n.f with length := BitVec.ofNat 16 (8 + n.payload.length) } ?_
  simp only [nodeBytes, hk, tobe_half]
  rfl

theorem emitIcmp_eq (hk : n.kind = .icmp) :
    emitIcmp src dst n = (n.recomputed src dst, nodeBytes (n.recomputed src dst)) := by
  have hrec : n.recomputed src dst = n.summed src dst 58 2 n.f := by simp only [Node.recomputed, hk]
  rw [hrec]
  refine emit_summed src dst (by rw [hk]; rfl) 58 (k := 2) (by rw [hk, ckPlace]) n.f ?_
  simp only [nodeBytes, hk, tobe_half, isEcho_iff]
  rfl

/-- What is emitted for a node is its recomputed form and the bytes of that (45_serialize.md R304 to R308). -/
theorem emitNode_eq (n : Node) :
    emitNode src dst n = (n.recomputed src dst, nodeBytes (n.recomputed src dst)) := by
  cases hk : n.kind with
  | hbh => simp only [emitNode, emitHbh, Node.recomputed, nodeBytes, hk]
  | raw => simp only [emitNode, Node.recomputed, nodeBytes, hk]
  | tcp => rw [← emitTcp_eq src dst hk, emitNode, hk]
  | udp => rw [← emitUdp_eq src dst hk, emitNode, hk]
  | icmp => rw [← emitIcmp_eq src dst hk, emitNode, hk]
end

/-! ## Linking -/

theorem leadNh_cons (n : Node) (ns : List Node) (nh : Byte) : leadNh (n :: ns) nh = dispOr n.kind nh := by
  cases hk : n.kind <;> simp only [leadNh, kindDisp, hk] <;> rfl

theorem linkNh_cons (n : Node) (ns : List Node) :
    linkNh (n :: ns) = { n with f := { n.f with nh := leadNh ns n.f.nh } } :: linkNh ns := by
  cases ns <;> rfl

theorem leadNh_leadNh (l : List Node) (nh : Byte) : leadNh l (leadNh l nh) = leadNh l nh := by
  cases l with
  | nil => rfl
  | cons n ns => simp only [leadNh_cons]; cases n.kind <;> rfl

/-! ## The chain as serialization leaves it -/

/-- Node `n` before the chain `ns` at offset `off`: linked, placed and recomputed (45_serialize.md R302 to R308). -/
def Node.laid (src dst : Addr) (off : Nat) (ns : List Node) (n : Node) : Node :=
  ({ n with f := { n.f with nh := leadNh ns n.f.nh }, offset := BitVec.ofNat 16 off } : Node).recomputed src dst

/-- The nodes of a chain laid one behind the other from offset `off`. -/
def laidChain (src dst : Addr) : Nat → List Node → List Node
  | _, [] => []
  | off, n :: ns => n.laid src dst off ns :: laidChain src dst (off + n.size) ns

section
variable (src dst : Addr) (off : Nat)

@[simp] theorem laid_kind (ns : List Node) (n : Node) : (n.laid src dst off ns).kind = n.kind :=
  Node.recomputed_kind src dst _

@[simp] theorem laid_size (ns : List Node) (n : Node) : (n.laid src dst off ns).size = n.size :=
  recomputed_size src dst _

/-- Serialization is laying out the linked chain and the bytes of what results. -/
theorem emitChain_linkNh (l : List Node) :
    emitChain src dst off (linkNh l) = (laidChain src dst off l, (laidChain src dst off l).flatMap nodeBytes) := by
  induction l generalizing off with
  | nil => rfl
  | cons n ns ih =>
    simp only [linkNh_cons, emitChain, emitNode_eq, nodeBytes_length, recomputed_size, laidChain, List.flatMap_cons]
    exact ih (off + n.size) ▸ rfl

theorem laidChain_kinds (l : List Node) : (laidChain src dst off l).map Node.kind = l.map Node.kind := by
  have h := emitChain_kinds src dst off (linkNh l)
  rwa [emitChain_linkNh, linkNh_kinds] at h

theorem leadNh_laidChain (l : List Node) (nh : Byte) : leadNh (laidChain src dst off l) nh = leadNh l nh := by
  cases l with
  | nil => rfl
  | cons n ns => rw [laidChain, leadNh_cons, leadNh_cons, laid_kind]

theorem laid_laid {ns ns' : List Node} (hlead : ∀ nh, leadNh ns' nh = leadNh ns nh) (n : Node) :
    (n.laid src dst off ns).laid src dst off ns' = n.laid src dst off ns := by
  have hnh : leadNh ns' (n.laid src dst off ns).f.nh = (n.laid src dst off ns).f.nh := by
    rw [Node.laid, Node.recomputed_nh, hlead, leadNh_leadNh]
  have hoff : BitVec.ofNat 16 off = (n.laid src dst off ns).offset := by rw [Node.laid, Node.recomputed_offset]
  conv_lhs => rw [Node.laid, hnh, hoff]
  exact recomputed_recomputed src dst _

/-- Laying out a laid chain changes nothing. -/
theorem laidChain_laidChain (l : List Node) :
    laidChain src dst off (laidChain src dst off l) = laidChain src dst off l := by
  induction l generalizing off with
  | nil => rfl
  | cons n ns ih =>
    simp only [laidChain, laid_size]
    rw [ih, laid_laid src dst off (leadNh_laidChain src dst _ ns)]

/-- A node that is as it was laid: its link, its place and its recomputed fields. -/
theorem laid_eq_self_iff {src dst : Addr} {off : Nat} {ns : List Node} {n : Node} : n.laid src dst off ns = n ↔
    leadNh ns n.f.nh = n.f.nh ∧ BitVec.ofNat 16 off = n.offset ∧ n.recomputed src dst = n := by
  constructor
  · intro h
    have hnh : leadNh ns n.f.nh = n.f.nh := by simpa [Node.laid] using congrArg (fun m => m.f.nh) h
    have hoff : BitVec.ofNat 16 off = n.offset := by simpa [Node.laid] using congrArg Node.offset h
    refine ⟨hnh, hoff, ?_⟩
    rwa [Node.laid, hnh, hoff] at h
  · rintro ⟨hnh, hoff, hrec⟩
    rw [Node.laid, hnh, hoff]
    exact hrec

theorem laidChain_cons_eq_self_iff {src dst : Addr} {off : Nat} {ns : List Node} {n : Node} :
    laidChain src dst off (n :: ns) = n :: ns
      ↔ n.laid src dst off ns = n ∧ laidChain src dst (off + n.size) ns = ns := by
  rw [laidChain, List.cons.injEq]

theorem laidChain_length (l : List Node) : (laidChain src dst off l).length = l.length := by
  simpa using congrArg List.length (laidChain_kinds src dst off l)

theorem laidChain_getElem? {l : List Node} {k : Nat} {n : Node} (h : l[k]? = some n) :
    (laidChain src dst off l)[k]? = some (n.laid src dst (off + totalSize (l.take k)) (l.drop (k + 1))) := by
  induction l generalizing off k with
  | nil => cases h
  | cons m ms ih =>
    cases k with
    | zero => cases h; rfl
    | succ k =>
      rw [laidChain, List.getElem?_cons_succ, ih (off + m.size) h, List.take_succ_cons, totalSize, totalSize,
        List.map_cons, List.sum_cons, Nat.add_assoc]
      rfl
end

/-! ## The command -/

theorem chainSize_eq (l : List Node) : chainSize l = totalSize l := by
  induction l with
  | nil => rfl
  | cons n ns ih => rw [chainSize, ih, totalSize, totalSize, List.map_cons, List.sum_cons]

theorem flatMap_nodeBytes_length (l : List Node) : (l.flatMap nodeBytes).length = totalSize l := by
  simp [List.length_flatMap, nodeBytes_length, totalSize]

theorem totalSize_laidChain (src dst : Addr) (off : Nat) (l : List Node) :
    totalSize (laidChain src dst off l) = totalSize l := by
  have h := emitChain_length src dst off (linkNh l)
  rwa [emitChain_linkNh, chainSize_linkNh, chainSize_eq, flatMap_nodeBytes_length] at h

/-- The header registers as serialization leaves them (45_serialize.md R302, R303). -/
def State.laidHdr (s : State) : Hdr :=
  { s.hdr with plen := BitVec.ofNat 16 (totalSize s.chain), nh := leadNh s.chain s.hdr.nh }

/-- The chain of a state as serialization leaves it. -/
def State.laid (s : State) : List Node := laidChain s.hdr.src s.hdr.dst 40 s.chain

/-- The bytes of the packet serialization writes (45_serialize.md R300). -/
def State.packet (s : State) : List Byte := headerBytes s.laidHdr ++ s.laid.flatMap nodeBytes

/-- The state serialization leaves where the packet fits (45_serialize.md R300). -/
def State.serialized (s : State) : State :=
  { s with
    hdr := s.laidHdr, pb := Memory.ofBytes s.packet, chain := s.laid
    cur := BitVec.ofNat 16 (40 + totalSize s.chain), acc := Config.freeAcc s.draws, draws := s.draws + 1, status := 0 }

section
variable {s : State}

theorem packet_length : s.packet.length = 40 + totalSize s.chain := by
  rw [State.packet, List.length_append, headerBytes_length, flatMap_nodeBytes_length, State.laid, totalSize_laidChain]

theorem execIpSerialize_of_long (h : s.par.pbCap < 40 + totalSize s.chain) :
    execIpSerialize s = failedAny 1 s.par.pbCap (Config.freeAcc s.draws) (s.draws + 1) s := by
  rw [execIpSerialize, chainSize_eq, if_pos h, raiseAny_eq_failedAny]
  rfl

theorem execIpSerialize_of_fits (h : 40 + totalSize s.chain ≤ s.par.pbCap) :
    execIpSerialize s = .next s.serialized := by
  rw [execIpSerialize, chainSize_eq, if_neg h.not_gt]
  simp only [emitChain_linkNh]
  rfl
end

/-- Settles O48: the command lays out the chain, and a laid chain's nodes are known one by one. -/
theorem serializeLaysOutTheChain : Obligations.SerializeLaysOutTheChain := by
  intro s total h
  have hh : h = s.laidHdr := by
    simp only [h, total, State.laidHdr]
    cases s.chain with
    | nil => rfl
    | cons n ns => rw [leadNh_cons]; rfl
  rw [hh]
  refine ⟨fun hlong => ⟨_, _, execIpSerialize_of_long hlong⟩, fun hfits =>
    ⟨Memory.ofBytes s.packet, s.laid, _, _, execIpSerialize_of_fits hfits, Memory.wf_ofBytes _, ?_,
      Memory.bytes_ofBytes _, laidChain_length _ _ _ _, fun k a ha => ?_⟩⟩
  · rw [Memory.len_ofBytes, packet_length]
  · have hnode := laidChain_getElem? s.hdr.src s.hdr.dst 40 ha
    rw [State.laid, hnode, Node.laid]
    have hnh : leadNh (s.chain.drop (k + 1)) a.f.nh = match s.chain[k + 1]? with
        | some b => dispOr b.kind a.f.nh
        | none => a.f.nh := by
      rw [← List.head?_drop]
      cases s.chain.drop (k + 1) with
      | nil => rfl
      | cons b bs => exact leadNh_cons _ _ _
    rw [hnh]
    rfl

/-! ## A chain of one node -/

theorem append_zeroes_eq_ofNat (d : BitVec 4) : d ++ 0#4 = BitVec.ofNat 8 (d.toNat * 16) := by
  apply BitVec.eq_of_toNat_eq
  rw [BitVec.toNat_append, Nat.shiftLeft_eq, BitVec.toNat_ofNat, BitVec.toNat_ofNat, Nat.zero_mod, Nat.or_zero]
  omega

theorem zeroes_append_eq_setWidth (f : BitVec 6) : 0#2 ++ f = f.setWidth 8 := by
  apply BitVec.eq_of_toNat_eq
  rw [BitVec.toNat_append, BitVec.toNat_setWidth, BitVec.toNat_ofNat, Nat.zero_mod, Nat.zero_shiftLeft, Nat.zero_or,
    Nat.mod_eq_of_lt (by omega)]

/-- A chain of one node is that node placed behind the header and recomputed. -/
theorem laid_of_singleton {s : State} {n : Node} (h : s.chain = [n]) :
    s.laid = [({ n with offset := 40 } : Node).recomputed s.hdr.src s.hdr.dst] := by
  rw [State.laid, h]
  rfl

/-- The command on a chain of one node, given what that node becomes. -/
theorem execIpSerialize_of_singleton {s : State} {n m : Node} (hchain : s.chain = [n])
    (hfits : 40 + n.size ≤ s.par.pbCap) (hm : ({ n with offset := 40 } : Node).recomputed s.hdr.src s.hdr.dst = m) :
    let h : Hdr := { s.hdr with nh := dispOr n.kind s.hdr.nh, plen := BitVec.ofNat 16 n.size }
    execIpSerialize s = .next { s with
      hdr := h, chain := [m], pb := Memory.ofBytes (headerBytes h ++ nodeBytes m)
      cur := BitVec.ofNat 16 (40 + n.size), acc := Config.freeAcc s.draws, draws := s.draws + 1, status := 0 } := by
  intro h
  have htotal : totalSize s.chain = n.size := by rw [hchain]; rfl
  have hhdr : s.laidHdr = h := by rw [State.laidHdr, htotal, hchain, leadNh_cons]
  have hlaid : s.laid = [m] := by rw [laid_of_singleton hchain, hm]
  have hpacket : s.packet = headerBytes h ++ nodeBytes m := by
    rw [State.packet, hhdr, hlaid, List.flatMap_singleton]
  rw [execIpSerialize_of_fits (htotal ▸ hfits), State.serialized, hhdr, hlaid, hpacket, htotal]

/-- A transport node with the fields `g`, whose bytes are `front` and `back` around the checksum: what it becomes with
its checksum computed, and the bytes of that. -/
theorem summed_eq {n : Node} (hck : hasField n.kind .ckok = true) (src dst : Addr) (nh : Byte) (k : Nat)
    {g : NodeFields} {front back : List Byte} (hfront : ({ n with f := g } : Node).ckFront = front)
    (hback : ({ n with f := g } : Node).ckBack = back) :
    let ck := transportCk src dst nh (front ++ [0, 0] ++ back) k
    n.summed src dst nh k g = { n with f := { g with cksum := ck }, ckok := true }
      ∧ nodeBytes (n.summed src dst nh k g) = front ++ b2 ck ++ back := by
  have hbytes (ck : Half) (ok : Bool) : nodeBytes { n with f := { g with cksum := ck }, ckok := ok }
      = front ++ b2 ck ++ back := by
    have hck' : hasField ({ n with f := { g with cksum := ck }, ckok := ok } : Node).kind .ckok = true := hck
    rw [nodeBytes_eq_ckField hck', ← hfront, ← hback]
    rfl
  intro ck
  have hsummed : n.summed src dst nh k g = { n with f := { g with cksum := ck }, ckok := true } := by
    rw [Node.summed, hbytes 0 n.ckok]
    rfl
  exact ⟨hsummed, hsummed ▸ hbytes ck true⟩

/-- Settles O49: a chain of one node is laid out as that node recomputed, whose bytes stand around its checksum. -/
theorem serializedNodeBytes : Obligations.SerializedNodeBytes := by
  intro s n hchain hfits src dst f p syn wrote
  have hwrote {nh g ok bytes} (hnh : dispOr n.kind s.hdr.nh = nh)
      (hrec : ({ n with offset := 40 } : Node).recomputed src dst = { n with f := g, ckok := ok, offset := 40 })
      (hbytes : nodeBytes { n with f := g, ckok := ok, offset := 40 } = bytes) : wrote nh g ok bytes := by
    subst hnh hbytes
    exact ⟨_, _, execIpSerialize_of_singleton hchain hfits hrec⟩
  have hsummed {nh k g front back} (hck : hasField n.kind .ckok = true) (hnh : dispOr n.kind s.hdr.nh = nh)
      (hrec : ({ n with offset := 40 } : Node).recomputed src dst = Node.summed src dst nh k { n with offset := 40 } g)
      (hfront : ({ n with f := g, offset := 40 } : Node).ckFront = front)
      (hback : ({ n with f := g, offset := 40 } : Node).ckBack = back) :
      let ck := transportCk src dst nh (front ++ [0, 0] ++ back) k
      wrote nh { g with cksum := ck } true (front ++ b2 ck ++ back) := by
    obtain ⟨hnode, hbytes⟩ := summed_eq (n := { n with offset := 40 }) hck src dst nh k hfront hback
    exact hwrote hnh (hrec.trans hnode) (hnode ▸ hbytes)
  refine ⟨fun hk => ?hbh, fun hk => ?tcp, fun hk => ?udp, fun hk => ?icmp, fun hk => ?raw⟩
  case hbh =>
    exact hwrote (by rw [hk]; rfl) (by simp only [Node.recomputed, hk, f, p]) (by simp only [nodeBytes, hk, f, p])
  case raw => exact hwrote (by rw [hk]; rfl) (by simp only [Node.recomputed, hk, f]) (by simp only [nodeBytes, hk, p])
  case tcp =>
    refine hsummed (g := { f with doff := if syn then 6 else 5 }) (by rw [hk]; rfl) (by rw [hk]; rfl)
      (by simp only [Node.recomputed, hk, f, syn]) ?_ (by simp only [Node.ckBack, hk, f, p, syn])
    simp only [Node.ckFront, hk, append_zeroes_eq_ofNat, zeroes_append_eq_setWidth]
  case udp =>
    exact hsummed (g := { f with length := BitVec.ofNat 16 (8 + p.length) }) (by rw [hk]; rfl) (by rw [hk]; rfl)
      (by simp only [Node.recomputed, hk, f, p]) (by simp only [Node.ckFront, hk]) (by simp only [Node.ckBack, hk, p])
  case icmp =>
    exact hsummed (g := f) (by rw [hk]; rfl) (by rw [hk]; rfl)
      (by simp only [Node.recomputed, hk, f]) (by simp only [Node.ckFront, hk]) (by simp only [Node.ckBack, hk, f, p])

end Sys2Proof.Machine
end

section
/-! SUPPORT. Serialize, then parse (45_serialize.md R309 (a)): the fields of a node read from its bytes; a laid chain whose
bytes stand in PB is what the parsers read there. -/

namespace Sys2Proof.Machine

/-! ## The fields in a node's bytes -/

theorem b4_join (w : Word) :
    w.extractLsb' 24 8 ++ w.extractLsb' 16 8 ++ w.extractLsb' 8 8 ++ w.extractLsb' 0 8 = w := by
  rw [BitVec.extractLsb'_append_extractLsb'_eq_extractLsb' (start₂ := 24) rfl,
    BitVec.extractLsb'_append_extractLsb'_eq_extractLsb' (start₂ := 16) rfl,
    BitVec.extractLsb'_append_extractLsb'_eq_extractLsb' (start₂ := 8) rfl]
  exact BitVec.extractLsb'_eq_self

theorem b2_h16 {seg : List Byte} {i : Nat} (h : i + 1 < seg.length) : b2 (h16 seg i) = slice seg i 2 := by
  rw [h16, b2_append, slice_two h]

theorem b4_h32 {seg : List Byte} {i : Nat} (h : i + 3 < seg.length) : b4 (h32 seg i) = slice seg i 4 := by
  rw [h32, b4_append, slice_four h]

/-- The twenty fixed bytes of a TCP header (45_serialize.md R305). -/
def tcpFixed (f : NodeFields) : List Byte :=
  b2 f.sport ++ b2 f.dport ++ b4 f.seq ++ b4 f.ack ++ [f.doff ++ 0#4, 0#2 ++ f.flags] ++ b2 f.window ++ b2 f.cksum
    ++ b2 f.urg

/-- The option serialization emits: the MSS beside SYN. -/
def tcpOption (f : NodeFields) : List Byte := if f.flags.getLsbD 1 then [2, 4] ++ b2 f.mss else []

theorem nodeBytes_tcp {n : Node} (hk : n.kind = .tcp) : nodeBytes n = tcpFixed n.f ++ (tcpOption n.f ++ n.payload) := by
  simp only [nodeBytes, hk, tcpFixed, tcpOption, List.append_assoc]

section
variable (f : NodeFields) (rest : List Byte)

theorem tcpDoff_fixed : tcpDoff (tcpFixed f ++ rest) = f.doff := BitVec.extractLsb'_append_eq_left

theorem h16_cksum_fixed : h16 (tcpFixed f ++ rest) 16 = f.cksum := bytes_join f.cksum

/-- Reading the fixed header bytes of a TCP segment gives the fields they were made of. -/
theorem tcpNode_fixed (off mss : Half) (ok : Bool) :
    tcpNode (tcpFixed f ++ rest) off mss ok
      = { kind := .tcp, f := { f.only .tcp with mss := mss }, ckok := ok
          payload := (tcpFixed f ++ rest).drop (4 * f.doff.toNat), offset := off } := by
  have hsport : h16 (tcpFixed f ++ rest) 0 = f.sport := bytes_join f.sport
  have hdport : h16 (tcpFixed f ++ rest) 2 = f.dport := bytes_join f.dport
  have hseq : h32 (tcpFixed f ++ rest) 4 = f.seq := b4_join f.seq
  have hack : h32 (tcpFixed f ++ rest) 8 = f.ack := b4_join f.ack
  have hflags : (byteAt (tcpFixed f ++ rest) 13).extractLsb' 0 6 = f.flags := BitVec.extractLsb'_append_eq_right
  have hwindow : h16 (tcpFixed f ++ rest) 14 = f.window := bytes_join f.window
  have hurg : h16 (tcpFixed f ++ rest) 18 = f.urg := bytes_join f.urg
  simp only [tcpNode, hsport, hdport, hseq, hack, hflags, hwindow, hurg, tcpDoff_fixed, h16_cksum_fixed]
  rfl
end

section
variable {n : Node} (hk : n.kind = .tcp) (hsized : n.sized = n.f)
include hk hsized

theorem doff_of_sized : n.f.doff = if n.f.flags.getLsbD 1 then 6 else 5 := by
  have h := congrArg NodeFields.doff hsized
  simp only [Node.sized, hk] at h
  exact h.symm

theorem four_mul_doff_of_sized : 4 * n.f.doff.toNat = 20 + (tcpOption n.f).length := by
  rw [doff_of_sized hk hsized, tcpOption]
  split <;> rfl

theorem tcpNode_nodeBytes (hf : n.f = n.f.only n.kind) :
    tcpNode (nodeBytes n) n.offset n.f.mss n.ckok = n := by
  have hdrop : (tcpFixed n.f ++ (tcpOption n.f ++ n.payload)).drop (4 * n.f.doff.toNat) = n.payload := by
    rw [four_mul_doff_of_sized hk hsized, ← List.append_assoc]
    exact List.drop_left' (by rw [List.length_append]; rfl)
  rw [hk] at hf
  rw [nodeBytes_tcp hk, tcpNode_fixed, hdrop, ← hf, ← hk]

theorem tcpMss_nodeBytes (hmss : n.f.flags.getLsbD 1 = false → n.f.mss = 0) : tcpMss (nodeBytes n) = n.f.mss := by
  rw [nodeBytes_tcp hk, tcpMss, tcpDoff_fixed, doff_of_sized hk hsized]
  by_cases hsyn : n.f.flags.getLsbD 1 = true
  · rw [if_pos hsyn, tcpOption, if_pos hsyn]
    exact (if_pos ⟨le_rfl, rfl, rfl⟩).trans (bytes_join n.f.mss)
  · rw [if_neg hsyn, if_neg (fun h => absurd h.1 (by decide)), hmss (by simpa using hsyn)]
end

section
variable {n : Node} (hk : n.kind = .udp)
include hk

theorem h16_length_udp : h16 (nodeBytes n) 4 = n.f.length := by
  simp only [nodeBytes, hk]
  exact bytes_join n.f.length

theorem h16_cksum_udp : h16 (nodeBytes n) 6 = n.f.cksum := by
  simp only [nodeBytes, hk]
  exact bytes_join n.f.cksum

/-- A UDP node is what is read of its bytes. -/
theorem udpNode_nodeBytes (hf : n.f = n.f.only n.kind) : udpNode (nodeBytes n) n.offset n.ckok = n := by
  rw [udpNode, h16_length_udp hk, h16_cksum_udp hk]
  obtain ⟨kind, f, ckok, payload, offset⟩ := n
  subst hk
  have hf : f = f.only .udp := hf
  have hsport : h16 (nodeBytes ⟨.udp, f, ckok, payload, offset⟩) 0 = f.sport := bytes_join f.sport
  have hdport : h16 (nodeBytes ⟨.udp, f, ckok, payload, offset⟩) 2 = f.dport := bytes_join f.dport
  rw [hsport, hdport]
  exact hf ▸ rfl
end

section
variable {n : Node} (hk : n.kind = .icmp)
include hk

theorem byteAt_itype : byteAt (nodeBytes n) 0 = n.f.itype := by
  simp only [nodeBytes, hk]
  rfl

theorem h16_cksum_icmp : h16 (nodeBytes n) 2 = n.f.cksum := by
  simp only [nodeBytes, hk]
  exact bytes_join n.f.cksum

/-- An ICMPv6 node is what is read of its bytes, if what it does not write is 0. -/
theorem icmpNode_nodeBytes (hf : n.f = n.f.only n.kind)
    (hrest : n.f.itype ≠ 128 → n.f.itype ≠ 129 → n.f.ident = 0 ∧ n.f.seqno = 0) :
    icmpNode (nodeBytes n) n.offset n.ckok = n := by
  have hcksum := h16_cksum_icmp hk
  rw [icmpNode, byteAt_itype hk, hcksum]
  obtain ⟨kind, f, ckok, payload, offset⟩ := n
  subst hk
  have hf : f = f.only .icmp := hf
  by_cases hecho : f.itype = 128 ∨ f.itype = 129
  · have hbytes : nodeBytes ⟨.icmp, f, ckok, payload, offset⟩
        = [f.itype, f.code] ++ b2 f.cksum ++ (b2 f.ident ++ b2 f.seqno) ++ payload := by
      simp only [nodeBytes, if_pos hecho]
    have hident : h16 ([f.itype, f.code] ++ b2 f.cksum ++ (b2 f.ident ++ b2 f.seqno) ++ payload) 4 = f.ident :=
      bytes_join f.ident
    have hseqno : h16 ([f.itype, f.code] ++ b2 f.cksum ++ (b2 f.ident ++ b2 f.seqno) ++ payload) 6 = f.seqno :=
      bytes_join f.seqno
    rw [if_pos hecho, hbytes, hident, hseqno]
    exact hf ▸ rfl
  · have hbytes : nodeBytes ⟨.icmp, f, ckok, payload, offset⟩ = [f.itype, f.code] ++ b2 f.cksum ++ payload := by
      simp only [nodeBytes, if_neg hecho, List.append_nil]
    obtain ⟨hident, hseqno⟩ := hrest (fun h => hecho (.inl h)) (fun h => hecho (.inr h))
    have hf' : f = { itype := f.itype, code := f.code, cksum := f.cksum } := by
      rw [NodeFields.only, hident, hseqno] at hf
      exact hf
    rw [if_neg hecho, hbytes]
    exact hf' ▸ rfl
end

/-! ## Hop-by-Hop -/

theorem hlen_of_recomputed {src dst : Addr} {n : Node} (hk : n.kind = .hbh) (hrec : n.recomputed src dst = n) :
    n.f.hlen = BitVec.ofNat 8 ((n.payload.length + 2) / 8 - 1) := by
  have h := congrArg (fun m => m.f.hlen) hrec
  simp only [Node.recomputed, hk] at h
  exact h.symm

section
variable {p : Config.Params} {n : Node} (hk : n.kind = .hbh) (hn : nodeOk p n)
  (hlen : n.f.hlen = BitVec.ofNat 8 ((n.payload.length + 2) / 8 - 1)) (rest : List Byte)
include hk hn hlen

theorem hbhSize_nodeBytes : hbhSize (nodeBytes n ++ rest) = n.size := by
  obtain ⟨-, -, -, hu⟩ := hn
  obtain ⟨hmod, hmax⟩ := hu hk
  have hbyte : byteAt (nodeBytes n ++ rest) 1 = n.f.hlen := by
    simp only [nodeBytes, hk]
    rfl
  rw [hbhSize, hbyte, hlen, BitVec.toNat_ofNat]
  simp only [Node.size, hk]
  omega

theorem hbhOptions_nodeBytes : hbhOptions (nodeBytes n ++ rest) = n.payload := by
  rw [hbhOptions, hbhSize_nodeBytes hk hn hlen, ← nodeBytes_length, List.take_left]
  simp only [nodeBytes, hk]
  rfl

theorem hbhNode_nodeBytes : hbhNode (nodeBytes n ++ rest) n.offset = n := by
  rw [hbhNode, hbhOptions_nodeBytes hk hn hlen]
  obtain ⟨-, hf, hck, -⟩ := hn
  obtain ⟨kind, f, ckok, payload, offset⟩ := n
  subst hk
  have hfields : f.only .hbh = f := hf.symm
  have hclear : ckok = false := hck rfl
  subst hclear
  exact congrArg (fun g => (⟨.hbh, g, false, payload, offset⟩ : Node)) hfields
end

/-! ## A laid chain in PB -/

/-- The chain `l`, reached by the dispatch byte `nh`, stands in PB at `c` as serialization lays it out, and its bytes
reach to `fin` (45_serialize.md R300 to R308). -/
structure StandsAt (x : ParseCtx) (c fin : Nat) (nh : Byte) (l : List Node) : Prop where
  lead : leadNh l nh = nh
  laid : laidChain x.src x.dst c l = l
  bytes : slice x.pb c (fin - c) = l.flatMap nodeBytes

namespace StandsAt
variable {x : ParseCtx} {c fin : Nat} {nh : Byte} {n : Node} {ns : List Node}

section
variable (h : StandsAt x c fin nh (n :: ns))
include h

theorem disp : dispOr n.kind nh = nh := leadNh_cons n ns nh ▸ h.lead

theorem laid_head : n.laid x.src x.dst c ns = n := (laidChain_cons_eq_self_iff.mp h.laid).1

theorem offset_head : BitVec.ofNat 16 c = n.offset := (laid_eq_self_iff.mp h.laid_head).2.1

theorem recomputed_head : n.recomputed x.src x.dst = n := (laid_eq_self_iff.mp h.laid_head).2.2

theorem bytes_head : slice x.pb c (fin - c) = nodeBytes n ++ ns.flatMap nodeBytes := by
  rw [h.bytes, List.flatMap_cons]

theorem tail : StandsAt x (c + n.size) fin n.f.nh ns where
  lead := (laid_eq_self_iff.mp h.laid_head).1
  laid := (laidChain_cons_eq_self_iff.mp h.laid).2
  bytes := by rw [← Nat.sub_sub, ← slice_drop, h.bytes_head, ← nodeBytes_length, List.drop_left]
end

theorem nil (c : Nat) (nh : Byte) : StandsAt x c c nh [] where
  lead := rfl
  laid := rfl
  bytes := by rw [Nat.sub_self, slice, List.take_zero]; rfl

theorem cons (h : StandsAt x (c + n.size) fin n.f.nh ns) (hfin : c + n.size ≤ fin) (hdisp : dispOr n.kind nh = nh)
    (hoff : BitVec.ofNat 16 c = n.offset) (hrec : n.recomputed x.src x.dst = n)
    (hbytes : nodeBytes n = slice x.pb c n.size) : StandsAt x c fin nh (n :: ns) where
  lead := (leadNh_cons n ns nh).trans hdisp
  laid := laidChain_cons_eq_self_iff.mpr ⟨laid_eq_self_iff.mpr ⟨h.lead, hoff, hrec⟩, h.laid⟩
  bytes := by
    rw [List.flatMap_cons, hbytes, ← h.bytes, slice_append_slice]
    congr 1
    omega
end StandsAt

/-! ## Parsing a laid chain (45_serialize.md R309 (a)) -/

theorem StandsAt.bytes_last {x : ParseCtx} {c fin : Nat} {nh : Byte} {n : Node} (h : StandsAt x c fin nh [n]) :
    slice x.pb c (fin - c) = nodeBytes n := by
  rw [h.bytes, List.flatMap_singleton]

section
variable {x : ParseCtx} {c fin : Nat} {nh : Byte} {n : Node} (hpb : fin ≤ x.pb.length)
  (h : StandsAt x c fin nh [n])
include hpb h

theorem StandsAt.length_last : (nodeBytes n).length = fin - c := by
  rw [← h.bytes_last, slice_length]
  omega

variable (hf : n.f = n.f.only n.kind)
include hf

theorem parseUdp_of_standsAt (hk : n.kind = .udp) (hfin : fin ≤ 65535) : parseUdp x c fin = .ok (n, fin, none) := by
  obtain ⟨hsized, hok, hsum⟩ := (recomputed_eq_self_iff (by rw [hk]; rfl)).mp h.recomputed_head
  simp only [hk, ckPlace, dispOr] at hsum
  have hlen := h.length_last hpb
  have hsize : (nodeBytes n).length = 8 + n.payload.length := by
    rw [nodeBytes_length]
    simp only [Node.size, hk]
  have hfield : (h16 (nodeBytes n) 4).toNat = (nodeBytes n).length := by
    have hrec := congrArg NodeFields.length hsized
    simp only [Node.sized, hk] at hrec
    rw [h16_length_udp hk, ← hrec, BitVec.toNat_ofNat, hsize]
    omega
  rw [parseUdp_eq h.bytes_last hlen (by omega) (by omega)]
  simp only [hfield, List.take_length]
  rw [hsum, h16_cksum_udp hk, beq_self_eq_true, ← hok, h.offset_head, udpNode_nodeBytes hk hf, hok,
    show c + (nodeBytes n).length = fin by omega]
  rfl

variable (hre : reparses n)
include hre

theorem parseTcp_of_standsAt (hk : n.kind = .tcp) : parseTcp x firstMss c fin = .ok (n, fin, none) := by
  obtain ⟨hsized, hok, hsum⟩ := (recomputed_eq_self_iff (by rw [hk]; rfl)).mp h.recomputed_head
  simp only [hk, ckPlace, dispOr] at hsum
  have hmss : n.f.flags.getLsbD 1 = false → n.f.mss = 0 := by simpa only [reparses, hk] using hre
  have hdoff : tcpDoff (nodeBytes n) = n.f.doff := by rw [nodeBytes_tcp hk, tcpDoff_fixed]
  have hfield : h16 (nodeBytes n) 16 = n.f.cksum := by rw [nodeBytes_tcp hk, h16_cksum_fixed]
  have hfour := four_mul_doff_of_sized hk hsized
  have hlen : (nodeBytes n).length = 20 + ((tcpOption n.f).length + n.payload.length) := by
    rw [nodeBytes_tcp hk, List.length_append, List.length_append]
    rfl
  rw [parseTcp_eq h.bytes_last (h.length_last hpb) (by omega) (by rw [hdoff]; omega) (by rw [hdoff]; omega),
    tcpMss_eq (by rw [hdoff]; omega), tcpMss_nodeBytes hk hsized hmss, hsum, hfield, beq_self_eq_true, ← hok,
    h.offset_head, tcpNode_nodeBytes hk hsized hf, hok]
  rfl

theorem parseIcmp_of_standsAt (hk : n.kind = .icmp) : parseIcmp x c fin = .ok (n, fin, none) := by
  obtain ⟨-, hok, hsum⟩ := (recomputed_eq_self_iff (by rw [hk]; rfl)).mp h.recomputed_head
  simp only [hk, ckPlace, dispOr] at hsum
  have hrest : n.f.itype ≠ 128 → n.f.itype ≠ 129 → n.f.ident = 0 ∧ n.f.seqno = 0 := by
    simpa only [reparses, hk] using hre
  have hsize : (nodeBytes n).length = (if isEcho n.f.itype then 8 else 4) + n.payload.length := by
    rw [nodeBytes_length]
    simp only [Node.size, hk]
  have h4 : 4 ≤ (nodeBytes n).length := by rw [hsize]; split <;> omega
  have h8 : isEcho (byteAt (nodeBytes n) 0) = true → 8 ≤ (nodeBytes n).length := by
    intro hecho
    rw [byteAt_itype hk] at hecho
    rw [hsize, if_pos hecho]
    exact Nat.le_add_right _ _
  rw [parseIcmp_eq h.bytes_last (h.length_last hpb) h4 h8, hsum, h16_cksum_icmp hk, beq_self_eq_true, ← hok,
    h.offset_head, icmpNode_nodeBytes hk hf hrest, hok]
  rfl
end

section
variable {x : ParseCtx} {c fin room : Nat} {nh : Byte} {n : Node} {ns : List Node}

/-- The loop reads a transport node at the payload's end and ends there. -/
theorem chainLoop_of_standsAt_last (hpb : fin ≤ x.pb.length) (hfin : fin ≤ 65535) (h : StandsAt x c fin nh [n])
    (hf : n.f = n.f.only n.kind) (hre : reparses n) (hk : n.kind ≠ .hbh) :
    chainLoop x firstMss fin (room + 1) c nh = .ok ([n], fin, none) := by
  have hdisp := h.disp
  rw [chainLoop_succ]
  cases hkind : n.kind with
  | hbh => exact absurd hkind hk
  | raw => simp only [reparses, hkind] at hre
  | tcp =>
    rw [hkind] at hdisp
    rw [(variantOf_eq_some (v := .tcp)).mpr hdisp.symm]
    exact congrArg terminal (parseTcp_of_standsAt hpb h hf hre hkind)
  | udp =>
    rw [hkind] at hdisp
    rw [(variantOf_eq_some (v := .udp)).mpr hdisp.symm]
    exact congrArg terminal (parseUdp_of_standsAt hpb h hf hkind hfin)
  | icmp =>
    rw [hkind] at hdisp
    rw [(variantOf_eq_some (v := .icmp)).mpr hdisp.symm]
    exact congrArg terminal (parseIcmp_of_standsAt hpb h hf hre hkind)

theorem parseHbh_of_standsAt {p : Config.Params} (hpb : fin ≤ x.pb.length) (h : StandsAt x c fin nh (n :: ns))
    (hn : nodeOk p n) (hre : reparses n) (hk : n.kind = .hbh) :
    parseHbh x c fin = .ok (n, c + n.size, n.f.nh) := by
  classical
  have hlen := hlen_of_recomputed hk h.recomputed_head
  have hframed : Framed n.payload := by simpa only [reparses, hk] using hre
  have hseg := h.bytes_head
  have hseglen : (nodeBytes n ++ ns.flatMap nodeBytes).length = fin - c := by
    rw [← hseg, slice_length]
    omega
  have hsize : 2 ≤ n.size := by simp only [Node.size, hk]; omega
  have hin : n.size ≤ (nodeBytes n ++ ns.flatMap nodeBytes).length := by
    rw [List.length_append, nodeBytes_length]
    exact Nat.le_add_right _ _
  have hnh : byteAt (nodeBytes n ++ ns.flatMap nodeBytes) 0 = n.f.nh := by
    simp only [nodeBytes, hk]
    rfl
  rw [parseHbh_of_whole hseg hseglen (hsize.trans hin) (by rwa [hbhSize_nodeBytes hk hn hlen]),
    hbhOptions_nodeBytes hk hn hlen, if_pos hframed, h.offset_head, hbhNode_nodeBytes hk hn hlen,
    hbhSize_nodeBytes hk hn hlen, hnh]

/-- A laid chain of nodes that reparse, with a transport node at its end, is what the loop reads. -/
theorem chainLoop_of_standsAt {p : Config.Params} {l : List Node} (hpb : fin ≤ x.pb.length) (hfin : fin ≤ 65535)
    (h : StandsAt x c fin nh l) (hl : ChainOk p room l) (hre : ∀ m ∈ l, reparses m) (hne : l ≠ [])
    (hlast : ∀ m, l.getLast? = some m → m.kind ≠ .hbh) :
    chainLoop x firstMss fin room c nh = .ok (l, fin, none) := by
  obtain ⟨hroom, hshape, hnodes⟩ := hl
  induction l generalizing room c nh with
  | nil => exact absurd rfl hne
  | cons n ns ih =>
    obtain ⟨room, rfl⟩ : ∃ r, room = r + 1 := Nat.exists_eq_add_of_le' (le_trans (by simp) hroom)
    have hn := hnodes n List.mem_cons_self
    have hren := hre n List.mem_cons_self
    cases ns with
    | nil => exact chainLoop_of_standsAt_last hpb hfin h hn.2.1 hren (hlast n rfl)
    | cons m ms =>
      obtain ⟨hk, hshape'⟩ : n.kind = .hbh ∧ chainShape (m :: ms) = true := by simpa [chainShape] using hshape
      have hnh : nh = Variant.hbh.disp := by
        have hdisp := h.disp
        rw [hk] at hdisp
        exact hdisp.symm
      have hrest := ih h.tail (fun a ha => hre a (List.mem_cons_of_mem n ha)) (List.cons_ne_nil _ _)
        (fun a ha => hlast a ha) (Nat.le_of_succ_le_succ hroom) hshape' fun a ha => hnodes a (List.mem_cons_of_mem n ha)
      rw [hnh, chainLoop_hbh, parseHbh_of_standsAt hpb h hn hren hk, Except.bind, hrest]
      rfl
end

/-! ## The packet serialization writes -/

theorem reparses_laid (src dst : Addr) (off : Nat) (ns : List Node) (n : Node) :
    reparses (n.laid src dst off ns) ↔ reparses n := by
  obtain ⟨kind, f, ckok, payload, offset⟩ := n
  cases kind <;> exact Iff.rfl

theorem reparses_laidChain {src dst : Addr} {off : Nat} {l : List Node} (h : ∀ n ∈ l, reparses n) :
    ∀ n ∈ laidChain src dst off l, reparses n := by
  induction l generalizing off with
  | nil => exact h
  | cons n ns ih =>
    rw [List.forall_mem_cons] at h
    rw [laidChain, List.forall_mem_cons, reparses_laid]
    exact ⟨h.1, ih h.2⟩

theorem ckok_of_recomputed {src dst : Addr} {n : Node} (hrec : n.recomputed src dst = n) (hk : n.kind ≠ .hbh)
    (hre : reparses n) : n.ckok = true := by
  have hck : hasField n.kind .ckok = true := by
    cases hkind : n.kind with
    | hbh => exact absurd hkind hk
    | raw => simp only [reparses, hkind] at hre
    | _ => rfl
  exact ((recomputed_eq_self_iff hck).mp hrec).2.1

theorem ChainOk.laidChain {p : Config.Params} {room : Nat} {l : List Node} (h : ChainOk p room l) (src dst : Addr)
    (off : Nat) : ChainOk p room (laidChain src dst off l) := by
  have hemit := h.linkNh.emitChain src dst off
  rwa [emitChain_linkNh] at hemit

/-- The nodes of a chain that stands in PB are recomputed ones. -/
theorem StandsAt.recomputed_of_mem {x : ParseCtx} {c fin : Nat} {nh : Byte} {l : List Node}
    (h : StandsAt x c fin nh l) : ∀ n ∈ l, n.recomputed x.src x.dst = n := by
  induction l generalizing c nh with
  | nil => exact nofun
  | cons n ns ih => exact List.forall_mem_cons.mpr ⟨h.recomputed_head, ih h.tail⟩

/-- The packet serialization writes holds the chain it leaves. -/
theorem standsAt_packet (s : State) :
    StandsAt ⟨s.packet, s.hdr.src, s.hdr.dst⟩ 40 (40 + totalSize s.chain) s.laidHdr.nh s.laid where
  lead := by rw [State.laid, leadNh_laidChain, State.laidHdr, leadNh_leadNh]
  laid := laidChain_laidChain _ _ _ _
  bytes := by
    have hlen : s.packet.length - 40 ≤ 40 + totalSize s.chain - 40 := by rw [packet_length]
    exact (slice_to_end hlen).trans (List.drop_left' (headerBytes_length _))

/-- The state in which the payload serialization wrote is parsed. -/
def State.reparsed (s : State) : State := { s.serialized with cur := 40, chain := [] }

section
variable {s : State}

/-- The header written is the one read. -/
theorem execIpParse_serialized (hver : s.hdr.ver = 6) : execIpParse s.serialized = .next s.reparsed := by
  have hver6 : s.laidHdr.ver = 6 := hver
  have hpb : s.serialized.pb.bytes = headerBytes s.laidHdr ++ s.laid.flatMap nodeBytes := Memory.bytes_ofBytes _
  rw [execIpParse_of_header hpb, if_neg (fun h => h.1 hver6), if_neg (not_not.mpr hver6)]
  rfl

theorem laid_ne_nil (hne : s.chain ≠ []) : s.laid ≠ [] := by
  rw [← List.length_pos_iff_ne_nil, State.laid, laidChain_length]
  exact List.length_pos_iff_ne_nil.mpr hne

theorem laid_last_kind (hlast : ∀ n, s.chain.getLast? = some n → n.kind ≠ .hbh) :
    ∀ n, s.laid.getLast? = some n → n.kind ≠ .hbh := by
  intro m hm
  have hkinds := congrArg List.getLast? (laidChain_kinds s.hdr.src s.hdr.dst 40 s.chain)
  rw [List.getLast?_map, List.getLast?_map, ← State.laid, hm] at hkinds
  obtain ⟨n, hn, hkind⟩ := Option.map_eq_some_iff.mp hkinds.symm
  exact hkind ▸ hlast n hn

variable (hfits : 40 + totalSize s.chain ≤ 65535)
include hfits

theorem laidHdr_plen : s.laidHdr.plen.toNat = totalSize s.chain := Nat.mod_eq_of_lt (by omega)

theorem reparsed_payEnd : s.reparsed.payEnd = 40 + totalSize s.chain := congrArg (40 + ·) (laidHdr_plen hfits)

theorem reparsed_atPayload : s.reparsed.atPayload := by
  have hlen : s.reparsed.pb.len = 40 + totalSize s.chain := (Memory.len_ofBytes _).trans packet_length
  have hplen : s.reparsed.hdr.plen.toNat = totalSize s.chain := laidHdr_plen hfits
  rw [State.atPayload, hlen, hplen]
  exact ⟨le_rfl, le_rfl, Nat.le_add_right _ _⟩

/-- The chain laid out is the one read. -/
theorem parseChain_reparsed (hchain : ChainOk s.par s.par.chainMax s.chain) (hne : s.chain ≠ [])
    (hlast : ∀ n, s.chain.getLast? = some n → n.kind ≠ .hbh) (hre : ∀ n ∈ s.chain, reparses n) :
    parseChain firstMss s.laidHdr.nh s.reparsed = .ok (s.laid, 40 + totalSize s.chain, none) := by
  have hbytes : s.reparsed.pb.bytes = s.packet := Memory.bytes_ofBytes _
  rw [parseChain_of_atPayload (reparsed_atPayload hfits), hbytes, reparsed_payEnd hfits]
  exact chainLoop_of_standsAt (packet_length ▸ le_rfl) hfits (standsAt_packet s) (hchain.laidChain _ _ _)
    (reparses_laidChain hre) (laid_ne_nil hne) (laid_last_kind hlast)
end

/-- Settles O50: the packet written holds the laid chain, which is what the parsers read of it. -/
theorem serializeThenParse : Obligations.SerializeThenParse := by
  intro s hinv hver hne hfits hlast hre
  obtain ⟨⟨-, hcap, -⟩, -, -, -, -, -, hlen, hshape, hnodes, -⟩ := hinv
  have hfits' : 40 + totalSize s.chain ≤ 65535 := hfits.trans hcap
  have hread := parseChain_reparsed hfits' ⟨hlen, hshape, hnodes⟩ hne hlast hre
  have hplen : s.serialized.hdr.plen.toNat = totalSize s.chain := laidHdr_plen hfits'
  refine ⟨s.serialized, s.reparsed, _, execIpSerialize_of_fits hfits, execIpParse_serialized hver,
    dispatch_of_parseChain hread, rfl, rfl, rfl, rfl, rfl, rfl, ?cursor, fun n hn hk => ?checked⟩
  case cursor =>
    rw [hplen]
    exact Nat.mod_eq_of_lt (by omega)
  case checked =>
    exact ckok_of_recomputed ((standsAt_packet s).recomputed_of_mem n hn) hk (reparses_laidChain hre n hn)

end Sys2Proof.Machine
end

section
/-! SUPPORT. Parse, then serialize (45_serialize.md R309 (b)): what the parsers read without a report is a laid chain
that stands in PB, and serialization leaves a state that holds such a chain as it is. -/

namespace Sys2Proof.Machine

/-! ## What a parser read without a report -/

theorem ckReport_eq_none_iff {ok : Bool} {off : Nat} : ckReport ok off = none ↔ ok = true := by
  cases ok <;> simp [ckReport]

section
variable {x : ParseCtx} {c fin c' : Nat} {nh nh' : Byte} {n : Node} (hpb : fin ≤ x.pb.length)
include hpb

theorem parseHbh_eq_ok (h : parseHbh x c fin = .ok (n, c', nh')) :
    let seg := slice x.pb c (fin - c)
    2 ≤ seg.length ∧ hbhSize seg ≤ seg.length ∧ seg.length = fin - c ∧ n = hbhNode seg (BitVec.ofNat 16 c)
      ∧ c' = c + hbhSize seg ∧ nh' = byteAt seg 0 := by
  classical
  intro seg
  have hlen : seg.length = fin - c := by rw [slice_length]; omega
  by_cases h2 : 2 ≤ seg.length
  case neg => rw [parseHbh_of_short (by omega)] at h; cases h
  by_cases hwhole : hbhSize seg ≤ seg.length
  case neg => rw [parseHbh_of_truncated rfl hlen h2 (not_le.mp hwhole)] at h; cases h
  rw [parseHbh_of_whole rfl hlen h2 hwhole] at h
  split at h <;> cases h
  exact ⟨h2, hwhole, hlen, rfl, rfl, rfl⟩

theorem parseTcp_eq_ok (h : parseTcp x firstMss c fin = .ok (n, c', none)) :
    let seg := slice x.pb c (fin - c)
    20 ≤ seg.length ∧ 4 * (tcpDoff seg).toNat ≤ seg.length ∧ seg.length = fin - c
      ∧ transportCk x.src x.dst 6 seg 16 = h16 seg 16 ∧ n = tcpNode seg (BitVec.ofNat 16 c) (tcpMss seg) true := by
  intro seg
  have hlen : seg.length = fin - c := by rw [slice_length]; omega
  by_cases h20 : 20 ≤ fin - c
  case neg => rw [parseTcp_of_short (not_le.mp h20)] at h; cases h
  by_cases hlow : 5 ≤ (tcpDoff seg).toNat
  case neg => rw [parseTcp_of_low_doff h20 (not_le.mp hlow)] at h; cases h
  by_cases hin : 4 * (tcpDoff seg).toNat ≤ seg.length
  case neg => rw [parseTcp_of_high_doff h20 hlow (hlen.symm.trans_lt (not_le.mp hin))] at h; cases h
  rw [← hlen] at h20
  rw [parseTcp_eq rfl hlen h20 hlow hin, tcpMss_eq hin] at h
  simp only [Except.ok.injEq, Prod.mk.injEq, ckReport_eq_none_iff] at h
  obtain ⟨hnode, -, hok⟩ := h
  rw [hok] at hnode
  exact ⟨h20, hin, hlen, beq_iff_eq.mp hok, hnode.symm⟩

theorem parseUdp_eq_ok (h : parseUdp x c fin = .ok (n, c', none)) :
    let seg := slice x.pb c (fin - c)
    let dgram := seg.take (h16 seg 4).toNat
    8 ≤ (h16 seg 4).toNat ∧ (h16 seg 4).toNat ≤ seg.length ∧ seg.length = fin - c
      ∧ transportCk x.src x.dst 17 dgram 6 = h16 dgram 6 ∧ n = udpNode dgram (BitVec.ofNat 16 c) true := by
  intro seg dgram
  have hlen : seg.length = fin - c := by rw [slice_length]; omega
  by_cases h8 : 8 ≤ fin - c
  case neg => rw [parseUdp_of_short (not_le.mp h8)] at h; cases h
  rw [← hlen] at h8
  by_cases hlow : 8 ≤ (h16 seg 4).toNat
  case neg => rw [parseUdp_of_low_length rfl hlen h8 (not_le.mp hlow)] at h; cases h
  by_cases hin : (h16 seg 4).toNat ≤ seg.length
  case neg => rw [parseUdp_of_high_length rfl hlen h8 (not_le.mp hin)] at h; cases h
  rw [parseUdp_eq rfl hlen hlow hin] at h
  simp only [Except.ok.injEq, Prod.mk.injEq, ckReport_eq_none_iff] at h
  obtain ⟨hnode, -, hok⟩ := h
  rw [hok] at hnode
  exact ⟨hlow, hin, hlen, beq_iff_eq.mp hok, hnode.symm⟩

theorem parseIcmp_eq_ok (h : parseIcmp x c fin = .ok (n, c', none)) :
    let seg := slice x.pb c (fin - c)
    4 ≤ seg.length ∧ (isEcho (byteAt seg 0) = true → 8 ≤ seg.length) ∧ seg.length = fin - c
      ∧ transportCk x.src x.dst 58 seg 2 = h16 seg 2 ∧ n = icmpNode seg (BitVec.ofNat 16 c) true := by
  intro seg
  have hlen : seg.length = fin - c := by rw [slice_length]; omega
  by_cases h4 : 4 ≤ fin - c
  case neg => rw [parseIcmp_of_short (not_le.mp h4)] at h; cases h
  by_cases h8 : isEcho (byteAt seg 0) = true → 8 ≤ seg.length
  case neg =>
    obtain ⟨hecho, hshort⟩ := Classical.not_imp.mp h8
    rw [parseIcmp_of_short_echo h4 hecho (hlen.symm.trans_lt (not_le.mp hshort))] at h
    cases h
  rw [← hlen] at h4
  rw [parseIcmp_eq rfl hlen h4 h8] at h
  simp only [Except.ok.injEq, Prod.mk.injEq, ckReport_eq_none_iff] at h
  obtain ⟨hnode, -, hok⟩ := h
  rw [hok] at hnode
  exact ⟨h4, h8, hlen, beq_iff_eq.mp hok, hnode.symm⟩
end

/-! ## The bytes of the node read -/

section
variable {seg : List Byte} {off : Half} {ok : Bool}

theorem nodeBytes_hbhNode (h2 : 2 ≤ seg.length) :
    nodeBytes (hbhNode seg off) = seg.take (hbhSize seg) := by
  have hlow : 2 ≤ hbhSize seg := by rw [hbhSize]; omega
  have hread : nodeBytes (hbhNode seg off) = [byteAt seg 0, byteAt seg 1] ++ (seg.take (hbhSize seg)).drop 2 := rfl
  have hfirst : [byteAt seg 0, byteAt seg 1] = (seg.take (hbhSize seg)).take 2 := by
    rw [List.take_take, Nat.min_eq_left hlow, ← slice_zero, slice_two (by omega)]
  rw [hread, hfirst, List.take_append_drop]

theorem recomputed_hbhNode (src dst : Addr) (hsize : hbhSize seg ≤ seg.length) :
    (hbhNode seg off).recomputed src dst = hbhNode seg off := by
  have hlen : (hbhOptions seg).length = 8 * ((byteAt seg 1).toNat + 1) - 2 := by
    rw [hbhOptions, List.length_drop, List.length_take_of_le hsize, hbhSize]
  have hhlen : (BitVec.ofNat 8 (((hbhOptions seg).length + 2) / 8 - 1) : Byte) = byteAt seg 1 := by
    rw [hlen, show (8 * ((byteAt seg 1).toNat + 1) - 2 + 2) / 8 - 1 = (byteAt seg 1).toNat by omega,
      BitVec.ofNat_toNat, BitVec.setWidth_eq]
  have hread : (hbhNode seg off).recomputed src dst
      = { hbhNode seg off with
          f := { nh := byteAt seg 0, hlen := BitVec.ofNat 8 (((hbhOptions seg).length + 2) / 8 - 1) } } := rfl
  rw [hread, hhlen]
  rfl

/-- The segment is the fixed header bytes of the node read from it, if its reserved bits are 0. -/
theorem tcpFixed_tcpNode {mss : Half} (h20 : 20 ≤ seg.length) (hlow : (byteAt seg 12).extractLsb' 0 4 = 0)
    (hhigh : (byteAt seg 13).extractLsb' 6 2 = 0) : tcpFixed (tcpNode seg off mss ok).f = seg.take 20 := by
  have hdoff : tcpDoff seg ++ 0#4 = byteAt seg 12 := bitVec_append_eq_iff.mpr ⟨rfl, hlow.symm⟩
  have hflags : 0#2 ++ (byteAt seg 13).extractLsb' 0 6 = byteAt seg 13 := bitVec_append_eq_iff.mpr ⟨hhigh.symm, rfl⟩
  have hread : tcpFixed (tcpNode seg off mss ok).f
      = b2 (h16 seg 0) ++ b2 (h16 seg 2) ++ b4 (h32 seg 4) ++ b4 (h32 seg 8)
        ++ [tcpDoff seg ++ 0#4, 0#2 ++ (byteAt seg 13).extractLsb' 0 6] ++ b2 (h16 seg 14) ++ b2 (h16 seg 16)
        ++ b2 (h16 seg 18) := rfl
  rw [hread, hdoff, hflags, ← slice_two (i := 12) (by omega)]
  simp (disch := omega) only [b2_h16, b4_h32]
  simp only [slice_append_slice seg 0, Nat.reduceAdd]
  rfl

theorem nodeBytes_tcpNode {n : Node} (hn : n = tcpNode seg off (tcpMss seg) ok) (h20 : 20 ≤ seg.length)
    (hlow : (byteAt seg 12).extractLsb' 0 4 = 0) (hhigh : (byteAt seg 13).extractLsb' 6 2 = 0)
    (hin : 4 * n.f.doff.toNat ≤ seg.length) (hsized : n.sized = n.f)
    (hopt : n.f.flags.getLsbD 1 = true → byteAt seg 20 = 2 ∧ byteAt seg 21 = 4) : nodeBytes n = seg := by
  have hk : n.kind = .tcp := hn ▸ rfl
  have hfixed : tcpFixed n.f = slice seg 0 20 := hn ▸ tcpFixed_tcpNode h20 hlow hhigh
  have hpay : n.payload = seg.drop (4 * n.f.doff.toNat) := by rw [hn]; rfl
  have hdoff : tcpDoff seg = n.f.doff := by rw [hn]; rfl
  have hmss : n.f.mss = tcpMss seg := by rw [hn]; rfl
  have hfour := four_mul_doff_of_sized hk hsized
  have hoption : tcpOption n.f = slice seg 20 (tcpOption n.f).length := by
    by_cases hsyn : n.f.flags.getLsbD 1 = true
    · have hsix : n.f.doff = 6 := (doff_of_sized hk hsized).trans (if_pos hsyn)
      have hlen : 24 ≤ seg.length := by simpa [hsix] using hin
      obtain ⟨h2, h4⟩ := hopt hsyn
      have hvalue : tcpMss seg = h16 seg 22 := if_pos ⟨by rw [hdoff, hsix]; decide, h2, h4⟩
      have hread : tcpOption n.f = [byteAt seg 20, byteAt seg 21] ++ b2 (h16 seg 22) := by
        rw [tcpOption, if_pos hsyn, hmss, hvalue, h2, h4]
      rw [hread, ← slice_two (by omega), b2_h16 (by omega), slice_append_slice seg 20, slice_length_of_le (by omega)]
    · rw [tcpOption, if_neg hsyn]
      rfl
  rw [nodeBytes_tcp hk, hfixed, hpay, hfour, hoption, slice_length_of_le (by omega), ← List.append_assoc,
    slice_append_slice seg 0, slice_zero_append_drop]

theorem nodeBytes_udpNode (h8 : 8 ≤ seg.length) : nodeBytes (udpNode seg off ok) = seg := by
  have hread : nodeBytes (udpNode seg off ok)
      = b2 (h16 seg 0) ++ b2 (h16 seg 2) ++ b2 (h16 seg 4) ++ b2 (h16 seg 6) ++ seg.drop 8 := rfl
  rw [hread, b2_h16 (by omega), b2_h16 (by omega), b2_h16 (by omega), b2_h16 (by omega)]
  simp only [slice_append_slice seg 0, Nat.reduceAdd, slice_zero_append_drop]

theorem nodeBytes_icmpNode (h4 : 4 ≤ seg.length) (h8 : isEcho (byteAt seg 0) = true → 8 ≤ seg.length) :
    nodeBytes (icmpNode seg off ok) = seg := by
  rw [isEcho_iff] at h8
  have hfront : [byteAt seg 0, byteAt seg 1] ++ b2 (h16 seg 2) = slice seg 0 4 := by
    rw [← slice_two (i := 0) (by omega), b2_h16 (by omega), slice_append_slice seg 0]
  by_cases hecho : byteAt seg 0 = 128 ∨ byteAt seg 0 = 129
  · have h8 := h8 hecho
    simp only [icmpNode, if_pos hecho, nodeBytes]
    rw [hfront, b2_h16 (by omega), b2_h16 (by omega), slice_append_slice seg 4, slice_append_slice seg 0,
      slice_zero_append_drop]
  · simp only [icmpNode, if_neg hecho, nodeBytes]
    rw [hfront, List.append_nil, slice_zero_append_drop]

theorem sized_udpNode (h8 : 8 ≤ seg.length) (hlen : (h16 seg 4).toNat = seg.length) :
    (udpNode seg off ok).sized = (udpNode seg off ok).f := by
  have hlength : (BitVec.ofNat 16 (8 + (seg.drop 8).length) : Half) = h16 seg 4 := by
    rw [List.length_drop, Nat.add_sub_cancel' h8, ← hlen, BitVec.ofNat_toNat, BitVec.setWidth_eq]
  have hread : (udpNode seg off ok).sized
      = { (udpNode seg off ok).f with length := BitVec.ofNat 16 (8 + (seg.drop 8).length) } := rfl
  rw [hread, hlength]
  rfl
end

/-! ## From the parsers to a laid chain -/

section
variable {x : ParseCtx} {c c' fin : Nat} {nh : Byte} {n : Node}

/-- A transport node whose bytes reach to the payload's end, with its sizes and its checksum right, is a laid chain. -/
theorem standsAt_of_transport (hck : hasField n.kind .ckok = true) (hdisp : dispOr n.kind nh = nh)
    (hoff : BitVec.ofNat 16 c = n.offset) (hok : n.ckok = true) (hsized : n.sized = n.f)
    (hsum : transportCk x.src x.dst (dispOr n.kind 0) (nodeBytes n) (ckPlace n.kind) = n.f.cksum)
    (hbytes : nodeBytes n = slice x.pb c (fin - c)) (hlen : (slice x.pb c (fin - c)).length = fin - c)
    (hc : c ≤ fin) : StandsAt x c fin nh [n] := by
  have hsize : n.size = fin - c := by rw [← nodeBytes_length, hbytes, hlen]
  have hend : c + n.size = fin := by omega
  exact .cons (hend ▸ .nil _ _) hend.le hdisp hoff ((recomputed_eq_self_iff hck).mpr ⟨hsized, hok, hsum⟩)
    (hsize ▸ hbytes)

variable (hpb : fin ≤ x.pb.length)
include hpb

theorem standsAt_of_parseTcp (hfin : fin ≤ 65535) (h : parseTcp x firstMss c fin = .ok (n, c', none))
    (hre : reserializes x.pb fin n) : StandsAt x c fin Variant.tcp.disp [n] := by
  obtain ⟨h20, hin, hlen, hsum, hn⟩ := parseTcp_eq_ok hpb h
  have hk : n.kind = .tcp := by rw [hn]; rfl
  have hoff : BitVec.ofNat 16 c = n.offset := by rw [hn]; rfl
  have hoffset : n.offset.toNat = c := by rw [← hoff, BitVec.toNat_ofNat]; omega
  have hdoff : tcpDoff (slice x.pb c (fin - c)) = n.f.doff := by rw [hn]; rfl
  simp only [reserializes, hk, hoffset] at hre
  obtain ⟨hsyn, hopt, hlow, hhigh⟩ := hre
  have hsized : n.sized = n.f := by
    simp only [Node.sized, hk]
    rw [← hsyn]
  have hfour := four_mul_doff_of_sized hk hsized
  rw [hdoff] at hin
  have hbytes : nodeBytes n = slice x.pb c (fin - c) := by
    refine nodeBytes_tcpNode hn h20 ?_ ?_ hin hsized fun hset => ?_
    · rwa [byteAt_slice (by omega)]
    · rwa [byteAt_slice (by omega)]
    · have hsix : n.f.doff = 6 := hsyn.trans (if_pos hset)
      have h24 : 24 ≤ (slice x.pb c (fin - c)).length := by simpa [hsix] using hin
      rw [byteAt_slice (by omega), byteAt_slice (by omega)]
      exact hopt hset
  refine standsAt_of_transport (by rw [hk]; rfl) (by rw [hk]; rfl) hoff (by rw [hn]; rfl) hsized ?_ hbytes hlen
    (by omega)
  rw [hk, hbytes]
  exact hsum.trans (by rw [hn]; rfl)

theorem standsAt_of_parseUdp (h : parseUdp x c fin = .ok (n, c', none))
    (hre : reserializes x.pb fin n) : StandsAt x c fin Variant.udp.disp [n] := by
  obtain ⟨h8, hin, hlen, hsum, hn⟩ := parseUdp_eq_ok hpb h
  have hk : n.kind = .udp := by rw [hn]; rfl
  have hoff : BitVec.ofNat 16 c = n.offset := by rw [hn]; rfl
  have hlength : n.f.length = h16 (slice x.pb c (fin - c)) 4 := by
    rw [hn]
    exact h16_take (by omega)
  have hwhole : (h16 (slice x.pb c (fin - c)) 4).toNat = (slice x.pb c (fin - c)).length := by
    simp only [reserializes, hk, hlength, ← hoff, BitVec.toNat_ofNat] at hre
    omega
  rw [hwhole, List.take_length] at hsum hn
  rw [hwhole] at h8
  have hbytes : nodeBytes n = slice x.pb c (fin - c) := by rw [hn, nodeBytes_udpNode h8]
  have hsized : n.sized = n.f := by rw [hn, sized_udpNode h8 hwhole]
  refine standsAt_of_transport (by rw [hk]; rfl) (by rw [hk]; rfl) hoff (by rw [hn]; rfl) hsized ?_ hbytes hlen
    (by omega)
  rw [hk, hbytes]
  exact hsum.trans (by rw [hn]; rfl)

theorem standsAt_of_parseIcmp (h : parseIcmp x c fin = .ok (n, c', none)) : StandsAt x c fin Variant.icmp.disp [n] := by
  obtain ⟨h4, h8, hlen, hsum, hn⟩ := parseIcmp_eq_ok hpb h
  have hbytes : nodeBytes n = slice x.pb c (fin - c) := by rw [hn, nodeBytes_icmpNode h4 h8]
  have ⟨hk, hoff, hok⟩ : n.kind = .icmp ∧ BitVec.ofNat 16 c = n.offset ∧ n.ckok = true := by
    rw [hn, icmpNode]
    split <;> exact ⟨rfl, rfl, rfl⟩
  have hsized : n.sized = n.f := by simp only [Node.sized, hk]
  refine standsAt_of_transport (by rw [hk]; rfl) (by rw [hk]; rfl) hoff hok hsized ?_ hbytes hlen (by omega)
  rw [hk, ← h16_cksum_icmp hk, hbytes]
  exact hsum

/-- What the loop reads without a report is a laid chain, if its nodes are such as serialization writes. -/
theorem standsAt_of_chainLoop {room : Nat} {l : List Node} (hfin : fin ≤ 65535)
    (h : chainLoop x firstMss fin room c nh = .ok (l, c', none)) (hre : ∀ m ∈ l, reserializes x.pb fin m) :
    StandsAt x c fin nh l := by
  induction room generalizing c nh l with
  | zero => cases h
  | succ room ih =>
    rw [chainLoop_succ] at h
    cases hv : variantOf nh with
    | none => rw [hv] at h; cases h
    | some v =>
      obtain rfl := variantOf_eq_some.mp hv
      rw [hv] at h
      cases v with
      | tcp =>
        obtain ⟨n, hn, rfl⟩ := terminal_eq_ok h
        exact standsAt_of_parseTcp hpb hfin hn (hre n List.mem_cons_self)
      | udp =>
        obtain ⟨n, hn, rfl⟩ := terminal_eq_ok h
        exact standsAt_of_parseUdp hpb hn (hre n List.mem_cons_self)
      | icmp =>
        obtain ⟨n, hn, rfl⟩ := terminal_eq_ok h
        exact standsAt_of_parseIcmp hpb hn
      | hbh =>
        rcases hhbh : parseHbh x c fin with e | ⟨node, c1, nh1⟩
        · simp [hhbh, Except.bind] at h
        rcases hloop : chainLoop x firstMss fin room c1 nh1 with e | ⟨rest, c2, w2⟩
        · simp [hhbh, hloop, Except.bind, Except.map] at h
        obtain ⟨rfl, rfl, rfl⟩ : _ ∧ _ ∧ _ := by simpa [hhbh, hloop, Except.bind, Except.map] using h
        obtain ⟨h2, hwhole, hlen, hn, rfl, rfl⟩ := parseHbh_eq_ok hpb hhbh
        have hrest := ih hloop fun m hm => hre m (List.mem_cons_of_mem node hm)
        have hbytes : nodeBytes node = slice x.pb c (hbhSize (slice x.pb c (fin - c))) := by
          rw [hn, nodeBytes_hbhNode h2, slice_take (by omega)]
        have hsize : node.size = hbhSize (slice x.pb c (fin - c)) := by
          rw [← nodeBytes_length, hn, nodeBytes_hbhNode h2, List.length_take_of_le hwhole]
        rw [← hsize] at hrest hbytes
        have hnh : byteAt (slice x.pb c (fin - c)) 0 = node.f.nh := by rw [hn]; rfl
        rw [hnh] at hrest
        refine hrest.cons (by omega) (by rw [hn]; rfl) (by rw [hn]; rfl) ?_ hbytes
        rw [hn, recomputed_hbhNode _ _ hwhole]
end

/-! ## From the laid chain to PB -/

theorem reportStatus_eq_zero_iff {w : Option Report} : reportStatus w = 0 ↔ w = none := by
  cases w with
  | none => exact iff_of_true rfl rfl
  | some r =>
    refine iff_of_false (fun h => ?_) nofun
    have hflag := warnField_statusWord r.off (code := r.warn.flag) (by cases r.warn <;> decide)
    rw [← reportStatus_some, h] at hflag
    revert hflag
    cases r.warn <;> decide

/-- `CH.PARSE` with `STATUS` 0 read a chain without a report, and changed nothing else but the cursor and `ACC`. -/
theorem execChParse_of_status_zero {s t : State} (h : exec .chParse s = .next t) (h0 : t.status = 0) :
    ∃ l c, parseChain firstMss s.hdr.nh s = .ok (l, c, none)
      ∧ t = { s with chain := l, cur := BitVec.ofNat 16 c, acc := Config.freeAcc s.draws, draws := s.draws + 1
                     status := 0 } := by
  have hexec : exec .chParse s = dispatch firstMss s.hdr.nh s := rfl
  rw [hexec] at h
  obtain ⟨e, he, hd⟩ | ⟨l, c, w, hread, hd⟩ := dispatch_cases firstMss s.hdr.nh s
  · rw [hd, raiseAny_eq_next] at h
    rw [h] at h0
    exact absurd h0 e.status_ne_zero
  · rw [hd, report_eq_next] at h
    rw [h] at h0
    obtain rfl := reportStatus_eq_zero_iff.mp h0
    exact ⟨l, c, hread, h⟩

/-- `IP.PARSE` with `STATUS` 0 read the header in front of PB. -/
theorem execIpParse_of_status_zero {s t : State} (h : exec .ipParse s = .next t) (h0 : t.status = 0) :
    40 ≤ s.pb.len ∧ t = { s with hdr := hdrOf s.pb.bytes, cur := 40, chain := [], status := 0 } := by
  have hexec : exec .ipParse s = execIpParse s := rfl
  rw [hexec, execIpParse] at h
  split at h
  case isTrue => rw [raise_eq_next] at h; exact absurd (h ▸ h0) (Err.status_ne_zero _)
  case isFalse hlen =>
    simp only at h
    split at h
    case isTrue => rw [raise_eq_next] at h; exact absurd (h ▸ h0) (Err.status_ne_zero _)
    case isFalse =>
      rw [report_eq_next] at h
      have hstatus : reportStatus _ = 0 := h ▸ h0
      rw [hstatus] at h
      exact ⟨not_lt.mp hlen, h⟩

/-- What `CH.PARSE` reads without a report from behind the header of a PB with nothing behind the payload. -/
theorem standsAt_of_parseChain {s : State} {l : List Node} {c : Nat}
    (hread : parseChain firstMss s.hdr.nh s = .ok (l, c, none)) (hend : s.payEnd = s.pb.len) (hcur : s.cur.toNat = 40)
    (hmax : s.pb.len ≤ 65535) (hre : ∀ n ∈ l, reserializes s.pb.bytes s.pb.len n) :
    StandsAt s.parseCtx 40 s.pb.len s.hdr.nh l := by
  obtain ⟨-, he⟩ | ⟨-, -, he⟩ | ⟨-, -, -, he⟩ := parseChain_cases firstMss s.hdr.nh s <;> rw [he] at hread
  · cases hread
  · cases hread
  · rw [hend, hcur] at hread
    exact standsAt_of_chainLoop (Memory.bytes_length s.pb).ge hmax hread hre

/-- A state whose PB holds its header registers and its chain as they stand is as serialization leaves it. -/
theorem serialized_of_standsAt {s : State} (hwf : s.pb.wf) (h40 : 40 ≤ s.pb.len) (hcap : s.pb.len ≤ s.par.pbCap)
    (hplen : s.pb.len = 40 + s.hdr.plen.toNat) (hhdr : s.hdr = hdrOf s.pb.bytes)
    (h : StandsAt s.parseCtx 40 s.pb.len s.hdr.nh s.chain) :
    40 + totalSize s.chain ≤ s.par.pbCap ∧ s.laid = s.chain ∧ s.laidHdr = s.hdr
      ∧ Memory.ofBytes s.packet = s.pb := by
  have hpay : s.chain.flatMap nodeBytes = s.pb.bytes.drop 40 := by
    rw [← h.bytes]
    exact slice_to_end (by rw [Memory.bytes_length])
  have htotal : totalSize s.chain = s.hdr.plen.toNat := by
    rw [← flatMap_nodeBytes_length, hpay, List.length_drop, Memory.bytes_length]
    omega
  have hlaid : s.laid = s.chain := h.laid
  have hlaidHdr : s.laidHdr = s.hdr := by
    rw [State.laidHdr, h.lead, htotal, BitVec.ofNat_toNat, BitVec.setWidth_eq]
  have hpacket : s.packet = s.pb.bytes := by
    rw [State.packet, hlaidHdr, hlaid, hpay, hhdr, headerBytes_hdrOf (by rwa [Memory.bytes_length]),
      List.take_append_drop]
  exact ⟨by omega, hlaid, hlaidHdr, hpacket ▸ Memory.ofBytes_bytes hwf⟩

/-- Settles O51: what was parsed is the laid chain that stands in PB, and serialization leaves such a state as it is. -/
theorem parseThenSerialize : Obligations.ParseThenSerialize := by
  intro s t1 t2 hinv hip h1 hch h2 hlen hre
  obtain ⟨⟨-, hmax, -⟩, -, hwf, -, hcap, -⟩ := hinv
  obtain ⟨h40, rfl⟩ := execIpParse_of_status_zero hip h1
  obtain ⟨l, c, hread, ht2⟩ := execChParse_of_status_zero hch h2
  have hpb : t2.pb = s.pb := by rw [ht2]
  have hhdr : t2.hdr = hdrOf s.pb.bytes := by rw [ht2]
  have hpar : t2.par = s.par := by rw [ht2]
  have hchain : t2.chain = l := by rw [ht2]
  rw [hchain] at hre
  have hstands := standsAt_of_parseChain hread (hhdr ▸ hlen.symm) rfl (hcap.trans hmax) hre
  obtain ⟨hfits, hlaid, hlaidHdr, hpacket⟩ := serialized_of_standsAt (s := t2) (hpb ▸ hwf) (hpb ▸ h40)
    (hpb ▸ hpar ▸ hcap) (hpb ▸ hlen) (hpb ▸ hhdr) (by rw [State.parseCtx, hpb, hhdr, hchain]; exact hstands)
  exact ⟨t2.serialized, execIpSerialize_of_fits hfits, rfl, hpacket.trans hpb, hlaidHdr, hlaid⟩

end Sys2Proof.Machine
end

section
/-! SUPPORT. The context table (46_hc06_decompress.md R320, R321): its indices, and the two words of an entry. -/

namespace Sys2Proof.Machine

theorem ctxIndex_of_ge {id : Byte} (h : 16 ≤ id.toNat) : ctxIndex id = none := dif_neg (Nat.not_lt.mpr h)

theorem ctxIndex_of_eq {id : Byte} {i : Fin 16} (h : id.toNat = i.val) : ctxIndex id = some i := by
  have hlt : id.toNat < 16 := h ▸ i.isLt
  exact (dif_pos hlt).trans (congrArg some (Fin.ext h))

/-! ## The two words of a 64-bit value (10_state.md R24) -/

theorem highWord_eq_ofNat (d : DWord) : highWord d = BitVec.ofNat 32 (d.toNat / 2 ^ 32) := by
  rw [highWord, BitVec.extractLsb', Nat.shiftRight_eq_div_pow]

theorem lowWord_eq_ofNat (d : DWord) : lowWord d = BitVec.ofNat 32 (d.toNat % 2 ^ 32) := by
  apply BitVec.eq_of_toNat_eq
  simp [lowWord, BitVec.extractLsb'_toNat]

theorem append_words_toNat (x y : Word) : (x ++ y).toNat = x.toNat * 2 ^ 32 + y.toNat := by
  rw [BitVec.toNat_append, ← Nat.shiftLeft_add_eq_or_of_lt y.isLt, Nat.shiftLeft_eq]

/-! ## The commands -/

section
variable {s : State} {id : Byte}

theorem execHcSetctx_of_ge (v : Bool) (h : 16 ≤ id.toNat) : execHcSetctx v id s = failed 6 0 s := by
  rw [execHcSetctx, ctxIndex_of_ge h]
  exact raise_eq_failed _ s

theorem execHcRdctx_of_ge (w : CtxWord) (h : 16 ≤ id.toNat) : execHcRdctx w id s = failed 6 0 s := by
  rw [execHcRdctx, ctxIndex_of_ge h]
  exact raise_eq_failed _ s

theorem execHcSetctx_of_index (v : Bool) {i : Fin 16} (h : id.toNat = i.val) :
    execHcSetctx v id s = done { s with ctx := s.ctx.set i { valid := v, pfx := s.tx.arg0 ++ s.tx.arg1 } } := by
  rw [execHcSetctx, ctxIndex_of_eq h]

theorem execHcRdctx_of_index (w : CtxWord) {i : Fin 16} (h : id.toNat = i.val) :
    execHcRdctx w id s = ret ((s.ctx.get i).word w) s := by
  rw [execHcRdctx, ctxIndex_of_eq h]
end

/-- Settles O52: an index of 16 or more has no entry, and past it each command is a record update. -/
theorem contextEntriesAreSetAndRead : Obligations.ContextEntriesAreSetAndRead := by
  intro s v w id
  refine ⟨fun hge => ⟨execHcSetctx_of_ge v hge, execHcRdctx_of_ge w hge⟩, fun i hi => ⟨⟨_,
    execHcSetctx_of_index v hi, rfl, append_words_toNat _ _⟩, (execHcRdctx_of_index w hi).trans ?_⟩⟩
  cases w with
  | valid => rfl
  | high => rw [CtxEntry.word, highWord_eq_ofNat]; rfl
  | low => rw [CtxEntry.word, lowWord_eq_ofNat]; rfl

end Sys2Proof.Machine
end

section
/-! SUPPORT. The readers of the compressed header (46_hc06_decompress.md R322 to R330): each gives the value its inline
bytes stand for where they stand whole, and `MalformedFrame(FB.len)` where the frame breaks off among them. -/

namespace Sys2Proof.Machine

/-! ## Reading inline bytes -/

/-- On the frame `fb` the reader `r`, given a position, reads the inline bytes `inl` as `a`, and fails where the frame
ends among them (46_hc06_decompress.md R325). -/
structure Reads {α : Type} (fb : List Byte) (r : Nat → Except Err (α × Nat)) (inl : List Byte) (a : α) : Prop where
  whole : ∀ {p : Nat} {rest : List Byte}, fb.drop p = inl ++ rest → ∃ q, r p = .ok (a, q) ∧ fb.drop q = rest
  cut : ∀ {p : Nat} {t : List Byte}, t ≠ [] → fb.drop p ++ t = inl → r p = .error ⟨.malformedFrame, fb.length⟩

/-- Reading on behind a field, with the value read. -/
def readThen {α β : Type} (r : Nat → Except Err (α × Nat)) (k : α → Nat → Except Err (β × Nat)) (p : Nat) :
    Except Err (β × Nat) :=
  (r p).bind fun x => k x.1 x.2

/-- Two fields in a row: the bytes break off in the first, or in the second behind the whole first. -/
theorem append_eq_append_cases {l t xs ys : List Byte} (ht : t ≠ []) (h : l ++ t = xs ++ ys) :
    (∃ t', t' ≠ [] ∧ l ++ t' = xs) ∨ ∃ l', l = xs ++ l' ∧ l' ++ t = ys := by
  rcases List.append_eq_append_iff.mp h with ⟨m, rfl, rfl⟩ | ⟨m, rfl, rfl⟩
  · rcases eq_or_ne m [] with rfl | hm
    · exact .inr ⟨[], by simp, rfl⟩
    · exact .inl ⟨m, hm, rfl⟩
  · exact .inr ⟨m, rfl, rfl⟩

theorem take_of_cut {fb t xs : List Byte} {p n : Nat} (ht : t ≠ []) (h : fb.drop p ++ t = xs) (hn : xs.length = n) :
    take fb p n = .error ⟨.malformedFrame, fb.length⟩ := by
  have hlen : fb.length - p + t.length = n := by rw [← hn, ← h, List.length_append, List.length_drop]
  have hpos := List.length_pos_iff.mpr ht
  exact if_pos (by omega)

section
variable {α β : Type} {fb inl : List Byte} {a : α}

theorem Reads.elided (a : α) : Reads fb (fun p => .ok (a, p)) [] a :=
  ⟨fun {p _} h => ⟨p, rfl, h⟩, fun ht h => absurd (List.append_eq_nil_iff.mp h).2 ht⟩

/-- A field behind a field. -/
theorem Reads.andThen {inl' : List Byte} {b : β} {r : Nat → Except Err (α × Nat)} {k : α → Nat → Except Err (β × Nat)}
    (hr : Reads fb r inl a) (hk : Reads fb (k a) inl' b) : Reads fb (readThen r k) (inl ++ inl') b where
  whole {p rest} h := by
    obtain ⟨q, hrq, hq⟩ := hr.whole (h.trans (List.append_assoc _ _ _))
    rw [readThen, hrq]
    exact hk.whole hq
  cut {p t} ht h := by
    rw [readThen]
    rcases append_eq_append_cases ht h with ⟨t', ht', hcut⟩ | ⟨l, hl, hcut⟩
    · rw [hr.cut ht' hcut]
      rfl
    · obtain ⟨q, hrq, hq⟩ := hr.whole hl
      rw [hrq]
      exact hk.cut ht (hq ▸ hcut)

theorem Reads.map {r : Nat → Except Err (α × Nat)} (f : α → β) (hr : Reads fb r inl a) :
    Reads fb (readThen r fun x p => .ok (f x, p)) inl (f a) :=
  List.append_nil inl ▸ hr.andThen (.elided (f a))

/-- A field of a fixed size is read as what the reader makes of its bytes. -/
theorem Reads.of_take {n : Nat} {r : Nat → Except Err (α × Nat)} {f : List Byte → α} (hn : inl.length = n)
    (hpos : 0 < n) (hr : ∀ p, r p = (take fb p n).map (Prod.map f id)) (hf : f inl = a) : Reads fb r inl a where
  whole h := by
    obtain ⟨htake, hrest⟩ := take_of_drop h hn hpos
    exact ⟨_, by rw [hr, htake, ← hf]; rfl, hrest⟩
  cut ht h := by rw [hr, take_of_cut ht h hn]; rfl
end

/-! ## Context byte, traffic class and flow label, next header, hop limit (46_hc06_decompress.md R323 to R326) -/

section
variable {fb : List Byte}

theorem takeCid_reads {cid : Bool} {sci dci : BitVec 4} (h : cid = false → sci = 0 ∧ dci = 0) :
    Reads fb (takeCid fb cid) (if cid then [sci ++ dci] else []) (sci, dci) := by
  cases cid with
  | false =>
    obtain ⟨rfl, rfl⟩ := h rfl
    exact .elided _
  | true =>
    refine .of_take (n := 1) (f := fun t => ((byteAt t 0).extractLsb' 4 4, (byteAt t 0).extractLsb' 0 4)) rfl
      (by decide) (fun p => ?_) (Prod.ext BitVec.extractLsb'_append_eq_left BitVec.extractLsb'_append_eq_right)
    rw [takeCid]
    cases take fb p 1 <;> rfl

theorem takeNh_reads {nhc : Bool} {nh : Byte} (h : nhc = true → nh = 17) :
    Reads fb (takeNh fb nhc) (if nhc then [] else [nh]) nh := by
  cases nhc with
  | false =>
    refine .of_take (n := 1) (f := fun t => byteAt t 0) rfl (by decide) (fun p => ?_) rfl
    rw [takeNh]
    cases take fb p 1 <;> rfl
  | true =>
    obtain rfl := h rfl
    exact .elided _

theorem takeHlim_reads {form : BitVec 2} {hlim : Byte} (h : hlimFits form hlim) :
    Reads fb (takeHlim fb form) (if form = 0 then [hlim] else []) hlim := by
  obtain ⟨h1, h2, h3⟩ := h
  obtain rfl | rfl | rfl | rfl := addrMode_cases form
  · refine .of_take (n := 1) (f := fun t => byteAt t 0) rfl (by decide) (fun p => ?_) rfl
    rw [takeHlim, if_pos rfl]
    cases take fb p 1 <;> rfl
  · obtain rfl := h1 rfl
    exact .elided _
  · obtain rfl := h2 rfl
    exact .elided _
  · obtain rfl := h3 rfl
    exact .elided _

/-- The rotated byte `ECN ‖ DSCP` turned back (30_encoding.md R131). -/
theorem unrotate_append (tc : Byte) : unrotate (tc.extractLsb' 0 2 ++ tc.extractLsb' 2 6) = tc := by
  rw [unrotate, BitVec.extractLsb'_append_eq_left, BitVec.extractLsb'_append_eq_right,
    BitVec.extractLsb'_append_extractLsb'_eq_extractLsb' (start₂ := 2) rfl]
  exact BitVec.extractLsb'_eq_self

theorem flowLabel_join (fl : BitVec 20) :
    fl.extractLsb' 16 4 ++ fl.extractLsb' 8 8 ++ fl.extractLsb' 0 8 = fl := by
  rw [BitVec.extractLsb'_append_extractLsb'_eq_extractLsb' (start₂ := 16) rfl,
    BitVec.extractLsb'_append_extractLsb'_eq_extractLsb' (start₂ := 8) rfl]
  exact BitVec.extractLsb'_eq_self

/-- A traffic class below 4 is its `ECN`. -/
theorem ecn_of_lt {tc : Byte} (h : tc.toNat < 4) : 0#6 ++ tc.extractLsb' 0 2 = tc := by
  revert tc
  decide

theorem takeTf_reads {tf : BitVec 2} (pad : BitVec 4) {tc : Byte} {fl : BitVec 20} (h : tfFits tf tc fl) :
    Reads fb (takeTf fb tf) (tfBytes tf pad tc fl) (tc, fl) := by
  obtain ⟨h1, h2, h3⟩ := h
  obtain rfl | rfl | rfl | rfl := addrMode_cases tf
  · have hhigh : (byteAt (tfBytes 0 pad tc fl) 1).extractLsb' 0 4 = fl.extractLsb' 16 4 :=
      BitVec.extractLsb'_append_eq_right
    refine .of_take (n := 4)
      (f := fun t => (unrotate (byteAt t 0), (byteAt t 1).extractLsb' 0 4 ++ byteAt t 2 ++ byteAt t 3)) rfl (by decide)
      (fun p => ?_) (Prod.ext (unrotate_append tc) (hhigh ▸ flowLabel_join fl))
    rw [takeTf, if_pos rfl]
    cases take fb p 4 <;> rfl
  · have hhigh : (byteAt (tfBytes 1 pad tc fl) 0).extractLsb' 0 4 = fl.extractLsb' 16 4 :=
      BitVec.extractLsb'_append_eq_right
    have hecn : (byteAt (tfBytes 1 pad tc fl) 0).extractLsb' 6 2 = tc.extractLsb' 0 2 := by
      rw [← extractLsb'_extractLsb' (s := 4) (l := 4) (t := 2) _ (by decide)]
      exact (congrArg (BitVec.extractLsb' 2 2) BitVec.extractLsb'_append_eq_left).trans
        BitVec.extractLsb'_append_eq_left
    refine .of_take (n := 3)
      (f := fun t => (0#6 ++ (byteAt t 0).extractLsb' 6 2, (byteAt t 0).extractLsb' 0 4 ++ byteAt t 1 ++ byteAt t 2))
      rfl (by decide) (fun p => ?_) (Prod.ext (hecn ▸ ecn_of_lt (h1 rfl)) (hhigh ▸ flowLabel_join fl))
    rw [takeTf, if_neg (by decide), if_pos rfl]
    cases take fb p 3 <;> rfl
  · obtain rfl := h2 rfl
    refine .of_take (n := 1) (f := fun t => (unrotate (byteAt t 0), 0)) rfl (by decide) (fun p => ?_)
      (Prod.ext (unrotate_append tc) rfl)
    rw [takeTf, if_neg (by decide), if_neg (by decide), if_pos rfl]
    cases take fb p 1 <;> rfl
  · obtain ⟨rfl, rfl⟩ := h3 rfl
    exact .elided _
end

/-! ## Addresses (46_hc06_decompress.md R327 to R329) -/

theorem tobe_dword (d : DWord) : tobe 8 d.toNat = b8 d := by
  rw [tobe_toNat]
  simp only [b8, b4, extractLsb'_extractLsb', Nat.reduceAdd, Nat.reduceLeDiff]
  rfl

@[simp] theorem ofNat_be_b8 (d : DWord) : BitVec.ofNat 64 (be (b8 d)) = d := by
  rw [← tobe_dword]
  exact ofNat_be_tobe (n := 8) rfl d

theorem addr_join (a : Addr) : (a.extractLsb' 64 64 : DWord) ++ (a.extractLsb' 0 64 : DWord) = a := by
  rw [BitVec.extractLsb'_append_extractLsb'_eq_extractLsb' (start₂ := 64) rfl]
  exact BitVec.extractLsb'_eq_self

/-- The sum of 30_encoding.md R135 has no carry. -/
theorem iid16_eq_append (x : Half) : iid16 x = 0x000000FFFE00#48 ++ x := by
  apply BitVec.eq_of_toNat_eq
  have hx := x.isLt
  rw [iid16, BitVec.toNat_append, ← Nat.shiftLeft_add_eq_or_of_lt hx, BitVec.toNat_add, BitVec.toNat_setWidth]
  simp only [BitVec.toNat_ofNat, Nat.shiftLeft_eq]
  omega

theorem iidL2_eq_linkIid (mode : BitVec 2) (l2 : DWord) : iidL2 mode l2 = linkIid mode l2 := by
  rw [iidL2, iid16_eq_append]
  rfl

section
variable {fb inl : List Byte} {off : Nat}

theorem inlineAddr_reads (a : Addr) {r : Nat → Except Err (Addr × Nat)}
    (hr : ∀ p, r p = (take fb p 16).map (Prod.map (fun t => BitVec.ofNat 128 (be t)) id)) : Reads fb r (b16 a) a :=
  .of_take rfl (Nat.succ_pos 15) hr (ofNat_be_b16 a)

/-- The low half of an address in the three forms in which the high half is given. -/
theorem withPrefix_reads {pre l2 : DWord} {am mode : BitVec 2} {a : Addr} (h0 : am ≠ 0)
    (hpre : a.extractLsb' 64 64 = pre) (h1 : am = 1 → inl = b8 (a.extractLsb' 0 64))
    (h2 : am = 2 → (a.extractLsb' 0 64 : DWord)
        = 0x000000FFFE00#48 ++ ((a.extractLsb' 0 64 : DWord).extractLsb' 0 16 : Half)
      ∧ inl = b2 ((a.extractLsb' 0 64 : DWord).extractLsb' 0 16))
    (h3 : am = 3 → inl = [] ∧ linkIid mode l2 = some (a.extractLsb' 0 64)) :
    Reads fb (withPrefix fb off pre am mode l2) inl a := by
  obtain rfl | rfl | rfl | rfl := addrMode_cases am
  · exact absurd rfl h0
  · obtain rfl := h1 rfl
    refine .of_take (n := 8) (f := fun t => pre ++ (BitVec.ofNat 64 (be t) : DWord)) rfl (by decide) (fun p => ?_) ?_
    · rw [withPrefix, if_pos rfl]
      cases take fb p 8 <;> rfl
    · simp only [ofNat_be_b8, ← hpre, addr_join]
  · obtain ⟨hlow, rfl⟩ := h2 rfl
    refine .of_take (n := 2) (f := fun t => pre ++ iid16 (BitVec.ofNat 16 (be t))) rfl (by decide) (fun p => ?_) ?_
    · rw [withPrefix, if_neg (by decide), if_pos rfl]
      cases take fb p 2 <;> rfl
    · simp only [ofNat_be_b2, iid16_eq_append, ← hlow, ← hpre, addr_join]
  · obtain ⟨rfl, hiid⟩ := h3 rfl
    have helided : withPrefix fb off pre 3 mode l2 = fun p => .ok (a, p) := by
      funext p
      rw [withPrefix, if_neg (by decide), if_neg (by decide), iidL2_eq_linkIid, hiid]
      exact congrArg (fun b => Except.ok (b, p)) (hpre ▸ addr_join a)
    exact helided ▸ .elided a

/-- The bytes the decompressor sets around the inline bytes are those of the table in 30_encoding.md R136. -/
theorem multicast_bytes {k z : Nat} (hlen : inl.length = k + 1) :
    [0xFF, byteAt inl 0] ++ List.replicate z 0 ++ slice inl 1 k
      = [0xFF] ++ inl.take 1 ++ List.replicate z 0 ++ inl.drop 1 := by
  rw [slice_to_end (by omega), ← slice_zero, slice_one (by omega)]
  rfl

theorem multicast_reads {dam : BitVec 2} {a : Addr} (h : multicastForm dam inl a) :
    Reads fb (multicast fb off false dam) inl a := by
  obtain ⟨h0, h1, h2, h3⟩ := h
  obtain rfl | rfl | rfl | rfl := addrMode_cases dam
  · obtain rfl := h0 rfl
    refine inlineAddr_reads a fun p => ?_
    rw [multicast]
    cases take fb p 16 <;> rfl
  · obtain ⟨hlen, ha⟩ := h1 rfl
    refine .of_take
      (f := fun t => BitVec.ofNat 128 (be ([0xFF, byteAt t 0] ++ List.replicate 9 0 ++ slice t 1 5))) hlen (by decide)
      (fun p => ?_) (by simp only [multicast_bytes hlen, ← ha, ofNat_be_b16])
    rw [multicast]
    cases take fb p 6 <;> rfl
  · obtain ⟨hlen, ha⟩ := h2 rfl
    refine .of_take
      (f := fun t => BitVec.ofNat 128 (be ([0xFF, byteAt t 0] ++ List.replicate 11 0 ++ slice t 1 3))) hlen (by decide)
      (fun p => ?_) (by simp only [multicast_bytes hlen, ← ha, ofNat_be_b16])
    rw [multicast]
    cases take fb p 4 <;> rfl
  · obtain ⟨hlen, ha⟩ := h3 rfl
    obtain ⟨x, rfl⟩ := List.length_eq_one_iff.mp hlen
    refine .of_take
      (f := fun t => BitVec.ofNat 128 (be ([0xFF, 0x02] ++ List.replicate 13 0 ++ [byteAt t 0]))) hlen (by decide)
      (fun p => ?_) ((congrArg (fun bs => BitVec.ofNat 128 (be bs)) ha.symm).trans (ofNat_be_b16 a))
    rw [multicast]
    cases take fb p 1 <;> rfl
end

section
variable {s : State} {off : Nat} {isSrc ac : Bool} {am mode : BitVec 2} {ci : BitVec 4} {l2 : DWord}

theorem unicast_linkLocal (h0 : am ≠ 0) (p : Nat) :
    unicast s off isSrc false am ci mode l2 p = withPrefix s.fb.bytes off llPrefix am mode l2 p := by
  rw [unicast, if_pos rfl, if_neg h0]

theorem unicast_of_context (h0 : am ≠ 0) (hv : (s.ctx.get ci.toFin).valid = true) (p : Nat) :
    unicast s off isSrc true am ci mode l2 p
      = withPrefix s.fb.bytes off (s.ctx.get ci.toFin).pfx am mode l2 p := by
  rw [unicast, if_neg (by decide), if_neg h0]
  exact if_neg (by simp [hv])

theorem unicast_reads {inl : List Byte} {a : Addr} (h : s.unicastForm isSrc ac am ci mode l2 inl a) :
    Reads s.fb.bytes (unicast s off isSrc ac am ci mode l2) inl a := by
  by_cases h0 : am = 0
  · subst h0
    rw [State.unicastForm, if_pos rfl] at h
    cases ac with
    | false =>
      obtain rfl : inl = b16 a := h
      refine inlineAddr_reads a fun p => ?_
      rw [unicast]
      cases take s.fb.bytes p 16 <;> rfl
    | true =>
      obtain ⟨rfl, rfl, rfl⟩ := h
      exact .elided 0
  · rw [State.unicastForm, if_neg h0] at h
    obtain ⟨hpre, h1, h2, h3⟩ := h
    cases ac with
    | false => exact (funext (unicast_linkLocal h0)).symm ▸ withPrefix_reads h0 hpre h1 h2 h3
    | true =>
      obtain ⟨hv, hpre⟩ := hpre
      exact (funext (unicast_of_context h0 hv)).symm ▸ withPrefix_reads h0 hpre h1 h2 h3

theorem takeDst_unicast {h : Iphc} (hm : h.m = false) (dci : BitVec 4) (p : Nat) :
    takeDst s off h dci p = unicast s off false h.dac h.dam dci s.mac.dmode s.mac.daddr p := by
  rw [takeDst, hm]
  rfl

theorem takeDst_multicast {h : Iphc} (hm : h.m = true) (dci : BitVec 4) (p : Nat) :
    takeDst s off h dci p = multicast s.fb.bytes off h.dac h.dam p := by
  rw [takeDst, hm]
  rfl

theorem takeDst_reads {h : Iphc} {dci : BitVec 4} {inl : List Byte} {a : Addr}
    (hform : if h.m then h.dac = false ∧ multicastForm h.dam inl a
      else s.unicastForm false h.dac h.dam dci s.mac.dmode s.mac.daddr inl a) :
    Reads s.fb.bytes (takeDst s off h dci) inl a := by
  cases hm : h.m with
  | false =>
    rw [hm] at hform
    exact (funext (takeDst_unicast hm dci)).symm ▸ unicast_reads hform
  | true =>
    rw [hm] at hform
    obtain ⟨hdac, hmc⟩ := hform
    exact (funext (takeDst_multicast hm dci)).symm ▸ hdac.symm ▸ multicast_reads hmc

/-! ## The header (46_hc06_decompress.md R322, steps 1 to 5) -/

/-- The fields of `takeHeader` one behind the other, from the position of the first. -/
def takeFields (s : State) (off : Nat) (h : Iphc) : Nat → Except Err (Hdr × Nat) :=
  readThen (takeCid s.fb.bytes h.cid) fun c => readThen (takeTf s.fb.bytes h.tf) fun t =>
  readThen (takeNh s.fb.bytes h.nh) fun nh => readThen (takeHlim s.fb.bytes h.hlim) fun hlim =>
  readThen (unicast s off true h.sac h.sam c.1 s.mac.smode s.mac.saddr) fun src =>
  readThen (takeDst s off h c.2) fun dst p =>
    .ok ({ ver := 6, tc := t.1, fl := t.2, plen := 0, nh := nh, hlim := hlim, src := src, dst := dst }, p)

theorem takeHeader_eq (s : State) (off : Nat) (h : Iphc) : takeHeader s off h = takeFields s off h (off + 2) := by
  unfold takeHeader
  repeat' split
  all_goals simp only [takeFields, readThen, Except.bind, *]

/-- The inline bytes `x` are in the forms `h` announces and stand for the header `hd` (30_encoding.md R131 to R136). -/
def State.headerForm (s : State) (h : Iphc) (x : Inline) (hd : Hdr) : Prop :=
  (h.cid = false → x.sci = 0 ∧ x.dci = 0) ∧ tfFits h.tf hd.tc hd.fl ∧ hlimFits h.hlim hd.hlim
  ∧ hd.ver = 6 ∧ (h.nh = true → hd.nh = 17)
  ∧ s.unicastForm true h.sac h.sam x.sci s.mac.smode s.mac.saddr x.src hd.src
  ∧ (if h.m then h.dac = false ∧ multicastForm h.dam x.dst hd.dst
     else s.unicastForm false h.dac h.dam x.dci s.mac.dmode s.mac.daddr x.dst hd.dst)

/-- The bytes between the base bytes and the body (30_encoding.md R137). -/
def inlineBytes (h : Iphc) (x : Inline) (hd : Hdr) : List Byte :=
  (if h.cid then [x.sci ++ x.dci] else []) ++ (tfBytes h.tf x.pad hd.tc hd.fl ++ ((if h.nh then [] else [hd.nh])
    ++ ((if h.hlim = 0 then [hd.hlim] else []) ++ (x.src ++ x.dst))))

theorem takeFields_reads {h : Iphc} {x : Inline} {hd : Hdr} (hform : s.headerForm h x hd) :
    Reads s.fb.bytes (takeFields s off h) (inlineBytes h x hd) { hd with plen := 0 } := by
  obtain ⟨hcid, htf, hhlim, hver, hnh, hsrc, hdst⟩ := hform
  have hhdr : ({ hd with plen := 0 } : Hdr) = { hd with ver := 6, plen := 0 } := by rw [← hver]
  rw [hhdr]
  exact (takeCid_reads hcid).andThen <| (takeTf_reads x.pad htf).andThen <| (takeNh_reads hnh).andThen <|
    (takeHlim_reads hhlim).andThen <| (unicast_reads hsrc).andThen <| (takeDst_reads hdst).map _
end

end Sys2Proof.Machine
end

section
/-! SUPPORT. The decompressor on a frame that holds a compressed header (46_hc06_decompress.md R322, R330 to R332): what
it commits where the header stands whole, and how it fails where the frame breaks off in it. -/

namespace Sys2Proof.Machine

/-! ## The body: a UDP header's inline bytes where the frame breaks off (46_hc06_decompress.md R330) -/

section
variable {fb t : List Byte} {p : Nat}

theorem takePorts_of_cut {pp : BitVec 2} {sp dp : Half} (ht : t ≠ []) (h : fb.drop p ++ t = portBytes pp sp dp) :
    takePorts fb pp p = .error ⟨.malformedFrame, fb.length⟩ := by
  obtain rfl | rfl | rfl | rfl := addrMode_cases pp
  · rw [takePorts, if_pos rfl, take_of_cut (n := 4) ht h rfl]
  · rw [takePorts, if_neg (by decide), if_pos rfl, take_of_cut (n := 3) ht h rfl]
  · rw [takePorts, if_neg (by decide), if_neg (by decide), if_pos rfl, take_of_cut (n := 3) ht h rfl]
  · rw [takePorts, if_neg (by decide), if_neg (by decide), if_neg (by decide), take_of_cut (n := 1) ht h rfl]

theorem takeCk_of_cut {c : Bool} {ck : Half} (ht : t ≠ []) (h : fb.drop p ++ t = if c then [] else b2 ck) :
    takeCk fb c p = .error ⟨.malformedFrame, fb.length⟩ := by
  cases c with
  | false => simp [takeCk, take_of_cut (n := 2) ht h rfl]
  | true => exact absurd (List.append_eq_nil_iff.mp h).2 ht

theorem udpBody_of_cut {q : UdpHeader} {src dst : Addr} (hfit : portsFit q.form q.sport q.dport) (ht : t ≠ [])
    (h : fb.drop p ++ t = portBytes q.form q.sport q.dport ++ if q.elided then [] else b2 q.cksum) :
    udpBody fb src dst q.elided q.form p = .error ⟨.malformedFrame, fb.length⟩ := by
  rcases append_eq_append_cases ht h with ⟨t', ht', hcut⟩ | ⟨l, hl, hcut⟩
  · rw [udpBody, takePorts_of_cut ht' hcut]
  · obtain ⟨p', hports, hdrop⟩ := takePorts_of_drop hl hfit
    simp only [udpBody, hports, takeCk_of_cut ht (hdrop ▸ hcut)]

/-- Behind its NHC byte the body is a UDP header's (30_encoding.md R139). -/
theorem takeBody_of_nhc {rest : List Byte} {c : Bool} {pp : BitVec 2} (hd : Hdr)
    (h : fb.drop p = [encodeNhcUdp c pp] ++ rest) : takeBody fb true hd p = udpBody fb hd.src hd.dst c pp (p + 1) := by
  have hdec : decodeNhcUdp (byteAt [encodeNhcUdp c pp] 0) = some (c, pp) := encodeNhcUdp_eq_iff.mp rfl
  rw [takeBody, if_pos rfl, (take_of_drop (n := 1) h rfl (by decide)).1]
  simp only [hdec]

theorem UdpHeader.bytes_eq (q : UdpHeader) : q.bytes = [encodeNhcUdp q.elided q.form]
    ++ (portBytes q.form q.sport q.dport ++ if q.elided then [] else b2 q.cksum) := List.append_assoc _ _ _

section
variable {nh : Bool} {q : UdpHeader} (hd : Hdr) (hfit : nh = true → portsFit q.form q.sport q.dport)
include hfit

theorem takeBody_of_drop {pay : List Byte} (h : fb.drop p = hcBody nh q pay) :
    takeBody fb nh hd p = .ok (hcPayload nh q hd.src hd.dst pay) := by
  cases nh with
  | false => exact congrArg Except.ok h
  | true =>
    have hbytes : fb.drop p = q.bytes ++ pay := h
    rw [q.bytes_eq, List.append_assoc] at hbytes
    have hrest := (take_of_drop (n := 1) hbytes rfl (by decide)).2
    exact (takeBody_of_nhc hd hbytes).trans (udpBody_of_drop (hrest.trans (List.append_assoc _ _ _)) (hfit rfl))

theorem takeBody_of_cut (ht : t ≠ []) (h : fb.drop p ++ t = hcBody nh q []) :
    takeBody fb nh hd p = .error ⟨.malformedFrame, fb.length⟩ := by
  cases nh with
  | false => exact absurd (List.append_eq_nil_iff.mp h).2 ht
  | true =>
    have hbytes : fb.drop p ++ t = q.bytes := h.trans (List.append_nil _)
    rw [q.bytes_eq] at hbytes
    rcases append_eq_append_cases ht hbytes with ⟨t', ht', hcut⟩ | ⟨l, hl, hcut⟩
    · rw [takeBody, if_pos rfl, take_of_cut (n := 1) ht' hcut rfl]
    · have hrest := (take_of_drop (n := 1) hl rfl (by decide)).2
      exact (takeBody_of_nhc hd hl).trans (udpBody_of_cut (hfit rfl) ht (hrest ▸ hcut))
end
end

/-! ## The base bytes (30_encoding.md R130) -/

theorem byteAt_iphcBytes (h : Iphc) : byteAt (iphcBytes h) 0 ++ byteAt (iphcBytes h) 1 = encodeIphc h := by
  have assoc (b : Byte) (c s m d : BitVec 1) (sam dam : BitVec 2) :
      b ++ c ++ s ++ sam ++ m ++ d ++ dam = b ++ (c ++ s ++ sam ++ m ++ d ++ dam) := by
    simp only [BitVec.append_assoc, BitVec.cast_eq]
  exact (assoc _ _ _ _ _ _ _).symm

theorem encodeIphc_highByte (h : Iphc) :
    (encodeIphc h).extractLsb' 8 8 = 0b011#3 ++ h.tf ++ BitVec.ofBool h.nh ++ h.hlim := by
  rw [← byteAt_iphcBytes]
  exact BitVec.extractLsb'_append_eq_left

section
variable {s : State} {off : Half} {h : Iphc}

theorem take_of_iphcAt {o : Nat} (hat : s.iphcAt o h) : ∃ t, take s.fb.bytes o 2 = .ok (t, o + 2)
    ∧ decodeIphc (byteAt t 0 ++ byteAt t 1) = some h := by
  obtain ⟨hlen, hbase⟩ := hat
  rw [← Memory.bytes_length] at hlen
  refine ⟨slice s.fb.bytes o 2, if_neg (by omega), encodeIphc_eq_iff.mp ?_⟩
  rw [slice_two (by omega)]
  exact hbase.symm

theorem execHcDecomp_of_iphcAt (hat : s.iphcAt off.toNat h) : execHcDecomp off s = decompress h off.toNat s := by
  obtain ⟨t, htake, hdec⟩ := take_of_iphcAt hat
  simp only [execHcDecomp, htake, hdec]

/-- The IPHC unit at the place `arg0` names runs the decompressor from there (log 9). -/
theorem execWireIphc_of_iphcAt (harg : s.tx.arg0.toNat % 65536 = off.toNat) (hat : s.iphcAt off.toNat h) :
    execWireIphc h s = decompress h off.toNat s := by
  have hoff : unitOffset s = off.toNat := by
    rw [unitOffset, BitVec.extractLsb'_toNat, Nat.shiftRight_zero]
    exact harg
  obtain ⟨t, htake, -⟩ := take_of_iphcAt hat
  rw [execWireIphc, hoff, htake]

theorem iphcAt_of_drop {o : Nat} {rest : List Byte} (hdrop : s.fb.bytes.drop o = iphcBytes h ++ rest) :
    s.iphcAt o h := by
  have hlen : s.fb.len - o = 2 + rest.length := by
    rw [← Memory.bytes_length, ← List.length_drop, hdrop, List.length_append, iphcBytes_length]
  have hbase : [byteAt s.fb.bytes o, byteAt s.fb.bytes (o + 1)] = iphcBytes h := by
    rw [← slice_two (by rw [Memory.bytes_length]; omega), slice, hdrop]
    rfl
  refine ⟨by omega, ?_⟩
  rw [← byteAt_iphcBytes, ← hbase]
  rfl

/-! ## The ways a decompression ends -/

theorem decompress_of_header_error {o : Nat} {e : Err} (he : takeHeader s o h = .error e) :
    decompress h o s = raiseAny e s := by
  rw [decompress, he]

theorem decompress_of_body_error {o p : Nat} {hd : Hdr} {e : Err} (hh : takeHeader s o h = .ok (hd, p))
    (he : takeBody s.fb.bytes h.nh hd p = .error e) : decompress h o s = raiseAny e s := by
  simp only [decompress, hh, he]

theorem decompress_of_body {o p : Nat} {hd : Hdr} {body : List Byte} (hh : takeHeader s o h = .ok (hd, p))
    (hb : takeBody s.fb.bytes h.nh hd p = .ok body) :
    decompress h o s = hcCommit hd body (some ((encodeIphc h).extractLsb' 8 8)) s := by
  simp only [decompress, hh, hb]

/-- A failure of the command, as the statements say it. -/
theorem exists_failedAny {e : Err} {code place : Nat} (he : execHcDecomp off s = raiseAny e s)
    (hcode : e.kind.code = code) (hplace : e.off = place) :
    ∃ v d, exec (.hcDecomp off) s = failedAny code place v d s :=
  ⟨_, _, hcode ▸ hplace ▸ he.trans (raiseAny_eq_failedAny e s)⟩
end

/-! ## A header of any form -/

section
variable {s : State} {h : Iphc} {x : Inline} {hd : Hdr} {q : UdpHeader}

/-- The bytes in front of the payload: base bytes, inline bytes, UDP header (30_encoding.md R137, R139). -/
def frontBytes (h : Iphc) (x : Inline) (hd : Hdr) (q : UdpHeader) : List Byte :=
  iphcBytes h ++ (inlineBytes h x hd ++ hcBody h.nh q [])

theorem hcBody_append (nh : Bool) (q : UdpHeader) (pay : List Byte) : hcBody nh q pay = hcBody nh q [] ++ pay := by
  cases nh <;> simp [hcBody]

theorem iphcHeader_iff {o : Nat} {pay : List Byte} : s.iphcHeader o h x hd (hcBody h.nh q pay)
    ↔ s.fb.bytes.drop o = frontBytes h x hd q ++ pay ∧ s.headerForm h x hd := by
  rw [State.iphcHeader, hcBody_append]
  simp only [frontBytes, inlineBytes, List.append_assoc]
  rfl

theorem decompress_of_front {o : Nat} {pay : List Byte} (hform : s.headerForm h x hd)
    (hfit : h.nh = true → portsFit q.form q.sport q.dport) (hdrop : s.fb.bytes.drop o = frontBytes h x hd q ++ pay) :
    decompress h o s = hcCommit { hd with plen := 0 } (hcPayload h.nh q hd.src hd.dst pay)
      (some ((encodeIphc h).extractLsb' 8 8)) s := by
  rw [frontBytes, List.append_assoc, List.append_assoc, ← hcBody_append] at hdrop
  obtain ⟨-, hinline⟩ := take_of_drop (n := 2) hdrop rfl (by decide)
  obtain ⟨p, hhdr, hbody⟩ := (takeFields_reads (off := o) hform).whole hinline
  exact decompress_of_body ((takeHeader_eq s o h).trans hhdr) (takeBody_of_drop _ hfit hbody)

theorem execHcDecomp_of_cut {off : Half} {t : List Byte} (hform : s.headerForm h x hd)
    (hfit : h.nh = true → portsFit q.form q.sport q.dport) (ht : t ≠ [])
    (hcut : s.fb.bytes.drop off.toNat ++ t = frontBytes h x hd q) :
    execHcDecomp off s = raiseAny ⟨.malformedFrame, s.fb.bytes.length⟩ s := by
  rcases append_eq_append_cases ht hcut with ⟨t', ht', hbase⟩ | ⟨l, hl, hcut⟩
  · rw [execHcDecomp, take_of_cut (n := 2) ht' hbase rfl]
  obtain ⟨-, hinline⟩ := take_of_drop (n := 2) hl rfl (by decide)
  rw [execHcDecomp_of_iphcAt (iphcAt_of_drop hl)]
  have hreads := takeFields_reads (off := off.toNat) hform
  rcases append_eq_append_cases ht hcut with ⟨t', ht', hfields⟩ | ⟨l', rfl, hbody⟩
  · exact decompress_of_header_error ((takeHeader_eq s _ h).trans (hreads.cut ht' (hinline ▸ hfields)))
  · obtain ⟨p, hhdr, hrest⟩ := hreads.whole hinline
    exact decompress_of_body_error ((takeHeader_eq s _ h).trans hhdr) (takeBody_of_cut _ hfit ht (hrest ▸ hbody))

/-- A frame cut in front of its payload breaks off among the bytes of the header. -/
theorem drop_take_of_lt {bs front pay : List Byte} {o n : Nat} (hfront : front ≠ []) (h : bs.drop o = front ++ pay)
    (hn : n + pay.length < bs.length) : ∃ t, t ≠ [] ∧ (bs.take n).drop o ++ t = front := by
  have hpos := List.length_pos_iff.mpr hfront
  have hlen : bs.length - o = front.length + pay.length := by rw [← List.length_drop, h, List.length_append]
  refine ⟨front.drop (n - o), ?_, ?_⟩
  · rw [← List.length_pos_iff, List.length_drop]
    omega
  · rw [List.drop_take, h, List.take_append_of_le_length (by omega), List.take_append_drop]
end

/-! ## The command and the IPHC unit (46_hc06_decompress.md R322, R332) -/

/-- A header of any form, with room for its packet, is committed. -/
theorem execHcDecomp_of_iphcHeader {s : State} {off : Half} {h : Iphc} {x : Inline} {hd : Hdr} {q : UdpHeader}
    {pay body : List Byte} (hbody : body = hcPayload h.nh q hd.src hd.dst pay)
    (hheader : s.iphcHeader off.toNat h x hd (hcBody h.nh q pay))
    (hfit : h.nh = true → portsFit q.form q.sport q.dport) (hcap : 40 + body.length ≤ s.par.pbCap) :
    execHcDecomp off s = .next { s with
      hdr := { hd with plen := BitVec.ofNat 16 body.length }
      pb := Memory.ofBytes (headerBytes { hd with plen := BitVec.ofNat 16 body.length } ++ body)
      cur := 40, chain := [], acc := Config.freeAcc s.draws, draws := s.draws + 1, status := 0
      attr := s.attr.set 2 { valid := true, value := zext (0b011#3 ++ h.tf ++ BitVec.ofBool h.nh ++ h.hlim) } } := by
  subst hbody
  obtain ⟨hdrop, hform⟩ := iphcHeader_iff.mp hheader
  rw [execHcDecomp_of_iphcAt (iphcAt_of_drop (hdrop.trans (List.append_assoc _ _ _))),
    decompress_of_front hform hfit hdrop, encodeIphc_highByte]
  obtain ⟨hbig, -⟩ | ⟨-, hcommit⟩ := hcCommit_cases { hd with plen := 0 } (hcPayload h.nh q hd.src hd.dst pay)
    (some (0b011#3 ++ h.tf ++ BitVec.ofBool h.nh ++ h.hlim)) s
  · omega
  · exact hcommit

theorem execWireIphc_eq_execHcDecomp {s : State} {off : Half} {h : Iphc}
    (harg : s.tx.arg0.toNat % 65536 = off.toNat) (hat : s.iphcAt off.toNat h) :
    execWireIphc h s = execHcDecomp off s :=
  (execWireIphc_of_iphcAt harg hat).trans (execHcDecomp_of_iphcAt hat).symm

/-- The address under `fe80::/64` with a link-layer address' identifier, elided (30_encoding.md R135, R136). -/
theorem unicastForm_derived {s : State} {isSrc : Bool} {ci : BitVec 4} {mode : BitVec 2} {l2 iid : DWord}
    (h : linkIid mode l2 = some iid) :
    s.unicastForm isSrc false 3 ci mode l2 [] (0xFE80000000000000#64 ++ iid) :=
  ⟨BitVec.extractLsb'_append_eq_left, fun h1 => absurd h1 (by decide), fun h2 => absurd h2 (by decide),
    fun _ => ⟨rfl, h.trans (congrArg some BitVec.extractLsb'_append_eq_right.symm)⟩⟩

/-- The header of the base bytes `7A 33`: both addresses elided, next header inline, hop limit 64. -/
def elidedIphc : Iphc :=
  { tf := 3, nh := false, hlim := 2, cid := false, sac := false, sam := 3, m := false, dac := false, dam := 3 }

/-- The header that `7A 33` and the byte `nh` stand for between extended link-layer addresses. -/
def State.elidedHdr (s : State) (nh : Byte) (plen : Half) : Hdr :=
  { ver := 6, tc := 0, fl := 0, plen := plen, nh := nh, hlim := 64
    src := 0xFE80000000000000#64 ++ (s.mac.saddr ^^^ 0x0200000000000000#64)
    dst := 0xFE80000000000000#64 ++ (s.mac.daddr ^^^ 0x0200000000000000#64) }

theorem iphcHeader_elided {s : State} {o : Nat} {nh : Byte} {pay : List Byte}
    (hdrop : s.fb.bytes.drop o = [0x7A, 0x33, nh] ++ pay) (hsrc : s.mac.smode = 3) (hdst : s.mac.dmode = 3)
    (plen : Half) : s.iphcHeader o elidedIphc {} (s.elidedHdr nh plen) (hcBody elidedIphc.nh {} pay) := by
  refine ⟨hdrop, fun _ => ⟨rfl, rfl⟩, (by decide : tfFits 3 0 0), (by decide : hlimFits 2 64), rfl, nofun, ?_, ?_⟩
  · rw [hsrc]
    exact unicastForm_derived (isSrc := true) rfl
  · rw [hdst]
    exact unicastForm_derived (isSrc := false) rfl

/-- Settles O57: a header of any form is committed, `7A 33` is one of them, and the unit runs the same decompressor. -/
theorem elidedLinkLocalHeaderDecompresses : Obligations.ElidedLinkLocalHeaderDecompresses := by
  refine ⟨?elided, ?anyForm, fun s off h harg hat => execWireIphc_eq_execHcDecomp harg hat⟩
  case elided =>
    intro s off nh pay hdrop hsrc hdst hcap h
    have hexec := execHcDecomp_of_iphcHeader (body := pay) rfl
      (iphcHeader_elided hdrop hsrc hdst (BitVec.ofNat 16 pay.length)) nofun hcap
    have hat : s.iphcAt off.toNat elidedIphc := iphcAt_of_drop (rest := nh :: pay) hdrop
    exact ⟨_, _, hexec, fun harg => (execWireIphc_eq_execHcDecomp harg hat).trans hexec⟩
  case anyForm =>
    intro s off h x hd q pay hheader hfit body hd' hcap
    exact ⟨_, _, execHcDecomp_of_iphcHeader rfl hheader hfit hcap⟩

end Sys2Proof.Machine
end

section
/-! SUPPORT. The failures of the decompressor (46_hc06_decompress.md R323 to R333): the base bytes, an address, the NHC
byte, and a header of any form that is cut or too large. -/

namespace Sys2Proof.Machine

/-! ## The base bytes (46_hc06_decompress.md R323) -/

theorem decodeIphc_of_wrong_dispatch {b0 b1 : Byte} (h : b0.toNat / 32 ≠ 3) : decodeIphc (b0 ++ b1) = none := by
  refine if_neg fun htop => h ?_
  rw [← extractLsb'_extractLsb' (s := 8) (l := 8) (t := 5) _ (by decide), BitVec.extractLsb'_append_eq_left] at htop
  exact (extractLsb'_toNat_of_top (n := 3) (k := 5) b0 rfl).symm.trans (congrArg BitVec.toNat htop)

section
variable {s : State} {off : Half}

theorem execHcDecomp_of_short (h : s.fb.len < off.toNat + 2) :
    execHcDecomp off s = raiseAny ⟨.malformedFrame, s.fb.len⟩ s := by
  rcases take_cases s.fb.bytes off.toNat 2 with ⟨hin, -⟩ | ⟨-, htake⟩
  · rw [Memory.bytes_length] at hin
    omega
  · rw [execHcDecomp, htake, Memory.bytes_length]

theorem execHcDecomp_of_wrong_dispatch (hlen : off.toNat + 2 ≤ s.fb.len)
    (h : (byteAt s.fb.bytes off.toNat).toNat / 32 ≠ 3) :
    execHcDecomp off s = raiseAny ⟨.malformedFrame, off.toNat⟩ s := by
  rw [← Memory.bytes_length] at hlen
  have htake : take s.fb.bytes off.toNat 2 = .ok (slice s.fb.bytes off.toNat 2, off.toNat + 2) := if_neg (by omega)
  have hdec : decodeIphc (byteAt (slice s.fb.bytes off.toNat 2) 0 ++ byteAt (slice s.fb.bytes off.toNat 2) 1) = none :=
    decodeIphc_of_wrong_dispatch (by rwa [byteAt_slice (by decide)])
  simp only [execHcDecomp, htake, hdec]
end

/-! ## An address that cannot be rebuilt (46_hc06_decompress.md R327 to R329) -/

section
variable {s : State} {o p : Nat} {isSrc ac : Bool} {am mode : BitVec 2} {ci : BitVec 4} {l2 : DWord}

theorem unicast_of_no_context (h0 : am ≠ 0) (hv : (s.ctx.get ci.toFin).valid = false) :
    unicast s o isSrc true am ci mode l2 p = .error ⟨.unknownContext, o + 1⟩ := by
  rw [unicast, if_neg (by decide), if_neg h0]
  exact if_pos hv

theorem withPrefix_of_no_identifier {fb : List Byte} {pre : DWord} (h2 : mode ≠ 2) (h3 : mode ≠ 3) :
    withPrefix fb o pre 3 mode l2 p = .error ⟨.malformedFrame, o + 1⟩ := by
  rw [withPrefix, if_neg (by decide), if_neg (by decide), iidL2, if_neg h2, if_neg h3]

/-- Without a link-layer address no identifier is derived, under `fe80::/64` or under a context. -/
theorem unicast_of_no_identifier (hv : ac = true → (s.ctx.get ci.toFin).valid = true) (h2 : mode ≠ 2) (h3 : mode ≠ 3) :
    unicast s o isSrc ac 3 ci mode l2 p = .error ⟨.malformedFrame, o + 1⟩ := by
  cases ac with
  | false => exact (unicast_linkLocal (by decide) p).trans (withPrefix_of_no_identifier h2 h3)
  | true => exact (unicast_of_context (by decide) (hv rfl) p).trans (withPrefix_of_no_identifier h2 h3)
end

/-! ## Headers with nothing inline before the addresses -/

/-- The header such base bytes stand for, with its addresses. -/
def bareHdr (src dst : Addr) : Hdr :=
  { ver := 6, tc := 0, fl := 0, plen := 0, nh := 17, hlim := 64, src := src, dst := dst }

section
variable {s : State} {off : Half} {sac m dac : Bool} {sam dam : BitVec 2} {e : Err}

theorem takeHeader_bare (o : Nat) : takeHeader s o (bareIphc sac sam m dac dam)
    = readThen (unicast s o true sac sam 0 s.mac.smode s.mac.saddr) (fun src =>
        readThen (takeDst s o (bareIphc sac sam m dac dam) 0) fun dst p => .ok (bareHdr src dst, p)) (o + 2) :=
  takeHeader_eq s o _

theorem takeHeader_of_no_source (o : Nat) : takeHeader s o (bareIphc true 0 m dac dam)
    = readThen (takeDst s o (bareIphc true 0 m dac dam) 0) (fun dst p => .ok (bareHdr 0 dst, p)) (o + 2) :=
  takeHeader_bare o

theorem execHcDecomp_of_source_error (hat : s.iphcAt off.toNat (bareIphc sac sam m dac dam))
    (he : unicast s off.toNat true sac sam 0 s.mac.smode s.mac.saddr (off.toNat + 2) = .error e) :
    execHcDecomp off s = raiseAny e s := by
  rw [execHcDecomp_of_iphcAt hat, decompress_of_header_error]
  rw [takeHeader_bare, readThen, he]
  rfl

theorem execHcDecomp_of_destination_error (hat : s.iphcAt off.toNat (bareIphc true 0 m dac dam))
    (he : takeDst s off.toNat (bareIphc true 0 m dac dam) 0 (off.toNat + 2) = .error e) :
    execHcDecomp off s = raiseAny e s := by
  rw [execHcDecomp_of_iphcAt hat, decompress_of_header_error]
  rw [takeHeader_of_no_source, readThen, he]
  rfl

/-- The frame ends in front of a multicast destination's only byte. -/
theorem execHcDecomp_of_multicast_cut (hat : s.iphcAt off.toNat (bareIphc true 0 true false 3))
    (hlen : s.fb.len = off.toNat + 2) : execHcDecomp off s = raiseAny ⟨.malformedFrame, s.fb.len⟩ s := by
  have hend : s.fb.bytes.drop (off.toNat + 2) ++ [0] = [0] := by
    rw [List.drop_eq_nil_of_le (by rw [Memory.bytes_length]; omega), List.nil_append]
  have hform : multicastForm 3 [0] 0xFF020000000000000000000000000000 := by decide
  have hcut := (multicast_reads (off := off.toNat) hform).cut (by decide) hend
  rw [Memory.bytes_length] at hcut
  exact execHcDecomp_of_destination_error hat hcut

theorem decodeNhcUdp_of_wrong {b : Byte} (h : b.toNat / 8 ≠ 0b11110) : decodeNhcUdp b = none :=
  if_neg fun htop => h ((extractLsb'_toNat_of_top (n := 5) (k := 3) b rfl).symm.trans (congrArg BitVec.toNat htop))

theorem execHcDecomp_of_wrong_nhc (hat : s.iphcAt off.toNat (bareIphc true 0 true false 3))
    (hlen : off.toNat + 4 ≤ s.fb.len) (h : (byteAt s.fb.bytes (off.toNat + 3)).toNat / 8 ≠ 0b11110) :
    execHcDecomp off s = raiseAny ⟨.malformedFrame, off.toNat + 3⟩ s := by
  rw [← Memory.bytes_length] at hlen
  have htake {p : Nat} (hp : p < off.toNat + 4) : take s.fb.bytes p 1 = .ok (slice s.fb.bytes p 1, p + 1) :=
    if_neg (by omega)
  obtain ⟨dst, hdst⟩ : ∃ dst, takeDst s off.toNat (bareIphc true 0 true false 3) 0 (off.toNat + 2)
      = .ok (dst, off.toNat + 3) := by
    refine ⟨BitVec.ofNat 128 (be ([0xFF, 0x02] ++ List.replicate 13 0
      ++ [byteAt (slice s.fb.bytes (off.toNat + 2) 1) 0])), ?_⟩
    change multicast s.fb.bytes off.toNat false 3 (off.toNat + 2) = _
    rw [multicast, htake (by omega)]
    rfl
  have hhdr : takeHeader s off.toNat (bareIphc true 0 true false 3) = .ok (bareHdr 0 dst, off.toNat + 3) := by
    rw [takeHeader_of_no_source, readThen, hdst]
    rfl
  have hdec : decodeNhcUdp (byteAt (slice s.fb.bytes (off.toNat + 3) 1) 0) = none :=
    decodeNhcUdp_of_wrong (by rwa [byteAt_slice (by decide)])
  rw [execHcDecomp_of_iphcAt hat]
  refine decompress_of_body_error hhdr ?_
  change takeBody s.fb.bytes true _ _ = _
  rw [takeBody, if_pos rfl, htake (by omega)]
  simp only [hdec]
end

/-! ## Headers of any form -/

theorem execHcDecomp_of_large {s : State} {off : Half} {h : Iphc} {x : Inline} {hd : Hdr} {q : UdpHeader}
    {pay : List Byte} (hheader : s.iphcHeader off.toNat h x hd (hcBody h.nh q pay))
    (hfit : h.nh = true → portsFit q.form q.sport q.dport)
    (hbig : s.par.pbCap < 40 + (hcPayload h.nh q hd.src hd.dst pay).length) :
    execHcDecomp off s = raiseAny ⟨.outOfRange, s.par.pbCap⟩ s := by
  obtain ⟨hdrop, hform⟩ := iphcHeader_iff.mp hheader
  rw [execHcDecomp_of_iphcAt (iphcAt_of_drop (hdrop.trans (List.append_assoc _ _ _))),
    decompress_of_front hform hfit hdrop]
  exact if_pos hbig

/-- The frame ends among the bytes of the header (46_hc06_decompress.md R325). -/
theorem execHcDecomp_of_cut_frame {s : State} {off : Half} {h : Iphc} {x : Inline} {hd : Hdr} {q : UdpHeader}
    {pay : List Byte} {n : Nat} (hheader : s.iphcHeader off.toNat h x hd (hcBody h.nh q pay))
    (hfit : h.nh = true → portsFit q.form q.sport q.dport) (hn : n + pay.length < s.fb.len) :
    execHcDecomp off { s with fb := Memory.ofBytes (s.fb.bytes.take n) }
      = raiseAny ⟨.malformedFrame, n⟩ { s with fb := Memory.ofBytes (s.fb.bytes.take n) } := by
  obtain ⟨hdrop, hform⟩ := iphcHeader_iff.mp hheader
  rw [← Memory.bytes_length] at hn
  obtain ⟨t, ht, hcut⟩ := drop_take_of_lt (nofun : frontBytes h x hd q ≠ []) hdrop hn
  have hlen : (s.fb.bytes.take n).length = n := List.length_take_of_le (by omega)
  have hexec := execHcDecomp_of_cut (s := { s with fb := Memory.ofBytes (s.fb.bytes.take n) }) (off := off) hform hfit
    ht (by rwa [Memory.bytes_ofBytes])
  rwa [Memory.bytes_ofBytes, hlen] at hexec

/-- Settles O58: the first check that fails decides; a frame cut in front of its payload breaks off in its header. -/
theorem hcDecompFailures : Obligations.HcDecompFailures := by
  intro s off o fails
  refine ⟨fun hlen => ?short, fun hlen hb => ?dispatch, fun sam m dac dam hat h0 hv => ?sourceContext,
    fun m dac dam hat h2 h3 => ?sourceIdentifier, fun m dac dam hat hv h2 h3 => ?sourceContextIdentifier,
    fun dam hat => ?contextMulticast, fun hat => ?reservedForm, fun dam hat h0 hv => ?destinationContext,
    fun dac hat hv h2 h3 => ?destinationIdentifier, fun hat hlen => ?multicastByte, fun hat hlen hb => ?nhcByte,
    fun h x hd q pay hheader hfit => ⟨fun hbig => ?large, fun n hn => ?cut⟩⟩
  case short => exact exists_failedAny (execHcDecomp_of_short hlen) rfl rfl
  case dispatch => exact exists_failedAny (execHcDecomp_of_wrong_dispatch hlen hb) rfl rfl
  case sourceContext => exact exists_failedAny (execHcDecomp_of_source_error hat (unicast_of_no_context h0 hv)) rfl rfl
  case sourceIdentifier =>
    exact exists_failedAny (execHcDecomp_of_source_error hat (unicast_of_no_identifier nofun h2 h3)) rfl rfl
  case sourceContextIdentifier =>
    exact exists_failedAny (execHcDecomp_of_source_error hat (unicast_of_no_identifier (fun _ => hv) h2 h3)) rfl rfl
  case contextMulticast => exact exists_failedAny (execHcDecomp_of_destination_error hat rfl) rfl rfl
  case reservedForm => exact exists_failedAny (execHcDecomp_of_destination_error hat rfl) rfl rfl
  case destinationContext =>
    exact exists_failedAny (execHcDecomp_of_destination_error hat (unicast_of_no_context h0 hv)) rfl rfl
  case destinationIdentifier =>
    exact exists_failedAny (execHcDecomp_of_destination_error hat (unicast_of_no_identifier hv h2 h3)) rfl rfl
  case multicastByte => exact exists_failedAny (execHcDecomp_of_multicast_cut hat hlen) rfl rfl
  case nhcByte => exact exists_failedAny (execHcDecomp_of_wrong_nhc hat hlen hb) rfl rfl
  case large => exact exists_failedAny (execHcDecomp_of_large hheader hfit hbig) rfl rfl
  case cut =>
    intro cut
    have hexec : execHcDecomp off cut = raiseAny ⟨.malformedFrame, n⟩ cut := execHcDecomp_of_cut_frame hheader hfit hn
    exact exists_failedAny hexec rfl rfl

end Sys2Proof.Machine
end

section
/-! SUPPORT. The forms the compressor chooses for traffic class and flow label, hop limit and ports (47_hc06_compress.md
R362, R363, R369): they are the tables', they fit what they carry, and a form read back ends right behind its bytes. -/

namespace Sys2Proof.Machine

/-! ## Traffic class and flow label (47_hc06_compress.md R362) -/

/-- The form the table of R362 gives. -/
def tfForm (tc : Byte) (fl : BitVec 20) : BitVec 2 :=
  if fl = 0 then (if tc = 0 then 3 else 2) else if tc.toNat < 4 then 1 else 0

theorem dscp_eq_zero_iff (tc : Byte) : tc.extractLsb' 2 6 = 0 ↔ tc.toNat < 4 := by
  have hzero : (0 : BitVec 6).toNat = 0 := rfl
  rw [← BitVec.toNat_inj, extractLsb'_toNat_of_top tc rfl, hzero]
  omega

theorem chooseTf_eq (tc : Byte) (fl : BitVec 20) : chooseTf tc fl = (tfForm tc fl, tfBytes (tfForm tc fl) 0 tc fl) := by
  simp only [chooseTf, tfForm, dscp_eq_zero_iff]
  by_cases hfl : fl = 0
  · by_cases htc : tc = 0
    · rw [if_pos ⟨hfl, htc⟩, if_pos hfl, if_pos htc]
      rfl
    · rw [if_neg (fun h => htc h.2), if_pos hfl, if_pos hfl, if_neg htc]
      rfl
  · rw [if_neg (fun h => hfl h.1), if_neg hfl, if_neg hfl]
    by_cases htc : tc.toNat < 4
    · rw [if_pos htc, if_pos htc]
      rfl
    · rw [if_neg htc, if_neg htc]
      rfl

theorem tfFits_tfForm (tc : Byte) (fl : BitVec 20) : tfFits (tfForm tc fl) tc fl := by
  unfold tfForm
  split_ifs with hfl htc htc
  · exact ⟨nofun, nofun, fun _ => ⟨htc, hfl⟩⟩
  · exact ⟨nofun, fun _ => hfl, nofun⟩
  · exact ⟨fun _ => htc, nofun, nofun⟩
  · exact ⟨nofun, nofun, nofun⟩

/-- The form chosen fits, and its bytes are the table's (30_encoding.md R131). -/
theorem chooseTf_spec (tc : Byte) (fl : BitVec 20) : tfFits (chooseTf tc fl).1 tc fl
    ∧ (chooseTf tc fl).2 = tfBytes (chooseTf tc fl).1 0 tc fl := by
  rw [chooseTf_eq]
  exact ⟨tfFits_tfForm tc fl, rfl⟩

/-! ## The hop limit (47_hc06_compress.md R363) -/

/-- The form chosen fits the hop limit, which is inline in form 0 only. -/
theorem chooseHlim_spec (hlim : Byte) : hlimFits (chooseHlim hlim).1 hlim
    ∧ (chooseHlim hlim).2 = if (chooseHlim hlim).1 = 0 then [hlim] else [] := by
  by_cases h1 : hlim = 1
  · subst h1
    decide
  by_cases h64 : hlim = 64
  · subst h64
    decide
  by_cases h255 : hlim = 255
  · subst h255
    decide
  · have hinline : chooseHlim hlim = (0, [hlim]) := by rw [chooseHlim, if_neg h1, if_neg h64, if_neg h255]
    rw [hinline]
    exact ⟨⟨nofun, nofun, nofun⟩, rfl⟩

/-! ## The ports (47_hc06_compress.md R369) -/

/-- The form the table of R369 gives. -/
def portForm (sp dp : Half) : BitVec 2 :=
  if sp.toNat / 16 = 0xF0B ∧ dp.toNat / 16 = 0xF0B then 3 else if dp.toNat / 256 = 0xF0 then 1
  else if sp.toNat / 256 = 0xF0 then 2 else 0

theorem port_top_nibbles_iff (p : Half) : p.extractLsb' 4 12 = 0xF0B#12 ↔ p.toNat / 16 = 0xF0B := by
  rw [← BitVec.toNat_inj, extractLsb'_toNat_of_top p rfl]
  rfl

theorem port_high_byte_iff (p : Half) : p.extractLsb' 8 8 = 0xF0#8 ↔ p.toNat / 256 = 0xF0 := by
  rw [← BitVec.toNat_inj, extractLsb'_toNat_of_top p rfl]
  rfl

theorem encPorts_eq (sp dp : Half) : encPorts sp dp = (portForm sp dp, portBytes (portForm sp dp) sp dp) := by
  simp only [encPorts, portForm, port_top_nibbles_iff, port_high_byte_iff]
  split_ifs <;> rfl

theorem portsFit_portForm (sp dp : Half) : portsFit (portForm sp dp) sp dp := by
  unfold portForm
  split_ifs with h3 h1 h2
  · exact ⟨nofun, nofun, fun _ => ⟨(port_top_nibbles_iff sp).mpr h3.1, (port_top_nibbles_iff dp).mpr h3.2⟩⟩
  · exact ⟨fun _ => (port_high_byte_iff dp).mpr h1, nofun, nofun⟩
  · exact ⟨nofun, fun _ => (port_high_byte_iff sp).mpr h2, nofun⟩
  · exact ⟨nofun, nofun, nofun⟩

/-! ## Where a reader goes on -/

/-- On the frame `fb` a reader that starts within it stops within it. -/
def StaysWithin {α : Type} (fb : List Byte) (r : Nat → Except Err (α × Nat)) : Prop :=
  ∀ (p : Nat) (a : α) (q : Nat), p ≤ fb.length → r p = .ok (a, q) → q ≤ fb.length

section
variable {α : Type} {fb : List Byte}

/-- A reader that reads `e` in front of `after` and stays in the frame stops right behind `e`. -/
theorem StaysWithin.position {r : Nat → Except Err (α × Nat)} {a : α} {before e after : List Byte}
    (hfb : fb = before ++ e ++ after) (hin : StaysWithin fb r)
    (hread : ∃ q, r before.length = .ok (a, q) ∧ fb.drop q = after) :
    r before.length = .ok (a, before.length + e.length) := by
  obtain ⟨q, hq, hrest⟩ := hread
  have hlen : fb.length = before.length + e.length + after.length := by rw [hfb, List.length_append, List.length_append]
  have hle : q ≤ fb.length := hin _ _ _ (by omega) hq
  have hdrop : fb.length - q = after.length := by rw [← hrest, List.length_drop]
  rw [hq, show q = before.length + e.length by omega]

theorem le_length_of_take {p q n : Nat} {t : List Byte} (h : take fb p n = .ok (t, q)) : q ≤ fb.length := by
  obtain ⟨hle, -, rfl, -⟩ := take_eq_ok h
  exact hle

theorem takeTf_staysWithin (tf : BitVec 2) : StaysWithin fb (takeTf fb tf) := by
  intro p a q hp h
  unfold takeTf at h
  split_ifs at h
  · split at h <;> cases h
    exact le_length_of_take ‹_›
  · split at h <;> cases h
    exact le_length_of_take ‹_›
  · split at h <;> cases h
    exact le_length_of_take ‹_›
  · cases h
    exact hp

theorem takeHlim_staysWithin (form : BitVec 2) : StaysWithin fb (takeHlim fb form) := by
  intro p a q hp h
  unfold takeHlim at h
  split_ifs at h
  · split at h <;> cases h
    exact le_length_of_take ‹_›
  all_goals
    cases h
    exact hp

theorem takePorts_staysWithin (pp : BitVec 2) : StaysWithin fb (takePorts fb pp) := by
  intro p a q hp h
  unfold takePorts at h
  split_ifs at h
  all_goals
    split at h <;> cases h
    exact le_length_of_take ‹_›
end

/-- Settles O55: the forms chosen are the tables', and a form that fits is read to its end. -/
theorem chosenFormsLoseNothing : Obligations.ChosenFormsLoseNothing := by
  have drop_before (before e after : List Byte) : (before ++ e ++ after).drop before.length = e ++ after := by
    rw [List.append_assoc, List.drop_left]
  refine ⟨chooseTf_eq, fun tf pad tc fl before after hfit => ?_, fun _ => rfl, fun form hl before after hfit => ?_,
    encPorts_eq, fun p sp dp before after hfit => ?_⟩
  · exact (takeTf_staysWithin tf).position rfl ((takeTf_reads pad hfit).whole (drop_before _ _ _))
  · exact (takeHlim_staysWithin form).position rfl ((takeHlim_reads hfit).whole (drop_before _ _ _))
  · exact (takePorts_staysWithin p).position rfl (takePorts_of_drop (drop_before _ _ _) hfit)

end Sys2Proof.Machine
end

section
/-! SUPPORT. The compressor's address policy (47_hc06_compress.md R365, R366): which form it chooses, and that the form
stands for the address (30_encoding.md R135, R136). -/

namespace Sys2Proof.Machine

/-- The context `i` is valid and holds the high half of `a`. -/
abbrev State.holdsPrefix (s : State) (a : Addr) (i : Fin 16) : Prop :=
  (s.ctx.get i).valid = true ∧ (s.ctx.get i).pfx = a.extractLsb' 64 64

/-- The address under `fe80::/64` with the identifier of its link-layer address (30_encoding.md R138). -/
abbrev linkDerived (a : Addr) (mode : BitVec 2) (l2 : DWord) : Prop :=
  a.extractLsb' 64 64 = 0xFE80000000000000#64 ∧ linkIid mode l2 = some (a.extractLsb' 0 64)

section
variable {s : State} {a : Addr} {mode : BitVec 2} {l2 : DWord}

/-! ## The context used -/

theorem findCtx_eq_some_iff {n : Nat} : findCtx s a = some n
    ↔ ∃ i : Fin 16, i.val = n ∧ s.holdsPrefix a i ∧ ∀ j < i, ¬ s.holdsPrefix a j := by
  rw [findCtx, List.findIdx?_eq_some_iff_getElem]
  simp only [Vector.length_toList, Vector.getElem_toList, Bool.and_eq_true, beq_iff_eq]
  constructor
  · rintro ⟨hn, hholds, hleast⟩
    exact ⟨⟨n, hn⟩, rfl, hholds, fun j hj => hleast j.val hj⟩
  · rintro ⟨i, rfl, hholds, hleast⟩
    exact ⟨i.isLt, hholds, fun j hj => hleast ⟨j, hj.trans i.isLt⟩ hj⟩

theorem findCtx_eq_none_iff : findCtx s a = none ↔ ∀ i : Fin 16, ¬ s.holdsPrefix a i := by
  rw [findCtx, List.findIdx?_eq_none_iff, List.forall_mem_iff_getElem]
  simp only [Vector.length_toList, Vector.getElem_toList, ← Bool.not_eq_true, Bool.and_eq_true, beq_iff_eq]
  exact ⟨fun h i => h i.val i.isLt, fun h j hj => h ⟨j, hj⟩⟩

/-! ## The form chosen (47_hc06_compress.md R365) -/

theorem encAddr_of_derived (h : linkDerived a mode l2) : encAddr s a mode l2 = ⟨false, 3, 0, []⟩ := by
  rw [encAddr, iidL2_eq_linkIid]
  exact if_pos h

theorem encAddr_of_context {i : Nat} (h : ¬ linkDerived a mode l2) (hi : findCtx s a = some i) :
    encAddr s a mode l2 = if linkIid mode l2 = some (a.extractLsb' 0 64) then ⟨true, 3, BitVec.ofNat 4 i, []⟩
      else ⟨true, 1, BitVec.ofNat 4 i, b8 (a.extractLsb' 0 64)⟩ := by
  rw [encAddr, iidL2_eq_linkIid, hi, tobe_dword]
  exact if_neg h

theorem encAddr_in_full (h : ¬ linkDerived a mode l2) (hnone : findCtx s a = none) :
    encAddr s a mode l2 = ⟨false, 0, 0, b16 a⟩ := by
  rw [encAddr, iidL2_eq_linkIid, hnone, tobe_addr]
  exact if_neg h

theorem encSrc_of_unspecified (h : s.hdr.src = 0) : encSrc s = ⟨false, 0, 0, List.replicate 16 0⟩ := by
  rw [encSrc, if_pos h, h]
  rfl

theorem encSrc_of_ne (h : s.hdr.src ≠ 0) : encSrc s = encAddr s s.hdr.src s.mac.smode s.mac.saddr := by
  rw [encSrc, if_neg h]

/-! ## The form stands for the address -/

/-- The encoding `e` stands for the address `a`. -/
abbrev AddrEnc.standsFor (e : AddrEnc) (s : State) (isSrc : Bool) (a : Addr) (mode : BitVec 2) (l2 : DWord) : Prop :=
  s.unicastForm isSrc e.ac e.am e.ci mode l2 e.bytes a

theorem standsFor_in_full (isSrc : Bool) (ci : BitVec 4) :
    AddrEnc.standsFor ⟨false, 0, ci, b16 a⟩ s isSrc a mode l2 := rfl

theorem standsFor_context {i : Fin 16} (isSrc : Bool) (hi : s.holdsPrefix a i) :
    AddrEnc.standsFor (if linkIid mode l2 = some (a.extractLsb' 0 64) then ⟨true, 3, BitVec.ofNat 4 i, []⟩
      else ⟨true, 1, BitVec.ofNat 4 i, b8 (a.extractLsb' 0 64)⟩) s isSrc a mode l2 := by
  have hci : (BitVec.ofNat 4 i.val).toFin = i := Fin.ext (Nat.mod_eq_of_lt i.isLt)
  obtain ⟨hvalid, hpfx⟩ := hci.symm ▸ hi
  split_ifs with hiid
  · exact ⟨⟨hvalid, hpfx.symm⟩, nofun, nofun, fun _ => ⟨rfl, hiid⟩⟩
  · exact ⟨⟨hvalid, hpfx.symm⟩, fun _ => rfl, nofun, nofun⟩

theorem encAddr_standsFor (s : State) (isSrc : Bool) (a : Addr) (mode : BitVec 2) (l2 : DWord) :
    (encAddr s a mode l2).standsFor s isSrc a mode l2 := by
  by_cases hd : linkDerived a mode l2
  · rw [encAddr_of_derived hd]
    exact ⟨hd.1, nofun, nofun, fun _ => ⟨rfl, hd.2⟩⟩
  rcases hctx : findCtx s a with - | n
  · rw [encAddr_in_full hd hctx]
    exact standsFor_in_full isSrc 0
  · obtain ⟨i, rfl, hi, -⟩ := findCtx_eq_some_iff.mp hctx
    rw [encAddr_of_context hd hctx]
    exact standsFor_context isSrc hi

theorem encSrc_standsFor (s : State) : (encSrc s).standsFor s true s.hdr.src s.mac.smode s.mac.saddr := by
  by_cases h : s.hdr.src = 0
  · have hzeros : List.replicate 16 0 = b16 0 := rfl
    rw [encSrc_of_unspecified h, h, hzeros]
    exact standsFor_in_full true 0
  · rw [encSrc_of_ne h]
    exact encAddr_standsFor _ _ _ _ _

/-- A multicast destination is in full, any other goes by the policy (47_hc06_compress.md R366). -/
theorem encDst_standsFor (s : State) :
    if isMulticast s.hdr.dst then (encDst s).ac = false ∧ multicastForm (encDst s).am (encDst s).bytes s.hdr.dst
    else (encDst s).standsFor s false s.hdr.dst s.mac.dmode s.mac.daddr := by
  split_ifs with hm
  · rw [encDst, if_pos hm, tobe_addr]
    exact ⟨rfl, fun _ => rfl, nofun, nofun, nofun⟩
  · rw [encDst, if_neg hm]
    exact encAddr_standsFor _ _ _ _ _
end

/-- Settles O54: the equations of the policy, its context the lowest that holds the high half. -/
theorem addressPolicyIsPriorityOrdered : Obligations.AddressPolicyIsPriorityOrdered := by
  intro s a mode l2 iid high low derived holds
  exact ⟨encAddr_of_derived,
    fun i hd hi hleast => encAddr_of_context hd (findCtx_eq_some_iff.mpr ⟨i, rfl, hi, hleast⟩),
    fun hd hnone => encAddr_in_full hd (findCtx_eq_none_iff.mpr hnone), encSrc_of_unspecified, encSrc_of_ne⟩

end Sys2Proof.Machine
end

section
/-! SUPPORT. The compressed datagram (47_hc06_compress.md R360, R364, R369), and `HC.COMP`'s failures in their order
(R361). -/

namespace Sys2Proof.Machine

/-! ## The UDP header (47_hc06_compress.md R364, R369) -/

/-- The compressed header of a UDP segment: ports in the form of R369, the checksum carried as found. -/
def udpHeaderOf (pay : List Byte) : UdpHeader where
  elided := false
  form := portForm (h16 pay 0) (h16 pay 2)
  sport := h16 pay 0
  dport := h16 pay 2
  cksum := h16 pay 6

/-- The NHC byte of a carried checksum is `0b111100PP`. -/
theorem encodeNhcUdp_carried (p : BitVec 2) : encodeNhcUdp false p = 0b111100#6 ++ p := by
  revert p
  decide

section
variable {pay : List Byte}

theorem nhcUdp_parts (h8 : 8 ≤ pay.length) : nhcUdp pay
    = [0b111100#6 ++ (encPorts (h16 pay 0) (h16 pay 2)).1] ++ (encPorts (h16 pay 0) (h16 pay 2)).2 ++ b2 (h16 pay 6)
      ++ pay.drop 8 := by
  have hsport : BitVec.ofNat 16 (be (slice pay 0 2)) = h16 pay 0 := half_eq_h16 (by omega)
  have hdport : BitVec.ofNat 16 (be (slice pay 2 2)) = h16 pay 2 := half_eq_h16 (by omega)
  rw [nhcUdp, hsport, hdport, encodeNhcUdp_carried, ← b2_h16 (by omega)]

theorem nhcUdp_eq (h8 : 8 ≤ pay.length) : nhcUdp pay = (udpHeaderOf pay).bytes ++ pay.drop 8 := by
  rw [nhcUdp_parts h8, encPorts_eq, ← encodeNhcUdp_carried]
  rfl

/-- The segment is rebuilt: its ports and checksum are carried, its length is that of its bytes. -/
theorem segment_udpHeaderOf (h8 : 8 ≤ pay.length) (hlen : (h16 pay 4).toNat = pay.length) (src dst : Addr) :
    (udpHeaderOf pay).segment src dst (pay.drop 8) = pay := by
  have hlength : BitVec.ofNat 16 (8 + (pay.drop 8).length) = h16 pay 4 := by
    rw [List.length_drop, Nat.add_sub_cancel' h8, ← hlen, BitVec.ofNat_toNat, BitVec.setWidth_eq]
  have hread : (udpHeaderOf pay).segment src dst (pay.drop 8)
      = b2 (h16 pay 0) ++ b2 (h16 pay 2) ++ b2 (BitVec.ofNat 16 (8 + (pay.drop 8).length)) ++ b2 (h16 pay 6)
        ++ pay.drop 8 := rfl
  rw [hread, hlength, b2_h16 (by omega), b2_h16 (by omega), b2_h16 (by omega), b2_h16 (by omega)]
  simp only [slice_append_slice pay 0, Nat.reduceAdd, slice_zero_append_drop]

theorem useUdp_eq {u : Bool} {h : Hdr} (hlen : pay.length = h.plen.toNat) : useUdp u h pay
    = (u && decide (h.nh = 17 ∧ 8 ≤ h.plen.toNat ∧ (h16 pay 4).toNat = h.plen.toNat)) := by
  rw [Bool.eq_iff_iff]
  simp only [useUdp, Bool.and_eq_true, decide_eq_true_eq, beq_iff_eq, and_assoc]
  refine and_congr_right fun _ => and_congr_right fun _ => and_congr_right fun h8 => ?_
  rw [be_slice_two (by omega)]

theorem nh_of_useUdp {u : Bool} {h : Hdr} (hudp : useUdp u h pay = true) : h.nh = 17 := by
  simp only [useUdp, Bool.and_eq_true, beq_iff_eq] at hudp
  obtain ⟨⟨⟨-, hnh⟩, -⟩, -⟩ := hudp
  exact hnh

/-- A UDP header is compressed only where its segment is the payload. -/
theorem length_of_useUdp {u : Bool} {h : Hdr} (hlen : pay.length = h.plen.toNat) (hudp : useUdp u h pay = true) :
    8 ≤ pay.length ∧ (h16 pay 4).toNat = pay.length := by
  rw [useUdp_eq hlen, Bool.and_eq_true, decide_eq_true_eq, ← hlen] at hudp
  obtain ⟨-, -, hsegment⟩ := hudp
  exact hsegment
end

/-- What the compressor leaves behind the headers: the payload, without the UDP header where that is compressed. -/
def behindHeaders (udp : Bool) (pay : List Byte) : List Byte := if udp then pay.drop 8 else pay

section
variable {udp : Bool} {pay : List Byte}

theorem hcBody_udpHeaderOf (h8 : udp = true → 8 ≤ pay.length) :
    hcBody udp (udpHeaderOf pay) (behindHeaders udp pay) = if udp then nhcUdp pay else pay := by
  cases udp with
  | false => rfl
  | true => exact (nhcUdp_eq (h8 rfl)).symm

theorem hcPayload_udpHeaderOf (hsegment : udp = true → 8 ≤ pay.length ∧ (h16 pay 4).toNat = pay.length)
    (src dst : Addr) : hcPayload udp (udpHeaderOf pay) src dst (behindHeaders udp pay) = pay := by
  cases udp with
  | false => rfl
  | true =>
    obtain ⟨h8, hlen⟩ := hsegment rfl
    exact segment_udpHeaderOf h8 hlen src dst
end

/-! ## The datagram (47_hc06_compress.md R360) -/

/-- The parts R360 puts together: forms with their bytes, address encodings, and what follows them. -/
structure Datagram where
  udp : Bool
  m : Bool
  tf : BitVec 2 × List Byte
  hlim : BitVec 2 × List Byte
  src : AddrEnc
  dst : AddrEnc
  body : List Byte

/-- Its IPHC header, with a context byte if an index is not 0 (47_hc06_compress.md R367). -/
def Datagram.iphc (d : Datagram) : Iphc where
  tf := d.tf.1
  nh := d.udp
  hlim := d.hlim.1
  cid := decide (d.src.ci ≠ 0 ∨ d.dst.ci ≠ 0)
  sac := d.src.ac
  sam := d.src.am
  m := d.m
  dac := d.dst.ac
  dam := d.dst.am

/-- Its bytes, under the next header `nh`. -/
def Datagram.bytes (d : Datagram) (nh : Byte) : List Byte :=
  iphcBytes d.iphc ++ (if d.iphc.cid then [d.src.ci ++ d.dst.ci] else []) ++ d.tf.2 ++ (if d.udp then [] else [nh])
    ++ d.hlim.2 ++ d.src.bytes ++ d.dst.bytes ++ d.body

/-- The IPv6 payload in PB. -/
def State.pay (s : State) : List Byte := slice s.pb.bytes 40 s.hdr.plen.toNat

/-- The parts the compressor chooses. -/
def State.datagram (s : State) (u : Bool) : Datagram where
  udp := useUdp u s.hdr s.pay
  m := isMulticast s.hdr.dst
  tf := chooseTf s.hdr.tc s.hdr.fl
  hlim := chooseHlim s.hdr.hlim
  src := encSrc s
  dst := encDst s
  body := if useUdp u s.hdr s.pay then nhcUdp s.pay else s.pay

/-- The two base bytes are the header's number. -/
theorem iphcBytes_eq (h : Iphc) :
    iphcBytes h = [(encodeIphc h).extractLsb' 8 8, (encodeIphc h).extractLsb' 0 8] := by
  rw [← byteAt_iphcBytes]
  exact (b2_append _ _).symm

theorem compressed_eq_bytes (u : Bool) (s : State) : compressed u s = (s.datagram u).bytes s.hdr.nh := by
  simp only [compressed, Datagram.bytes, iphcBytes_eq, Datagram.iphc, decide_eq_true_eq]
  rfl

section
variable {u : Bool} {s : State}

theorem pay_length (hext : s.payEnd ≤ s.pb.len) : s.pay.length = s.hdr.plen.toNat :=
  slice_length_of_le (by rw [Memory.bytes_length]; exact hext)

theorem isMulticast_eq_decide (a : Addr) : isMulticast a = decide (a.toNat / 2 ^ 120 = 0xFF) := by
  rw [Bool.eq_iff_iff, isMulticast_iff, decide_eq_true_iff]

theorem encSrc_eq (s : State) : encSrc s = if s.hdr.src = 0 then ⟨false, 0, 0, List.replicate 16 0⟩
    else encAddr s s.hdr.src s.mac.smode s.mac.saddr := by
  split_ifs with h
  · exact encSrc_of_unspecified h
  · exact encSrc_of_ne h

theorem encDst_eq (s : State) : encDst s = if isMulticast s.hdr.dst then ⟨false, 0, 0, b16 s.hdr.dst⟩
    else encAddr s s.hdr.dst s.mac.dmode s.mac.daddr := by
  rw [encDst, tobe_addr]

/-- The datagram of R360 has the compressor's parts. -/
theorem compressed_eq_iphcDatagram (hext : s.payEnd ≤ s.pb.len) : compressed u s = iphcDatagram u s := by
  have hbody : (if useUdp u s.hdr s.pay then nhcUdp s.pay else s.pay) = if useUdp u s.hdr s.pay then
      [0b111100#6 ++ (encPorts (h16 s.pay 0) (h16 s.pay 2)).1] ++ (encPorts (h16 s.pay 0) (h16 s.pay 2)).2
        ++ b2 (h16 s.pay 6) ++ s.pay.drop 8 else s.pay :=
    ite_congr rfl (fun h => nhcUdp_parts (length_of_useUdp (pay_length hext) h).1) fun _ => rfl
  rw [compressed_eq_bytes, State.datagram, hbody, useUdp_eq (pay_length hext), encSrc_eq, encDst_eq,
    isMulticast_eq_decide]
  rfl

/-! ## The command (47_hc06_compress.md R361) -/

/-- The state in which a successful compression leaves the engine. -/
def State.withCompressed (s : State) (u : Bool) : State :=
  { s with fb := Memory.ofBytes (compressed u s), status := 0 }

theorem execHcComp_of_fits (hver : s.hdr.ver = 6) (hext : s.payEnd ≤ s.pb.len)
    (hcap : (compressed u s).length ≤ s.par.fbCap) : execHcComp u s = .next (s.withCompressed u) := by
  rw [execHcComp, if_neg (not_not.mpr hver), if_neg (Nat.not_lt.mpr hext), if_neg (Nat.not_lt.mpr hcap)]
  rfl

/-- A compression that raises no error wrote the datagram. -/
theorem execHcComp_eq_next {t : State} (h : execHcComp u s = .next t) (h0 : errField t.status = 0) :
    s.payEnd ≤ s.pb.len ∧ t = s.withCompressed u := by
  have hfatal {e : Err} (he : e.fatal = true) (hr : raise e s = .next t) : False := by
    rw [raise_eq_next.mp hr] at h0
    exact errField_ne_zero_of_fatal he h0
  unfold execHcComp at h
  split_ifs at h with hver hext hcap
  · exact (hfatal rfl h).elim
  · exact (hfatal rfl h).elim
  · exact (hfatal rfl h).elim
  · exact ⟨Nat.not_lt.mp hext, done_eq_next.mp h⟩
end

/-- Settles O53: the first check that fails decides, and past all three FB holds the datagram. -/
theorem hcCompWritesOrFails : Obligations.HcCompWritesOrFails := by
  intro s u end_ out
  have hout (hext : end_ ≤ s.pb.len) : compressed u s = out := compressed_eq_iphcDatagram hext
  refine ⟨fun hver => ?version, fun hver hext => ?extent, fun hver hext hcap => ?capacity,
    fun hver hext hcap => ?fits⟩
  case version => exact (if_pos hver).trans (raise_eq_failed _ s)
  case extent => exact (if_neg (not_not.mpr hver)).trans ((if_pos hext).trans (raise_eq_failed _ s))
  case capacity =>
    rw [← hout hext] at hcap
    exact (if_neg (not_not.mpr hver)).trans ((if_neg (Nat.not_lt.mpr hext)).trans
      ((if_pos hcap).trans (raise_eq_failed _ s)))
  case fits =>
    rw [← hout hext] at hcap ⊢
    exact ⟨_, execHcComp_of_fits hver hext hcap, Memory.wf_ofBytes _, Memory.bytes_ofBytes _⟩

end Sys2Proof.Machine
end

section
/-! SUPPORT. Compress, then decompress (47_hc06_compress.md R370): the datagram the compressor writes is a header of the
forms the decompressor reads, in front of the payload. -/

namespace Sys2Proof.Machine

/-- The inline fields of the datagram the compressor writes, its pad bits 0. -/
def State.compInline (s : State) : Inline where
  sci := (encSrc s).ci
  dci := (encDst s).ci
  src := (encSrc s).bytes
  dst := (encDst s).bytes

/-- Each part is in a form that stands for its register. -/
theorem headerForm_comp {u : Bool} {s : State} (hver : s.hdr.ver = 6) :
    (s.withCompressed u).headerForm (s.datagram u).iphc s.compInline s.hdr := by
  refine ⟨fun hcid => ?_, (chooseTf_spec _ _).1, (chooseHlim_spec _).1, hver, nh_of_useUdp, encSrc_standsFor s,
    encDst_standsFor s⟩
  obtain ⟨hsci, hdci⟩ := not_or.mp (of_decide_eq_false hcid)
  exact ⟨not_not.mp hsci, not_not.mp hdci⟩

section
variable {u : Bool} {s : State} (hext : s.payEnd ≤ s.pb.len)
include hext

theorem datagram_body : (s.datagram u).body
    = hcBody (s.datagram u).udp (udpHeaderOf s.pay) (behindHeaders (s.datagram u).udp s.pay) :=
  (hcBody_udpHeaderOf fun hudp => (length_of_useUdp (pay_length hext) hudp).1).symm

theorem compressed_eq_front : compressed u s = frontBytes (s.datagram u).iphc s.compInline s.hdr (udpHeaderOf s.pay)
    ++ behindHeaders (s.datagram u).udp s.pay := by
  have htf : (s.datagram u).tf.2 = tfBytes (s.datagram u).iphc.tf 0 s.hdr.tc s.hdr.fl :=
    (chooseTf_spec _ _).2
  have hhlim : (s.datagram u).hlim.2 = if (s.datagram u).iphc.hlim = 0 then [s.hdr.hlim] else [] :=
    (chooseHlim_spec _).2
  rw [compressed_eq_bytes, Datagram.bytes, datagram_body hext, htf, hhlim, hcBody_append]
  simp only [frontBytes, inlineBytes, List.append_assoc]
  rfl

theorem iphcHeader_comp (hver : s.hdr.ver = 6) :
    (s.withCompressed u).iphcHeader (0 : Half).toNat (s.datagram u).iphc s.compInline s.hdr
      (hcBody (s.datagram u).iphc.nh (udpHeaderOf s.pay) (behindHeaders (s.datagram u).udp s.pay)) :=
  iphcHeader_iff.mpr ⟨(Memory.bytes_ofBytes _).trans (compressed_eq_front hext), headerForm_comp hver⟩

/-- The payload's length is the one the header registers hold. -/
theorem hdr_with_pay_length : { s.hdr with plen := BitVec.ofNat 16 s.pay.length } = s.hdr := by
  rw [pay_length hext, BitVec.ofNat_toNat, BitVec.setWidth_eq]
end

/-- Settles O56: the datagram in FB is in forms the decompressor reads, and they stand for the registers. -/
theorem compressThenDecompress : Obligations.CompressThenDecompress := by
  intro s t u hinv hver hlen hexec h0
  obtain ⟨-, -, hpbwf, -, hpbcap, -⟩ := hinv
  obtain ⟨hext, rfl⟩ := execHcComp_eq_next hexec h0
  have hpay : s.pay = s.pb.bytes.drop 40 := slice_to_end (by rw [Memory.bytes_length]; omega)
  have hcap : 40 + s.pay.length ≤ s.par.pbCap := by
    rw [pay_length hext, ← hlen]
    exact hpbcap
  have hpayload := hcPayload_udpHeaderOf (udp := (s.datagram u).udp) (length_of_useUdp (pay_length hext))
    s.hdr.src s.hdr.dst
  have hdecomp := execHcDecomp_of_iphcHeader hpayload.symm (iphcHeader_comp hext hver)
    (fun _ => portsFit_portForm _ _) hcap
  rw [hdr_with_pay_length hext, hpay] at hdecomp
  refine ⟨_, hdecomp, rfl, rfl, Memory.bytes_ofBytes _, fun hheader => ?_⟩
  change Memory.ofBytes (headerBytes s.hdr ++ s.pb.bytes.drop 40) = s.pb
  rw [← hheader, List.take_append_drop, Memory.ofBytes_bytes hpbwf]

end Sys2Proof.Machine
end

section
/-! SUPPORT. The state right after reset (70_reset_and_hazards.md R441), the invariant it meets, and the system commands
(48_system.md R380, R381). -/

namespace Sys2Proof.Machine

/-! ## Registers that hold 0 -/

@[simp] theorem MacRegs.get_default (r : MacReg) : ({} : MacRegs).get r = 0 := by cases r <;> rfl

theorem State.ipGet_of_zero {s : State} (hhdr : s.hdr = {}) (hcur : s.cur = 0) (r : IpReg) : s.ipGet r = 0 := by
  cases r <;> simp [State.ipGet, hhdr, hcur, addrWord]

/-- A field that can be staged is one of the header fields, whatever the kind; the others are the node's own. -/
theorem Node.raw_of_stageable {n : Node} {fld : NodeField} (hf : n.f = {}) (h : fld.stageable = true) : n.raw fld = 0 := by
  cases fld with
  | kind | ckok | paylen | offset => cases h
  | _ => simp [Node.raw, hf]

@[simp] theorem ctx_replicate_get (e : CtxEntry) (i : Fin 16) : (Vector.replicate 16 e).get i = e := by
  simp [Vector.get]

/-- Settles O10: each component by computation, the registers and the fields one by one. -/
theorem resetValues : Obligations.ResetValues :=
  ⟨rfl, rfl, rfl, MacRegs.get_default, State.ipGet_of_zero rfl rfl, rfl, rfl, fun _ _ => Node.raw_of_stageable rfl,
    ctx_replicate_get {}, rfl, rfl, rfl, rfl⟩

/-! ## The invariant at reset -/

theorem resetWith_sound {p : Config.Params} (h : p.wf) : (State.resetWith p).Sound where
  par := h
  fbWf := Memory.wf_nil
  pbWf := Memory.wf_nil
  fbCap := Nat.zero_le _
  pbCap := Nat.zero_le _
  attr := List.length_replicate
  chain := .nil
  node := Nat.zero_le _
  config := by
    change (if p.strictReset then (1 : Word) else 0).toNat < 2
    split <;> decide

theorem resetWith_inv {p : Config.Params} (h : p.wf) : (State.resetWith p).inv :=
  (State.inv_iff _).mpr ⟨resetWith_sound h, statusOk_zero⟩

/-- Settles O9: nothing at reset exceeds a capacity, and the default parameters are within their constraints. -/
theorem resetMeetsTheInvariant : Obligations.ResetMeetsTheInvariant :=
  ⟨resetWith_inv (by decide), fun _ => resetWith_inv⟩

/-! ## The system commands -/

/-- Bit 0 of a word, zero-extended, is its remainder modulo 2 (48_system.md R381). -/
theorem bit0_zext (w : Word) : (w.extractLsb' 0 1).setWidth 32 = BitVec.ofNat 32 (w.toNat % 2) := by
  apply BitVec.eq_of_toNat_eq
  simp [BitVec.extractLsb'_toNat]

/-- Settles O60: both commands are record updates, and the reset state's context table is one entry replicated. -/
theorem sysResetAndCfg : Obligations.SysResetAndCfg := by
  intro s
  refine ⟨?cfg, { s.resetEngine with status := 0 }, rfl, ?reset⟩
  case cfg =>
    rw [← bit0_zext]
    rfl
  case reset => exact ⟨rfl, rfl, rfl, ctx_replicate_get {}, rfl, rfl, rfl, rfl, rfl, rfl, rfl, rfl, rfl⟩

end Sys2Proof.Machine
end

section
/-! SUPPORT. What a fatal error leaves (60_exceptions.md R404, R406), and which commands change the context table (R407):
both follow from how an instruction ends. -/

namespace Sys2Proof.Machine

section
variable {ws : List Component} {i : Instr} {s s' : State}

/-! ## The state after an error -/

/-- An instruction that ends with a fatal error changes `STATUS`, and takes a free value in `ACC` at most. -/
theorem Ending.state_of_error (h : Ending ws s (.next s')) (he : errField s'.status ≠ 0) :
    s' = { s with status := s'.status, acc := s'.acc, draws := s'.draws } := by
  generalize ho : (.next s' : Out) = o at h
  cases h with
  | refused r => cases ho
  | raise _ =>
    rw [raise_eq_next.mp ho.symm]
  | raiseAny _ _ =>
    rw [raiseAny_eq_next.mp ho.symm]
  | report w _ =>
    obtain rfl := report_eq_next.mp ho.symm
    exact absurd (errField_reportStatus w) he

theorem errField_of_done {t : State} (h : done t = .next s') : errField s'.status = 0 := by
  rw [done_eq_next.mp h]
  rfl

theorem errField_of_ret {v : Word} {t : State} (h : ret v t = .next s') : errField s'.status = 0 := by
  rw [ret_eq_next.mp h]
  rfl

/-- `ACC` is the result of `CK.RUN`, written on success only (42_checksum.md R217). -/
theorem execCkRun_acc_of_error {b : Buf} {off : Half} (h : execCkRun b off s = .next s')
    (he : errField s'.status ≠ 0) : s'.acc = s.acc ∧ s'.draws = s.draws := by
  unfold execCkRun at h
  split at h
  · rw [raise_eq_next.mp h]
    exact ⟨rfl, rfl⟩
  · exact absurd (errField_of_ret h) he

/-- Of the instructions that write `ACC`, those with a free value there apart, only `CK.RUN` can fail. -/
theorem exec_acc_of_error (hi : clobbersAcc i = false) (h : exec i s = .next s') (he : errField s'.status ≠ 0) :
    s'.acc = s.acc ∧ s'.draws = s.draws := by
  have hacc := (exec_ends h).frame.acc
  cases i with
  | ckRun b off => exact execCkRun_acc_of_error h he
  | ckLoad | sysReset => exact absurd (errField_of_done h) he
  | ckPseudo => exact absurd (errField_of_ret h) he
  | chParse | ipSerialize | hcDecomp | wireNhHbh | wireNhTcp | wireNhUdp | wireNhIcmpv6 | wireIphc | wireNhcUdp
  | wireTcpoptMss => cases hi
  | bfNew b | bfSetbytes b | bfSetb b | bfSeth b | bfSetw b => cases b <;> exact hacc.resolve_left (by simp [written])
  | ipWr reg => cases reg <;> exact hacc.resolve_left (by simp [written])
  | _ => exact hacc.resolve_left (by simp [written])

end

/-- Settles O11: an illegal word raises, and an instruction's error is one of its endings. -/
theorem fatalErrorLeavesAllButStatus : Obligations.FatalErrorLeavesAllButStatus := by
  intro s s' t ts hp hstep he
  cases hd : decodeCommand t.cmd with
  | none =>
    rw [step_of_illegal hp hd] at hstep
    rw [raise_eq_next.mp hstep]
    exact ⟨rfl, fun _ => ⟨rfl, rfl⟩⟩
  | some i =>
    rw [step_of_decode hp hd] at hstep
    exact ⟨(exec_ends hstep).state_of_error he, fun hi => exec_acc_of_error (s := s.present t ts) (hi i rfl) hstep he⟩

/-! ## The context table -/

/-- The two instructions that write the table, by name (46_hc06_decompress.md R320, 48_system.md R380). -/
theorem ctx_mem_written {i : Instr} (h : .ctx ∈ written i) : i = .sysReset ∨ ∃ v id, i = .hcSetctx v id := by
  cases i with
  | sysReset => exact .inl rfl
  | hcSetctx v id => exact .inr ⟨v, id, rfl⟩
  | bfNew b | bfSetbytes b | bfSetb b | bfSeth b | bfSetw b => cases b <;> simp [written] at h
  | ipWr reg => cases reg <;> simp [written] at h
  | _ => simp [written] at h

/-- Settles O14: no error and no illegal word changes the table, and an instruction that does is one of its writers. -/
theorem contextTableChangesOnlyBySetctxAndReset : Obligations.ContextTableChangesOnlyBySetctxAndReset := by
  intro s s' hstep hctx
  cases hp : s.program with
  | nil =>
    rw [step_of_program_nil hp] at hstep
    cases hstep
    exact absurd rfl hctx
  | cons t ts =>
    refine ⟨not_not.mp fun he => hctx ?_, t, ts, rfl, ?_⟩
    · rw [(fatalErrorLeavesAllButStatus s s' t ts hp hstep he).1]
    cases hd : decodeCommand t.cmd with
    | none =>
      rw [step_of_illegal hp hd] at hstep
      rw [raise_eq_next.mp hstep] at hctx
      exact absurd rfl hctx
    | some i =>
      rw [step_of_decode hp hd] at hstep
      obtain rfl | ⟨v, id, rfl⟩ := ctx_mem_written ((exec_ends hstep).frame.ctx.resolve_right hctx)
      · exact .inl rfl
      · exact .inr ⟨v, id, rfl⟩

end Sys2Proof.Machine
end

section
/-! SUPPORT. Which errors and reports each instruction can end with (60_exceptions.md R401, R408): a parser fails with few
codes and reports little, and a command hands on what its parser answers beside its own errors. -/

namespace Sys2Proof.Machine

/-! ## What a parser answers -/

/-- An error has one of `codes`, a value satisfies `Q`. -/
def Yields {α : Type} (codes : List Nat) (Q : α → Prop) : Except Err α → Prop
  | .error e => e.kind.code ∈ codes
  | .ok a => Q a

section
variable {α β : Type} {codes : List Nat} {Q : α → Prop} {Q' : β → Prop} {r : Except Err α}

theorem Yields.code_mem {e : Err} (h : Yields codes Q r) (he : r = .error e) : e.kind.code ∈ codes := by
  rw [he] at h
  exact h

theorem Yields.value {a : α} (h : Yields codes Q r) (ha : r = .ok a) : Q a := by
  rw [ha] at h
  exact h

theorem Yields.malformed {off : Nat} (h2 : 2 ∈ codes := by simp) : Yields codes Q (.error ⟨.malformedFrame, off⟩) := h2

theorem Yields.ite {c : Prop} [Decidable c] {a b : Except Err α} (ha : Yields codes Q a) (hb : Yields codes Q b) :
    Yields codes Q (if c then a else b) := by
  split
  · exact ha
  · exact hb

theorem Yields.bind {k : α → Except Err β} (hr : Yields codes Q r) (hk : ∀ a, Yields codes Q' (k a)) :
    Yields codes Q' (r.bind k) := by
  cases r with
  | error e => exact hr
  | ok a => exact hk a

theorem Yields.map {f : α → β} (hr : Yields codes (fun a => Q' (f a)) r) : Yields codes Q' (r.map f) := by
  cases r <;> exact hr
end

/-! ### The payload chain: malformed frames, and the report of the node that ends it -/

/-- A report, if there is one, is among `flags`, values of the `W_` bits (10_state.md R33). -/
def ReportIn (flags : List Nat) (w : Option Report) : Prop := ∀ r, w = some r → r.warn.flag / 16 ∈ flags

section
variable {flags : List Nat}

theorem ReportIn.none : ReportIn flags none := nofun

theorem ReportIn.some {r : Report} (h : r.warn.flag / 16 ∈ flags) : ReportIn flags (some r) := by
  rintro _ ⟨⟩
  exact h

theorem ckReport_in (h4 : 4 ∈ flags) (ok : Bool) (off : Nat) : ReportIn flags (ckReport ok off) := by
  cases ok
  · exact .some (by simpa [Warn.flag] using h4)
  · exact .none

variable {x : ParseCtx} {opt : List Byte → Option Half} {c fin : Nat}

theorem parseHbh_yields : Yields [2] (fun _ => True) (parseHbh x c fin) :=
  .ite .malformed (.ite .malformed (.ite trivial .malformed))

theorem parseTcp_yields (h4 : 4 ∈ flags) : Yields [2] (fun r => ReportIn flags r.2.2) (parseTcp x opt c fin) :=
  .ite .malformed (.ite .malformed (.ite .malformed (ckReport_in h4 _ _)))

theorem parseUdp_yields (h4 : 4 ∈ flags) : Yields [2] (fun r => ReportIn flags r.2.2) (parseUdp x c fin) :=
  .ite .malformed (.ite .malformed (.ite .malformed (ckReport_in h4 _ _)))

theorem parseIcmp_yields (h4 : 4 ∈ flags) : Yields [2] (fun r => ReportIn flags r.2.2) (parseIcmp x c fin) :=
  .ite .malformed (.ite .malformed (ckReport_in h4 _ _))

theorem terminal_yields {r : Except Err (Node × Nat × Option Report)}
    (h : Yields [2] (fun r => ReportIn flags r.2.2) r) : Yields [2] (fun r => ReportIn flags r.2.2) (terminal r) := by
  obtain ⟨e, he, ht⟩ | ⟨n, c, w, hr, ht⟩ := terminal_cases r <;> rw [ht]
  · exact h.code_mem he
  · exact h.value hr

/-- Only at an unknown byte does the loop report one, and only behind a Hop-by-Hop header does it come to a byte other
than the first. -/
theorem chainLoop_yields {room : Nat} {nh : Byte} (h4 : 4 ∈ flags)
    (hnh : 2 ∈ flags ∨ ∃ v, variantOf nh = some v ∧ v ≠ .hbh) :
    Yields [2] (fun r => ReportIn flags r.2.2) (chainLoop x opt fin room c nh) := by
  induction room generalizing c nh with
  | zero => exact .malformed
  | succ room ih =>
    rw [chainLoop_succ]
    split
    next hv =>
      have h2 : 2 ∈ flags := hnh.resolve_right fun ⟨v, hv', hne⟩ => hne (Option.some.inj (hv'.symm.trans hv))
      exact parseHbh_yields.bind fun r => .map (ih (.inl h2))
    · exact terminal_yields (parseTcp_yields h4)
    · exact terminal_yields (parseUdp_yields h4)
    · exact terminal_yields (parseIcmp_yields h4)
    next hv =>
      have h2 : 2 ∈ flags := hnh.resolve_right fun ⟨v, hv', _⟩ => by simp [hv] at hv'
      exact ReportIn.some (by simpa [Warn.flag] using h2)

theorem parseChain_yields {nh : Byte} {s : State} (h4 : 4 ∈ flags)
    (hnh : 2 ∈ flags ∨ ∃ v, variantOf nh = some v ∧ v ≠ .hbh) :
    Yields [2] (fun r => ReportIn flags r.2.2) (parseChain opt nh s) :=
  .ite .malformed (.ite .malformed (chainLoop_yields h4 hnh))
end

/-! ### The compressed header: malformed frames, and an address whose context is unknown -/

/-- An error, if there is one, has one of `codes`. -/
abbrev FailsIn {α : Type} (codes : List Nat) (r : Except Err α) : Prop := Yields codes (fun _ => True) r

section
variable {codes : List Nat} (h2 : 2 ∈ codes) {fb : List Byte} {p : Nat}
include h2

theorem take_failsIn {n : Nat} : FailsIn codes (take fb p n) := .ite (.malformed h2) trivial

/-- Some bytes taken, and a value made of them: a field the header carries inline. -/
theorem inline_failsIn {α : Type} {n : Nat} {f : List Byte → α} :
    FailsIn codes (match take fb p n with
      | .error e => .error e
      | .ok (t, q) => .ok (f t, q)) := by
  cases h : take fb p n with
  | error e => exact (take_failsIn h2).code_mem h
  | ok r => trivial

theorem takeCid_failsIn {cid : Bool} : FailsIn codes (takeCid fb cid p) :=
  .ite (inline_failsIn h2) trivial

theorem takeTf_failsIn {tf : BitVec 2} : FailsIn codes (takeTf fb tf p) :=
  .ite (inline_failsIn h2) (.ite (inline_failsIn h2) (.ite (inline_failsIn h2) trivial))

theorem takeNh_failsIn {nhc : Bool} : FailsIn codes (takeNh fb nhc p) :=
  .ite trivial (inline_failsIn h2)

theorem takeHlim_failsIn {hl : BitVec 2} : FailsIn codes (takeHlim fb hl p) :=
  .ite (inline_failsIn h2) (.ite trivial (.ite trivial trivial))

theorem takePorts_failsIn {pp : BitVec 2} : FailsIn codes (takePorts fb pp p) :=
  .ite (inline_failsIn h2) (.ite (inline_failsIn h2) (.ite (inline_failsIn h2) (inline_failsIn h2)))

theorem takeCk_failsIn {c : Bool} : FailsIn codes (takeCk fb c p) :=
  .ite trivial (inline_failsIn h2)

theorem withPrefix_failsIn {off : Nat} {pre : DWord} {am mode : BitVec 2} {l2 : DWord} :
    FailsIn codes (withPrefix fb off pre am mode l2 p) := by
  refine .ite (inline_failsIn h2) (.ite (inline_failsIn h2) ?_)
  split
  · exact .malformed h2
  · trivial

theorem multicast_failsIn {off : Nat} {dac : Bool} {dam : BitVec 2} : FailsIn codes (multicast fb off dac dam p) :=
  .ite (.malformed h2) (.ite (inline_failsIn h2) (.ite (inline_failsIn h2) (.ite (inline_failsIn h2)
    (inline_failsIn h2))))

theorem udpBody_failsIn {src dst : Addr} {c : Bool} {pp : BitVec 2} : FailsIn codes (udpBody fb src dst c pp p) := by
  unfold udpBody
  split
  · exact (takePorts_failsIn h2).code_mem ‹_›
  split
  · exact (takeCk_failsIn h2).code_mem ‹_›
  · trivial

theorem takeBody_failsIn {nhc : Bool} {hd : Hdr} : FailsIn codes (takeBody fb nhc hd p) := by
  unfold takeBody
  refine .ite ?_ trivial
  split
  · exact (take_failsIn h2).code_mem ‹_›
  split
  · exact .malformed h2
  · exact udpBody_failsIn h2

variable (h7 : 7 ∈ codes) {s : State} {off : Nat}
include h7

theorem unicast_failsIn {isSrc ac : Bool} {am : BitVec 2} {ci : BitVec 4} {mode : BitVec 2} {l2 : DWord} :
    FailsIn codes (unicast s off isSrc ac am ci mode l2 p) :=
  .ite (.ite (inline_failsIn h2) (withPrefix_failsIn h2))
    (.ite (.ite trivial (.malformed h2)) (.ite h7 (withPrefix_failsIn h2)))

theorem takeDst_failsIn {h : Iphc} {dci : BitVec 4} : FailsIn codes (takeDst s off h dci p) :=
  .ite (multicast_failsIn h2) (unicast_failsIn h2 h7)

theorem takeHeader_failsIn {h : Iphc} : FailsIn codes (takeHeader s off h) := by
  unfold takeHeader
  split
  · exact (takeCid_failsIn h2).code_mem ‹_›
  split
  · exact (takeTf_failsIn h2).code_mem ‹_›
  split
  · exact (takeNh_failsIn h2).code_mem ‹_›
  split
  · exact (takeHlim_failsIn h2).code_mem ‹_›
  split
  · exact (unicast_failsIn h2 h7).code_mem ‹_›
  split
  · exact (takeDst_failsIn h2 h7).code_mem ‹_›
  · trivial
end

/-! ## What a command ends with -/

/-- If the command answers a next state, `STATUS.ERR` is 0 or one of `codes` there, and the report bits are 0 or one of
`flags`. -/
def EndsWithin (codes flags : List Nat) (o : Out) : Prop :=
  ∀ s', o = .next s' → (errField s'.status = 0 ∨ errField s'.status ∈ codes)
    ∧ (warnField s'.status = 0 ∨ warnField s'.status ∈ flags)

theorem ErrKind.code_lt (k : ErrKind) : k.code < 10 := by cases k <;> decide

theorem errField_status (e : Err) : errField e.status = e.kind.code := by
  have hlt := e.kind.code_lt
  rw [Err.status_eq_statusWord, errField_statusWord _ (by omega), Nat.mod_eq_of_lt (by omega)]

theorem warnField_status (e : Err) : warnField e.status = 0 := by
  have hlt := e.kind.code_lt
  rw [Err.status_eq_statusWord, warnField_statusWord _ (by omega), Nat.div_eq_of_lt (by omega)]

theorem warnField_reportStatus {flags : List Nat} {w : Option Report} (h : ReportIn flags w) :
    warnField (reportStatus w) = 0 ∨ warnField (reportStatus w) ∈ flags := by
  cases w with
  | none => exact .inl rfl
  | some r =>
    have hlt : r.warn.flag < 128 := by cases r.warn <;> decide
    rw [reportStatus_some, warnField_statusWord _ hlt]
    exact .inr (h r rfl)

section
variable {codes flags : List Nat} {s : State}

theorem EndsWithin.refused (r : Refusal) : EndsWithin codes flags (.refused r) := nofun

/-- Where the code is a number, its membership is found by computation. -/
theorem EndsWithin.raise {e : Err} (h : e.kind.code ∈ codes := by simp [ErrKind.code]) :
    EndsWithin codes flags (raise e s) := by
  intro s' hs
  rw [raise_eq_next.mp hs, errField_status, warnField_status]
  exact ⟨.inr h, .inl rfl⟩

theorem EndsWithin.raiseAny {e : Err} (h : e.kind.code ∈ codes := by simp [ErrKind.code]) :
    EndsWithin codes flags (raiseAny e s) := .raise h

theorem EndsWithin.report {w : Option Report} (h : ReportIn flags w) : EndsWithin codes flags (report w s) := by
  intro s' hs
  rw [report_eq_next.mp hs, errField_reportStatus]
  exact ⟨.inl rfl, warnField_reportStatus h⟩

theorem EndsWithin.done : EndsWithin codes flags (done s) := .report .none

theorem EndsWithin.ret {v : Word} : EndsWithin codes flags (ret v s) := .done (s := { s with res := v })

theorem EndsWithin.ite {c : Prop} [Decidable c] {a b : Out} (ha : EndsWithin codes flags a)
    (hb : EndsWithin codes flags b) : EndsWithin codes flags (if c then a else b) := by
  split
  · exact ha
  · exact hb

/-! ### The shared operations -/

theorem loadBE_endsWithin (h1 : 1 ∈ codes) (b : Buf) (off : Half) (n : Nat) :
    EndsWithin codes flags (loadBE b off n s) := by
  obtain ⟨-, h⟩ | ⟨-, h⟩ := loadBE_cases b off n s <;> rw [h]
  · exact .ret
  · exact .raise h1

theorem storeBE_endsWithin (h1 : 1 ∈ codes) (b : Buf) (off : Half) (n v : Nat) :
    EndsWithin codes flags (storeBE b off n v s) := by
  obtain ⟨-, m, -, h⟩ | ⟨-, h⟩ := storeBE_cases b off n v s <;> rw [h]
  · exact .done
  · exact .raise h1

theorem macClassify_endsWithin (f : Fcf) (s : State) : EndsWithin [2] [] (macClassify f s) := by
  obtain ⟨e, he, h⟩ | ⟨-, h⟩ := macClassify_cases f s <;> rw [h]
  · refine .raise ?_
    unfold macError at he
    split_ifs at he <;> cases he <;> exact List.mem_singleton_self 2
  · exact .done

theorem dispatch_endsWithin {opt : List Byte → Option Half} {nh : Byte} (h4 : 4 ∈ flags)
    (hnh : 2 ∈ flags ∨ ∃ v, variantOf nh = some v ∧ v ≠ .hbh) : EndsWithin [2] flags (dispatch opt nh s) := by
  have hparse : Yields [2] _ (parseChain opt nh s) := parseChain_yields h4 hnh
  obtain ⟨e, he, h⟩ | ⟨l, c, w, hl, h⟩ := dispatch_cases opt nh s <;> rw [h]
  · exact .raiseAny (hparse.code_mem he)
  · exact .report (hparse.value hl)

theorem hcCommit_endsWithin (h1 : 1 ∈ codes) (hd : Hdr) (body : List Byte) (b0 : Option Byte) :
    EndsWithin codes flags (hcCommit hd body b0 s) :=
  .ite (.raiseAny h1) .done

theorem decompress_endsWithin (h : Iphc) (off : Nat) : EndsWithin [1, 2, 7] flags (decompress h off s) := by
  obtain ⟨e, he, heq⟩ | ⟨hd, p, e, -, he, heq⟩ | ⟨hd, p, body, -, -, heq⟩ := decompress_cases h off s <;> rw [heq]
  · exact .raiseAny ((takeHeader_failsIn (by simp) (by simp)).code_mem he)
  · exact .raiseAny ((takeBody_failsIn (by simp)).code_mem he)
  · exact hcCommit_endsWithin (by simp) _ _ _
end

/-! ### The commands with branches of their own -/

section
variable (s : State)

theorem execBfSetbytes_endsWithin (b : Buf) (n : Half) : EndsWithin [1] [] (execBfSetbytes b n s) := by
  unfold execBfSetbytes
  split
  · exact .refused _
  · exact .ite .raise .done

theorem execAtSet_endsWithin (id : Fin 8) : EndsWithin [9] [] (execAtSet id s) := by
  unfold execAtSet
  split
  · exact .raise
  · exact .done

theorem execAtGet_endsWithin (id : Fin 8) : EndsWithin [8, 9] [] (execAtGet id s) := by
  unfold execAtGet
  split
  · exact .raise
  · exact .ite .ret .raise

theorem execIpParse_endsWithin : EndsWithin [2, 3] [1] (execIpParse s) := by
  refine .ite .raise (.ite .raise (.report ?_))
  split
  · exact .some (by decide)
  · exact .none

theorem execChPush_endsWithin (k : Kind) : EndsWithin [1, 2] [] (execChPush k s) := by
  unfold execChPush
  split
  next e he =>
    refine .raise ?_
    unfold pushError at he
    split_ifs at he <;> cases he <;> simp [ErrKind.code]
  · exact .done

theorem execChRd_endsWithin (fld : NodeField) (idx : Half) : EndsWithin [1] [] (execChRd fld idx s) := by
  unfold execChRd
  split
  · exact .raise
  · exact .ret

theorem execChRdp_endsWithin (idx : Half) : EndsWithin [1] [] (execChRdp idx s) := by
  unfold execChRdp
  split
  · exact .raise
  split
  · exact .raise
  · exact .ret

/-- A field that cannot be staged is no operand of a well-formed command. -/
theorem execNdWr_endsWithin {fld : NodeField} (h : fld.stageable = true) : EndsWithin [] [] (execNdWr fld s) := by
  rw [execNdWr, if_pos h]
  exact .done

theorem execNdPayload_endsWithin (n : Half) : EndsWithin [1] [] (execNdPayload n s) := by
  unfold execNdPayload
  split
  · exact .refused _
  · exact .ite .raise .done

theorem execHcSetctx_endsWithin (v : Bool) (id : Byte) : EndsWithin [6] [] (execHcSetctx v id s) := by
  unfold execHcSetctx
  split
  · exact .raise
  · exact .done

theorem execHcRdctx_endsWithin (w : CtxWord) (id : Byte) : EndsWithin [6] [] (execHcRdctx w id s) := by
  unfold execHcRdctx
  split
  · exact .raise
  · exact .ret

theorem execHcDecomp_endsWithin (off : Half) : EndsWithin [1, 2, 7] [] (execHcDecomp off s) := by
  unfold execHcDecomp
  split
  · exact .raiseAny ((take_failsIn (by simp)).code_mem ‹_›)
  split
  · exact .raiseAny
  · exact decompress_endsWithin _ _

theorem execHcComp_endsWithin (u : Bool) : EndsWithin [1, 2, 3] [] (execHcComp u s) :=
  .ite .raise (.ite .raise (.ite .raise .done))

theorem execWireIphc_endsWithin (h : Iphc) : EndsWithin [1, 2, 7] [] (execWireIphc h s) := by
  unfold execWireIphc
  split
  · exact .raiseAny ((take_failsIn (by simp)).code_mem ‹_›)
  · exact decompress_endsWithin _ _

theorem execWireNhcUdp_endsWithin (c : Bool) (p : BitVec 2) : EndsWithin [1, 2] [] (execWireNhcUdp c p s) := by
  unfold execWireNhcUdp
  split
  · exact .raiseAny ((take_failsIn (by simp)).code_mem ‹_›)
  split
  · exact .raiseAny ((udpBody_failsIn (by simp)).code_mem ‹_›)
  · exact hcCommit_endsWithin (by simp) _ _ _
end

/-! ### Every instruction -/

/-- Well-formedness counts for `ND.WR` alone; the dispatch on a terminal variant's own byte reports no unknown one. -/
theorem exec_endsWithin {i : Instr} (hwf : i.wf = true) (s : State) :
    EndsWithin (raises i) (reports i) (exec i s) := by
  have h1 : 1 ∈ [1] := List.mem_singleton_self 1
  have h4 : 4 ∈ [4] := List.mem_singleton_self 4
  have h24 : 2 ∈ [2, 4] ∧ 4 ∈ [2, 4] := by decide
  cases i with
  | bfNew b => cases b <;> exact .done
  | bfSetbytes b n => exact execBfSetbytes_endsWithin s b n
  | bfLen | macRd | ckPseudo | ckFinal | ipRd | ipIsll | ipIsmc | chLen => exact .ret
  | macWr | ckLoad | ipNew | ipWr | chClear | sysReset | sysCfg => exact .done
  | bfGetb | bfGeth | bfGetw => exact loadBE_endsWithin h1 _ _ _
  | bfSetb | bfSeth | bfSetw => exact storeBE_endsWithin h1 _ _ _ _
  | atSet id => exact execAtSet_endsWithin s id
  | atGet id => exact execAtGet_endsWithin s id
  | macParse | wireMacFcf => exact macClassify_endsWithin _ s
  | ckRun => exact .ite (.raise h1) .ret
  | ipSerialize => exact .ite (.raiseAny h1) .done
  | ipParse => exact execIpParse_endsWithin s
  | chParse | wireNhHbh => exact dispatch_endsWithin h24.2 (.inl h24.1)
  | wireNhTcp | wireTcpoptMss => exact dispatch_endsWithin h4 (.inr ⟨.tcp, by decide, nofun⟩)
  | wireNhUdp => exact dispatch_endsWithin h4 (.inr ⟨.udp, by decide, nofun⟩)
  | wireNhIcmpv6 => exact dispatch_endsWithin h4 (.inr ⟨.icmp, by decide, nofun⟩)
  | chPush k => exact execChPush_endsWithin s k
  | chRd fld idx => exact execChRd_endsWithin s fld idx
  | chRdp idx => exact execChRdp_endsWithin s idx
  | ndWr fld => exact execNdWr_endsWithin s hwf
  | ndPayload n => exact execNdPayload_endsWithin s n
  | hcSetctx v id => exact execHcSetctx_endsWithin s v id
  | hcRdctx w id => exact execHcRdctx_endsWithin s w id
  | hcDecomp off => exact execHcDecomp_endsWithin s off
  | hcComp u => exact execHcComp_endsWithin s u
  | wireIphc h => exact execWireIphc_endsWithin s h
  | wireNhcUdp c p => exact execWireNhcUdp_endsWithin s c p

/-- Settles O13: the errors and reports of an instruction are its own and its parser's. -/
theorem commandsRaiseOnlyTheirErrors : Obligations.CommandsRaiseOnlyTheirErrors :=
  fun _ s s' hwf h => exec_endsWithin hwf s s' h

end Sys2Proof.Machine
end
